-- ==== Sys2Proof/Word.lean ====
section
/-!
DEFINITION. The word types of LPB: command words, register-port data, bytes and binary64 patterns.
-/
namespace Sys2Proof

/-- One byte of the output stream (`20_memory.md` R60, space OUT). -/
abbrev Byte := BitVec 8

/-- A command word (`30_encoding.md` R90) or a 32-bit register (`10_state.md` R24). -/
abbrev Word32 := BitVec 32

/-- The data of the register and memory ports, an operand register (`10_state.md` R21), or the bit
pattern of a binary64 (`20_memory.md` R66). -/
abbrev Word64 := BitVec 64

end Sys2Proof
end

