-- ==== Sys2Proof/Syntax.lean ====
section
/-!
DEFINITION. The commands of LPB-CMD version 1 (`30_encoding.md` R92): one constructor per row of
spec/opcode_table.json, each carrying the fields its row uses, in the order ch, x, y, z, under the names
of R92. The fields are unsigned numbers used as they stand (R94).
-/
namespace Sys2Proof

/-- A decoded command. A field may hold any value of its bits: the range R92 gives it is checked when the
command runs (`60_exceptions.md` R323, class 5). -/
inductive Instr where
  | nop
  | reset
  | cfgInit
  | wrStreaminfo
  | bwInit
  | bwPutu (bits : Nat)
  | bwPuts (bits : Nat)
  | bwFlush
  | bwPos
  | bwUtf8
  | bwRice (k : Nat)
  | crc8
  | crc16
  | zigzag
  | riceCount (k : Nat)
  | findParam
  | maxPorder (order pmax : Nat)
  | partSums (ch order pmin pmax : Nat)
  | calcRice (ch order pmin pmax : Nat)
  | fixedRes (ch order : Nat)
  | welch (ch : Nat)
  | autocorr (maxorder : Nat)
  | levinson (maxorder : Nat)
  | lsqFit (ch maxorder : Nat)
  | quant (order precision : Nat)
  | lpcRes (ch order : Nat)
  | orderEst (lo hi : Nat)
  | subEncode (ch : Nat)
  | subVerbatim (ch : Nat)
  | deinterleave
  | stEstimate
  | stApply (mode : Nat)
  | frameInit (retry : Nat)
  | wrHeader
  | wrSubframe (ch : Nat)
  | wrFooter
  | encodeFrame
  deriving DecidableEq, Repr

end Sys2Proof
end

