-- ==== Sys2Proof/WellFormed.lean ====
section
/-!
DEFINITION. Well-formed commands: every field fits the bits `30_encoding.md` R90 gives it. That a field also lies
in the range of R92 is no part of it: a word with such a field is a command, and fails with `E_OPERAND`.
-/
namespace Sys2Proof

/-- A `ch` field has 4 bits (w[23:20]). -/
def fitsCh (v : Nat) : Bool := decide (v < 16)

/-- An `x` field has 6 bits (w[19:14]). -/
def fitsX (v : Nat) : Bool := decide (v < 64)

/-- A `y` field has 6 bits (w[13:8]). -/
def fitsY (v : Nat) : Bool := decide (v < 64)

/-- A `z` field has 8 bits (w[7:0]). -/
def fitsZ (v : Nat) : Bool := decide (v < 256)

/-- Every field of the command fits its bits. -/
def WellFormed : Instr → Bool
  | .nop => true
  | .reset => true
  | .cfgInit => true
  | .wrStreaminfo => true
  | .bwInit => true
  | .bwPutu x => fitsX x
  | .bwPuts x => fitsX x
  | .bwFlush => true
  | .bwPos => true
  | .bwUtf8 => true
  | .bwRice x => fitsX x
  | .crc8 => true
  | .crc16 => true
  | .zigzag => true
  | .riceCount x => fitsX x
  | .findParam => true
  | .maxPorder x y => fitsX x && fitsY y
  | .partSums ch x y z => fitsCh ch && fitsX x && fitsY y && fitsZ z
  | .calcRice ch x y z => fitsCh ch && fitsX x && fitsY y && fitsZ z
  | .fixedRes ch x => fitsCh ch && fitsX x
  | .welch ch => fitsCh ch
  | .autocorr x => fitsX x
  | .levinson x => fitsX x
  | .lsqFit ch x => fitsCh ch && fitsX x
  | .quant x y => fitsX x && fitsY y
  | .lpcRes ch x => fitsCh ch && fitsX x
  | .orderEst x y => fitsX x && fitsY y
  | .subEncode ch => fitsCh ch
  | .subVerbatim ch => fitsCh ch
  | .deinterleave => true
  | .stEstimate => true
  | .stApply x => fitsX x
  | .frameInit z => fitsZ z
  | .wrHeader => true
  | .wrSubframe ch => fitsCh ch
  | .wrFooter => true
  | .encodeFrame => true

end Sys2Proof
end

