-- ==== Sys2Proof/Decode.lean ====
section
/-!
DEFINITION. The decoder and the encoder of a command word (`30_encoding.md` R90 to R93): one 32-bit word
{op[31:24], ch[23:20], x[19:14], y[13:8], z[7:0]}. A reserved opcode or a nonzero unused field is refused by
name; the block then records `E_ILLEGAL_CMD` (R91, R93).
-/
namespace Sys2Proof

/-- The fields of a command word, `30_encoding.md` R90. -/
structure CmdFields where
  op : Nat
  ch : Nat
  x : Nat
  y : Nat
  z : Nat
  deriving DecidableEq, Repr

/-- R90: the five fields of a command word. -/
def cmdFields (w : Word32) : CmdFields where
  op := w.toNat / 2 ^ 24 % 2 ^ 8
  ch := w.toNat / 2 ^ 20 % 2 ^ 4
  x := w.toNat / 2 ^ 14 % 2 ^ 6
  y := w.toNat / 2 ^ 8 % 2 ^ 6
  z := w.toNat % 2 ^ 8

/-- Why a word is no command: the first two classes of `60_exceptions.md` R323. -/
inductive DecodeError where
  /-- The opcode is reserved (`30_encoding.md` R93). -/
  | reservedOpcode (op : Nat)
  /-- A field the command does not use is not 0 (`30_encoding.md` R91). -/
  | unusedField (mnemonic : String)
  deriving DecidableEq, Repr

/-- R91: the command `i`, if the fields it does not use are all 0. -/
def withUnused (mnemonic : String) (unused : List Nat) (i : Instr) : Except DecodeError Instr :=
  if unused.all (· == 0) then .ok i else .error (.unusedField mnemonic)

/-- R92: the opcode map. -/
def decodeFields (f : CmdFields) : Except DecodeError Instr :=
  match f.op with
  | 0x00 => withUnused "NOP" [f.ch, f.x, f.y, f.z] .nop
  | 0x01 => withUnused "RESET" [f.ch, f.x, f.y, f.z] .reset
  | 0x02 => withUnused "CFG_INIT" [f.ch, f.x, f.y, f.z] .cfgInit
  | 0x03 => withUnused "WR_STREAMINFO" [f.ch, f.x, f.y, f.z] .wrStreaminfo
  | 0x10 => withUnused "BW_INIT" [f.ch, f.x, f.y, f.z] .bwInit
  | 0x11 => withUnused "BW_PUTU" [f.ch, f.y, f.z] (.bwPutu f.x)
  | 0x12 => withUnused "BW_PUTS" [f.ch, f.y, f.z] (.bwPuts f.x)
  | 0x13 => withUnused "BW_FLUSH" [f.ch, f.x, f.y, f.z] .bwFlush
  | 0x14 => withUnused "BW_POS" [f.ch, f.x, f.y, f.z] .bwPos
  | 0x15 => withUnused "BW_UTF8" [f.ch, f.x, f.y, f.z] .bwUtf8
  | 0x16 => withUnused "BW_RICE" [f.ch, f.y, f.z] (.bwRice f.x)
  | 0x17 => withUnused "CRC8" [f.ch, f.x, f.y, f.z] .crc8
  | 0x18 => withUnused "CRC16" [f.ch, f.x, f.y, f.z] .crc16
  | 0x20 => withUnused "ZIGZAG" [f.ch, f.x, f.y, f.z] .zigzag
  | 0x21 => withUnused "RICE_COUNT" [f.ch, f.y, f.z] (.riceCount f.x)
  | 0x22 => withUnused "FIND_PARAM" [f.ch, f.x, f.y, f.z] .findParam
  | 0x23 => withUnused "MAX_PORDER" [f.ch, f.z] (.maxPorder f.x f.y)
  | 0x24 => withUnused "PART_SUMS" [] (.partSums f.ch f.x f.y f.z)
  | 0x25 => withUnused "CALC_RICE" [] (.calcRice f.ch f.x f.y f.z)
  | 0x30 => withUnused "FIXED_RES" [f.y, f.z] (.fixedRes f.ch f.x)
  | 0x31 => withUnused "WELCH" [f.x, f.y, f.z] (.welch f.ch)
  | 0x32 => withUnused "AUTOCORR" [f.ch, f.y, f.z] (.autocorr f.x)
  | 0x33 => withUnused "LEVINSON" [f.ch, f.y, f.z] (.levinson f.x)
  | 0x34 => withUnused "LSQ_FIT" [f.y, f.z] (.lsqFit f.ch f.x)
  | 0x35 => withUnused "QUANT" [f.ch, f.z] (.quant f.x f.y)
  | 0x36 => withUnused "LPC_RES" [f.y, f.z] (.lpcRes f.ch f.x)
  | 0x37 => withUnused "ORDER_EST" [f.ch, f.z] (.orderEst f.x f.y)
  | 0x40 => withUnused "SUB_ENCODE" [f.x, f.y, f.z] (.subEncode f.ch)
  | 0x41 => withUnused "SUB_VERBATIM" [f.x, f.y, f.z] (.subVerbatim f.ch)
  | 0x50 => withUnused "DEINTERLEAVE" [f.ch, f.x, f.y, f.z] .deinterleave
  | 0x51 => withUnused "ST_ESTIMATE" [f.ch, f.x, f.y, f.z] .stEstimate
  | 0x52 => withUnused "ST_APPLY" [f.ch, f.y, f.z] (.stApply f.x)
  | 0x60 => withUnused "FRAME_INIT" [f.ch, f.x, f.y] (.frameInit f.z)
  | 0x61 => withUnused "WR_HEADER" [f.ch, f.x, f.y, f.z] .wrHeader
  | 0x62 => withUnused "WR_SUBFRAME" [f.x, f.y, f.z] (.wrSubframe f.ch)
  | 0x63 => withUnused "WR_FOOTER" [f.ch, f.x, f.y, f.z] .wrFooter
  | 0x64 => withUnused "ENCODE_FRAME" [f.ch, f.x, f.y, f.z] .encodeFrame
  | op => .error (.reservedOpcode op)

/-- The command of a word, or why it is none (`30_encoding.md` R90 to R93). -/
def decode (w : Word32) : Except DecodeError Instr := decodeFields (cmdFields w)

/-- R95: the word of a command's fields, `(op << 24) | (ch << 20) | (x << 14) | (y << 8) | z`. -/
def cmdWord (op ch x y z : Nat) : Word32 :=
  BitVec.ofNat 32 (op * 2 ^ 24 + ch * 2 ^ 20 + x * 2 ^ 14 + y * 2 ^ 8 + z)

/-- The word of a well-formed command (`30_encoding.md` R92, R95). -/
def encode : Instr → Word32
  | .nop => cmdWord 0x00 0 0 0 0
  | .reset => cmdWord 0x01 0 0 0 0
  | .cfgInit => cmdWord 0x02 0 0 0 0
  | .wrStreaminfo => cmdWord 0x03 0 0 0 0
  | .bwInit => cmdWord 0x10 0 0 0 0
  | .bwPutu x => cmdWord 0x11 0 x 0 0
  | .bwPuts x => cmdWord 0x12 0 x 0 0
  | .bwFlush => cmdWord 0x13 0 0 0 0
  | .bwPos => cmdWord 0x14 0 0 0 0
  | .bwUtf8 => cmdWord 0x15 0 0 0 0
  | .bwRice x => cmdWord 0x16 0 x 0 0
  | .crc8 => cmdWord 0x17 0 0 0 0
  | .crc16 => cmdWord 0x18 0 0 0 0
  | .zigzag => cmdWord 0x20 0 0 0 0
  | .riceCount x => cmdWord 0x21 0 x 0 0
  | .findParam => cmdWord 0x22 0 0 0 0
  | .maxPorder x y => cmdWord 0x23 0 x y 0
  | .partSums ch x y z => cmdWord 0x24 ch x y z
  | .calcRice ch x y z => cmdWord 0x25 ch x y z
  | .fixedRes ch x => cmdWord 0x30 ch x 0 0
  | .welch ch => cmdWord 0x31 ch 0 0 0
  | .autocorr x => cmdWord 0x32 0 x 0 0
  | .levinson x => cmdWord 0x33 0 x 0 0
  | .lsqFit ch x => cmdWord 0x34 ch x 0 0
  | .quant x y => cmdWord 0x35 0 x y 0
  | .lpcRes ch x => cmdWord 0x36 ch x 0 0
  | .orderEst x y => cmdWord 0x37 0 x y 0
  | .subEncode ch => cmdWord 0x40 ch 0 0 0
  | .subVerbatim ch => cmdWord 0x41 ch 0 0 0
  | .deinterleave => cmdWord 0x50 0 0 0 0
  | .stEstimate => cmdWord 0x51 0 0 0 0
  | .stApply x => cmdWord 0x52 0 x 0 0
  | .frameInit z => cmdWord 0x60 0 0 0 z
  | .wrHeader => cmdWord 0x61 0 0 0 0
  | .wrSubframe ch => cmdWord 0x62 ch 0 0 0
  | .wrFooter => cmdWord 0x63 0 0 0 0
  | .encodeFrame => cmdWord 0x64 0 0 0 0

/-- The command the decoder reads from the table's numbering: a command is one 32-bit word, so the bits above
`nbits` are 0 and the word is stored as it stands. -/
def decodeTableWord (nbits w : Nat) : Option Instr :=
  match decode (BitVec.ofNat 32 (w % 2 ^ nbits)) with
  | .ok i => some i
  | .error _ => none

end Sys2Proof
end

