-- ==== Sys2Proof/Config.lean ====
section
/-!
DEFINITION. What an implementation fixes: the parameters of `00_scope.md` R6, the open parameter
`LSQ_FIT` of R7(b), and the free values (opaque, so that no proof can see what they are).
-/
namespace Sys2Proof.Config

/-- `OUT_SIZE`, R6: bytes of output memory (log 17). -/
def outSize : Nat := 2097152

/-- `MAX_CHANNELS`, R6. -/
def maxChannels : Nat := 8

/-- `MIN_BLOCKSIZE`, R6. -/
def minBlocksize : Nat := 16

/-- `MAX_BLOCKSIZE`, R6. -/
def maxBlocksize : Nat := 65535

/-- `MAX_FIXED_ORDER`, R6. -/
def maxFixedOrder : Nat := 4

/-- `MAX_LPC_ORDER`, R6. -/
def maxLpcOrder : Nat := 32

/-- `MAX_PRECISION`, R6 (`MIN_PRECISION` is 1). -/
def maxPrecision : Nat := 15

/-- `MAX_SHIFT`, R6. -/
def maxShift : Nat := 15

/-- `MAX_RICE_PARAM`, R6. -/
def maxRiceParam : Nat := 14

/-- `MAX_PARTITION_ORDER`, R6. -/
def maxPartitionOrder : Nat := 8

/-- `MAX_LEVEL`, R6. -/
def maxLevel : Nat := 12

/-- `STREAMINFO_BYTES`, R6. -/
def streaminfoBytes : Nat := 34

/-- `REFL_THRESHOLD`, R6 and `42_linear_predictor.md` R199: the pattern of the binary64 nearest 0.10. -/
def reflThreshold : Word64 := 0x3FB999999999999A#64

/-- The ID register's constant, `10_state.md` R25: the ASCII bytes "LPB1". -/
def idWord : Word32 := 0x4C504231#32

/-- The open parameter `LSQ_FIT` (`00_scope.md` R7(b), `42_linear_predictor.md` R196): the pass counts it
accepts, and for each order `o` the coefficient `j` (1-based) and the reflection value it returns, as
binary64 patterns, from the samples (their list, so also `n`), the maximum order and the passes. -/
structure LsqFit where
  accepts : Word32 → Bool
  coef : List Int → Nat → Word32 → Nat → Nat → Word64
  refl : List Int → Nat → Word32 → Nat → Word64

/-- Whether this hardware has an `LSQ_FIT`, and which: left open (log 5). -/
opaque lsqFit : Option LsqFit

/-- The pass count that the command `LSQ_FIT` hands to the fit while CFG_LPC_TYPE is not 2, when CFG_LPC_PASSES is ignored
(`10_state.md` R42): a free value. DESIGN CHOICE (log 23). -/
opaque passesOtherwise : Word32

/-- The value an unspecified memory element reads as (`20_memory.md` R75): a free value of the
draw number, the space's id and the index (log 2). -/
opaque unspecifiedElement : Nat → Nat → Nat → Word64

/-- `BITPOS` after an `ENCODE_FRAME` that failed (`93_implementation_defined.md` U5): free (log 9). -/
opaque unspecifiedBitpos : Nat → Word64

/-- The bits of the byte in progress after an `ENCODE_FRAME` that failed: free (log 9). -/
opaque unspecifiedAcc : Nat → BitVec 8

/-- `CRC8_RUN` after an `ENCODE_FRAME` that failed: free (log 9). -/
opaque unspecifiedCrc8 : Nat → BitVec 8

/-- `CRC16_RUN` after an `ENCODE_FRAME` that failed: free (log 9). -/
opaque unspecifiedCrc16 : Nat → BitVec 16

/-- Sign and fraction of a stored NaN result (the spec gives neither, `42_linear_predictor.md` R204): a free
value of the draw number, the space's id and the index (log 4). -/
opaque nanBits : Nat → Nat → Nat → Word64

end Sys2Proof.Config
end

