-- ==== Sys2Proof/Machine/State.lean ====
section
/-!
DEFINITION. The state of LPB (`10_state.md` R20 to R53, `20_memory.md` R60), the reasons a step can stop, and
the state right after reset (`10_state.md` R54, `70_reset_and_hazards.md` R351).
-/
namespace Sys2Proof.Machine

/-- The frame-encoder states, `10_state.md` R22. -/
inductive Fsm where
  | init
  | headerWritten
  | subframesWritten
  | footerWritten
  | done
  | overflowRetry
  | failed
  | idle
  deriving DecidableEq, Repr

/-- The error codes, `60_exceptions.md` R321, in the order of their numbers 0 to 18. -/
inductive ErrCode where
  | noError
  | illegalCmd
  | seq
  | operand
  | cfgChannels
  | cfgSampleRate
  | cfgBlocksize
  | cfgLevel
  | cfgEnum
  | cfgOrder
  | cfgPorder
  | cfgPrecision
  | cfgUnsupported
  | blockLen
  | capacity
  | frameOverflow
  | residualRange
  | riceEscape
  | invariant
  deriving DecidableEq, Repr

/-- The eight operand registers, `10_state.md` R21: 64-bit two's-complement integers. -/
structure OpRegs where
  a0 : Word64
  a1 : Word64
  a2 : Word64
  a3 : Word64
  a4 : Word64
  a5 : Word64
  a6 : Word64
  a7 : Word64
  deriving DecidableEq, Repr

/-- The twelve configuration registers, `10_state.md` R37 to R46. -/
structure Cfg where
  channels : Word32
  sampleRate : Word32
  blocksize : Word32
  level : Word32
  lpcType : Word32
  lpcPasses : Word32
  minOrder : Word32
  maxOrder : Word32
  orderMethod : Word32
  minPorder : Word32
  maxPorder : Word32
  precision : Word32
  deriving DecidableEq, Repr

/-- Every register of `10_state.md` R24 that holds something (ID is a constant and CMD is write-only), STATUS as
its fields (R23), and the bit writer's hidden registers (R53). -/
structure Regs where
  /-- a0 to a7, R21. -/
  ops : OpRegs
  /-- STATUS.CFG_OK, R23. -/
  cfgOk : Bool
  /-- STATUS.BW_OK, R23. -/
  bwOk : Bool
  /-- STATUS.FRAME_OK, R23. -/
  frameOk : Bool
  /-- STATUS.RETRIED, R23. -/
  retried : Bool
  /-- STATUS.FSM, R22. -/
  fsm : Fsm
  /-- STATUS.SUBCNT, R23. -/
  subcnt : BitVec 4
  /-- STATUS.ERR, R23 and `60_exceptions.md` R321. -/
  err : ErrCode
  /-- STATUS.ERR_STICKY, R23 and `60_exceptions.md` R328. -/
  errSticky : Bool
  /-- N, R27. -/
  n : Word32
  /-- OUT_CAP, R28. -/
  outCap : Word32
  /-- OUT_LEN, R29. -/
  outLen : Word32
  /-- BITPOS, R30. -/
  bitpos : Word64
  /-- FRAME_COUNT, R31. -/
  frameCount : Word32
  /-- CH_MODE, R32. -/
  chMode : BitVec 2
  /-- MAX_FRAMESIZE, R33. -/
  maxFramesize : BitVec 24
  /-- BS_CODE, R34. -/
  bsCode : BitVec 20
  /-- SR_CODE, R35. -/
  srCode : BitVec 20
  /-- CRC8_RUN, R36. -/
  crc8Run : BitVec 8
  /-- CRC16_RUN, R36. -/
  crc16Run : BitVec 16
  /-- CFG_CHANNELS .. CFG_PRECISION, R37 to R46. -/
  cfg : Cfg
  /-- BW.cap, R53(a). -/
  bwCap : Word32
  /-- BW.acc, R53(b): the BITPOS mod 8 bits of the byte in progress. -/
  bwAcc : BitVec 8
  deriving DecidableEq, Repr

/-- The fourteen memory spaces, `20_memory.md` R60, in the order of their ids. -/
inductive Space where
  | inp
  | smp
  | res
  | out
  | win
  | autoc
  | lpcf
  | refl
  | qc
  | qsh
  | sums
  | stsum
  | score
  | subrec
  deriving DecidableEq, Repr

/-- The elements of a space whose value is known, as (index, element) pairs with strictly rising indices. An
index that is not listed holds an unspecified value (`20_memory.md` R75; log 2). -/
abbrev Cells (w : Nat) := List (Nat × BitVec w)

/-- The memories, working stores and subframe records, `20_memory.md` R60: one element list per space, each
element of the width R60 gives (log 3). -/
structure Mems where
  inp : Cells 16
  smp : Cells 32
  res : Cells 32
  out : List Host.Cell
  win : Cells 64
  autoc : Cells 64
  lpcf : Cells 64
  refl : Cells 64
  qc : Cells 16
  qsh : Cells 4
  sums : Cells 64
  stsum : Cells 64
  score : Cells 64
  subrec : Cells 64
  deriving DecidableEq, Repr

/-- What the host does to the block between commands: the port accesses of `30_encoding.md` R95, and the
platform's reset input (`70_reset_and_hazards.md` R350(b)). -/
inductive HostAction where
  /-- RREG: read a register by number (`10_state.md` R24). -/
  | rreg (number : Nat)
  /-- WREG: write 64-bit data to a register by number; number 0x02 is CMD (R26). -/
  | wreg (number : Nat) (data : Word64)
  /-- RMEM: read an element by space id and index (`20_memory.md` R61). -/
  | rmem (space index : Nat)
  /-- WMEM: write 64-bit data to an element (`20_memory.md` R61). -/
  | wmem (space index : Nat) (data : Word64)
  /-- The reset input. -/
  | resetInput
  deriving DecidableEq, Repr

/-- The state of the machine: what `10_state.md` R20 lists, and four fields of the model's own. -/
structure State where
  regs : Regs
  mem : Mems
  /-- The model's own: the port accesses the host has yet to issue, the next one first (log 1). -/
  host : List HostAction
  /-- The model's own: the data the last port read returned (log 15). -/
  readData : Word64
  /-- The model's own: how many events have left state unspecified; unlisted elements are drawn with it
  (log 2). -/
  forgets : Nat
  /-- The model's own: how many times real values have been stored; NaN patterns are drawn with it (log 4). -/
  nans : Nat
  deriving DecidableEq, Repr

/-- Why a step faults. The block has no trap (`60_exceptions.md` R320): every error of the spec is a next state
with STATUS.ERR written. -/
inductive Fault where
  /-- `E_INVARIANT` (`60_exceptions.md` R321, `93_implementation_defined.md` U19), reserved for a model's own
  defensive assertion: raised by nothing in this model (log 20). Safe. -/
  | invariant
  deriving DecidableEq, Repr

/-- Why a step is refused. -/
inductive Refusal where
  /-- An instruction whose meaning is not modelled: raised by `exec` alone, in an arm rejected by name. Safe. -/
  | notModelled (mnemonic : String)
  deriving DecidableEq, Repr

/-- a0 to a7 at reset (`10_state.md` R54). -/
def OpRegs.reset : OpRegs := ⟨0, 0, 0, 0, 0, 0, 0, 0⟩

/-- The configuration registers at reset (`10_state.md` R54). -/
def Cfg.reset : Cfg := ⟨0, 0, 0, 0, 0, 0, 0, 0, 0, 0, 0, 0⟩

/-- Every register at its reset value (`10_state.md` R54): STATUS reads 0x00000070, the others 0. -/
def Regs.reset : Regs where
  ops := OpRegs.reset
  cfgOk := false
  bwOk := false
  frameOk := false
  retried := false
  fsm := .idle
  subcnt := 0
  err := .noError
  errSticky := false
  n := 0
  outCap := 0
  outLen := 0
  bitpos := 0
  frameCount := 0
  chMode := 0
  maxFramesize := 0
  bsCode := 0
  srCode := 0
  crc8Run := 0
  crc16Run := 0
  cfg := Cfg.reset
  bwCap := 0
  bwAcc := 0

/-- Memory of which nothing is known (`10_state.md` R54: every element unspecified). -/
def Mems.unspecified : Mems := ⟨[], [], [], [], [], [], [], [], [], [], [], [], [], []⟩

/-- The machine right after power-on (`70_reset_and_hazards.md` R351); the model's own fields as logs 1, 2, 4
and 15 name them. -/
def State.reset : State where
  regs := Regs.reset
  mem := Mems.unspecified
  host := []
  readData := 0
  forgets := 0
  nans := 0

end Sys2Proof.Machine
end

