-- ==== Sys2Proof/Machine/Arith.lean ====
section
/-!
DEFINITION. The exact integer arithmetic of the rules (`00_scope.md` R8, R9; `47_common_semantics.md` R310, R311).
-/
namespace Sys2Proof.Machine

/-- `x >> k`, R8: floor (x / 2^k) at every sign of x. -/
def asr (x : Int) (k : Nat) : Int := x / ((2 ^ k : Nat) : Int)

/-- `clip (x, lo, hi)`, R8. -/
def clip (x lo hi : Int) : Int := min (max x lo) hi

/-- `flog2 x`, R8: the largest e with 2^e ≤ x, for x ≥ 1. -/
def flog2 (x : Nat) : Nat := Nat.log2 x

/-- "A signed N-bit value", R9: an integer in −2^(N−1) .. 2^(N−1)−1 (N ≥ 1). -/
def fitsSigned (w : Nat) (v : Int) : Bool :=
  decide (-((2 ^ (w - 1) : Nat) : Int) ≤ v) && decide (v < ((2 ^ (w - 1) : Nat) : Int))

/-- lo ≤ v ≤ hi. -/
def within (lo v hi : Nat) : Bool := decide (lo ≤ v) && decide (v ≤ hi)

/-- lo ≤ v ≤ hi, for signed values. -/
def withinInt (lo v hi : Int) : Bool := decide (lo ≤ v) && decide (v ≤ hi)

/-- lo, lo+1, .., hi in ascending order, R10; nothing when hi < lo. -/
def upto (lo hi : Nat) : List Nat := List.range' lo (hi + 1 - lo)

/-- The sum of a list of naturals. -/
def sumNat (l : List Nat) : Nat := l.foldl (· + ·) 0

end Sys2Proof.Machine
end

