-- ==== Sys2Proof/Machine/Flt.lean ====
section
/-!
DEFINITION. The arithmetic FLT of the coefficient fit: IEEE 754 binary64, round to nearest with ties to even,
gradual underflow, one rounding an operation (`00_scope.md` R7(c), R11; `42_linear_predictor.md` R204; log 6). A finite
value is exact: sign, and a natural mantissa times a power of two. NaNs are one value here: no step depends on
a payload (R204); the bits a stored NaN has are free (log 4).
-/
namespace Sys2Proof.Machine

/-- A binary64 value. `fin neg m e` is ±m·2^e; the canonical form (R66's fields) has m < 2^53, −1074 ≤ e ≤ 971,
and 2^52 ≤ m unless e = −1074. -/
inductive Flt where
  | nan
  | inf (neg : Bool)
  | fin (neg : Bool) (m : Nat) (e : Int)
  deriving DecidableEq, Repr

/-- The least exponent of a binary64 mantissa unit. -/
def fltMinExp : Int := -1074

/-- The greatest exponent of a binary64 mantissa unit. -/
def fltMaxExp : Int := 971

/-- +0 or −0. -/
def Flt.zero (neg : Bool) : Flt := .fin neg 0 fltMinExp

/-- m·2^e when m < 2^53, with a mantissa of 2^53 renormalised and an exponent beyond the greatest turned into an
infinity. -/
def fltFinish (neg : Bool) (m : Nat) (e : Int) : Flt :=
  let m' := if m = 2 ^ 53 then 2 ^ 52 else m
  let e' := if m = 2 ^ 53 then e + 1 else e
  if fltMaxExp < e' then .inf neg else .fin neg m' e'

/-- m / 2^k to the nearest natural, ties to even; `sticky` says that the exact value lies strictly between m
and m + 1. -/
def roundShift (m k : Nat) (sticky : Bool) : Nat :=
  let q : Nat := m >>> k
  let r : Nat := m % 2 ^ k
  let half : Nat := 2 ^ (k - 1)
  if half < r then q + 1
  else if r = half && (sticky || q % 2 == 1) then q + 1
  else q

/-- R11: the correctly rounded binary64 of ±m·2^e (of a value strictly between m and m + 1 units when
`sticky`, which needs at least 55 bits of m). -/
def fltRound (neg : Bool) (m : Nat) (e : Int) (sticky : Bool) : Flt :=
  if m = 0 then Flt.zero neg
  else
    let unit := max (e + (Nat.log2 m + 1 : Nat) - 53) fltMinExp
    if unit ≤ e then fltFinish neg (m <<< (e - unit).toNat) unit
    else fltFinish neg (roundShift m (unit - e).toNat sticky) unit

/-- The value of a binary64 pattern, `20_memory.md` R66: bit 63 the sign, 62:52 the exponent, 51:0 the fraction. -/
def fltOfBits (b : Word64) : Flt :=
  let neg := b.toNat / 2 ^ 63 == 1
  let ex : Nat := b.toNat / 2 ^ 52 % 2 ^ 11
  let fr : Nat := b.toNat % 2 ^ 52
  if ex = 2047 then (if fr = 0 then .inf neg else .nan)
  else if ex = 0 then .fin neg fr fltMinExp
  else .fin neg (fr + 2 ^ 52) ((ex : Int) - 1075)

/-- A NaN pattern with the sign and fraction of `free`, its fraction kept nonzero. -/
def nanPattern (free : Word64) : Word64 :=
  let fr : Nat := free.toNat % 2 ^ 52
  BitVec.ofNat 64 (free.toNat / 2 ^ 63 * 2 ^ 63 + 2047 * 2 ^ 52 + (if fr = 0 then 2 ^ 51 else fr))

/-- The pattern of a value (`20_memory.md` R66); a NaN takes its sign and fraction from `free`. -/
def fltToBits (free : Word64) : Flt → Word64
  | .nan => nanPattern free
  | .inf neg => BitVec.ofNat 64 (neg.toNat * 2 ^ 63 + 2047 * 2 ^ 52)
  | .fin neg m e =>
    if m < 2 ^ 52 then BitVec.ofNat 64 (neg.toNat * 2 ^ 63 + m)
    else BitVec.ofNat 64 (neg.toNat * 2 ^ 63 + (e + 1075).toNat * 2 ^ 52 + (m - 2 ^ 52))

/-- `f64 (x)`, R11. -/
def fltOfInt (x : Int) : Flt := fltRound (decide (x < 0)) x.natAbs 0 false

/-- −x. -/
def fneg : Flt → Flt
  | .nan => .nan
  | .inf s => .inf (!s)
  | .fin s m e => .fin (!s) m e

/-- `fabs (x)`, R11. -/
def fabs : Flt → Flt
  | .nan => .nan
  | .inf _ => .inf false
  | .fin _ m e => .fin false m e

/-- `finite (x)`, R11. -/
def finite : Flt → Bool
  | .fin _ _ _ => true
  | _ => false

/-- The signed mantissa of ±m·2^e in units of 2^unit, for unit ≤ e. -/
def scaledMant (neg : Bool) (m : Nat) (e unit : Int) : Int :=
  let a : Int := ((m <<< (e - unit).toNat : Nat) : Int)
  if neg then -a else a

/-- `fadd (x, y)`, R11. An exact zero sum is +0 unless both operands are −0. -/
def fadd : Flt → Flt → Flt
  | .nan, _ => .nan
  | _, .nan => .nan
  | .inf s, .inf t => if s = t then .inf s else .nan
  | .inf s, .fin _ _ _ => .inf s
  | .fin _ _ _, .inf t => .inf t
  | .fin s1 m1 e1, .fin s2 m2 e2 =>
    let unit := min e1 e2
    let sum := scaledMant s1 m1 e1 unit + scaledMant s2 m2 e2 unit
    if sum = 0 then Flt.zero (s1 && s2) else fltRound (decide (sum < 0)) sum.natAbs unit false

/-- `fsub (x, y)`, R11. -/
def fsub (x y : Flt) : Flt := fadd x (fneg y)

/-- `fmul (x, y)`, R11. -/
def fmul : Flt → Flt → Flt
  | .nan, _ => .nan
  | _, .nan => .nan
  | .inf s, .inf t => .inf (s != t)
  | .inf s, .fin t m _ => if m = 0 then .nan else .inf (s != t)
  | .fin s m _, .inf t => if m = 0 then .nan else .inf (s != t)
  | .fin s1 m1 e1, .fin s2 m2 e2 => fltRound (s1 != s2) (m1 * m2) (e1 + e2) false

/-- `fdiv (x, y)`, R11. The quotient is taken with 128 more bits, so that at least 55 remain. -/
def fdiv : Flt → Flt → Flt
  | .nan, _ => .nan
  | _, .nan => .nan
  | .inf _, .inf _ => .nan
  | .inf s, .fin t _ _ => .inf (s != t)
  | .fin s _ _, .inf t => Flt.zero (s != t)
  | .fin s1 m1 e1, .fin s2 m2 e2 =>
    if m2 = 0 then (if m1 = 0 then .nan else .inf (s1 != s2))
    else
      let num : Nat := m1 <<< 128
      fltRound (s1 != s2) (num / m2) (e1 - e2 - 128) (decide (num % m2 ≠ 0))

/-- `x < y`, R11: false when either side is NaN. -/
def flt : Flt → Flt → Bool
  | .nan, _ => false
  | _, .nan => false
  | .inf s, .inf t => s && !t
  | .inf s, .fin _ _ _ => s
  | .fin _ _ _, .inf t => !t
  | .fin s1 m1 e1, .fin s2 m2 e2 =>
    let unit := min e1 e2
    decide (scaledMant s1 m1 e1 unit < scaledMant s2 m2 e2 unit)

/-- `x == y`, R11: false when either side is NaN; +0 equals −0. -/
def feq : Flt → Flt → Bool
  | .nan, _ => false
  | _, .nan => false
  | .inf s, .inf t => s == t
  | .inf _, .fin _ _ _ => false
  | .fin _ _ _, .inf _ => false
  | .fin s1 m1 e1, .fin s2 m2 e2 =>
    let unit := min e1 e2
    decide (scaledMant s1 m1 e1 unit = scaledMant s2 m2 e2 unit)

/-- `x <= y`, R11. -/
def fle (x y : Flt) : Bool := flt x y || feq x y

/-- `rne (x)`, R11: the integer nearest a finite x, the even one on a tie (0 for a value that is not finite,
which R197 rules out). -/
def rne : Flt → Int
  | .fin neg m e =>
    let a : Int := ((if 0 ≤ e then m <<< e.toNat else roundShift m (-e).toNat false : Nat) : Int)
    if neg then -a else a
  | _ => 0

/-- 1.0. -/
def fltOne : Flt := fltOfInt 1

end Sys2Proof.Machine
end

