-- ==== Sys2Proof/Machine/Ops.lean ====
section
/-!
DEFINITION. The named operations over memory and registers that every command uses: reading and writing elements
(`00_scope.md` R10, `20_memory.md` R60 to R68), leaving elements unspecified (R75), and how a command ends
(`60_exceptions.md` R320, R324; `47_common_semantics.md` R317).
-/
namespace Sys2Proof.Machine

/-! ## One space's element list -/

/-- The element listed at index `i`, if any. -/
def cellGet {w : Nat} : Cells w → Nat → Option (BitVec w)
  | [], _ => none
  | (a, v) :: t, i => if a = i then some v else cellGet t i

/-- The elements `vals` at `lo`, `lo + 1`, and so on. -/
def cellRun {w : Nat} (lo : Nat) : List (BitVec w) → Cells w
  | [] => []
  | v :: t => (lo, v) :: cellRun (lo + 1) t

/-- Write `vals` at `lo`, `lo + 1`, and so on. -/
def cellPut {w : Nat} (c : Cells w) (lo : Nat) (vals : List (BitVec w)) : Cells w :=
  c.filter (fun e => decide (e.1 < lo)) ++ cellRun lo vals ++
    c.filter (fun e => decide (lo + vals.length ≤ e.1))

/-- Leave the `len` elements from `lo` unspecified. -/
def cellErase {w : Nat} (c : Cells w) (lo len : Nat) : Cells w :=
  c.filter (fun e => decide (e.1 < lo) || decide (lo + len ≤ e.1))

/-! ## The fourteen spaces -/

/-- The id of a space, `20_memory.md` R60. -/
def Space.id : Space → Nat
  | .inp => 0
  | .smp => 1
  | .res => 2
  | .out => 3
  | .win => 4
  | .autoc => 5
  | .lpcf => 6
  | .refl => 7
  | .qc => 8
  | .qsh => 9
  | .sums => 10
  | .stsum => 11
  | .score => 12
  | .subrec => 13

/-- The space of an id; none when the id is unassigned (R61). -/
def Space.ofId (n : Nat) : Option Space :=
  [Space.inp, .smp, .res, .out, .win, .autoc, .lpcf, .refl, .qc, .qsh, .sums, .stsum, .score, .subrec][n]?

/-- The width of an element, R60. -/
def Space.width : Space → Nat
  | .inp => 16
  | .smp => 32
  | .res => 32
  | .out => 8
  | .win => 64
  | .autoc => 64
  | .lpcf => 64
  | .refl => 64
  | .qc => 16
  | .qsh => 4
  | .sums => 64
  | .stsum => 64
  | .score => 64
  | .subrec => 64

/-- Whether an element is read as a two's-complement number, R60 (binary64 patterns are not). -/
def Space.signed : Space → Bool
  | .inp => true
  | .smp => true
  | .res => true
  | .out => false
  | .win => false
  | .autoc => false
  | .lpcf => false
  | .refl => false
  | .qc => true
  | .qsh => false
  | .sums => false
  | .stsum => false
  | .score => true
  | .subrec => true

/-- The "valid indices" column of R60; the reserved fields of SUBREC (R68) are not valid. -/
def Space.valid (sp : Space) (i : Nat) : Bool :=
  match sp with
  | .inp => decide (i < 8 * 65535)
  | .smp => decide (i / 65536 < 8) && decide (i % 65536 < 65535)
  | .res => decide (i / 65536 < 8) && decide (i % 65536 < 65535)
  | .out => decide (i < Config.outSize)
  | .win => decide (i < 65535)
  | .autoc => decide (i < 33)
  | .lpcf => decide (i / 32 < 32) && decide (i % 32 ≤ i / 32)
  | .refl => decide (i < 32)
  | .qc => decide (i / 32 < 32) && decide (i % 32 ≤ i / 32)
  | .qsh => decide (i < 32)
  | .sums => decide (i / 256 ≤ 8) && decide (i % 256 < 2 ^ (i / 256))
  | .stsum => decide (i < 4)
  | .score => decide (i < 4)
  | .subrec => decide (i / 512 < 8) &&
      (decide (i % 512 < 7) || (decide (32 ≤ i % 512) && decide (i % 512 < 64)) || decide (256 ≤ i % 512))

/-- The low bits of `b` read as an element of the space (R61). -/
def Space.elem (sp : Space) (b : Word64) : Int :=
  if sp.signed then (b.setWidth sp.width).toInt else ((b.setWidth sp.width).toNat : Int)

/-- An element read as the number its type says, if it is known. -/
def memGet? (m : Mems) (sp : Space) (i : Nat) : Option Int :=
  match sp with
  | .inp => (cellGet m.inp i).map BitVec.toInt
  | .smp => (cellGet m.smp i).map BitVec.toInt
  | .res => (cellGet m.res i).map BitVec.toInt
  | .out => (cellGet m.out i).map fun v => (v.toNat : Int)
  | .win => (cellGet m.win i).map fun v => (v.toNat : Int)
  | .autoc => (cellGet m.autoc i).map fun v => (v.toNat : Int)
  | .lpcf => (cellGet m.lpcf i).map fun v => (v.toNat : Int)
  | .refl => (cellGet m.refl i).map fun v => (v.toNat : Int)
  | .qc => (cellGet m.qc i).map BitVec.toInt
  | .qsh => (cellGet m.qsh i).map fun v => (v.toNat : Int)
  | .sums => (cellGet m.sums i).map fun v => (v.toNat : Int)
  | .stsum => (cellGet m.stsum i).map fun v => (v.toNat : Int)
  | .score => (cellGet m.score i).map BitVec.toInt
  | .subrec => (cellGet m.subrec i).map BitVec.toInt

/-- Write the low bits of the values at `lo`, `lo + 1`, and so on (R61: `trunc_W`). -/
def memPut (m : Mems) (sp : Space) (lo : Nat) (vals : List Int) : Mems :=
  match sp with
  | .inp => { m with inp := cellPut m.inp lo (vals.map (BitVec.ofInt 16)) }
  | .smp => { m with smp := cellPut m.smp lo (vals.map (BitVec.ofInt 32)) }
  | .res => { m with res := cellPut m.res lo (vals.map (BitVec.ofInt 32)) }
  | .out => { m with out := cellPut m.out lo (vals.map (BitVec.ofInt 8)) }
  | .win => { m with win := cellPut m.win lo (vals.map (BitVec.ofInt 64)) }
  | .autoc => { m with autoc := cellPut m.autoc lo (vals.map (BitVec.ofInt 64)) }
  | .lpcf => { m with lpcf := cellPut m.lpcf lo (vals.map (BitVec.ofInt 64)) }
  | .refl => { m with refl := cellPut m.refl lo (vals.map (BitVec.ofInt 64)) }
  | .qc => { m with qc := cellPut m.qc lo (vals.map (BitVec.ofInt 16)) }
  | .qsh => { m with qsh := cellPut m.qsh lo (vals.map (BitVec.ofInt 4)) }
  | .sums => { m with sums := cellPut m.sums lo (vals.map (BitVec.ofInt 64)) }
  | .stsum => { m with stsum := cellPut m.stsum lo (vals.map (BitVec.ofInt 64)) }
  | .score => { m with score := cellPut m.score lo (vals.map (BitVec.ofInt 64)) }
  | .subrec => { m with subrec := cellPut m.subrec lo (vals.map (BitVec.ofInt 64)) }

/-- Leave the `len` elements from `lo` of a space unspecified. -/
def memErase (m : Mems) (sp : Space) (lo len : Nat) : Mems :=
  match sp with
  | .inp => { m with inp := cellErase m.inp lo len }
  | .smp => { m with smp := cellErase m.smp lo len }
  | .res => { m with res := cellErase m.res lo len }
  | .out => { m with out := cellErase m.out lo len }
  | .win => { m with win := cellErase m.win lo len }
  | .autoc => { m with autoc := cellErase m.autoc lo len }
  | .lpcf => { m with lpcf := cellErase m.lpcf lo len }
  | .refl => { m with refl := cellErase m.refl lo len }
  | .qc => { m with qc := cellErase m.qc lo len }
  | .qsh => { m with qsh := cellErase m.qsh lo len }
  | .sums => { m with sums := cellErase m.sums lo len }
  | .stsum => { m with stsum := cellErase m.stsum lo len }
  | .score => { m with score := cellErase m.score lo len }
  | .subrec => { m with subrec := cellErase m.subrec lo len }

/-- The canonical form of an element list: indices strictly rising (so equal contents are equal lists). -/
def cellsRising {w : Nat} (c : Cells w) : Bool := decide ((c.map Prod.fst).Pairwise (· < ·))

/-- Every space is in canonical form. An unlisted element is unspecified (log 2), so no listed element equals
what an unlisted one reads as. -/
def Memory.wf (m : Mems) : Bool :=
  cellsRising m.inp && cellsRising m.smp && cellsRising m.res && cellsRising m.out && cellsRising m.win
    && cellsRising m.autoc && cellsRising m.lpcf && cellsRising m.refl && cellsRising m.qc && cellsRising m.qsh
    && cellsRising m.sums && cellsRising m.stsum && cellsRising m.score && cellsRising m.subrec

/-- Where element `i` of a channel's row of SMP or RES stands (R60). -/
def chIndex (ch i : Nat) : Nat := ch * 65536 + i

/-- Where field `f` of SUB[ch] stands in SUBREC (R68). -/
def recIndex (ch f : Nat) : Nat := ch * 512 + f

/-- Where coefficient `j` of order `o` stands in LPCF and QC (R60), for 1 ≤ j ≤ o. -/
def coefIndex (o j : Nat) : Nat := (o - 1) * 32 + (j - 1)

/-- Where the sum of partition `j` at partition order `p` stands in SUMS (R60). -/
def sumsIndex (p j : Nat) : Nat := p * 256 + j

/-- How many elements a channel's row has. -/
def rowLen : Nat := 65535

/-- How many element places a record has. -/
def recLen : Nat := 512

/-- More places than any space has. -/
def spaceLen : Nat := Config.outSize

/-! ## State access -/

/-- `MemRead (SPACE, i)`, R10. An unspecified element reads as a free value of its type (R75; log 2). -/
def State.memRead (s : State) (sp : Space) (i : Nat) : Int :=
  (memGet? s.mem sp i).getD (sp.elem (Config.unspecifiedElement s.forgets sp.id i))

/-- `n` elements of a space from `lo`. -/
def State.readRun (s : State) (sp : Space) (lo n : Nat) : List Int :=
  (List.range n).map fun i => s.memRead sp (lo + i)

/-- `MemWrite (SPACE, lo + i, vals[i])` for every i, R10. -/
def State.memWrite (s : State) (sp : Space) (lo : Nat) (vals : List Int) : State :=
  { s with mem := memPut s.mem sp lo vals }

/-- Leave elements unspecified: each range is a space, its first index and its length. -/
def State.forget (s : State) (ranges : List (Space × Nat × Nat)) : State :=
  { s with
    mem := ranges.foldl (fun m r => memErase m r.1 r.2.1 r.2.2) s.mem
    forgets := s.forgets + 1 }

/-- `n` real values of a space from `lo` (R66). -/
def State.readReals (s : State) (sp : Space) (lo n : Nat) : List Flt :=
  (s.readRun sp lo n).map fun v => fltOfBits (BitVec.ofInt 64 v)

/-- The patterns under which real values are stored at `lo`, `lo + 1`, and so on; a NaN's sign and fraction are
free (log 4). -/
def realPatterns (draw : Nat) (sp : Space) (lo : Nat) : List Flt → List Int
  | [] => []
  | v :: t => ((fltToBits (Config.nanBits draw sp.id lo) v).toNat : Int) :: realPatterns draw sp (lo + 1) t

/-- Store real values (R66). -/
def State.storeReals (s : State) (sp : Space) (lo : Nat) (vals : List Flt) : State :=
  { s.memWrite sp lo (realPatterns s.nans sp lo vals) with nans := s.nans + 1 }

/-- SUB[ch], field `f` (`20_memory.md` R68). -/
def State.sub (s : State) (ch f : Nat) : Int := s.memRead .subrec (recIndex ch f)

/-- Write fields `f`, `f + 1`, and so on of SUB[ch]. -/
def State.setSub (s : State) (ch f : Nat) (vals : List Int) : State :=
  s.memWrite .subrec (recIndex ch f) vals

/-- SMP[ch][0 .. n−1]. -/
def State.samples (s : State) (ch n : Nat) : List Int := s.readRun .smp (chIndex ch 0) n

/-- RES[ch][0 .. n−1]. -/
def State.residuals (s : State) (ch n : Nat) : List Int := s.readRun .res (chIndex ch 0) n

/-- Write RES[ch][0], RES[ch][1], and so on. -/
def State.setResiduals (s : State) (ch : Nat) (vals : List Int) : State :=
  s.memWrite .res (chIndex ch 0) vals

/-! ## How a command ends -/

/-- The outcome of a command or a port access. -/
abbrev Result := Host.Outcome State Fault Refusal

/-- What a command's effect leaves: a state, or an error code with the state that its effects leave. -/
abbrev Effect := Except (ErrCode × State) State

/-- A command that completes writes 0 to STATUS.ERR (R317, `60_exceptions.md` R320). -/
def succeed (s : State) : Result := .next { s with regs := { s.regs with err := .noError } }

/-- A command that fails writes its code to STATUS.ERR and sets STATUS.ERR_STICKY (R320, R324). -/
def fail (e : ErrCode) (s : State) : Result :=
  .next { s with regs := { s.regs with err := e, errSticky := true } }

/-- The end of a command whose effect may fail during execution. -/
def finish : Effect → Result
  | .ok s => succeed s
  | .error (e, s) => fail e s

/-- The code of the first check that does not hold. -/
def firstError : List (Bool × ErrCode) → Option ErrCode
  | [] => none
  | (ok, e) :: t => if ok then firstError t else some e

/-- A command: its checks in the order of R323; the first that does not hold is reported and nothing else
changes (R324(a)); otherwise its effect. -/
def command (s : State) (checks : List (Bool × ErrCode)) (effect : State → Result) : Result :=
  match firstError checks with
  | some e => fail e s
  | none => effect s

end Sys2Proof.Machine
end

