-- ==== Sys2Proof/Machine/Flags.lean ====
section
/-!
DEFINITION. STATUS (`10_state.md` R22, R23): the codes of its fields and the word they make; the tests of the FSM
state that commands make (`45_frame_encoder.md` R266). The block has no arithmetic condition codes (R23).
-/
namespace Sys2Proof.Machine

/-- The encoding of the frame-encoder states, `10_state.md` R22. -/
def Fsm.code : Fsm → Nat
  | .init => 0
  | .headerWritten => 1
  | .subframesWritten => 2
  | .footerWritten => 3
  | .done => 4
  | .overflowRetry => 5
  | .failed => 6
  | .idle => 7

/-- The error codes, `60_exceptions.md` R321. -/
def ErrCode.code : ErrCode → Nat
  | .noError => 0
  | .illegalCmd => 1
  | .seq => 2
  | .operand => 3
  | .cfgChannels => 4
  | .cfgSampleRate => 5
  | .cfgBlocksize => 6
  | .cfgLevel => 7
  | .cfgEnum => 8
  | .cfgOrder => 9
  | .cfgPorder => 10
  | .cfgPrecision => 11
  | .cfgUnsupported => 12
  | .blockLen => 13
  | .capacity => 14
  | .frameOverflow => 15
  | .residualRange => 16
  | .riceEscape => 17
  | .invariant => 18

/-- STATUS as a 32-bit word, `10_state.md` R23; the reserved bits read 0. -/
def statusWord (r : Regs) : Word32 :=
  BitVec.ofNat 32 (r.cfgOk.toNat + r.bwOk.toNat * 2 + r.frameOk.toNat * 2 ^ 2 + r.retried.toNat * 2 ^ 3
    + r.fsm.code * 2 ^ 4 + r.subcnt.toNat * 2 ^ 8 + r.err.code * 2 ^ 16 + r.errSticky.toNat * 2 ^ 24)

/-- A frame is in progress (`40_bit_writer.md` R154(b)): it owns the writer. -/
def frameInProgress : Fsm → Bool
  | .init => true
  | .headerWritten => true
  | .subframesWritten => true
  | _ => false

/-- The header of a frame has been written (`44_stereo_decorrelation.md`, `60_exceptions.md` R322). -/
def headerDone : Fsm → Bool
  | .headerWritten => true
  | .subframesWritten => true
  | _ => false

end Sys2Proof.Machine
end

