-- ==== Sys2Proof/Machine/Operands.lean ====
section
/-!
DEFINITION. The operands of commands (`30_encoding.md` R91, R94; `10_state.md` R21): operand registers read as
signed 64-bit integers, result registers, and the checks that several commands share, each with the error it
raises (`60_exceptions.md` R323).
-/
namespace Sys2Proof.Machine

/-- a0 as a signed integer (R94). -/
def State.a0 (s : State) : Int := s.regs.ops.a0.toInt

/-- a1 as a signed integer (R94). -/
def State.a1 (s : State) : Int := s.regs.ops.a1.toInt

/-- `a[4] <- v`, R10. -/
def State.setA4 (s : State) (v : Int) : State :=
  { s with regs := { s.regs with ops := { s.regs.ops with a4 := BitVec.ofInt 64 v } } }

/-- `a[5] <- v`, R10. -/
def State.setA5 (s : State) (v : Int) : State :=
  { s with regs := { s.regs with ops := { s.regs.ops with a5 := BitVec.ofInt 64 v } } }

/-- C = CFG_CHANNELS (R37). -/
def State.channels (s : State) : Nat := s.regs.cfg.channels.toNat

/-- n = REG.N (R27). -/
def State.blockLen (s : State) : Nat := s.regs.n.toNat

/-- `fsm <- STATE`, R10. -/
def State.setFsm (s : State) (f : Fsm) : State := { s with regs := { s.regs with fsm := f } }

/-- `REG.CH_MODE <- v`. -/
def State.setChMode (s : State) (v : Nat) : State :=
  { s with regs := { s.regs with chMode := BitVec.ofNat 2 v } }

/-- Class 3: STATUS.CFG_OK = 1, else `E_SEQ`. -/
def cfgCheck (s : State) : Bool × ErrCode := (s.regs.cfgOk, .seq)

/-- Class 4: STATUS.BW_OK = 1, else `E_SEQ`. -/
def writerCheck (s : State) : Bool × ErrCode := (s.regs.bwOk, .seq)

/-- Class 4: no frame is in progress (`40_bit_writer.md` R154(b)), else `E_SEQ`. -/
def noFrameCheck (s : State) : Bool × ErrCode := (!frameInProgress s.regs.fsm, .seq)

/-- Class 4: the header of a frame has not been written (`44_stereo_decorrelation.md`), else `E_SEQ`. -/
def noHeaderCheck (s : State) : Bool × ErrCode := (!headerDone s.regs.fsm, .seq)

/-- Class 4: the FSM is in the state the command requires (`45_frame_encoder.md` R266), else `E_SEQ`. -/
def fsmCheck (s : State) (f : Fsm) : Bool × ErrCode := (decide (s.regs.fsm = f), .seq)

/-- Class 5: a used field lies in lo .. hi, else `E_OPERAND`. -/
def fieldCheck (lo v hi : Nat) : Bool × ErrCode := (within lo v hi, .operand)

/-- Class 5: ch < CFG_CHANNELS, else `E_OPERAND`. -/
def chCheck (s : State) (ch : Nat) : Bool × ErrCode := (decide (ch < s.channels), .operand)

/-- Class 6: lo ≤ N ≤ CFG_BLOCKSIZE, else `E_BLOCK_LEN` (R27). -/
def blockCheck (s : State) (lo : Nat) : Bool × ErrCode :=
  (within lo s.blockLen s.regs.cfg.blocksize.toNat, .blockLen)

/-- Class 7: lo ≤ OUT_CAP ≤ OUT_SIZE, else `E_CAPACITY` (R28). -/
def capacityCheck (s : State) (lo : Nat) : Bool × ErrCode :=
  (within lo s.regs.outCap.toNat Config.outSize, .capacity)

/-- Class 8: an operand register lies in lo .. hi, else `E_OPERAND`. -/
def operandCheck (lo v hi : Int) : Bool × ErrCode := (withinInt lo v hi, .operand)

/-- Class 8: order ≤ N, else `E_OPERAND`. -/
def orderCheck (s : State) (order : Nat) : Bool × ErrCode := (decide (order ≤ s.blockLen), .operand)

/-- Class 8: SUB[ch].obits is 16 or 17, else `E_OPERAND`. -/
def obitsCheck (s : State) (ch : Nat) : Bool × ErrCode :=
  (decide (s.sub ch 2 = 16) || decide (s.sub ch 2 = 17), .operand)

end Sys2Proof.Machine
end

