-- ==== Sys2Proof/Machine/BitWriter.lean ====
section
/-!
DEFINITION. The bit writer, the checksums, the frame-number coder and the Rice emitter (`40_bit_writer.md`). What a
procedure writes is a list of bits, most significant first; `putBits` appends a list to the stream.
-/
namespace Sys2Proof.Machine

/-! ## Checksums -/

/-- One bit of the CRC-8 loop, R152. -/
def crc8Bit (c : BitVec 8) : BitVec 8 := if c.msb then (c <<< 1) ^^^ 0x07#8 else c <<< 1

/-- `Crc8Step (c, b)`, R152: generator x^8 + x^2 + x + 1. -/
def crc8Step (c b : BitVec 8) : BitVec 8 := Nat.repeat crc8Bit 8 (c ^^^ b)

/-- One bit of the CRC-16 loop, R153. -/
def crc16Bit (c : BitVec 16) : BitVec 16 := if c.msb then (c <<< 1) ^^^ 0x8005#16 else c <<< 1

/-- `Crc16Step (c, b)`, R153: generator x^16 + x^15 + x^2 + 1. -/
def crc16Step (c : BitVec 16) (b : BitVec 8) : BitVec 16 :=
  Nat.repeat crc16Bit 8 (c ^^^ (b.setWidth 16 <<< 8))

/-! ## Bits -/

/-- The w bits of `trunc_w (v)`, most significant first: what `PutU (w, v)` and `PutS (w, v)` write
(R143, R144). -/
def fieldBits (w : Nat) (v : Int) : List Bool :=
  (List.range w).map fun i => (BitVec.ofInt w v).getMsbD i

/-- How many bytes the frame-number coding of `v` takes, R147: n bytes (2 ≤ n ≤ 6) carry 5n + 1 bits. -/
def utf8Len (v : Nat) : Nat :=
  if v < 128 then 1 else ([2, 3, 4, 5, 6].find? fun n => decide (v < 2 ^ (5 * n + 1))).getD 7

/-- The bytes of the frame-number coding, R147 and `30_encoding.md` R108, for v < 2^36. -/
def utf8Bytes (v : Nat) : List Nat :=
  let n := utf8Len v
  if n = 1 then [v]
  else ((0xFF <<< (8 - n)) % 256 ||| (v >>> (6 * (n - 1)))) ::
    (List.range (n - 1)).map fun i => 0x80 ||| ((v >>> (6 * (n - 2 - i))) % 64)

/-- The bits `PutUtf8 (v)` writes, R147. -/
def utf8Bits (v : Nat) : List Bool := (utf8Bytes v).flatMap fun b => fieldBits 8 b

/-- `Zigzag (v)`, `41_rice_coder.md` R171. -/
def zigzagOf (v : Int) : Nat := if 0 ≤ v then (2 * v).toNat else (-2 * v - 1).toNat

/-- The Rice codeword of a value, R148 and `30_encoding.md` R118: q zeros, a one, the k low bits. -/
def riceBits (v : Int) (k : Nat) : List Bool :=
  List.replicate (zigzagOf v >>> k) false ++ true :: fieldBits k (zigzagOf v % 2 ^ k : Nat)

/-! ## The writer -/

/-- `PutBit (b)`, R141. The byte that completes has index (BITPOS before) div 8; it is stored only below BW.cap
(R155) and always enters both checksums (R36). -/
def putBit (s : State) (b : Bool) : State :=
  let acc : BitVec 8 := (s.regs.bwAcc <<< 1) ||| (BitVec.ofBool b).setWidth 8
  let pos := s.regs.bitpos + 1
  let j := s.regs.bitpos.toNat / 8
  if pos.toNat % 8 = 0 then
    { s with
      regs := { s.regs with
        bwAcc := 0
        bitpos := pos
        crc8Run := crc8Step s.regs.crc8Run acc
        crc16Run := crc16Step s.regs.crc16Run acc }
      mem := if j < s.regs.bwCap.toNat then memPut s.mem .out j [(acc.toNat : Int)] else s.mem }
  else { s with regs := { s.regs with bwAcc := acc, bitpos := pos } }

/-- Append a list of bits to the stream, the first one first. -/
def putBits (s : State) (bits : List Bool) : State := bits.foldl putBit s

/-- `PutU (w, v)`, R143. -/
def putU (s : State) (w : Nat) (v : Int) : State := putBits s (fieldBits w v)

/-- `PutS (w, v)`, R144: `PutU (w, trunc_w (v))`. -/
def putS (s : State) (w : Nat) (v : Int) : State := putU s w v

/-- `Flush ()`, R145: zero bits to the next byte boundary. -/
def flush (s : State) : State :=
  putBits s (List.replicate ((8 - s.regs.bitpos.toNat % 8) % 8) false)

/-- `Init (cap)`, R142: OUT is not cleared. -/
def writerInit (s : State) (cap : Word32) : State :=
  { s with
    regs := { s.regs with
      bwCap := cap
      bwAcc := 0
      bitpos := 0
      crc8Run := 0
      crc16Run := 0
      outLen := 0
      bwOk := true
      frameOk := false } }

/-- OUT[lo .. hi−1] as bytes. -/
def outBytes (s : State) (lo hi : Nat) : List Byte :=
  (s.readRun .out lo (hi - lo)).map (BitVec.ofInt 8)

/-- The checks of `CRC8` and `CRC16`, R149: 0 ≤ a0 ≤ a1 ≤ min (BITPOS div 8, BW.cap). -/
def crcChecks (s : State) : List (Bool × ErrCode) :=
  [cfgCheck s, writerCheck s,
    (decide (0 ≤ s.a0) && decide (s.a0 ≤ s.a1)
      && decide (s.a1 ≤ (min (s.regs.bitpos.toNat / 8) s.regs.bwCap.toNat : Nat)), .operand)]

/-- The checks of the writing commands, R154. -/
def writingChecks (s : State) : List (Bool × ErrCode) := [cfgCheck s, writerCheck s, noFrameCheck s]

/-! ## Commands -/

/-- `BW_INIT`, R142. -/
def execBwInit (s : State) : Result :=
  command s [cfgCheck s, noFrameCheck s, capacityCheck s 0] fun s => succeed (writerInit s s.regs.outCap)

/-- `BW_PUTU bits`, R143: a value outside 0 .. 2^bits − 1 is `E_OPERAND` at the command (`47_common_semantics.md` R310,
decision D33), and the truncation without error that R143 speaks of is that of the procedure `PutU`. DEDUCED (log 11). -/
def execBwPutu (bits : Nat) (s : State) : Result :=
  command s (writingChecks s ++ [fieldCheck 0 bits 32, operandCheck 0 s.a0 (2 ^ bits - 1)]) fun s =>
    succeed (putU s bits s.a0)

/-- `BW_PUTS bits`, R144. -/
def execBwPuts (bits : Nat) (s : State) : Result :=
  command s (writingChecks s ++ [fieldCheck 0 bits 32]) fun s => succeed (putS s bits s.a0)

/-- `BW_FLUSH`, R145. -/
def execBwFlush (s : State) : Result := command s (writingChecks s) fun s => succeed (flush s)

/-- `BW_POS`, R146; allowed while a frame is in progress (log 14 for a position of 2^63 and above). -/
def execBwPos (s : State) : Result :=
  command s [cfgCheck s, writerCheck s] fun s => succeed (s.setA4 (s.regs.bitpos.toNat : Int))

/-- `BW_UTF8`, R147. -/
def execBwUtf8 (s : State) : Result :=
  command s (writingChecks s ++ [operandCheck 0 s.a0 (2 ^ 36 - 1 : Nat)]) fun s =>
    succeed (putBits s (utf8Bits s.a0.toNat))

/-- `BW_RICE k`, R148: a finite threshold that the quotient reaches is `E_RICE_ESCAPE`, with nothing written
(R324(d)). -/
def execBwRice (k : Nat) (s : State) : Result :=
  command s (writingChecks s ++ [fieldCheck 0 k 14, (fitsSigned 32 s.a0, .operand),
      operandCheck 0 s.a1 (2 ^ 33 : Nat)]) fun s =>
    if s.a1 ≠ 0 ∧ s.a1 ≤ (zigzagOf s.a0 >>> k : Nat) then fail .riceEscape s
    else succeed (putBits s (riceBits s.a0 k))

/-- `CRC8`, R149: the range is a0 up to, not including, a1 (log 13). -/
def execCrc8 (s : State) : Result :=
  command s (crcChecks s) fun s =>
    succeed (s.setA4 (((outBytes s s.a0.toNat s.a1.toNat).foldl crc8Step 0).toNat : Int))

/-- `CRC16`, R150. -/
def execCrc16 (s : State) : Result :=
  command s (crcChecks s) fun s =>
    succeed (s.setA4 (((outBytes s s.a0.toNat s.a1.toNat).foldl crc16Step 0).toNat : Int))

end Sys2Proof.Machine
end

