-- ==== Sys2Proof/Machine/RiceCoder.lean ====
section
/-!
DEFINITION. The Rice residual coder (`41_rice_coder.md`): cost estimate, parameter search, partition sums and the
partition-order search.
-/
namespace Sys2Proof.Machine

/-- `RiceCount (s, n, k)`, R172: exact, with the floor shift of a bracket that may be negative. -/
def riceCountOf (s n k : Nat) : Int := (n * (k + 1) : Nat) + asr ((s : Int) - (n / 2 : Nat)) k

/-- `FindParam (s, n)`, R173: the parameter of least estimated cost, the smallest among equals, and the cost. -/
def findParamOf (s n : Nat) : Nat × Int :=
  (upto 1 Config.maxRiceParam).foldl
    (fun best k => if riceCountOf s n k < best.2 then (k, riceCountOf s n k) else best)
    (0, riceCountOf s n 0)

/-- `MaxPorder (pmax, n, order)`, R174, for n ≥ 1 and order ≤ n. -/
def maxPorderOf (pmax n order : Nat) : Nat :=
  let p := min pmax (flog2 (n ^^^ (n - 1)))
  if order = 0 then p else min p (flog2 (n / order))

/-- The residuals of partition `j` when each spans `len` samples: indices max (j·len, order) up to (j+1)·len − 1
(R177). -/
def partition (r : List Int) (len order j : Nat) : List Int :=
  (r.take ((j + 1) * len)).drop (max (j * len) order)

/-- Sums of neighbours: SUMS[p][j] = SUMS[p+1][2j] + SUMS[p+1][2j+1], R175. -/
def pairSums : List Nat → List Nat
  | a :: b :: t => (a + b) :: pairSums t
  | l => l

/-- SUMS[p] of `PartSums`, R175: the zigzag sums of the 2^pmax finest partitions, summed pairwise down to p. -/
def partSumsAt (r : List Int) (n order pmax p : Nat) : List Nat :=
  Nat.repeat pairSums (pmax - p)
    ((List.range (2 ^ pmax)).map fun j => sumNat ((partition r (n / 2 ^ pmax) order j).map zigzagOf))

/-- A Rice plan with its cost (`10_state.md` R49, R176). -/
structure Plan where
  bits : Int
  porder : Nat
  params : List Nat
  deriving DecidableEq, Repr

/-- The parameters and the cost of partition order p, R176: 4 bits a partition and the estimated codewords;
partition 0 holds `order` residuals less. -/
def planAt (r : List Int) (n order pmax p : Nat) : Plan :=
  let found := (partSumsAt r n order pmax p).zipIdx.map fun sj =>
    findParamOf sj.1 (n / 2 ^ p - if sj.2 = 0 then order else 0)
  { bits := found.foldl (fun acc kc => acc + kc.2) ((4 * 2 ^ p : Nat) : Int)
    porder := p
    params := found.map Prod.fst }

/-- `CalcRice (r, n, order, pmin, pmax)`, R176: the plan of least cost, the smallest partition order among
equals. -/
def calcRiceOf (r : List Int) (n order pmin pmax : Nat) : Plan :=
  let lo := maxPorderOf pmin n order
  let hi := maxPorderOf pmax n order
  (upto (lo + 1) hi).foldl
    (fun best p => let c := planAt r n order hi p; if c.bits < best.bits then c else best)
    (planAt r n order hi lo)

/-- SUMS[p] for p in lo .. hi, as `PartSums` writes them (R175). -/
def storeSums (s : State) (r : List Int) (n order lo hi : Nat) : State :=
  (upto lo hi).foldl
    (fun s p => s.memWrite .sums (sumsIndex p 0) ((partSumsAt r n order hi p).map fun v => (v : Int))) s

/-- A plan written to SUB[ch] (R176): porder and the parameters in use. -/
def storePlan (s : State) (ch : Nat) (p : Plan) : State :=
  (s.setSub ch 5 [(p.porder : Int)]).setSub ch 256 (p.params.map fun k => (k : Int))

/-- The operand checks of `RICE_COUNT` and `FIND_PARAM`, R172: 0 ≤ a0 ≤ 2^49 and 0 ≤ a1 ≤ 65535. -/
def sumChecks (s : State) : List (Bool × ErrCode) :=
  [operandCheck 0 s.a0 (2 ^ 49 : Nat), operandCheck 0 s.a1 (65535 : Nat)]

/-- The checks of `PART_SUMS` and `CALC_RICE`, R175. -/
def partitionChecks (s : State) (ch order pmin pmax : Nat) : List (Bool × ErrCode) :=
  [cfgCheck s, chCheck s ch, fieldCheck 0 order 32, fieldCheck 0 pmin 8, fieldCheck 0 pmax 8,
    (decide (pmin ≤ pmax), .operand), blockCheck s 1, orderCheck s order]

/-! ## Commands -/

/-- `ZIGZAG`, R171. -/
def execZigzag (s : State) : Result :=
  command s [cfgCheck s, (fitsSigned 32 s.a0, .operand)] fun s => succeed (s.setA4 (zigzagOf s.a0 : Nat))

/-- `RICE_COUNT k`, R172. -/
def execRiceCount (k : Nat) (s : State) : Result :=
  command s ([cfgCheck s, fieldCheck 0 k 14] ++ sumChecks s) fun s =>
    succeed (s.setA4 (riceCountOf s.a0.toNat s.a1.toNat k))

/-- `FIND_PARAM`, R173. -/
def execFindParam (s : State) : Result :=
  command s ([cfgCheck s] ++ sumChecks s) fun s =>
    let r := findParamOf s.a0.toNat s.a1.toNat
    succeed ((s.setA4 r.1).setA5 r.2)

/-- `MAX_PORDER order, pmax`, R174. -/
def execMaxPorder (order pmax : Nat) (s : State) : Result :=
  command s [cfgCheck s, fieldCheck 0 order 32, fieldCheck 0 pmax 8, blockCheck s 1, orderCheck s order]
    fun s => succeed (s.setA4 (maxPorderOf pmax s.blockLen order : Nat))

/-- `PART_SUMS ch, order, pmin, pmax`, R175. -/
def execPartSums (ch order pmin pmax : Nat) (s : State) : Result :=
  command s (partitionChecks s ch order pmin pmax) fun s =>
    let n := s.blockLen
    let lo := maxPorderOf pmin n order
    let hi := maxPorderOf pmax n order
    succeed (((storeSums s (s.residuals ch n) n order lo hi).setA4 lo).setA5 hi)

/-- `CALC_RICE ch, order, pmin, pmax`, R176. -/
def execCalcRice (ch order pmin pmax : Nat) (s : State) : Result :=
  command s (partitionChecks s ch order pmin pmax) fun s =>
    let n := s.blockLen
    let r := s.residuals ch n
    let plan := calcRiceOf r n order pmin pmax
    let s1 := storeSums s r n order (maxPorderOf pmin n order) (maxPorderOf pmax n order)
    succeed (((storePlan s1 ch plan).setA4 plan.bits).setA5 plan.porder)

end Sys2Proof.Machine
end

