-- ==== Sys2Proof/Machine/Predictor.lean ====
section
/-!
DEFINITION. The linear predictor engine (`42_linear_predictor.md`): fixed predictors, the coefficient fit, the
quantizer, the LPC residual and the order estimate.
-/
namespace Sys2Proof.Machine

/-! ## Integer prediction -/

/-- The coefficients of the fixed predictors, R191: c_j of order 0 to 4. -/
def fixedCoefs : Nat → List Int
  | 1 => [1]
  | 2 => [2, -1]
  | 3 => [3, -3, 1]
  | 4 => [4, -6, 4, -1]
  | _ => []

/-- Σ q_j · s[t − j], `hist` holding s[t−1], s[t−2], and so on. -/
def predictSum (q hist : List Int) : Int := (List.zipWith (· * ·) q hist).sum

/-- Residuals of the samples that follow `hist` (latest first): r = s[t] − ((Σ q_j · s[t−j]) >> sh), R198. -/
def residualsFrom (q : List Int) (sh : Nat) (hist : List Int) : List Int → List Int
  | [] => []
  | x :: t => (x - asr (predictSum q hist) sh) :: residualsFrom q sh (x :: hist) t

/-- The residual sequence of a predictor: `order` warm-up samples, then residuals (R190). -/
def predictRes (order : Nat) (q : List Int) (sh : Nat) (smp : List Int) : List Int :=
  smp.take order ++ residualsFrom q sh (smp.take order).reverse (smp.drop order)

/-- `FixedRes (s, n, order)`, R191. -/
def fixedResOf (smp : List Int) (order : Nat) : List Int := predictRes order (fixedCoefs order) 0 smp

/-- `LpcRes (s, n, o, q, sh)`, R198. -/
def lpcResOf (smp : List Int) (order : Nat) (q : List Int) (sh : Nat) : List Int := predictRes order q sh smp

/-- Every residual fits a signed 32-bit integer, else `E_RESIDUAL_RANGE` (R191, R198). -/
def residualsFit (order : Nat) (r : List Int) : Bool := (r.drop order).all (fitsSigned 32)

/-- What `E_RESIDUAL_RANGE` leaves unspecified besides working stores: RES[ch] and SUB[ch] except obits
(`60_exceptions.md` R324(c); log 8). -/
def rangeErrorScratch (ch : Nat) : List (Space × Nat × Nat) :=
  [(.res, chIndex ch 0, rowLen), (.subrec, recIndex ch 0, 2), (.subrec, recIndex ch 3, recLen - 3)]

/-! ## The coefficient fit -/

/-- One element of the Welch-windowed block, R193, in the order of operations the rule writes. -/
def welchAt (n i : Nat) (smp : Int) : Flt :=
  let t := fdiv (fltOfInt (2 * i : Nat)) (fltOfInt ((n : Int) - 1))
  let u := fsub t fltOne
  let w := fsub fltOne (fmul u u)
  fmul (fltOfInt smp) w

/-- WIN[0 .. n−1] of `WELCH`, R193. -/
def welchOf (n : Nat) (smp : List Int) : List Flt := smp.zipIdx.map fun x => welchAt n x.2 x.1

/-- AUTOC[j], R194: products WIN[i]·WIN[i−j] added to +0.0 in ascending i. -/
def autocorrAt (win : List Flt) (j : Nat) : Flt :=
  (List.zip (win.drop j) win).foldl (fun a p => fadd a (fmul p.1 p.2)) (Flt.zero false)

/-- AUTOC[0 .. M] of `AUTOCORR`, R194. -/
def autocorrOf (win : List Flt) (maxorder : Nat) : List Flt := (upto 0 maxorder).map (autocorrAt win)

/-- The recursion's running values: err, the coefficients of the last order, and every order's coefficients with
its reflection coefficient, the first order first. -/
structure LevState where
  err : Flt
  row : List Flt
  rows : List (List Flt × Flt)
  deriving DecidableEq, Repr

/-- The reflection coefficient of order i, R195. -/
def levinsonK (ac : List Flt) (st : LevState) (i : Nat) : Flt :=
  if feq st.err (Flt.zero false) then Flt.zero false
  else
    let lags := ((ac.take i).drop 1).reverse
    let acc := (List.zip st.row lags).foldl (fun a p => fsub a (fmul p.1 p.2)) (ac.getD i (Flt.zero false))
    fdiv acc st.err

/-- One order of the recursion, R195. -/
def levinsonStep (ac : List Flt) (st : LevState) (i : Nat) : LevState :=
  let k := levinsonK ac st i
  let row := List.zipWith (fun c r => fsub c (fmul k r)) st.row st.row.reverse ++ [k]
  { err := fmul st.err (fsub fltOne (fmul k k))
    row := row
    rows := st.rows ++ [(row, k)] }

/-- `LEVINSON`, R195: LPCF[i][1 .. i] and REFL[i] for i in 1 .. M, from AUTOC[0 .. M]. -/
def levinsonOf (ac : List Flt) (maxorder : Nat) : List (List Flt × Flt) :=
  ((upto 1 maxorder).foldl (levinsonStep ac)
    { err := ac.getD 0 (Flt.zero false), row := [], rows := [] }).rows

/-- The largest of the magnitudes, R197 (`cmax`). -/
def coefMax (c : List Flt) : Flt :=
  c.foldl (fun m x => if flt m (fabs x) then fabs x else m) (Flt.zero false)

/-- f64 (2^s). -/
def fltPow2 (s : Nat) : Flt := fltOfInt (2 ^ s : Nat)

/-- The largest shift in 15, 14, .., 0 at which the coefficients fit, R197. -/
def fitShift (cmax : Flt) (qmax : Int) : Option Nat :=
  ((List.range (Config.maxShift + 1)).reverse).find? fun s => fle (fmul cmax (fltPow2 s)) (fltOfInt qmax)

/-- The running-error-feedback rounding of R197, from the error `e` carried in. -/
def quantRound (sh : Nat) (qmin qmax : Int) : Flt → List Flt → List Int
  | _, [] => []
  | e, c :: rest =>
    let t := fadd (fmul c (fltPow2 sh)) e
    let q := clip (rne t) qmin qmax
    q :: quantRound sh qmin qmax (fsub t (fltOfInt q)) rest

/-- `Quantize (c, o, P)`, R197: the quantized coefficients and the shift. -/
def quantizeOf (c : List Flt) (prec : Nat) : List Int × Nat :=
  let qmax : Int := (2 ^ (prec - 1) : Nat) - 1
  let qmin : Int := -((2 ^ (prec - 1) : Nat) : Int)
  if c.all finite then
    let cmax := coefMax c
    match fitShift cmax qmax with
    | some sh => (quantRound sh qmin qmax (Flt.zero false) c, sh)
    | none =>
      let scale := fdiv (fltOfInt qmax) cmax
      (quantRound 0 qmin qmax (Flt.zero false) (c.map fun x => fmul x scale), 0)
  else (c.map fun _ => 0, 0)

/-- `OrderEst (refl, lo, hi)`, R199: the largest order whose reflection coefficient exceeds the threshold in
magnitude, else lo. -/
def orderEstOf (refl : Nat → Flt) (lo hi : Nat) : Nat :=
  ((upto lo hi).reverse.find? fun i => flt (fltOfBits Config.reflThreshold) (fabs (refl i))).getD lo

/-! ## Effects on the stores -/

/-- `WELCH`'s effect, R193. -/
def welchEffect (s : State) (ch : Nat) : State :=
  s.storeReals .win 0 (welchOf s.blockLen (s.samples ch s.blockLen))

/-- `AUTOCORR`'s effect, R194. -/
def autocorrEffect (s : State) (maxorder : Nat) : State :=
  s.storeReals .autoc 0 (autocorrOf (s.readReals .win 0 s.blockLen) maxorder)

/-- LPCF[o][1 ..] and REFL[o]. -/
def storeOrder (s : State) (o : Nat) (row : List Flt) (k : Flt) : State :=
  (s.storeReals .lpcf (coefIndex o 1) row).storeReals .refl (o - 1) [k]

/-- `LEVINSON`'s effect, R195. -/
def levinsonEffect (s : State) (maxorder : Nat) : State :=
  (levinsonOf (s.readReals .autoc 0 (maxorder + 1)) maxorder).zipIdx.foldl
    (fun s r => storeOrder s (r.2 + 1) r.1.1 r.1.2) s

/-- The pass count handed to `LSQ_FIT`: CFG_LPC_PASSES when CFG_LPC_TYPE is 2; otherwise the register is ignored
(`10_state.md` R42) and the count is a free value (log 23). -/
def lsqPasses (c : Cfg) : Word32 :=
  if c.lpcType.toNat = 2 then c.lpcPasses else Config.passesOtherwise

/-- The effect of `LSQ_FIT` with the function `f`, R196. -/
def lsqEffect (f : Config.LsqFit) (s : State) (ch maxorder : Nat) : State :=
  let smp := s.samples ch s.blockLen
  (upto 1 maxorder).foldl
    (fun s o =>
      (s.memWrite .lpcf (coefIndex o 1)
        ((upto 1 o).map fun j => ((f.coef smp maxorder (lsqPasses s.regs.cfg) o j).toNat : Int))).memWrite
          .refl (o - 1) [((f.refl smp maxorder (lsqPasses s.regs.cfg) o).toNat : Int)]) s

/-- LPCF[o][1 .. o]. -/
def coefRow (s : State) (o : Nat) : List Flt := s.readReals .lpcf (coefIndex o 1) o

/-- QC[o][1 ..] and QSH[o] (`10_state.md` R51). -/
def storeQuant (s : State) (o : Nat) (q : List Int) (sh : Nat) : State :=
  (s.memWrite .qc (coefIndex o 1) q).memWrite .qsh (o - 1) [(sh : Int)]

/-- REFL[o]. -/
def reflAt (s : State) (o : Nat) : Flt := fltOfBits (BitVec.ofInt 64 (s.memRead .refl (o - 1)))

/-! ## Commands -/

/-- `FIXED_RES ch, order`, R191. -/
def execFixedRes (ch order : Nat) (s : State) : Result :=
  command s [cfgCheck s, chCheck s ch, fieldCheck 0 order 4, blockCheck s 1, orderCheck s order] fun s =>
    let r := fixedResOf (s.samples ch s.blockLen) order
    if residualsFit order r then succeed (s.setResiduals ch r)
    else fail .residualRange (s.forget (rangeErrorScratch ch))

/-- `WELCH ch`, R193. -/
def execWelch (ch : Nat) (s : State) : Result :=
  command s [cfgCheck s, chCheck s ch, blockCheck s 2] fun s => succeed (welchEffect s ch)

/-- `AUTOCORR maxorder`, R194. -/
def execAutocorr (maxorder : Nat) (s : State) : Result :=
  command s [cfgCheck s, fieldCheck 1 maxorder 32, blockCheck s 1] fun s =>
    succeed (autocorrEffect s maxorder)

/-- `LEVINSON maxorder`, R195. -/
def execLevinson (maxorder : Nat) (s : State) : Result :=
  command s [cfgCheck s, fieldCheck 1 maxorder 32] fun s => succeed (levinsonEffect s maxorder)

/-- `LSQ_FIT ch, maxorder`, R196: without the open parameter, `E_CFG_UNSUPPORTED` and no change (log 5). -/
def execLsqFit (ch maxorder : Nat) (s : State) : Result :=
  command s [cfgCheck s, chCheck s ch, fieldCheck 1 maxorder 32, blockCheck s 2] fun s =>
    match Config.lsqFit with
    | some f => succeed (lsqEffect f s ch maxorder)
    | none => fail .cfgUnsupported s

/-- `QUANT order, precision`, R197. -/
def execQuant (order precision : Nat) (s : State) : Result :=
  command s [cfgCheck s, fieldCheck 1 order 32, fieldCheck 1 precision 15] fun s =>
    let r := quantizeOf (coefRow s order) precision
    succeed ((storeQuant s order r.1 r.2).setA4 (r.2 : Nat))

/-- `LPC_RES ch, order`, R198. -/
def execLpcRes (ch order : Nat) (s : State) : Result :=
  command s [cfgCheck s, chCheck s ch, fieldCheck 1 order 32, blockCheck s 1, orderCheck s order] fun s =>
    let q := s.readRun .qc (coefIndex order 1) order
    let sh := (s.memRead .qsh (order - 1)).toNat
    let r := lpcResOf (s.samples ch s.blockLen) order q sh
    if residualsFit order r then succeed (s.setResiduals ch r)
    else fail .residualRange (s.forget (rangeErrorScratch ch))

/-- `ORDER_EST lo, hi`, R199. -/
def execOrderEst (lo hi : Nat) (s : State) : Result :=
  command s [cfgCheck s, fieldCheck 1 lo 32, fieldCheck 1 hi 32, (decide (lo ≤ hi), .operand)] fun s =>
    succeed (s.setA4 (orderEstOf (reflAt s) lo hi : Nat))

end Sys2Proof.Machine
end

