-- ==== Sys2Proof/Machine/Subframe.lean ====
section
/-!
DEFINITION. The subframe encoder (`43_subframe_encoder.md`) with the order-selection procedures it uses
(`42_linear_predictor.md` R200 to R203).
-/
namespace Sys2Proof.Machine

/-- The record's type tags, `10_state.md` R48. -/
def typeConstant : Int := 0
/-- R48. -/
def typeVerbatim : Int := 1
/-- R48. -/
def typeFixed : Int := 2
/-- R48. -/
def typeLpc : Int := 3

/-- One evaluated prediction order: its cost, quantized coefficients and shift (none for FIXED), residual
sequence and plan (R200, `43_subframe_encoder.md` R234). -/
structure Candidate where
  cost : Int
  order : Nat
  q : List Int
  shift : Nat
  res : List Int
  plan : Plan
  deriving DecidableEq, Repr

/-- An order of the FIXED path, R234, R236: cost = o·b + 6 + plan_bits. -/
def fixedCandidate (s : State) (ch o : Nat) : Except ErrCode Candidate :=
  let n := s.blockLen
  let r := fixedResOf (s.samples ch n) o
  if residualsFit o r then
    let plan := calcRiceOf r n o s.regs.cfg.minPorder.toNat s.regs.cfg.maxPorder.toNat
    .ok { cost := o * s.sub ch 2 + 6 + plan.bits, order := o, q := [], shift := 0, res := r, plan := plan }
  else .error .residualRange

/-- `LpcCandidate (ch, o)`, R200, R236: cost = o·b + 4 + 5 + o·P + 6 + plan_bits. -/
def lpcCandidate (s : State) (ch o : Nat) : Except ErrCode Candidate :=
  let n := s.blockLen
  let prec := s.regs.cfg.precision.toNat
  let qs := quantizeOf (coefRow s o) prec
  let r := lpcResOf (s.samples ch n) o qs.1 qs.2
  if residualsFit o r then
    let plan := calcRiceOf r n o s.regs.cfg.minPorder.toNat s.regs.cfg.maxPorder.toNat
    .ok { cost := o * s.sub ch 2 + 4 + 5 + o * prec + 6 + plan.bits, order := o, q := qs.1, shift := qs.2,
          res := r, plan := plan }
  else .error .residualRange

/-- A search so far: the candidates evaluated, and the best of them (the first evaluated among equals). -/
structure Search where
  done : List Candidate
  best : Option Candidate
  deriving DecidableEq, Repr

/-- Keep the better of the best so far and a new candidate: strict `<`, so ties keep the earlier. -/
def betterOf (best : Option Candidate) (c : Candidate) : Candidate :=
  match best with
  | none => c
  | some b => if c.cost < b.cost then c else b

/-- Evaluate an order unless it has been evaluated in this search (R200, R203). -/
def visit (eval : Nat → Except ErrCode Candidate) (a : Search) (o : Nat) : Except ErrCode Search :=
  if a.done.any (fun c => c.order == o) then .ok a
  else
    match eval o with
    | .ok c => .ok { done := c :: a.done, best := some (betterOf a.best c) }
    | .error e => .error e

/-- Evaluate orders in the given sequence. -/
def visitAll (eval : Nat → Except ErrCode Candidate) (a : Search) (orders : List Nat) : Except ErrCode Search :=
  orders.foldlM (visit eval) a

/-- The grid points, R201. -/
def gridOrders (lo hi levels : Nat) : List Nat :=
  (List.range levels).map fun i => max (lo + (hi - lo + 1) * (i + 1) / levels - 1) lo

/-- One step of the log search, R203: last − step, last, last + step, those in lo .. hi. -/
def logVisit (eval : Nat → Except ErrCode Candidate) (lo hi : Nat) (al : Search × Nat) (step : Nat) :
    Except ErrCode (Search × Nat) :=
  let around : List Int := [(al.2 : Int) - step, al.2, al.2 + step]
  let orders := (around.filter fun o => withinInt lo o hi).map Int.toNat
  match visitAll eval al.1 orders with
  | .ok a => .ok (a, (a.best.map fun c => c.order).getD al.2)
  | .error e => .error e

/-- The log search, R203. -/
def logSearch (eval : Nat → Except ErrCode Candidate) (lo hi : Nat) : Except ErrCode Search :=
  match [16, 8, 4, 2, 1].foldlM (logVisit eval lo hi) (({ done := [], best := none } : Search), lo + (hi - lo) / 3)
    with
  | .ok al => .ok al.1
  | .error e => .error e

/-- The orders that a method of CFG_ORDER_METHOD evaluates, R199 to R203 and R235; `est` is the order of `OrderEst`
(log 18 for a method above 5). -/
def searchOrders (method est : Nat) (eval : Nat → Except ErrCode Candidate) (lo hi : Nat) : Except ErrCode Search :=
  let start : Search := { done := [], best := none }
  match method with
  | 0 => visitAll eval start [est]
  | 1 => visitAll eval start (gridOrders lo hi 2)
  | 2 => visitAll eval start (gridOrders lo hi 4)
  | 3 => visitAll eval start (gridOrders lo hi 8)
  | 4 => visitAll eval start (upto lo hi)
  | _ => logSearch eval lo hi

/-- Order selection by CFG_ORDER_METHOD, R235. -/
def selectOrder (s : State) (ch lo hi : Nat) : Except ErrCode Search :=
  searchOrders s.regs.cfg.orderMethod.toNat (orderEstOf (reflAt s) lo hi) (lpcCandidate s ch) lo hi

/-- All samples of the block are equal (R231). -/
def allEqual : List Int → Bool
  | [] => true
  | x :: t => t.all (· == x)

/-- SUMS is unspecified after SUB_ENCODE (R237; log 10). -/
def forgetSums (s : State) : State := s.forget [(.sums, 0, spaceLen)]

/-- type, order and bits of SUB[ch]. -/
def storeHead (s : State) (ch : Nat) (type : Int) (order : Nat) (bits : Int) : State :=
  ((s.setSub ch 0 [type]).setSub ch 1 [(order : Int)]).setSub ch 6 [bits]

/-- `SubVerbatim (ch)`, R238. -/
def subVerbatimEffect (ch : Nat) (s : State) : State :=
  (storeHead s ch typeVerbatim 0 (s.sub ch 2 * s.blockLen)).setResiduals ch (s.samples ch s.blockLen)

/-- The CONSTANT record, R232: only RES[ch][0] is defined (log 7). -/
def constantEffect (ch : Nat) (s : State) : State :=
  ((storeHead s ch typeConstant 0 (s.sub ch 2)).setResiduals ch (s.samples ch 1)).forget
    [(.res, chIndex ch 1, rowLen - 1)]

/-- The working stores SUB_ENCODE's LPC path writes (R237, R324(c); log 8). -/
def lpcStores : List (Space × Nat × Nat) :=
  [(.win, 0, spaceLen), (.autoc, 0, spaceLen), (.lpcf, 0, spaceLen), (.refl, 0, spaceLen), (.qc, 0, spaceLen),
    (.qsh, 0, spaceLen), (.sums, 0, spaceLen)]

/-- The FIXED path, R234. -/
def fixedPath (ch : Nat) (s : State) : Effect :=
  let lo := min s.regs.cfg.minOrder.toNat Config.maxFixedOrder
  let hi := min s.regs.cfg.maxOrder.toNat Config.maxFixedOrder
  let found := do
    let a ← visitAll (fixedCandidate s ch) { done := [], best := none } (upto lo hi)
    match a.best with
    | some c => pure c
    | none => fixedCandidate s ch lo
  match found with
  | .ok c =>
    .ok (forgetSums ((storePlan (storeHead s ch typeFixed c.order c.cost) ch c.plan).setResiduals ch c.res))
  | .error e => .error (e, s.forget (rangeErrorScratch ch ++ [(.sums, 0, spaceLen)]))

/-- The LPC record and the quantized set of every order evaluated, R235, R237. -/
def storeLpc (ch : Nat) (s : State) (a : Search) (c : Candidate) : State :=
  let s1 := a.done.foldr (fun d s => storeQuant s d.order d.q d.shift) s
  let s2 := storeHead s1 ch typeLpc c.order c.cost
  let s3 := (s2.setSub ch 3 [(s.regs.cfg.precision.toNat : Int), (c.shift : Int)]).setSub ch 32 c.q
  forgetSums ((storePlan s3 ch c.plan).setResiduals ch c.res)

/-- Order selection and the record on the LPC path, once the fit stands in LPCF and REFL, R235. -/
def lpcSelect (ch lo hi : Nat) (s : State) : Effect :=
  let found := do
    let a ← selectOrder s ch lo hi
    match a.best with
    | some c => pure (a, c)
    | none =>
      let c ← lpcCandidate s ch lo
      pure ({ done := [c], best := some c }, c)
  match found with
  | .ok (a, c) => .ok (storeLpc ch s a c)
  | .error e => .error (e, s.forget (rangeErrorScratch ch ++ lpcStores))

/-- The LPC path, R235; without `LSQ_FIT` the least-squares fit is `E_CFG_UNSUPPORTED` and no change (R324(e)).
`WELCH` and `AUTOCORR` run before either fit, as `42_linear_predictor.md` R192 and R237 say; R235's pseudocode runs
`LsqFit` alone. DESIGN CHOICE (log 22). -/
def lpcPath (ch : Nat) (s : State) : Effect :=
  let lo := max s.regs.cfg.minOrder.toNat 1
  let hi := s.regs.cfg.maxOrder.toNat
  let windowed := autocorrEffect (welchEffect s ch) hi
  if s.regs.cfg.lpcType.toNat = 1 then lpcSelect ch lo hi (levinsonEffect windowed hi)
  else
    match Config.lsqFit with
    | some f => lpcSelect ch lo hi (lsqEffect f windowed ch hi)
    | none => .error (.cfgUnsupported, s)

/-- `SUB_ENCODE`'s effect but for a4, R231. -/
def subEncodeEffect (ch : Nat) (s : State) : Effect :=
  let n := s.blockLen
  if allEqual (s.samples ch n) then .ok (forgetSums (constantEffect ch s))
  else if n < 5 then .ok (forgetSums (subVerbatimEffect ch s))
  else if s.regs.cfg.lpcType.toNat = 0 ∨ n ≤ s.regs.cfg.maxOrder.toNat then fixedPath ch s
  else lpcPath ch s

/-! ## Commands -/

/-- `SUB_ENCODE ch`, R231. -/
def execSubEncode (ch : Nat) (s : State) : Result :=
  command s [cfgCheck s, chCheck s ch, blockCheck s 1, obitsCheck s ch] fun s =>
    finish ((subEncodeEffect ch s).map fun t => t.setA4 (t.sub ch 6))

/-- `SUB_VERBATIM ch`, R238. -/
def execSubVerbatim (ch : Nat) (s : State) : Result :=
  command s [cfgCheck s, chCheck s ch, blockCheck s 1, obitsCheck s ch] fun s =>
    succeed ((subVerbatimEffect ch s).setA4 (s.sub ch 2 * s.blockLen))

end Sys2Proof.Machine
end

