-- ==== Sys2Proof/Machine/Stereo.lean ====
section
/-!
DEFINITION. De-interleaving and the stereo decorrelation selector (`44_stereo_decorrelation.md`).
-/
namespace Sys2Proof.Machine

/-- The mid signal (L + R) >> 1, R252. -/
def midOf (l r : List Int) : List Int := List.zipWith (fun a b => asr (a + b) 1) l r

/-- The side signal L − R, R252. -/
def sideOf (l r : List Int) : List Int := List.zipWith (fun a b => a - b) l r

/-- The sum of |X[i] − 2·X[i−1] + X[i−2]| over i ≥ 2, R252. -/
def secondDiffSum : List Int → Nat
  | a :: b :: c :: t => (c - 2 * b + a).natAbs + secondDiffSum (b :: c :: t)
  | _ => 0

/-- STSUM[0 .. 3]: left, right, mid, side, R252. -/
def stereoSums (l r : List Int) : List Nat :=
  [secondDiffSum l, secondDiffSum r, secondDiffSum (midOf l r), secondDiffSum (sideOf l r)]

/-- SCORE[0 .. 3] from the four sums, R252. -/
def stereoScores (n : Nat) (sums : List Nat) : List Int :=
  let cost := fun x => (findParamOf (sums.getD x 0) n).2
  [cost 0 + cost 1, cost 0 + cost 3, cost 1 + cost 3, cost 2 + cost 3]

/-- The mode of least score, the lowest index among equals, R252. -/
def bestMode (scores : List Int) : Nat :=
  [1, 2, 3].foldl (fun best m => if scores.getD m 0 < scores.getD best 0 then m else best) 0

/-- One channel of `DEINTERLEAVE`, R251: its samples, and obits 16. -/
def deinterleaveChannel (s : State) (ch : Nat) : State :=
  (s.memWrite .smp (chIndex ch 0)
    ((List.range s.blockLen).map fun i => s.memRead .inp (i * s.channels + ch))).setSub ch 2 [16]

/-- `DEINTERLEAVE`'s effect, R251. -/
def deinterleaveEffect (s : State) : State :=
  ((List.range s.channels).foldl deinterleaveChannel s).setChMode 0

/-- `ST_ESTIMATE`'s effect but for a4, R252, R254. -/
def stEstimateEffect (s : State) : State :=
  if s.channels = 2 then
    let n := s.blockLen
    let sums := stereoSums (s.samples 0 n) (s.samples 1 n)
    let scores := stereoScores n sums
    ((s.memWrite .stsum 0 (sums.map fun v => (v : Int))).memWrite .score 0 scores).setChMode (bestMode scores)
  else s.setChMode 0

/-- `ST_APPLY`'s effect, R253: both channels are read before either is written (R312). -/
def stApplyEffect (mode : Nat) (s : State) : State :=
  let n := s.blockLen
  let l := s.samples 0 n
  let r := s.samples 1 n
  let s1 := s.setChMode mode
  match mode with
  | 1 => (s1.memWrite .smp (chIndex 1 0) (sideOf l r)).setSub 1 2 [17]
  | 2 => (s1.memWrite .smp (chIndex 0 0) (sideOf l r)).setSub 0 2 [17]
  | 3 => ((s1.memWrite .smp (chIndex 0 0) (midOf l r)).memWrite .smp (chIndex 1 0) (sideOf l r)).setSub 1 2 [17]
  | _ => s1

/-- The memory checks of `ST_APPLY` with a mode other than 0, R253: 16-bit samples, and obits 16 twice. -/
def stApplyMemory (s : State) : Bool :=
  (s.samples 0 s.blockLen).all (fitsSigned 16) && (s.samples 1 s.blockLen).all (fitsSigned 16)
    && decide (s.sub 0 2 = 16) && decide (s.sub 1 2 = 16)

/-! ## Commands -/

/-- `DEINTERLEAVE`, R251. -/
def execDeinterleave (s : State) : Result :=
  command s [cfgCheck s, noHeaderCheck s, blockCheck s 1] fun s => succeed (deinterleaveEffect s)

/-- `ST_ESTIMATE`, R252. -/
def execStEstimate (s : State) : Result :=
  command s [cfgCheck s, noHeaderCheck s, blockCheck s 1] fun s =>
    let t := stEstimateEffect s
    succeed (t.setA4 (t.regs.chMode.toNat : Nat))

/-- `ST_APPLY mode`, R253. -/
def execStApply (mode : Nat) (s : State) : Result :=
  command s [cfgCheck s, noHeaderCheck s, fieldCheck 0 mode 3,
      (decide (s.channels = 2) || decide (mode = 0), .operand), blockCheck s 1,
      (decide (mode = 0) || stApplyMemory s, .operand)] fun s =>
    succeed (stApplyEffect mode s)

end Sys2Proof.Machine
end

