-- ==== Sys2Proof/Machine/Context.lean ====
section
/-!
DEFINITION. The encoder context (`46_context_commands.md`): NOP, RESET, CFG_INIT and the stream header block, with
the sample-rate code of `30_encoding.md` R105.
-/
namespace Sys2Proof.Machine

/-- The sample rates with a code of their own and that code, `30_encoding.md` R105. -/
def sampleRateTable : List (Nat × Nat) :=
  [(8000, 4), (16000, 5), (22050, 6), (24000, 7), (32000, 8), (44100, 9), (48000, 10), (96000, 11)]

/-- {escape value, code} as one 20-bit number (`10_state.md` R34, R35). -/
def escapedCode (escape code : Nat) : BitVec 20 := BitVec.ofNat 20 (escape * 16 + code)

/-- `SrCode (r)`, R306: the first match of `30_encoding.md` R105, none when the rate has no code. -/
def srCodeOf (r : Nat) : Option (BitVec 20) :=
  if r = 0 then none
  else
    match sampleRateTable.lookup r with
    | some code => some (escapedCode 0 code)
    | none =>
      if r % 1000 = 0 ∧ r / 1000 ≤ 255 then some (escapedCode (r / 1000) 12)
      else if r ≤ 65535 then some (escapedCode r 13)
      else if r % 10 = 0 ∧ r / 10 ≤ 65535 then some (escapedCode (r / 10) 14)
      else none

/-- `MaxFramesize (C, bs)`, R305. -/
def maxFramesizeOf (c bs : Nat) : Nat := 18 + (8 * c + bs * (16 * c + if c = 2 then 1 else 0) + 7) / 8

/-- Check 6 of R304: CFG_LPC_TYPE is not 2, or there is an `LSQ_FIT` that accepts CFG_LPC_PASSES (log 5). -/
def lsqAccepted (c : Cfg) : Bool :=
  if c.lpcType.toNat = 2 then
    match Config.lsqFit with
    | some f => f.accepts c.lpcPasses
    | none => false
  else true

/-- Check 7 of R304 (`10_state.md` R43). -/
def orderBoundsOk (c : Cfg) : Bool :=
  decide (c.minOrder.toNat ≤ c.maxOrder.toNat) &&
    if c.lpcType.toNat = 0 then decide (c.maxOrder.toNat ≤ Config.maxFixedOrder)
    else within 1 c.maxOrder.toNat Config.maxLpcOrder

/-- The nine checks of `Validate ()`, R304, in order. -/
def configChecks (c : Cfg) : List (Bool × ErrCode) :=
  [(within 1 c.channels.toNat Config.maxChannels, .cfgChannels),
    ((srCodeOf c.sampleRate.toNat).isSome, .cfgSampleRate),
    (within Config.minBlocksize c.blocksize.toNat Config.maxBlocksize, .cfgBlocksize),
    (decide (c.level.toNat ≤ Config.maxLevel), .cfgLevel),
    (decide (c.lpcType.toNat ≤ 2) && decide (c.orderMethod.toNat ≤ 5), .cfgEnum),
    (lsqAccepted c, .cfgUnsupported),
    (orderBoundsOk c, .cfgOrder),
    (decide (c.minPorder.toNat ≤ c.maxPorder.toNat) && decide (c.maxPorder.toNat ≤ Config.maxPartitionOrder),
      .cfgPorder),
    (within 1 c.precision.toNat Config.maxPrecision, .cfgPrecision)]

/-- `Validate ()`, R304: the error of the first check that does not hold. -/
def validate (c : Cfg) : Option ErrCode := firstError (configChecks c)

/-- What `CFG_INIT` does before it validates, R303. -/
def clearStream (s : State) : State :=
  { s with
    regs := { s.regs with
      frameCount := 0
      chMode := 0
      bsCode := 0
      outLen := 0
      bitpos := 0
      crc8Run := 0
      crc16Run := 0
      bwAcc := 0
      bwCap := 0
      bwOk := false
      frameOk := false
      retried := false
      subcnt := 0
      fsm := .idle } }

/-- `CFG_INIT`'s effect, R303. -/
def cfgInitEffect (s : State) : Effect :=
  let t := clearStream s
  match validate s.regs.cfg with
  | some e => .error (e, { t with regs := { t.regs with cfgOk := false, maxFramesize := 0, srCode := 0 } })
  | none =>
    .ok { t with
      regs := { t.regs with
        maxFramesize := BitVec.ofNat 24 (maxFramesizeOf s.channels s.regs.cfg.blocksize.toNat)
        srCode := (srCodeOf s.regs.cfg.sampleRate.toNat).getD 0
        cfgOk := true } }

/-- `RESET`'s effect, R302: every register at its reset value; memories, records and stores kept. -/
def resetEffect (s : State) : State := { s with regs := Regs.reset }

/-- The bits of the stream header block, `30_encoding.md` R98. -/
def streaminfoBits (r : Regs) : List Bool :=
  fieldBits 16 r.cfg.blocksize.toNat ++ fieldBits 16 r.cfg.blocksize.toNat ++ fieldBits 24 0
    ++ fieldBits 24 r.maxFramesize.toNat ++ fieldBits 20 r.cfg.sampleRate.toNat
    ++ fieldBits 3 ((r.cfg.channels.toNat : Int) - 1) ++ fieldBits 5 15 ++ List.replicate 164 false

/-- `WR_STREAMINFO`'s effect, R307. -/
def streaminfoEffect (s : State) : State :=
  let t := putBits (writerInit s s.regs.outCap) (streaminfoBits s.regs)
  { t with regs := { t.regs with outLen := BitVec.ofNat 32 Config.streaminfoBytes } }

/-! ## Commands -/

/-- `NOP`, R301: only STATUS.ERR is written. -/
def execNop (s : State) : Result := succeed s

/-- `RESET`, R302. -/
def execReset (s : State) : Result := succeed (resetEffect s)

/-- `CFG_INIT`, R303. -/
def execCfgInit (s : State) : Result := finish (cfgInitEffect s)

/-- `WR_STREAMINFO`, R307. -/
def execWrStreaminfo (s : State) : Result :=
  command s [cfgCheck s, noFrameCheck s, capacityCheck s Config.streaminfoBytes] fun s =>
    succeed (streaminfoEffect s)

end Sys2Proof.Machine
end

