-- ==== Sys2Proof/Machine/Frame.lean ====
section
/-!
DEFINITION. The frame encoder (`45_frame_encoder.md`): the state machine's step commands, the header, subframe and
footer serialization, the overflow retry, and the composite ENCODE_FRAME; the block-size code of
`30_encoding.md` R104.
-/
namespace Sys2Proof.Machine

/-- The block sizes with a code of their own and that code, `30_encoding.md` R104. -/
def blockSizeTable : List (Nat × Nat) :=
  [(192, 1), (576, 2), (1152, 3), (2304, 4), (4608, 5), (256, 8), (512, 9), (1024, 10), (2048, 11), (4096, 12),
    (8192, 13), (16384, 14), (32768, 15)]

/-- `BsCode (n)`, R267 and `30_encoding.md` R104; none outside 1 .. 65535 (R269). -/
def bsCodeOf (n : Nat) : Option (BitVec 20) :=
  if within 1 n 65535 then
    match blockSizeTable.lookup n with
    | some code => some (escapedCode 0 code)
    | none => some (if n ≤ 256 then escapedCode (n - 1) 6 else escapedCode (n - 1) 7)
  else none

/-- The 4-bit code of BS_CODE or SR_CODE (bits 3:0). -/
def codeOf (v : BitVec 20) : Nat := v.toNat % 16

/-- The escape value of BS_CODE or SR_CODE (bits 19:4). -/
def escapeOf (v : BitVec 20) : Nat := v.toNat / 16

/-- `FRAME_INIT`'s effect, R267. -/
def frameInitEffect (retry : Bool) (s : State) : State :=
  let t := writerInit s s.regs.outCap
  { t with
    regs := { t.regs with
      bsCode := (bsCodeOf s.blockLen).getD 0
      retried := retry
      subcnt := 0
      fsm := .init } }

/-- The channel-assignment code, `30_encoding.md` R106 and R268. -/
def channelCode (r : Regs) : Int :=
  if r.chMode = 0 then (r.cfg.channels.toNat : Int) - 1 else 7 + (r.chMode.toNat : Int)

/-- The block-size escape field, `30_encoding.md` R109. -/
def bsEscapeBits (v : BitVec 20) : List Bool :=
  if codeOf v = 6 then fieldBits 8 (escapeOf v) else if codeOf v = 7 then fieldBits 16 (escapeOf v) else []

/-- The sample-rate escape field, `30_encoding.md` R109. -/
def srEscapeBits (v : BitVec 20) : List Bool :=
  if codeOf v = 12 then fieldBits 8 (escapeOf v)
  else if codeOf v = 13 ∨ codeOf v = 14 then fieldBits 16 (escapeOf v)
  else []

/-- The frame header without its CRC-8, `30_encoding.md` R100 and R268. -/
def headerBits (r : Regs) : List Bool :=
  fieldBits 14 0x3FFE ++ fieldBits 1 0 ++ fieldBits 1 0 ++ fieldBits 4 (codeOf r.bsCode)
    ++ fieldBits 4 (codeOf r.srCode) ++ fieldBits 4 (channelCode r) ++ fieldBits 3 4 ++ fieldBits 1 0
    ++ utf8Bits r.frameCount.toNat ++ bsEscapeBits r.bsCode ++ srEscapeBits r.srCode

/-- `WR_HEADER`'s effect, R268: CRC8_RUN is read before any of its bits is written. -/
def wrHeaderEffect (s : State) : State :=
  let t := putBits s (headerBits s.regs)
  let u := putU t 8 t.regs.crc8Run.toNat
  { u with regs := { u.regs with subcnt := 0, fsm := .headerWritten } }

/-- The six-bit type code, R270 and `30_encoding.md` R112. -/
def typeCode (type order : Int) : Int :=
  if type = typeConstant then 0
  else if type = typeVerbatim then 1
  else if type = typeFixed then 8 + order
  else 32 + (order - 1)

/-- `SubHeader (ch)`, R270. -/
def subHeaderBits (type order : Int) : List Bool :=
  fieldBits 1 0 ++ fieldBits 6 (typeCode type order) ++ fieldBits 1 0

/-- One partition, R274: its parameter, then its codewords. -/
def partitionBits (r : List Int) (len order j k : Nat) : List Bool :=
  fieldBits 4 k ++ (partition r len order j).flatMap fun v => riceBits v k

/-- `ResidualSection (ch)`, R274. -/
def residualBits (r : List Int) (n order porder : Nat) (params : List Nat) : List Bool :=
  fieldBits 2 0 ++ fieldBits 4 porder ++
    (params.zipIdx.flatMap fun kj => partitionBits r (n / 2 ^ porder) order kj.2 kj.1)

/-- Samples as signed fields of the channel's bit depth, R271 to R273. -/
def sampleBits (obits : Nat) (l : List Int) : List Bool := l.flatMap fun v => fieldBits obits v

/-- The LPC coefficient block, R273: precision − 1, shift, coefficients. -/
def coefBits (precision : Nat) (shift : Int) (coefs : List Int) : List Bool :=
  fieldBits 4 ((precision : Int) - 1) ++ fieldBits 5 shift ++ coefs.flatMap fun c => fieldBits precision c

/-- SUB[ch].param[0 .. 2^porder − 1]. -/
def recParams (s : State) (ch : Nat) : List Nat :=
  (s.readRun .subrec (recIndex ch 256) (2 ^ (s.sub ch 5).toNat)).map Int.toNat

/-- SUB[ch].coef[0 .. order−1]. -/
def recCoefs (s : State) (ch : Nat) : List Int := s.readRun .subrec (recIndex ch 32) (s.sub ch 1).toNat

/-- The body of a subframe by SUB[ch].type, R271 to R274; RES[ch] is what is written (log 12). -/
def subBodyBits (s : State) (ch : Nat) : List Bool :=
  let n := s.blockLen
  let obits := (s.sub ch 2).toNat
  let order := (s.sub ch 1).toNat
  if s.sub ch 0 = typeConstant then sampleBits obits (s.residuals ch 1)
  else if s.sub ch 0 = typeVerbatim then sampleBits obits (s.residuals ch n)
  else
    sampleBits obits ((s.residuals ch n).take order)
      ++ (if s.sub ch 0 = typeLpc then coefBits (s.sub ch 3).toNat (s.sub ch 4) (recCoefs s ch) else [])
      ++ residualBits (s.residuals ch n) n order (s.sub ch 5).toNat (recParams s ch)

/-- The subframe of channel ch, R269, R270. -/
def subframeBits (s : State) (ch : Nat) : List Bool :=
  subHeaderBits (s.sub ch 0) (s.sub ch 1) ++ subBodyBits s ch

/-- `WR_SUBFRAME`'s effect, R269. -/
def wrSubframeEffect (ch : Nat) (s : State) : State :=
  let t := putBits s (subframeBits s ch)
  let cnt := t.regs.subcnt + 1
  { t with
    regs := { t.regs with
      subcnt := cnt
      fsm := if cnt.toNat = t.channels then .subframesWritten else t.regs.fsm } }

/-- The order, partition-order and parameter checks of a FIXED or LPC record, R269. -/
def predictedRecordOk (s : State) (ch : Nat) (minOrder maxOrder : Int) : Bool :=
  let n := s.blockLen
  let order := s.sub ch 1
  let porder := s.sub ch 5
  withinInt minOrder order maxOrder && decide (order ≤ n) && withinInt 0 porder 8
    && decide (n % 2 ^ porder.toNat = 0) && decide (order ≤ (n / 2 ^ porder.toNat : Nat))
    && (s.readRun .subrec (recIndex ch 256) (2 ^ porder.toNat)).all (withinInt 0 · 14)

/-- The precision, shift and coefficient checks of an LPC record, R269. -/
def lpcRecordOk (s : State) (ch : Nat) : Bool :=
  withinInt 1 (s.sub ch 3) 15 && withinInt 0 (s.sub ch 4) 15 && (recCoefs s ch).all (fitsSigned (s.sub ch 3).toNat)

/-- The record checks of `WR_SUBFRAME`, R269. -/
def recordOk (s : State) (ch : Nat) : Bool :=
  let type := s.sub ch 0
  withinInt 0 type 3 && (decide (s.sub ch 2 = 16) || decide (s.sub ch 2 = 17))
    && (if type = typeFixed then predictedRecordOk s ch 0 4
        else if type = typeLpc then predictedRecordOk s ch 1 32 && lpcRecordOk s ch
        else true)

/-- DONE, R277. -/
def frameDone (s : State) (len : Nat) : State :=
  { s with
    regs := { s.regs with
      outLen := BitVec.ofNat 32 len
      frameOk := true
      frameCount := s.regs.frameCount + 1
      fsm := .done } }

/-- `WR_FOOTER`'s effect, R276 to R279: CRC16_RUN is read before any of its bits is written; the length is that of
the logical stream. -/
def wrFooterEffect (s : State) : Effect :=
  let t := flush s
  let u := putU t 16 t.regs.crc16Run.toNat
  let len := u.regs.bitpos.toNat / 8
  if len ≤ u.regs.maxFramesize.toNat ∧ len ≤ u.regs.bwCap.toNat then .ok (frameDone u len)
  else if u.regs.retried then .error (.frameOverflow, u.setFsm .failed)
  else .ok (u.setFsm .overflowRetry)

/-! ## The composite command -/

/-- Apply a channel's effect to channels 0 .. C−1 in order. -/
def forChannels (c : Nat) (eff : Nat → State → State) (s : State) : State :=
  (List.range c).foldl (fun s ch => eff ch s) s

/-- SUB_ENCODE for channels 0 .. C−1 in order, R280: the first error ends it. -/
def subEncodeAll (s : State) : Effect :=
  (List.range s.channels).foldlM (fun s ch => subEncodeEffect ch s) s

/-- One attempt at the frame, R280: FRAME_INIT, WR_HEADER, the WR_SUBFRAMEs, WR_FOOTER. -/
def frameAttempt (retry : Bool) (s : State) : Effect :=
  wrFooterEffect (forChannels s.channels wrSubframeEffect (wrHeaderEffect (frameInitEffect retry s)))

/-- The samples of ENCODE_FRAME: DEINTERLEAVE, and the stereo selector for two channels, R280. -/
def prepareSamples (s : State) : State :=
  let t := deinterleaveEffect s
  if t.channels = 2 then
    let u := stEstimateEffect t
    stApplyEffect u.regs.chMode.toNat u
  else t

/-- The retry when the first attempt overflowed, R280: SUB_VERBATIM for every channel and a second attempt. -/
def retryIfOverflow (s : State) : Effect :=
  if s.regs.fsm = .overflowRetry then frameAttempt true (forChannels s.channels subVerbatimEffect s) else .ok s

/-- The step sequence of ENCODE_FRAME, R280 (log 21). -/
def encodeSteps (s : State) : Effect := do
  let t ← subEncodeAll (prepareSamples s)
  let u ← frameAttempt false t
  retryIfOverflow u

/-- The scratch that a failed ENCODE_FRAME leaves unspecified (U5, R324(g); log 9). -/
def encodeScratch (cap : Nat) : List (Space × Nat × Nat) :=
  [(.smp, 0, spaceLen), (.res, 0, spaceLen), (.win, 0, spaceLen), (.autoc, 0, spaceLen), (.lpcf, 0, spaceLen),
    (.refl, 0, spaceLen), (.qc, 0, spaceLen), (.qsh, 0, spaceLen), (.sums, 0, spaceLen), (.stsum, 0, spaceLen),
    (.score, 0, spaceLen), (.subrec, 0, spaceLen), (.out, 0, cap)]

/-- An ENCODE_FRAME that fails during execution, R280, R324(g): FSM = FAILED, FRAME_OK = 0, OUT_LEN = 0, the scratch
unspecified, the writer's position, partial byte and checksums free values (log 9). -/
def encodeFailed (s : State) : State :=
  let t := s.forget (encodeScratch s.regs.bwCap.toNat)
  let pos := Config.unspecifiedBitpos s.forgets
  { t with
    regs := { t.regs with
      fsm := .failed
      frameOk := false
      outLen := 0
      bitpos := pos
      bwAcc := BitVec.ofNat 8 ((Config.unspecifiedAcc s.forgets).toNat % 2 ^ (pos.toNat % 8))
      crc8Run := Config.unspecifiedCrc8 s.forgets
      crc16Run := Config.unspecifiedCrc16 s.forgets } }

/-- `ENCODE_FRAME`'s effect, R280: a0 to a7 stay, since no step's effect writes them. -/
def encodeFrameEffect (s : State) : Effect :=
  match encodeSteps s with
  | .ok t => .ok t
  | .error (e, t) => .error (e, encodeFailed t)

/-! ## Commands -/

/-- `FRAME_INIT retry`, R267. -/
def execFrameInit (retry : Nat) (s : State) : Result :=
  command s [cfgCheck s, (decide (retry ≠ 1) || decide (s.regs.fsm = .overflowRetry), .seq), fieldCheck 0 retry 1,
      blockCheck s 1, capacityCheck s 0] fun s =>
    succeed (frameInitEffect (retry == 1) s)

/-- `WR_HEADER`, R268. -/
def execWrHeader (s : State) : Result :=
  command s [cfgCheck s, fsmCheck s .init] fun s => succeed (wrHeaderEffect s)

/-- `WR_SUBFRAME ch`, R269. -/
def execWrSubframe (ch : Nat) (s : State) : Result :=
  command s [cfgCheck s, fsmCheck s .headerWritten, (decide (ch = s.regs.subcnt.toNat), .seq),
      (decide (bsCodeOf s.blockLen = some s.regs.bsCode), .seq), chCheck s ch, (recordOk s ch, .operand)] fun s =>
    succeed (wrSubframeEffect ch s)

/-- `WR_FOOTER`, R276. -/
def execWrFooter (s : State) : Result :=
  command s [cfgCheck s, fsmCheck s .subframesWritten] fun s => finish (wrFooterEffect s)

/-- `ENCODE_FRAME`, R280. -/
def execEncodeFrame (s : State) : Result :=
  command s [cfgCheck s, blockCheck s 1, capacityCheck s 0] fun s => finish (encodeFrameEffect s)

end Sys2Proof.Machine
end

