-- ==== Sys2Proof/Machine/Ports.lean ====
section
/-!
DEFINITION. The register port (`10_state.md` R24, R47, R55), the memory port (`20_memory.md` R61, R68), and the
platform's reset input (`70_reset_and_hazards.md` R350). The command register is `Run.lean`'s.
-/
namespace Sys2Proof.Machine

/-- The number of the register CMD, R26. -/
def cmdNumber : Nat := 0x02

/-- A read of the register port, R24, R55: narrower registers zero-extend; CMD and unassigned numbers read 0. -/
def readRegister (r : Regs) (number : Nat) : Word64 :=
  match number with
  | 0x00 => Config.idWord.setWidth 64
  | 0x01 => (statusWord r).setWidth 64
  | 0x03 => r.n.setWidth 64
  | 0x04 => r.outCap.setWidth 64
  | 0x05 => r.outLen.setWidth 64
  | 0x06 => r.bitpos
  | 0x07 => r.frameCount.setWidth 64
  | 0x08 => r.chMode.setWidth 64
  | 0x09 => r.maxFramesize.setWidth 64
  | 0x0A => r.bsCode.setWidth 64
  | 0x0B => r.srCode.setWidth 64
  | 0x0C => r.crc8Run.setWidth 64
  | 0x0D => r.crc16Run.setWidth 64
  | 0x10 => r.cfg.channels.setWidth 64
  | 0x11 => r.cfg.sampleRate.setWidth 64
  | 0x12 => r.cfg.blocksize.setWidth 64
  | 0x13 => r.cfg.level.setWidth 64
  | 0x14 => r.cfg.lpcType.setWidth 64
  | 0x15 => r.cfg.lpcPasses.setWidth 64
  | 0x16 => r.cfg.minOrder.setWidth 64
  | 0x17 => r.cfg.maxOrder.setWidth 64
  | 0x18 => r.cfg.orderMethod.setWidth 64
  | 0x19 => r.cfg.minPorder.setWidth 64
  | 0x1A => r.cfg.maxPorder.setWidth 64
  | 0x1B => r.cfg.precision.setWidth 64
  | 0x20 => r.ops.a0
  | 0x21 => r.ops.a1
  | 0x22 => r.ops.a2
  | 0x23 => r.ops.a3
  | 0x24 => r.ops.a4
  | 0x25 => r.ops.a5
  | 0x26 => r.ops.a6
  | 0x27 => r.ops.a7
  | _ => 0

/-- A CFG_* register by its number, R24. -/
def writeCfg (c : Cfg) (number : Nat) (v : Word32) : Cfg :=
  match number with
  | 0x10 => { c with channels := v }
  | 0x11 => { c with sampleRate := v }
  | 0x12 => { c with blocksize := v }
  | 0x13 => { c with level := v }
  | 0x14 => { c with lpcType := v }
  | 0x15 => { c with lpcPasses := v }
  | 0x16 => { c with minOrder := v }
  | 0x17 => { c with maxOrder := v }
  | 0x18 => { c with orderMethod := v }
  | 0x19 => { c with minPorder := v }
  | 0x1A => { c with maxPorder := v }
  | 0x1B => { c with precision := v }
  | _ => c

/-- An operand register by its number, R24. -/
def writeOperand (o : OpRegs) (number : Nat) (v : Word64) : OpRegs :=
  match number with
  | 0x20 => { o with a0 := v }
  | 0x21 => { o with a1 := v }
  | 0x22 => { o with a2 := v }
  | 0x23 => { o with a3 := v }
  | 0x24 => { o with a4 := v }
  | 0x25 => { o with a5 := v }
  | 0x26 => { o with a6 := v }
  | 0x27 => { o with a7 := v }
  | _ => o

/-- A write of the register port to a register other than CMD, R24, R47, R55: a register keeps the low bits; a
read-only, unassigned or locked CFG_* register ignores the write. -/
def writeRegister (r : Regs) (number : Nat) (v : Word64) : Regs :=
  if number = 0x03 then { r with n := v.setWidth 32 }
  else if number = 0x04 then { r with outCap := v.setWidth 32 }
  else if r.cfgOk then { r with ops := writeOperand r.ops number v }
  else { r with ops := writeOperand r.ops number v, cfg := writeCfg r.cfg number (v.setWidth 32) }

/-- A read of the memory port, R61: the element extended to 64 bits; 0 for an unassigned space or an index that is
not valid. -/
def portRead (s : State) (space index : Nat) : Word64 :=
  match Space.ofId space with
  | some sp => if sp.valid index then BitVec.ofInt 64 (s.memRead sp index) else 0
  | none => 0

/-- A write of the memory port, R61: the low bits of the data; ignored for an unassigned space or an index that is
not valid. -/
def portWrite (s : State) (space index : Nat) (data : Word64) : State :=
  match Space.ofId space with
  | some sp => if sp.valid index then s.memWrite sp index [data.toInt] else s
  | none => s

/-- The reset input, R350, R351: every register at its reset value, every element unspecified (log 16). -/
def resetInput (s : State) : State :=
  { s with regs := Regs.reset, mem := Mems.unspecified, forgets := s.forgets + 1 }

/-- A word that is no command, `30_encoding.md` R91, R93: `E_ILLEGAL_CMD`, and no other change. -/
def illegalCommand (s : State) : Result := fail .illegalCmd s

/-- Every port access but a write to CMD. -/
def portAccess (s : State) : HostAction → State
  | .rreg number => { s with readData := readRegister s.regs number }
  | .wreg number data => { s with regs := writeRegister s.regs number data }
  | .rmem space index => { s with readData := portRead s space index }
  | .wmem space index data => portWrite s space index data
  | .resetInput => resetInput s

/-- The command word a port access writes to CMD, if it does (`10_state.md` R26: bits 63:32 are ignored). -/
def commandWord : HostAction → Option Word32
  | .wreg number data => if number = cmdNumber then some (data.setWidth 32) else none
  | _ => none

end Sys2Proof.Machine
end

