-- ==== Sys2Proof/Machine/Dispatch.lean ====
section
/-!
DEFINITION. One arm per constructor of Instr: each calls the meaning of its instruction.
-/
namespace Sys2Proof.Machine

def exec (i : Instr) (s : State) : Host.Outcome State Fault Refusal :=
  match i with
  | .nop => Sys2Proof.Machine.execNop s
  | .reset => Sys2Proof.Machine.execReset s
  | .cfgInit => Sys2Proof.Machine.execCfgInit s
  | .wrStreaminfo => Sys2Proof.Machine.execWrStreaminfo s
  | .bwInit => Sys2Proof.Machine.execBwInit s
  | .bwPutu bits => Sys2Proof.Machine.execBwPutu bits s
  | .bwPuts bits => Sys2Proof.Machine.execBwPuts bits s
  | .bwFlush => Sys2Proof.Machine.execBwFlush s
  | .bwPos => Sys2Proof.Machine.execBwPos s
  | .bwUtf8 => Sys2Proof.Machine.execBwUtf8 s
  | .bwRice k => Sys2Proof.Machine.execBwRice k s
  | .crc8 => Sys2Proof.Machine.execCrc8 s
  | .crc16 => Sys2Proof.Machine.execCrc16 s
  | .zigzag => Sys2Proof.Machine.execZigzag s
  | .riceCount k => Sys2Proof.Machine.execRiceCount k s
  | .findParam => Sys2Proof.Machine.execFindParam s
  | .maxPorder order pmax => Sys2Proof.Machine.execMaxPorder order pmax s
  | .partSums ch order pmin pmax => Sys2Proof.Machine.execPartSums ch order pmin pmax s
  | .calcRice ch order pmin pmax => Sys2Proof.Machine.execCalcRice ch order pmin pmax s
  | .fixedRes ch order => Sys2Proof.Machine.execFixedRes ch order s
  | .welch ch => Sys2Proof.Machine.execWelch ch s
  | .autocorr maxorder => Sys2Proof.Machine.execAutocorr maxorder s
  | .levinson maxorder => Sys2Proof.Machine.execLevinson maxorder s
  | .lsqFit ch maxorder => Sys2Proof.Machine.execLsqFit ch maxorder s
  | .quant order precision => Sys2Proof.Machine.execQuant order precision s
  | .lpcRes ch order => Sys2Proof.Machine.execLpcRes ch order s
  | .orderEst lo hi => Sys2Proof.Machine.execOrderEst lo hi s
  | .subEncode ch => Sys2Proof.Machine.execSubEncode ch s
  | .subVerbatim ch => Sys2Proof.Machine.execSubVerbatim ch s
  | .deinterleave => Sys2Proof.Machine.execDeinterleave s
  | .stEstimate => Sys2Proof.Machine.execStEstimate s
  | .stApply mode => Sys2Proof.Machine.execStApply mode s
  | .frameInit retry => Sys2Proof.Machine.execFrameInit retry s
  | .wrHeader => Sys2Proof.Machine.execWrHeader s
  | .wrSubframe ch => Sys2Proof.Machine.execWrSubframe ch s
  | .wrFooter => Sys2Proof.Machine.execWrFooter s
  | .encodeFrame => Sys2Proof.Machine.execEncodeFrame s

end Sys2Proof.Machine
end

