-- ==== Sys2Proof/Machine/Run.lean ====
section
/-!
DEFINITION. A port access of the host (`30_encoding.md` R95): a write to CMD runs one command to completion
(`10_state.md` R26), every other access is `portAccess`; and the access that stands for a word to be run.
-/
namespace Sys2Proof.Machine

/-- A write of a command word to CMD (`10_state.md` R26): the command, or `E_ILLEGAL_CMD`. -/
def runWord (w : Word32) (s : State) : Host.Outcome State Fault Refusal :=
  match decode w with
  | .ok i => exec i s
  | .error _ => illegalCommand s

/-- One port access of the host. -/
def runAccess (a : HostAction) (s : State) : Host.Outcome State Fault Refusal :=
  match commandWord a with
  | some w => runWord w s
  | none => .next (portAccess s a)

/-- The write to CMD of a word of the opcode table. -/
def fetchAccess (nbits w : Nat) : HostAction := .wreg cmdNumber (BitVec.ofNat 64 (w % 2 ^ nbits))

end Sys2Proof.Machine
end

