-- ==== Sys2Proof/Machine/Step.lean ====
section
/-!
DEFINITION. One step: the next port access of the host (`00_scope.md` R12; log 1); with no access left the block
idles (`60_exceptions.md` R335).
-/
namespace Sys2Proof.Machine

/-- One step of the machine. -/
def step (s : State) : Host.Outcome State Fault Refusal :=
  match s.host with
  | [] => .next s
  | a :: rest => runAccess a { s with host := rest }

/-- `s` with one more port access in front: the write to CMD of the table's word, which the next step takes. -/
def State.withFetchWord (s : State) (nbits w : Nat) : State :=
  { s with host := fetchAccess nbits w :: s.host }

end Sys2Proof.Machine
end

