-- ==== Sys2Proof/Safety.lean ====
section
/-!
DEFINITION. The terms the statements use: when a command is refused before it does anything (`60_exceptions.md`
R322, R323), the logical stream of the bit writer (`10_state.md` R53), the quantities of the Rice search and of the
predictors as the rules write them, the reader of the output, and the invariants of the machine.
-/
namespace Sys2Proof.Machine

/-! ## Errors detected before a command does anything -/

/-- A frame is in progress, `40_bit_writer.md` R154(b). -/
def inFrame (s : State) : Bool :=
  decide (s.regs.fsm = .init) || decide (s.regs.fsm = .headerWritten) || decide (s.regs.fsm = .subframesWritten)

/-- Class 3 of R323: every command but `NOP`, `RESET` and `CFG_INIT` requires STATUS.CFG_OK. -/
def configReady (i : Instr) (s : State) : Bool :=
  decide (i = .nop) || decide (i = .reset) || decide (i = .cfgInit) || s.regs.cfgOk

/-- Class 4 of R323: the other state preconditions (`40_bit_writer.md` R154, `45_frame_encoder.md` R266, R269). -/
def stateReady (i : Instr) (s : State) : Bool :=
  match i with
  | .wrStreaminfo | .bwInit => !inFrame s
  | .bwPutu _ | .bwPuts _ | .bwFlush | .bwUtf8 | .bwRice _ => s.regs.bwOk && !inFrame s
  | .bwPos | .crc8 | .crc16 => s.regs.bwOk
  | .deinterleave | .stEstimate | .stApply _ =>
    decide (s.regs.fsm ≠ .headerWritten) && decide (s.regs.fsm ≠ .subframesWritten)
  | .frameInit z => decide (z = 1 → s.regs.fsm = .overflowRetry)
  | .wrHeader => decide (s.regs.fsm = .init)
  | .wrSubframe ch =>
    decide (s.regs.fsm = .headerWritten) && decide (ch = s.regs.subcnt.toNat)
      && decide (bsCodeOf s.regs.n.toNat = some s.regs.bsCode)
  | .wrFooter => decide (s.regs.fsm = .subframesWritten)
  | .nop | .reset | .cfgInit | .zigzag | .riceCount _ | .findParam | .maxPorder _ _ | .partSums _ _ _ _
  | .calcRice _ _ _ _ | .fixedRes _ _ | .welch _ | .autocorr _ | .levinson _ | .lsqFit _ _ | .quant _ _
  | .lpcRes _ _ | .orderEst _ _ | .subEncode _ | .subVerbatim _ | .encodeFrame => true

/-- Class 5 of R323: the used fields in the ranges of `30_encoding.md` R92, and ch < C. -/
def fieldsReady (i : Instr) (s : State) : Bool :=
  let c := s.regs.cfg.channels.toNat
  match i with
  | .bwPutu x | .bwPuts x => decide (x ≤ 32)
  | .bwRice k | .riceCount k => decide (k ≤ 14)
  | .maxPorder x y => decide (x ≤ 32) && decide (y ≤ 8)
  | .partSums ch x y z | .calcRice ch x y z =>
    decide (ch < c) && decide (x ≤ 32) && decide (y ≤ 8) && decide (z ≤ 8) && decide (y ≤ z)
  | .fixedRes ch x => decide (ch < c) && decide (x ≤ 4)
  | .welch ch | .subEncode ch | .subVerbatim ch | .wrSubframe ch => decide (ch < c)
  | .autocorr x | .levinson x => decide (1 ≤ x) && decide (x ≤ 32)
  | .lsqFit ch x | .lpcRes ch x => decide (ch < c) && decide (1 ≤ x) && decide (x ≤ 32)
  | .quant x y => decide (1 ≤ x) && decide (x ≤ 32) && decide (1 ≤ y) && decide (y ≤ 15)
  | .orderEst x y => decide (1 ≤ x) && decide (x ≤ y) && decide (y ≤ 32)
  | .stApply x => decide (x ≤ 3) && decide (c ≠ 2 → x = 0)
  | .frameInit z => decide (z ≤ 1)
  | .nop | .reset | .cfgInit | .wrStreaminfo | .bwInit | .bwFlush | .bwPos | .bwUtf8 | .crc8 | .crc16 | .zigzag
  | .findParam | .deinterleave | .stEstimate | .wrHeader | .wrFooter | .encodeFrame => true

/-- Class 6 of R323: lo ≤ N ≤ CFG_BLOCKSIZE for the commands that read N (2 for `WELCH` and `LSQ_FIT`, else 1). -/
def blockReady (i : Instr) (s : State) : Bool :=
  let inBlock := fun lo : Nat => decide (lo ≤ s.regs.n.toNat) && decide (s.regs.n.toNat ≤ s.regs.cfg.blocksize.toNat)
  match i with
  | .maxPorder _ _ | .partSums _ _ _ _ | .calcRice _ _ _ _ | .fixedRes _ _ | .autocorr _ | .lpcRes _ _
  | .subEncode _ | .subVerbatim _ | .deinterleave | .stEstimate | .stApply _ | .frameInit _ | .encodeFrame =>
    inBlock 1
  | .welch _ | .lsqFit _ _ => inBlock 2
  | .nop | .reset | .cfgInit | .wrStreaminfo | .bwInit | .bwPutu _ | .bwPuts _ | .bwFlush | .bwPos | .bwUtf8
  | .bwRice _ | .crc8 | .crc16 | .zigzag | .riceCount _ | .findParam | .levinson _ | .quant _ _ | .orderEst _ _
  | .wrHeader | .wrSubframe _ | .wrFooter => true

/-- Class 7 of R323: OUT_CAP at most OUT_SIZE, and at least 34 for `WR_STREAMINFO`. -/
def capacityReady (i : Instr) (s : State) : Bool :=
  let cap := s.regs.outCap.toNat
  match i with
  | .wrStreaminfo => decide (34 ≤ cap) && decide (cap ≤ 2097152)
  | .bwInit | .frameInit _ | .encodeFrame => decide (cap ≤ 2097152)
  | .nop | .reset | .cfgInit | .bwPutu _ | .bwPuts _ | .bwFlush | .bwPos | .bwUtf8 | .bwRice _ | .crc8 | .crc16
  | .zigzag | .riceCount _ | .findParam | .maxPorder _ _ | .partSums _ _ _ _ | .calcRice _ _ _ _ | .fixedRes _ _
  | .welch _ | .autocorr _ | .levinson _ | .lsqFit _ _ | .quant _ _ | .lpcRes _ _ | .orderEst _ _ | .subEncode _
  | .subVerbatim _ | .deinterleave | .stEstimate | .stApply _ | .wrHeader | .wrSubframe _ | .wrFooter => true

/-- lo ≤ v ≤ hi. -/
def inRange (lo v hi : Int) : Bool := decide (lo ≤ v) && decide (v ≤ hi)

/-- SUB[ch].obits is 16 or 17. -/
def obitsReady (s : State) (ch : Nat) : Bool :=
  decide (s.memRead .subrec (ch * 512 + 2) = 16) || decide (s.memRead .subrec (ch * 512 + 2) = 17)

/-- Every sample SMP[ch][0 .. n−1] is a 16-bit value, `44_stereo_decorrelation.md` R253. -/
def samplesNarrow (s : State) (ch n : Nat) : Bool :=
  (List.range n).all fun i => inRange (-32768) (s.memRead .smp (ch * 65536 + i)) 32767

/-- The record checks of `WR_SUBFRAME` in the order `45_frame_encoder.md` R269 lists them. -/
def recordAccepted (s : State) (ch : Nat) : Bool :=
  let field := fun f : Nat => s.memRead .subrec (ch * 512 + f)
  let n : Int := s.regs.n.toNat
  let type := field 0
  let order := field 1
  let predicted := decide (type = 2) || decide (type = 3)
  inRange 0 type 3
    && (decide (field 2 = 16) || decide (field 2 = 17))
    && (decide (type ≠ 2) || inRange 0 order 4)
    && (decide (type ≠ 3) || inRange 1 order 32)
    && (!predicted || decide (order ≤ n))
    && (decide (type ≠ 3) || (inRange 1 (field 3) 15 && inRange 0 (field 4) 15
        && (List.range order.toNat).all fun j =>
          inRange (-2 ^ ((field 3).toNat - 1)) (field (32 + j)) (2 ^ ((field 3).toNat - 1) - 1)))
    && (!predicted || (inRange 0 (field 5) 8 && decide (n % 2 ^ (field 5).toNat = 0)
        && decide (order ≤ n / 2 ^ (field 5).toNat)
        && (List.range (2 ^ (field 5).toNat)).all fun j => inRange 0 (field (256 + j)) 14))

/-- Class 8 of R323: operand registers, an order against N, records and memory values. (For `BW_PUTU` the range is that of
`47_common_semantics.md` R310, log 11.) -/
def operandsReady (i : Instr) (s : State) : Bool :=
  let a0 := s.regs.ops.a0.toInt
  let a1 := s.regs.ops.a1.toInt
  let n := s.regs.n.toNat
  match i with
  | .bwPutu x => inRange 0 a0 (2 ^ x - 1)
  | .bwUtf8 => inRange 0 a0 (2 ^ 36 - 1)
  | .bwRice _ => inRange (-2 ^ 31) a0 (2 ^ 31 - 1) && inRange 0 a1 (2 ^ 33)
  | .crc8 | .crc16 =>
    decide (0 ≤ a0) && decide (a0 ≤ a1) && decide (a1 ≤ (s.regs.bitpos.toNat / 8 : Nat))
      && decide (a1 ≤ (s.regs.bwCap.toNat : Int))
  | .zigzag => inRange (-2 ^ 31) a0 (2 ^ 31 - 1)
  | .riceCount _ | .findParam => inRange 0 a0 (2 ^ 49) && inRange 0 a1 65535
  | .maxPorder x _ => decide (x ≤ n)
  | .partSums _ x _ _ | .calcRice _ x _ _ => decide (x ≤ n)
  | .fixedRes _ x | .lpcRes _ x => decide (x ≤ n)
  | .subEncode ch | .subVerbatim ch => obitsReady s ch
  | .stApply x =>
    decide (x = 0) || (samplesNarrow s 0 n && samplesNarrow s 1 n && decide (s.memRead .subrec 2 = 16)
      && decide (s.memRead .subrec 514 = 16))
  | .wrSubframe ch => recordAccepted s ch
  | .nop | .reset | .cfgInit | .wrStreaminfo | .bwInit | .bwPuts _ | .bwFlush | .bwPos | .welch _
  | .autocorr _ | .levinson _ | .lsqFit _ _ | .quant _ _ | .orderEst _ _ | .deinterleave | .stEstimate
  | .frameInit _ | .wrHeader | .wrFooter | .encodeFrame => true

/-- The error of priority class 3 to 8 of R323 that a command meets, if any: the first in the order of the
classes. -/
def earlyError (i : Instr) (s : State) : Option ErrCode :=
  if !configReady i s then some .seq
  else if !stateReady i s then some .seq
  else if !fieldsReady i s then some .operand
  else if !blockReady i s then some .blockLen
  else if !capacityReady i s then some .capacity
  else if !operandsReady i s then some .operand
  else none

/-- The configuration is valid but for the sample rate and `LSQ_FIT`, or the error that the first failing check of
`46_context_commands.md` R304 gives. -/
def configError (c : Cfg) : Option ErrCode :=
  if ¬(1 ≤ c.channels.toNat ∧ c.channels.toNat ≤ 8) then some .cfgChannels
  else if srCodeOf c.sampleRate.toNat = none then some .cfgSampleRate
  else if ¬(16 ≤ c.blocksize.toNat ∧ c.blocksize.toNat ≤ 65535) then some .cfgBlocksize
  else if 12 < c.level.toNat then some .cfgLevel
  else if 2 < c.lpcType.toNat ∨ 5 < c.orderMethod.toNat then some .cfgEnum
  else if c.lpcType.toNat = 2 ∧ (Config.lsqFit.map fun f => f.accepts c.lpcPasses) ≠ some true then
    some .cfgUnsupported
  else if c.maxOrder.toNat < c.minOrder.toNat
      ∨ (c.lpcType.toNat = 0 ∧ 4 < c.maxOrder.toNat)
      ∨ (c.lpcType.toNat ≠ 0 ∧ ¬(1 ≤ c.maxOrder.toNat ∧ c.maxOrder.toNat ≤ 32)) then some .cfgOrder
  else if c.maxPorder.toNat < c.minPorder.toNat ∨ 8 < c.maxPorder.toNat then some .cfgPorder
  else if ¬(1 ≤ c.precision.toNat ∧ c.precision.toNat ≤ 15) then some .cfgPrecision
  else none

/-- The frame-size budget, `46_context_commands.md` R305. -/
def budget (c : Cfg) : Nat :=
  18 + (8 * c.channels.toNat
    + c.blocksize.toNat * (16 * c.channels.toNat + (if c.channels.toNat = 2 then 1 else 0)) + 7) / 8

/-! ## What a command leaves unchanged -/

/-- A range of a space: its first index and its length. -/
abbrev Range := Space × Nat × Nat

/-- Index `i` of the space lies in one of the ranges. -/
def covered (rs : List Range) (sp : Space) (i : Nat) : Bool :=
  rs.any fun r => decide (r.1 = sp) && decide (r.2.1 ≤ i) && decide (i < r.2.1 + r.2.2)

/-- Every element of every space outside the ranges is as before (an unspecified one stays unspecified), and so are
the accesses the host has yet to issue and the data of its last read. -/
def keptOutside (rs : List Range) (s t : State) : Prop :=
  (∀ sp i, covered rs sp i = false → memGet? t.mem sp i = memGet? s.mem sp i)
    ∧ t.host = s.host ∧ t.readData = s.readData

/-! ## The tables of the host's view -/

/-- STATUS.FSM of each state, `10_state.md` R22. -/
def fsmNumber : Fsm → Nat
  | .init => 0
  | .headerWritten => 1
  | .subframesWritten => 2
  | .footerWritten => 3
  | .done => 4
  | .overflowRetry => 5
  | .failed => 6
  | .idle => 7

/-- STATUS.ERR of each error, `60_exceptions.md` R321. -/
def errNumber : ErrCode → Nat
  | .noError => 0
  | .illegalCmd => 1
  | .seq => 2
  | .operand => 3
  | .cfgChannels => 4
  | .cfgSampleRate => 5
  | .cfgBlocksize => 6
  | .cfgLevel => 7
  | .cfgEnum => 8
  | .cfgOrder => 9
  | .cfgPorder => 10
  | .cfgPrecision => 11
  | .cfgUnsupported => 12
  | .blockLen => 13
  | .capacity => 14
  | .frameOverflow => 15
  | .residualRange => 16
  | .riceEscape => 17
  | .invariant => 18

/-- A row of the table of spaces: id, element width, whether the element is signed, and the valid indices. -/
structure SpaceRow where
  id : Nat
  width : Nat
  signed : Bool
  valid : Nat → Prop

/-- The table of `20_memory.md` R60, with the fields of R68 for SUBREC; a binary64 element is moved as an unsigned
64-bit pattern (R61, R66). -/
def spaceRow : Space → SpaceRow
  | .inp => ⟨0, 16, true, fun i => i ≤ 8 * 65535 - 1⟩
  | .smp => ⟨1, 32, true, fun i => ∃ ch j, ch ≤ 7 ∧ j ≤ 65534 ∧ i = ch * 65536 + j⟩
  | .res => ⟨2, 32, true, fun i => ∃ ch j, ch ≤ 7 ∧ j ≤ 65534 ∧ i = ch * 65536 + j⟩
  | .out => ⟨3, 8, false, fun i => i ≤ 2097152 - 1⟩
  | .win => ⟨4, 64, false, fun i => i ≤ 65534⟩
  | .autoc => ⟨5, 64, false, fun i => i ≤ 32⟩
  | .lpcf => ⟨6, 64, false, fun i => ∃ o j, 1 ≤ j ∧ j ≤ o ∧ o ≤ 32 ∧ i = (o - 1) * 32 + (j - 1)⟩
  | .refl => ⟨7, 64, false, fun i => ∃ o, 1 ≤ o ∧ o ≤ 32 ∧ i = o - 1⟩
  | .qc => ⟨8, 16, true, fun i => ∃ o j, 1 ≤ j ∧ j ≤ o ∧ o ≤ 32 ∧ i = (o - 1) * 32 + (j - 1)⟩
  | .qsh => ⟨9, 4, false, fun i => ∃ o, 1 ≤ o ∧ o ≤ 32 ∧ i = o - 1⟩
  | .sums => ⟨10, 64, false, fun i => ∃ p j, p ≤ 8 ∧ j < 2 ^ p ∧ i = p * 256 + j⟩
  | .stsum => ⟨11, 64, false, fun i => i ≤ 3⟩
  | .score => ⟨12, 64, true, fun i => i ≤ 3⟩
  | .subrec => ⟨13, 64, true, fun i => ∃ ch f, ch ≤ 7
      ∧ (f ≤ 6 ∨ (32 ≤ f ∧ f ≤ 63) ∨ (256 ≤ f ∧ f ≤ 511)) ∧ i = ch * 512 + f⟩

/-! ## The logical stream -/

/-- The w low bits of v, most significant first (`40_bit_writer.md` R143). -/
def msbBits (w : Nat) (v : Int) : List Bool :=
  (List.range w).map fun i => decide (v / ((2 ^ (w - 1 - i) : Nat) : Int) % 2 = 1)

/-- The number that bits make, the first the most significant. -/
def bitsToNat (bits : List Bool) : Nat := bits.foldl (fun a b => 2 * a + b.toNat) 0

/-- Byte j of a stream: the bit at position p is bit 7 − (p mod 8) of byte p div 8 (`20_memory.md` R69). -/
def streamByte (l : List Bool) (j : Nat) : Nat := bitsToNat ((l.drop (8 * j)).take 8)

/-- The complete bytes of a stream. -/
def streamBytes (l : List Bool) : List Byte :=
  (List.range (l.length / 8)).map fun j => BitVec.ofNat 8 (streamByte l j)

/-- One turn of the loop of `40_bit_writer.md` R152 and R153, for a checksum of w bits: the bit that leaves at the top
decides whether the generator polynomial is XORed in. -/
def crcTurn (w poly c : Nat) : Nat :=
  if c.testBit (w - 1) then ((c <<< 1) ^^^ poly) % 2 ^ w else (c <<< 1) % 2 ^ w

/-- The checksum of w bits after one more byte, most significant bit first. -/
def crcByte (w poly c b : Nat) : Nat := Nat.repeat (crcTurn w poly) 8 (c ^^^ (b <<< (w - 8)))

/-- The checksum of bytes, initial value 0. -/
def checksum (w poly : Nat) (bytes : List Byte) : Nat := bytes.foldl (fun c b => crcByte w poly c b.toNat) 0

/-- The CRC-8 of R152: generator x^8 + x^2 + x + 1. -/
def checksum8 (bytes : List Byte) : Nat := checksum 8 0x07 bytes

/-- The CRC-16 of R153: generator x^16 + x^15 + x^2 + 1. -/
def checksum16 (bytes : List Byte) : Nat := checksum 16 0x8005 bytes

/-- CRC-8 of the complete bytes of a stream (`10_state.md` R36). -/
def streamCrc8 (l : List Bool) : BitVec 8 := BitVec.ofNat 8 (checksum8 (streamBytes l))

/-- CRC-16 of the complete bytes of a stream (`10_state.md` R36). -/
def streamCrc16 (l : List Bool) : BitVec 16 := BitVec.ofNat 16 (checksum16 (streamBytes l))

/-- The logical stream of the writer is `l`: what `10_state.md` R53 says that the five things the hardware holds of it
equal. -/
structure StreamIs (s : State) (l : List Bool) : Prop where
  pos : s.regs.bitpos.toNat = l.length
  acc : s.regs.bwAcc.toNat = bitsToNat (l.drop (8 * (l.length / 8)))
  crc8 : s.regs.crc8Run = streamCrc8 l
  crc16 : s.regs.crc16Run = streamCrc16 l
  out : ∀ j, j < l.length / 8 → j < s.regs.bwCap.toNat → memGet? s.mem .out j = some (streamByte l j : Int)

/-- The bits were appended to the logical stream: BITPOS counts them, and of memory only the bytes of OUT that they
complete below BW.cap changed (`40_bit_writer.md` R141, R155). -/
structure Appended (s t : State) (bits : List Bool) : Prop where
  pos : t.regs.bitpos.toNat = s.regs.bitpos.toNat + bits.length
  stream : ∀ l, StreamIs s l → StreamIs t (l ++ bits)
  outside : ∀ j, (j < s.regs.bitpos.toNat / 8 ∨ (s.regs.bitpos.toNat + bits.length) / 8 ≤ j
    ∨ s.regs.bwCap.toNat ≤ j) → memGet? t.mem .out j = memGet? s.mem .out j
  kept : ∀ sp i, sp ≠ .out → memGet? t.mem sp i = memGet? s.mem sp i
  host : t.host = s.host ∧ t.readData = s.readData

/-- `r` with the writer's running registers as `q` has them: BITPOS, BW.acc and the two checksums. -/
def withWriter (r q : Regs) : Regs :=
  { r with bitpos := q.bitpos, bwAcc := q.bwAcc, crc8Run := q.crc8Run, crc16Run := q.crc16Run }

/-! ## Codes as the tables write them -/

/-- The bytes of a frame number, the table of `30_encoding.md` R108. -/
def frameNumberBytes (v : Nat) : List Nat :=
  if v < 2 ^ 7 then [v]
  else if v < 2 ^ 11 then [0xC0 + v / 2 ^ 6, 0x80 + v % 2 ^ 6]
  else if v < 2 ^ 16 then [0xE0 + v / 2 ^ 12, 0x80 + v / 2 ^ 6 % 2 ^ 6, 0x80 + v % 2 ^ 6]
  else if v < 2 ^ 21 then
    [0xF0 + v / 2 ^ 18, 0x80 + v / 2 ^ 12 % 2 ^ 6, 0x80 + v / 2 ^ 6 % 2 ^ 6, 0x80 + v % 2 ^ 6]
  else if v < 2 ^ 26 then
    [0xF8 + v / 2 ^ 24, 0x80 + v / 2 ^ 18 % 2 ^ 6, 0x80 + v / 2 ^ 12 % 2 ^ 6, 0x80 + v / 2 ^ 6 % 2 ^ 6,
      0x80 + v % 2 ^ 6]
  else if v < 2 ^ 31 then
    [0xFC + v / 2 ^ 30, 0x80 + v / 2 ^ 24 % 2 ^ 6, 0x80 + v / 2 ^ 18 % 2 ^ 6, 0x80 + v / 2 ^ 12 % 2 ^ 6,
      0x80 + v / 2 ^ 6 % 2 ^ 6, 0x80 + v % 2 ^ 6]
  else
    [0xFE, 0x80 + v / 2 ^ 30 % 2 ^ 6, 0x80 + v / 2 ^ 24 % 2 ^ 6, 0x80 + v / 2 ^ 18 % 2 ^ 6,
      0x80 + v / 2 ^ 12 % 2 ^ 6, 0x80 + v / 2 ^ 6 % 2 ^ 6, 0x80 + v % 2 ^ 6]

/-- The bits of a frame number. -/
def frameNumberBits (v : Nat) : List Bool := (frameNumberBytes v).flatMap fun b => msbBits 8 b

/-- The zigzag value, `41_rice_coder.md` R171. -/
def zigzagValue (v : Int) : Int := if 0 ≤ v then 2 * v else -2 * v - 1

/-- The Rice codeword of a residual, `30_encoding.md` R118. -/
def riceCode (k : Nat) (v : Int) : List Bool :=
  List.replicate (zigzagValue v / ((2 ^ k : Nat) : Int)).toNat false ++ [true]
    ++ msbBits k (zigzagValue v % ((2 ^ k : Nat) : Int))

/-! ## The Rice search -/

/-- RiceCount, `41_rice_coder.md` R172. -/
def riceCost (sum : Int) (n k : Nat) : Int :=
  (n : Int) * (k + 1) + (sum - (n / 2 : Nat)) / ((2 ^ k : Nat) : Int)

/-- k is the parameter `FindParam` picks: in 0 .. 14, of least cost, the smallest among equals (R173). -/
def BestParam (sum : Int) (n k : Nat) : Prop :=
  k ≤ 14 ∧ ∀ j, j ≤ 14 → riceCost sum n k ≤ riceCost sum n j ∧ (j < k → riceCost sum n k < riceCost sum n j)

/-- p is `MaxPorder (pmax, n, order)`: the greatest partition order up to pmax whose spans are equal and not shorter than
the prediction order (R174). -/
def IsMaxPorder (pmax n order p : Nat) : Prop :=
  (p ≤ pmax ∧ 2 ^ p ∣ n ∧ order ≤ n / 2 ^ p) ∧ ∀ q, q ≤ pmax → 2 ^ q ∣ n → order ≤ n / 2 ^ q → q ≤ p

/-- The first index of partition j at partition order p (R177). -/
def partStart (n order p j : Nat) : Nat := max (j * (n / 2 ^ p)) order

/-- The sum of the zigzag values of partition j at partition order p: indices max (j·L, order) .. (j+1)·L − 1 with
L = n >> p (R175, R177). -/
def partTotal (r : Nat → Int) (n order p j : Nat) : Int :=
  ((List.range' (partStart n order p j) ((j + 1) * (n / 2 ^ p) - partStart n order p j)).map
    fun i => zigzagValue (r i)).sum

/-- The number of residuals of partition j (R176). -/
def partCount (n order p j : Nat) : Nat := n / 2 ^ p - if j = 0 then order else 0

/-- A plan of partition order p with these parameters has this cost, each parameter as `FindParam` picks it (R176). -/
def IsPlanAt (r : Nat → Int) (n order p : Nat) (param : Nat → Nat) (bits : Int) : Prop :=
  (∀ j, j < 2 ^ p → BestParam (partTotal r n order p j) (partCount n order p j) (param j))
    ∧ bits = 4 * ((2 ^ p : Nat) : Int)
        + ((List.range (2 ^ p)).map fun j =>
            riceCost (partTotal r n order p j) (partCount n order p j) (param j)).sum

/-- The plan `CalcRice` picks: of least cost among the partition orders allowed, the smallest among equals (R176). -/
def IsBestPlan (r : Nat → Int) (n order pmin pmax p : Nat) (param : Nat → Nat) (bits : Int) : Prop :=
  ∃ lo hi, IsMaxPorder pmin n order lo ∧ IsMaxPorder pmax n order hi ∧ lo ≤ p ∧ p ≤ hi
    ∧ IsPlanAt r n order p param bits
    ∧ ∀ q param' bits', lo ≤ q → q ≤ hi → IsPlanAt r n order q param' bits' →
        bits ≤ bits' ∧ (q < p → bits < bits')

/-! ## Prediction -/

/-- The residual of a fixed predictor, `42_linear_predictor.md` R191. -/
def fixedDiff (order : Nat) (x : Nat → Int) (i : Nat) : Int :=
  if i < order then x i
  else
    match order with
    | 0 => x i
    | 1 => x i - x (i - 1)
    | 2 => x i - 2 * x (i - 1) + x (i - 2)
    | 3 => x i - 3 * x (i - 1) + 3 * x (i - 2) - x (i - 3)
    | _ => x i - 4 * x (i - 1) + 6 * x (i - 2) - 4 * x (i - 3) + x (i - 4)

/-- The residual of an LPC predictor with coefficients q 1 .. q order and a shift, R198. -/
def lpcDiff (order : Nat) (q : Nat → Int) (shift : Nat) (x : Nat → Int) (i : Nat) : Int :=
  if i < order then x i
  else x i - ((List.range' 1 order).map fun j => q j * x (i - j)).sum / ((2 ^ shift : Nat) : Int)

/-- A signed 32-bit integer. -/
def fits32 (v : Int) : Prop := -2 ^ 31 ≤ v ∧ v ≤ 2 ^ 31 - 1

/-- What `E_RESIDUAL_RANGE` may change of RES and the record: RES[ch], and SUB[ch] but for obits
(`60_exceptions.md` R324(c)). -/
def rangeScratch (ch : Nat) : List Range :=
  [(.res, ch * 65536, 65535), (.subrec, ch * 512, 2), (.subrec, ch * 512 + 3, 509)]

/-- The element holds the pattern of this real value (`20_memory.md` R66). -/
def HoldsReal (s : State) (sp : Space) (i : Nat) (v : Flt) : Prop :=
  ∃ b : Word64, memGet? s.mem sp i = some (b.toNat : Int) ∧ fltOfBits b = v

/-- What `E_RESIDUAL_RANGE` of `SUB_ENCODE` on the LPC path may change: besides, the working stores that path writes
(`60_exceptions.md` R324(c), R237; whole stores, log 8). -/
def lpcScratch (ch : Nat) : List Range :=
  rangeScratch ch ++ [Space.win, .autoc, .lpcf, .refl, .qc, .qsh, .sums].map fun sp => (sp, 0, 2097152)

/-- The real value an element is read as. -/
def realAt (s : State) (sp : Space) (i : Nat) : Flt := fltOfBits (BitVec.ofInt 64 (s.memRead sp i))

/-! ## Binary64 -/

/-- The binary64 values (`20_memory.md` R66): the special ones, and ±m·2^e with a 53-bit mantissa that is normalised
unless the exponent is the least. -/
def IsBinary64 : Flt → Prop
  | .nan => True
  | .inf _ => True
  | .fin _ m e => m < 2 ^ 53 ∧ -1074 ≤ e ∧ e ≤ 971 ∧ (2 ^ 52 ≤ m ∨ e = -1074)

/-- The rational number ±m·2^e. -/
def finValue (neg : Bool) (m : Nat) (e : Int) : ℚ := (if neg then -1 else 1) * m * 2 ^ e

/-- `z` is the rational q rounded to binary64, to nearest with ties to the even mantissa (`00_scope.md` R11,
`42_linear_predictor.md` R204): an infinity from half a unit beyond the greatest finite value on, else the closest
finite value. -/
def IsRounded (q : ℚ) (z : Flt) : Prop :=
  (2 ^ 1024 - 2 ^ 970 ≤ |q| → z = .inf (decide (q < 0)))
    ∧ (|q| < 2 ^ 1024 - 2 ^ 970 → ∃ neg m e, z = .fin neg m e ∧ IsBinary64 z
        ∧ (q < 0 → neg = true) ∧ (0 < q → neg = false)
        ∧ ∀ neg' m' e', IsBinary64 (.fin neg' m' e') →
            |q - finValue neg m e| ≤ |q - finValue neg' m' e'|
            ∧ (|q - finValue neg m e| = |q - finValue neg' m' e'| →
                finValue neg' m' e' = finValue neg m e ∨ m % 2 = 0))

/-! ## The search for a prediction order -/

/-- `o` has the least cost of the list, and is the first of the list that has it. -/
def FirstLeast (cost : Nat → Int) (orders : List Nat) (o : Nat) : Prop :=
  ∃ before after, orders = before ++ o :: after
    ∧ (∀ p ∈ before, cost o < cost p) ∧ ∀ p ∈ after, cost o ≤ cost p

/-- What one step of the log search adds to the orders evaluated: last − step, last and last + step, those in
lo .. hi that have not been evaluated (`42_linear_predictor.md` R203). -/
def logRound (lo hi step last : Nat) (evaluated : List Nat) : List Nat :=
  evaluated ++ (([(last : Int) - step, last, last + step].filter fun o => inRange lo o hi).map Int.toNat).filter
    fun o => decide (o ∉ evaluated)

/-- The log search with these steps still to come leaves the orders `all` evaluated, in that order, and picks `opt`
(R203). -/
def LogSearch (cost : Nat → Int) (lo hi : Nat) :
    (steps : List Nat) → (last : Nat) → (evaluated all : List Nat) → (opt : Nat) → Prop
  | [], last, evaluated, all, opt => all = evaluated ∧ opt = last
  | step :: steps, last, evaluated, all, opt =>
    ∃ next, FirstLeast cost (logRound lo hi step last evaluated) next
      ∧ LogSearch cost lo hi steps next (logRound lo hi step last evaluated) all opt

/-- CFG_ORDER_METHOD `method` evaluates the orders `all` of lo .. hi, in that order, and selects `opt`; `est` is the order
that `ORDER_EST` gives (`42_linear_predictor.md` R199 to R203, `43_subframe_encoder.md` R235). -/
def Selects (method est : Nat) (cost : Nat → Int) (lo hi : Nat) (all : List Nat) (opt : Nat) : Prop :=
  match method with
  | 0 => all = [est] ∧ opt = est
  | 1 | 2 | 3 => all.Pairwise (· < ·) ∧ FirstLeast cost all opt
      ∧ ∀ o, o ∈ all ↔ ∃ i, i < 2 ^ method ∧ o = max (lo + (hi - lo + 1) * (i + 1) / 2 ^ method - 1) lo
  | 4 => all = List.range' lo (hi + 1 - lo) ∧ FirstLeast cost all opt
  | 5 => LogSearch cost lo hi [16, 8, 4, 2, 1] (lo + (hi - lo) / 3) [] all opt
  | _ => False

/-! ## Stereo -/

/-- The sum of |X[i] − 2·X[i−1] + X[i−2]| for i in 2 .. n−1, `44_stereo_decorrelation.md` R252. -/
def secondDiffs (x : Nat → Int) (n : Nat) : Int :=
  ((List.range' 2 (n - 2)).map fun i => ((x i - 2 * x (i - 1) + x (i - 2)).natAbs : Int)).sum

/-! ## The layout of a frame -/

/-- Sample ch, i as a command reads it. -/
def sampleAt (s : State) (ch i : Nat) : Int := s.memRead .smp (ch * 65536 + i)

/-- RES[ch][i] as a command reads it. -/
def residualAt (s : State) (ch i : Nat) : Int := s.memRead .res (ch * 65536 + i)

/-- Field f of SUB[ch] as a command reads it (`20_memory.md` R68). -/
def recordAt (s : State) (ch f : Nat) : Int := s.memRead .subrec (ch * 512 + f)

/-- The frame header but for its CRC-8, the table of `30_encoding.md` R100. -/
def headerLayout (r : Regs) : List Bool :=
  let bs := r.bsCode.toNat
  let sr := r.srCode.toNat
  msbBits 14 0x3FFE ++ [false] ++ [false] ++ msbBits 4 (bs % 16 : Nat) ++ msbBits 4 (sr % 16 : Nat)
    ++ msbBits 4 (if r.chMode.toNat = 0 then (r.cfg.channels.toNat : Int) - 1 else 7 + r.chMode.toNat)
    ++ msbBits 3 4 ++ [false] ++ frameNumberBits r.frameCount.toNat
    ++ (if bs % 16 = 6 then msbBits 8 (bs / 16 : Nat) else if bs % 16 = 7 then msbBits 16 (bs / 16 : Nat) else [])
    ++ (if sr % 16 = 12 then msbBits 8 (sr / 16 : Nat)
        else if sr % 16 = 13 ∨ sr % 16 = 14 then msbBits 16 (sr / 16 : Nat) else [])

/-- The residual section, `30_encoding.md` R117. -/
def residualLayout (r : Nat → Int) (n order porder : Nat) (param : Nat → Int) : List Bool :=
  msbBits 2 0 ++ msbBits 4 porder
    ++ (List.range (2 ^ porder)).flatMap fun j =>
      msbBits 4 (param j)
        ++ (List.range' (partStart n order porder j)
            ((j + 1) * (n / 2 ^ porder) - partStart n order porder j)).flatMap
          fun i => riceCode (param j).toNat (r i)

/-- The subframe of a channel, `30_encoding.md` R111 to R117: header, then the body by the record's type. -/
def subframeLayout (s : State) (ch : Nat) : List Bool :=
  let n := s.regs.n.toNat
  let order := (recordAt s ch 1).toNat
  let obits := (recordAt s ch 2).toNat
  let samples := fun m => (List.range m).flatMap fun i => msbBits obits (residualAt s ch i)
  let rest := residualLayout (residualAt s ch) n order (recordAt s ch 5).toNat fun j => recordAt s ch (256 + j)
  let head := fun code : Int => [false] ++ msbBits 6 code ++ [false]
  if recordAt s ch 0 = 0 then head 0 ++ samples 1
  else if recordAt s ch 0 = 1 then head 1 ++ samples n
  else if recordAt s ch 0 = 2 then head (8 + order) ++ samples order ++ rest
  else
    head (32 + (order - 1 : Int)) ++ samples order
      ++ msbBits 4 (recordAt s ch 3 - 1) ++ msbBits 5 (recordAt s ch 4)
      ++ ((List.range order).flatMap fun j => msbBits (recordAt s ch 3).toNat (recordAt s ch (32 + j)))
      ++ rest

/-! ## A reader of the stream -/

/-- Read w bits as a natural number. -/
def readNat (w : Nat) (l : List Bool) : Option (Nat × List Bool) :=
  if l.length < w then none else some (bitsToNat (l.take w), l.drop w)

/-- Read w bits as a two's-complement number. -/
def readInt (w : Nat) (l : List Bool) : Option (Int × List Bool) :=
  (readNat w l).map fun r => (if 2 * r.1 < 2 ^ w then (r.1 : Int) else (r.1 : Int) - ((2 ^ w : Nat) : Int), r.2)

/-- Read `count` items. -/
def readMany {α : Type} (item : List Bool → Option (α × List Bool)) :
    Nat → List Bool → Option (List α × List Bool)
  | 0, l => some ([], l)
  | count + 1, l => do
    let (a, l1) ← item l
    let (as, l2) ← readMany item count l1
    pure (a :: as, l2)

/-- Read zeros up to and with the first one: how many. -/
def readZeros : List Bool → Option (Nat × List Bool)
  | [] => none
  | true :: l => some (0, l)
  | false :: l => (readZeros l).map fun r => (r.1 + 1, r.2)

/-- The signed value of a zigzag value. -/
def unzigzag (u : Nat) : Int := if u % 2 = 0 then ((u / 2 : Nat) : Int) else -((u / 2 : Nat) : Int) - 1

/-- Read one Rice codeword, `30_encoding.md` R118. -/
def readRice (k : Nat) (l : List Bool) : Option (Int × List Bool) := do
  let (q, l1) ← readZeros l
  let (low, l2) ← readNat k l1
  pure (unzigzag (q * 2 ^ k + low), l2)

/-- Read `count` following bytes of a frame number, each 0b10xxxxxx, onto the bits that the first byte carries. -/
def readFollowing (count lead : Nat) (l : List Bool) : Option (Nat × List Bool) := do
  let (bytes, l1) ← readMany (readNat 8) count l
  if bytes.all fun c => decide (c / 64 = 2) then some (bytes.foldl (fun v c => v * 64 + c % 64) lead, l1)
  else none

/-- Read a frame number, `30_encoding.md` R108: the first byte tells how many follow. -/
def readFrameNumber (l : List Bool) : Option (Nat × List Bool) := do
  let (b, l1) ← readNat 8 l
  if b < 0x80 then readFollowing 0 b l1
  else if b < 0xC0 then none
  else if b < 0xE0 then readFollowing 1 (b - 0xC0) l1
  else if b < 0xF0 then readFollowing 2 (b - 0xE0) l1
  else if b < 0xF8 then readFollowing 3 (b - 0xF0) l1
  else if b < 0xFC then readFollowing 4 (b - 0xF8) l1
  else if b < 0xFE then readFollowing 5 (b - 0xFC) l1
  else if b = 0xFE then readFollowing 6 0 l1
  else none

/-- The weighted sum of earlier samples, the latest first. -/
def weigh : List Int → List Int → Int
  | q :: qs, x :: xs => q * x + weigh qs xs
  | _, _ => 0

/-- The samples a reader makes of residuals: residual plus prediction, from the samples before (latest first), R198. -/
def rebuildFrom (q : List Int) (shift : Nat) (before : List Int) : List Int → List Int
  | [] => []
  | r :: rs =>
    let x := r + weigh q before / ((2 ^ shift : Nat) : Int)
    x :: rebuildFrom q shift (x :: before) rs

/-- The samples of a residual sequence: `order` warm-up samples, then residuals (`42_linear_predictor.md` R190, R198). -/
def rebuild (order : Nat) (q : List Int) (shift : Nat) (res : List Int) : List Int :=
  res.take order ++ rebuildFrom q shift (res.take order).reverse (res.drop order)

/-- The weights of a fixed predictor, nearest sample first (R191). -/
def fixedWeights (order : Nat) : List Int :=
  [[], [1], [2, -1], [3, -3, 1], [4, -6, 4, -1]].getD order []

/-- Read a residual section, `30_encoding.md` R117, R177: the residuals after the warm-up samples. -/
def readResiduals (n order : Nat) (l : List Bool) : Option (List Int × List Bool) := do
  let (method, l1) ← readNat 2 l
  let (porder, l2) ← readNat 4 l1
  if method ≠ 0 then none
  else
    (List.range (2 ^ porder)).foldlM
      (fun acc j => do
        let (k, l3) ← readNat 4 acc.2
        let (rs, l4) ← readMany (readRice k) (n / 2 ^ porder - if j = 0 then order else 0) l3
        pure (acc.1 ++ rs, l4))
      (([] : List Int), l2)

/-- Read a subframe of a channel of n samples of `obits` bits, `30_encoding.md` R111 to R118, and rebuild its
samples. -/
def readSubframe (n obits : Nat) (l : List Bool) : Option (List Int × List Bool) := do
  let (first, l1) ← readNat 1 l
  let (code, l2) ← readNat 6 l1
  let (wasted, l3) ← readNat 1 l2
  if first ≠ 0 ∨ wasted ≠ 0 then none
  else if code = 0 then do
    let (v, l4) ← readInt obits l3
    pure (List.replicate n v, l4)
  else if code = 1 then readMany (readInt obits) n l3
  else if 8 ≤ code ∧ code ≤ 12 then do
    let (warm, l4) ← readMany (readInt obits) (code - 8) l3
    let (res, l5) ← readResiduals n (code - 8) l4
    pure (rebuild (code - 8) (fixedWeights (code - 8)) 0 (warm ++ res), l5)
  else if 32 ≤ code then do
    let (warm, l4) ← readMany (readInt obits) (code - 31) l3
    let (prec, l5) ← readNat 4 l4
    let (shift, l6) ← readNat 5 l5
    let (q, l7) ← readMany (readInt (prec + 1)) (code - 31) l6
    let (res, l8) ← readResiduals n (code - 31) l7
    pure (rebuild (code - 31) q shift (warm ++ res), l8)
  else none

/-- What a reader makes of the two channels of a stereo mode, `44_stereo_decorrelation.md` R253. -/
def undoStereo (mode : Nat) (x0 x1 : Int) : Int × Int :=
  match mode with
  | 1 => (x0, x0 - x1)
  | 2 => (x1 + x0, x1)
  | 3 => ((2 * x0 + x1 % 2 + x1) / 2, (2 * x0 + x1 % 2 - x1) / 2)
  | _ => (x0, x1)

/-- The sample rate a SR_CODE stands for, `30_encoding.md` R105. -/
def rateOf (v : BitVec 20) : Option Nat :=
  let escape := v.toNat / 16
  match v.toNat % 16 with
  | 4 => some 8000
  | 5 => some 16000
  | 6 => some 22050
  | 7 => some 24000
  | 8 => some 32000
  | 9 => some 44100
  | 10 => some 48000
  | 11 => some 96000
  | 12 => some (escape * 1000)
  | 13 => some escape
  | 14 => some (escape * 10)
  | _ => none

/-- The block size a BS_CODE stands for, `30_encoding.md` R104. -/
def blockOf (v : BitVec 20) : Option Nat :=
  let escape := v.toNat / 16
  match v.toNat % 16 with
  | 1 => some 192
  | 2 => some 576
  | 3 => some 1152
  | 4 => some 2304
  | 5 => some 4608
  | 6 => some (escape + 1)
  | 7 => some (escape + 1)
  | 8 => some 256
  | 9 => some 512
  | 10 => some 1024
  | 11 => some 2048
  | 12 => some 4096
  | 13 => some 8192
  | 14 => some 16384
  | 15 => some 32768
  | _ => none

/-! ## The frame, command by command -/

/-- Run commands in order; the first that reports an error ends the run. -/
def runCommands : List Instr → State → Except State State
  | [], s => .ok s
  | i :: rest, s =>
    match exec i s with
    | .next t => if t.regs.err = .noError then runCommands rest t else .error t
    | _ => .error s

/-- One attempt at serializing the frame: `FRAME_INIT`, `WR_HEADER`, the `WR_SUBFRAME`s and `WR_FOOTER`. -/
def attemptCommands (channels retry : Nat) : List Instr :=
  [.frameInit retry, .wrHeader] ++ (List.range channels).map .wrSubframe ++ [.wrFooter]

/-- The step commands of `45_frame_encoder.md` R280, each run as the host would issue it. -/
def stepFrame (s : State) : Except State State := do
  let channels := s.regs.cfg.channels.toNat
  let split ← runCommands [.deinterleave] s
  let ready ← if channels = 2 then do
      let chosen ← runCommands [.stEstimate] split
      runCommands [.stApply chosen.regs.chMode.toNat] chosen
    else pure split
  let first ← runCommands ((List.range channels).map .subEncode ++ attemptCommands channels 0) ready
  if first.regs.fsm = .overflowRetry then
    runCommands ((List.range channels).map .subVerbatim ++ attemptCommands channels 1) first
  else pure first

/-- What an `ENCODE_FRAME` that fails during execution may change of memory: everything but IN and the bytes of OUT at
and above the capacity (`60_exceptions.md` R324(g), `93_implementation_defined.md` U5). -/
def frameScratch (cap : Nat) : List Range :=
  (Space.out, 0, cap) :: [Space.smp, .res, .win, .autoc, .lpcf, .refl, .qc, .qsh, .sums, .stsum, .score, .subrec].map
    fun sp => (sp, 0, 2097152)

/-! ## Invariants -/

/-- What every run keeps of the registers. -/
structure RegsInv (r : Regs) : Prop where
  /-- FOOTER_WRITTEN is never visible to the host (`10_state.md` R22). -/
  footer : r.fsm ≠ .footerWritten
  /-- A locked configuration is valid, with the budget and the rate code derived from it (R47, `46_context_commands.md`
  R303 to R306). -/
  locked : r.cfgOk = true → configError r.cfg = none ∧ r.maxFramesize.toNat = budget r.cfg
    ∧ some r.srCode = srCodeOf r.cfg.sampleRate.toNat
  /-- Nothing is in progress without a configuration (R54, R303). -/
  unlocked : r.cfgOk = false → r.fsm = .idle ∧ r.bwOk = false ∧ r.frameOk = false ∧ r.chMode = 0
    ∧ r.frameCount = 0
  /-- CH_MODE is 0 unless there are two channels (R32). -/
  mode : r.chMode ≠ 0 → r.cfg.channels.toNat = 2
  /-- BW.acc has BITPOS mod 8 bits (R53). -/
  acc : r.bwAcc.toNat < 2 ^ (r.bitpos.toNat % 8)
  /-- The capacity latched is at most OUT_SIZE (`20_memory.md` R65). -/
  cap : r.bwCap.toNat ≤ 2097152
  /-- SUBCNT counts the subframes written (R23, `45_frame_encoder.md` R266). -/
  count : r.subcnt.toNat ≤ 8 ∧ (r.fsm = .init → r.subcnt = 0)
    ∧ (r.fsm = .headerWritten → r.subcnt.toNat < r.cfg.channels.toNat)
    ∧ (r.fsm = .subframesWritten → r.subcnt.toNat = r.cfg.channels.toNat)
  /-- A frame in progress owns an initialised writer (`40_bit_writer.md` R154) and has a block-size code. -/
  owner : (r.fsm = .init ∨ r.fsm = .headerWritten ∨ r.fsm = .subframesWritten) →
    r.bwOk = true ∧ ∃ n, bsCodeOf n = some r.bsCode
  /-- A complete frame fits the budget and the capacity, and the FSM is DONE (R29, R277). -/
  complete : r.frameOk = true → r.fsm = .done ∧ r.outLen.toNat ≤ r.maxFramesize.toNat
    ∧ r.outLen.toNat ≤ r.bwCap.toNat
  /-- The retry is still to come in OVERFLOW_RETRY (R278). -/
  retry : r.fsm = .overflowRetry → r.retried = false
  /-- An error is remembered (`60_exceptions.md` R328). -/
  sticky : r.err ≠ .noError → r.errSticky = true

/-- Every element list is in canonical form and lists only indices that `20_memory.md` R60 calls valid (R79). -/
def MemInv (m : Mems) : Prop :=
  Memory.wf m = true ∧ ∀ sp i, (memGet? m sp i).isSome = true → (spaceRow sp).valid i

end Sys2Proof.Machine
end

