-- ==== Sys2Proof/Certificates/Slice0/Obligations.lean ====
section
/-!
DEFINITION. The statements for the provers. Each says of the spec's numbered rules what its docstring cites; the terms
are those of `Safety.lean`. Where a clause rests on a choice of the model, the docstring names the log entry.
-/
open Sys2Proof Sys2Proof.Machine

/-! ## Encoding and decoding -/

/-- Every well-formed command, with every field at every value its bits hold, decodes from its word
(`30_encoding.md` R90, R92, R95). -/
def Obligations.decode_of_encode : Prop :=
  ∀ i : Instr, WellFormed i = true → decode (encode i) = .ok i

/-- A word that decodes is the word of the command it decodes to, and that command is well-formed: no two words are one
command, and no bit of a word is dropped (R90, R91). -/
def Obligations.encode_of_decode : Prop :=
  ∀ (w : Word32) (i : Instr), decode w = .ok i → WellFormed i = true ∧ encode i = w

/-- A word written out from the encoding of R90 and R92 for each of the 37 rows of R92 decodes to the command it stands
for; that of `FIXED_RES` is the word R95 assembles. (A used field is decoded at every value of its bits, whatever the
range of R92, R91.) -/
def Obligations.sample_words_decode : Prop :=
  (decode 0b00000000000000000000000000000000#32 = .ok .nop
    ∧ decode 0b00000001000000000000000000000000#32 = .ok .reset
    ∧ decode 0b00000010000000000000000000000000#32 = .ok .cfgInit
    ∧ decode 0b00000011000000000000000000000000#32 = .ok .wrStreaminfo)
  ∧ (decode 0b00010000000000000000000000000000#32 = .ok .bwInit
    ∧ decode 0b00010001000000111000000000000000#32 = .ok (.bwPutu 14)
    ∧ decode 0b00010010000001110100000000000000#32 = .ok (.bwPuts 29)
    ∧ decode 0b00010011000000000000000000000000#32 = .ok .bwFlush
    ∧ decode 0b00010100000000000000000000000000#32 = .ok .bwPos
    ∧ decode 0b00010101000000000000000000000000#32 = .ok .bwUtf8
    ∧ decode 0b00010110000001110100000000000000#32 = .ok (.bwRice 29)
    ∧ decode 0b00010111000000000000000000000000#32 = .ok .crc8
    ∧ decode 0b00011000000000000000000000000000#32 = .ok .crc16)
  ∧ (decode 0b00100000000000000000000000000000#32 = .ok .zigzag
    ∧ decode 0b00100001000001110100000000000000#32 = .ok (.riceCount 29)
    ∧ decode 0b00100010000000000000000000000000#32 = .ok .findParam
    ∧ decode 0b00100011000001110100101100000000#32 = .ok (.maxPorder 29 11)
    ∧ decode 0b00100100011101110100101100000110#32 = .ok (.partSums 7 29 11 6)
    ∧ decode 0b00100101000100001000000100001000#32 = .ok (.calcRice 1 2 1 8))
  ∧ (decode 0x30008000#32 = .ok (.fixedRes 0 2)
    ∧ decode 0b00110001011100000000000000000000#32 = .ok (.welch 7)
    ∧ decode 0b00110010000001110100000000000000#32 = .ok (.autocorr 29)
    ∧ decode 0b00110011000001110100000000000000#32 = .ok (.levinson 29)
    ∧ decode 0b00110100011101110100000000000000#32 = .ok (.lsqFit 7 29)
    ∧ decode 0b00110101000001110100101100000000#32 = .ok (.quant 29 11)
    ∧ decode 0b00110110011101110100000000000000#32 = .ok (.lpcRes 7 29)
    ∧ decode 0b00110111000001110100101100000000#32 = .ok (.orderEst 29 11))
  ∧ (decode 0b01000000011100000000000000000000#32 = .ok (.subEncode 7)
    ∧ decode 0b01000001011100000000000000000000#32 = .ok (.subVerbatim 7))
  ∧ (decode 0b01010000000000000000000000000000#32 = .ok .deinterleave
    ∧ decode 0b01010001000000000000000000000000#32 = .ok .stEstimate
    ∧ decode 0b01010010000000001100000000000000#32 = .ok (.stApply 3))
  ∧ (decode 0b01100000000000000000000000000001#32 = .ok (.frameInit 1)
    ∧ decode 0b01100001000000000000000000000000#32 = .ok .wrHeader
    ∧ decode 0b01100010011100000000000000000000#32 = .ok (.wrSubframe 7)
    ∧ decode 0b01100011000000000000000000000000#32 = .ok .wrFooter
    ∧ decode 0b01100100000000000000000000000000#32 = .ok .encodeFrame)

/-- The reserved opcodes of R93 are refused: the command records `E_ILLEGAL_CMD` and nothing but STATUS.ERR and
STATUS.ERR_STICKY changes. The word of `NOP` has all fields zero. -/
def Obligations.reserved_opcodes_are_illegal : Prop :=
  encode .nop = 0x00000000#32 ∧ ∀ (w : Word32) (s : State),
    let op := w.toNat / 2 ^ 24
    ((0x04 ≤ op ∧ op ≤ 0x0F) ∨ (0x19 ≤ op ∧ op ≤ 0x1F) ∨ (0x26 ≤ op ∧ op ≤ 0x2F) ∨ (0x38 ≤ op ∧ op ≤ 0x3F)
      ∨ (0x42 ≤ op ∧ op ≤ 0x4F) ∨ (0x53 ≤ op ∧ op ≤ 0x5F) ∨ (0x65 ≤ op ∧ op ≤ 0xFF)) →
    runWord w s = .next { s with regs := { s.regs with err := .illegalCmd, errSticky := true } }

/-- A word with the opcode of a command but not its word at any values of its used fields has a nonzero field
that the command does not use: `E_ILLEGAL_CMD`, and nothing else changes (R91). Every word is such a word, a word of a
reserved opcode, or the word of a command. -/
def Obligations.unused_fields_are_illegal : Prop :=
  ∀ (w : Word32) (s : State), (∀ i : Instr, WellFormed i = true → encode i ≠ w) →
    runWord w s = .next { s with regs := { s.regs with err := .illegalCmd, errSticky := true } }

/-! ## The host's accesses -/

/-- A write of any word to CMD takes the access off the list and runs the low 32 bits as a command word (`10_state.md`
R26), as `runWord` does in the two statements above: the step is `exec` of the command they decode to, and where they
decode to none it records `E_ILLEGAL_CMD` and changes nothing else (R91, R93). -/
def Obligations.step_runs_decoded : Prop :=
  ∀ (s : State) (data : Word64) (rest : List HostAction), s.host = .wreg 0x02 data :: rest →
    let w : Word32 := data.setWidth 32
    step s = runWord w { s with host := rest }
      ∧ (∀ i : Instr, decode w = .ok i → step s = exec i { s with host := rest })
      ∧ ((∀ i : Instr, decode w ≠ .ok i) →
        step s = .next { s with host := rest, regs := { s.regs with err := .illegalCmd, errSticky := true } })

/-- The other accesses: a read of a register returns its value and changes nothing else, a write goes to that
register alone, and so for the memory port; the reset input puts every register at its reset value and leaves no element
known; with no access left nothing changes (`10_state.md` R55, `20_memory.md` R74, `70_reset_and_hazards.md` R350; the
list of accesses and the read data are the model's, logs 1 and 15). -/
def Obligations.step_other_accesses : Prop :=
  ∀ (s : State) (rest : List HostAction),
    (s.host = [] → step s = .next s)
    ∧ (∀ number, s.host = .rreg number :: rest →
        step s = .next { s with host := rest, readData := readRegister s.regs number })
    ∧ (∀ number data, number ≠ 0x02 → s.host = .wreg number data :: rest →
        step s = .next { s with host := rest, regs := writeRegister s.regs number data })
    ∧ (∀ space index, s.host = .rmem space index :: rest →
        step s = .next { s with host := rest, readData := portRead s space index })
    ∧ (∀ space index data, s.host = .wmem space index data :: rest →
        step s = .next (portWrite { s with host := rest } space index data))
    ∧ (s.host = .resetInput :: rest →
        ∃ t, step s = .next t ∧ t.regs = State.reset.regs ∧ t.mem = State.reset.mem ∧ t.host = rest)

/-- The register map as the port reads it, `10_state.md` R24: every number, the constant ID, STATUS field by field (R23, with
the eight states of R22 and the nineteen error codes of `60_exceptions.md` R321), the write-only CMD and the unassigned
numbers, which read 0 (R55). -/
def Obligations.register_map_reads : Prop :=
  ∀ (r : Regs) (number : Nat),
    (readRegister r number).toNat =
      if number = 0x00 then 0x4C504231
      else if number = 0x01 then
        (if r.cfgOk then 1 else 0) + (if r.bwOk then 2 else 0) + (if r.frameOk then 4 else 0)
          + (if r.retried then 8 else 0) + 16 * fsmNumber r.fsm + 256 * r.subcnt.toNat + 65536 * errNumber r.err
          + (if r.errSticky then 16777216 else 0)
      else if number = 0x03 then r.n.toNat
      else if number = 0x04 then r.outCap.toNat
      else if number = 0x05 then r.outLen.toNat
      else if number = 0x06 then r.bitpos.toNat
      else if number = 0x07 then r.frameCount.toNat
      else if number = 0x08 then r.chMode.toNat
      else if number = 0x09 then r.maxFramesize.toNat
      else if number = 0x0A then r.bsCode.toNat
      else if number = 0x0B then r.srCode.toNat
      else if number = 0x0C then r.crc8Run.toNat
      else if number = 0x0D then r.crc16Run.toNat
      else if number = 0x10 then r.cfg.channels.toNat
      else if number = 0x11 then r.cfg.sampleRate.toNat
      else if number = 0x12 then r.cfg.blocksize.toNat
      else if number = 0x13 then r.cfg.level.toNat
      else if number = 0x14 then r.cfg.lpcType.toNat
      else if number = 0x15 then r.cfg.lpcPasses.toNat
      else if number = 0x16 then r.cfg.minOrder.toNat
      else if number = 0x17 then r.cfg.maxOrder.toNat
      else if number = 0x18 then r.cfg.orderMethod.toNat
      else if number = 0x19 then r.cfg.minPorder.toNat
      else if number = 0x1A then r.cfg.maxPorder.toNat
      else if number = 0x1B then r.cfg.precision.toNat
      else if number = 0x20 then r.ops.a0.toNat
      else if number = 0x21 then r.ops.a1.toNat
      else if number = 0x22 then r.ops.a2.toNat
      else if number = 0x23 then r.ops.a3.toNat
      else if number = 0x24 then r.ops.a4.toNat
      else if number = 0x25 then r.ops.a5.toNat
      else if number = 0x26 then r.ops.a6.toNat
      else if number = 0x27 then r.ops.a7.toNat
      else 0

/-- A write through the register port, `10_state.md` R24, R47, R55: N, OUT_CAP and the CFG_* registers keep the low 32
bits and a0 to a7 all 64; a CFG_* register ignores the write while CFG_OK is 1; every other number ignores it; and no
other register reads differently afterwards. -/
def Obligations.register_port_writes : Prop :=
  ∀ (r : Regs) (number read : Nat) (data : Word64),
    (readRegister (writeRegister r number data) read).toNat =
      if read = number ∧ (number = 0x03 ∨ number = 0x04
          ∨ (0x10 ≤ number ∧ number ≤ 0x1B ∧ r.cfgOk = false)) then data.toNat % 2 ^ 32
      else if read = number ∧ 0x20 ≤ number ∧ number ≤ 0x27 then data.toNat
      else (readRegister r read).toNat

/-- The memory port, `20_memory.md` R61 over the table of R60 and R68 (`spaceRow`): after a write, a read of the same
element of an assigned space at a valid index returns the low bits of the data read as the element's type and extended,
every other element reads as before, and no register changes; an unassigned space or an index that is not valid reads 0
and ignores the write. -/
def Obligations.memory_port_round_trip : Prop :=
  (∀ (s : State) (sp : Space) (index : Nat) (data : Word64), (spaceRow sp).valid index →
    let row := spaceRow sp
    portRead (portWrite s row.id index data) row.id index
        = (if row.signed then (data.setWidth row.width).signExtend 64 else (data.setWidth row.width).setWidth 64)
      ∧ keptOutside [(sp, index, 1)] s (portWrite s row.id index data)
      ∧ (portWrite s row.id index data).regs = s.regs)
  ∧ (∀ (s : State) (space index : Nat) (data : Word64),
      (14 ≤ space ∨ ∃ sp : Space, (spaceRow sp).id = space ∧ ¬(spaceRow sp).valid index) →
      portRead s space index = 0 ∧ portWrite s space index data = s)

/-! ## Reset and configuration -/

/-- The reset values, `10_state.md` R54 with `70_reset_and_hazards.md` R350, R351: after power-on ID reads its constant,
STATUS 0x00000070 and every other register 0, BW.cap is 0, BW.acc empty and no memory element is known; the reset input
leaves the same; the command `RESET` puts every register at its reset value and leaves memories, records and stores as
they are (`46_context_commands.md` R302). -/
def Obligations.reset_values : Prop :=
  (∀ number, readRegister State.reset.regs number
      = if number = 0x00 then 0x4C504231 else if number = 0x01 then 0x00000070 else 0)
    ∧ State.reset.regs.bwCap = 0 ∧ State.reset.regs.bwAcc = 0
    ∧ (∀ sp i, memGet? State.reset.mem sp i = none)
    ∧ (∀ (s : State) (rest : List HostAction), s.host = .resetInput :: rest →
        ∃ t, step s = .next t ∧ t.regs = State.reset.regs ∧ ∀ sp i, memGet? t.mem sp i = none)
    ∧ ∀ s : State, exec .reset s = .next { s with regs := State.reset.regs }

/-- `NOP` changes STATUS.ERR alone, which becomes 0 (`46_context_commands.md` R301). -/
def Obligations.nop_clears_err : Prop :=
  ∀ s : State, exec .nop s = .next { s with regs := { s.regs with err := .noError } }

/-- `CFG_INIT`, `46_context_commands.md` R303 to R306: the stream state is cleared; a configuration that every check of
R304 accepts is locked with its frame-size budget and its rate code; otherwise the first failing check gives the
error. Nothing else changes. (The rate code itself is the statement `sample_rate_code`.) -/
def Obligations.cfg_init_locks_or_rejects : Prop :=
  ∀ s : State,
    let r := { s.regs with
      frameCount := 0, chMode := 0, bsCode := 0, outLen := 0, bitpos := 0, crc8Run := 0, crc16Run := 0, bwAcc := 0,
      bwCap := 0, bwOk := false, frameOk := false, retried := false, subcnt := 0, fsm := .idle }
    match configError s.regs.cfg with
    | none => ∃ code, srCodeOf s.regs.cfg.sampleRate.toNat = some code ∧
        exec .cfgInit s = .next { s with regs := { r with
          maxFramesize := BitVec.ofNat 24 (budget s.regs.cfg), srCode := code, cfgOk := true, err := .noError } }
    | some e => exec .cfgInit s = .next { s with regs := { r with
        cfgOk := false, maxFramesize := 0, srCode := 0, err := e, errSticky := true } }

/-- The sample-rate code, `30_encoding.md` R105: the first match of the list gives code and escape value, a rate
that matches nothing has none, and a reader of the code recovers the rate. -/
def Obligations.sample_rate_code : Prop :=
  let standard : List (Nat × Nat) :=
    [(8000, 4), (16000, 5), (22050, 6), (24000, 7), (32000, 8), (44100, 9), (48000, 10), (96000, 11)]
  ∀ rate : Nat,
    (∀ code, (rate, code) ∈ standard → srCodeOf rate = some (BitVec.ofNat 20 code))
    ∧ ((∀ code, (rate, code) ∉ standard) →
        srCodeOf rate =
          if rate = 0 then none
          else if rate % 1000 = 0 ∧ rate / 1000 ≤ 255 then some (BitVec.ofNat 20 (rate / 1000 * 16 + 12))
          else if rate ≤ 65535 then some (BitVec.ofNat 20 (rate * 16 + 13))
          else if rate % 10 = 0 ∧ rate / 10 ≤ 65535 then some (BitVec.ofNat 20 (rate / 10 * 16 + 14))
          else none)
    ∧ ∀ v, srCodeOf rate = some v → rateOf v = some rate

/-- The block-size code, `30_encoding.md` R104: a size of the table has its code, any other an escape code with
n − 1, and none is outside 1 .. 65535; a reader recovers the size, so that no two sizes share a code
(`70_reset_and_hazards.md` R354). -/
def Obligations.block_size_code : Prop :=
  let standard : List (Nat × Nat) :=
    [(192, 1), (576, 2), (1152, 3), (2304, 4), (4608, 5), (256, 8), (512, 9), (1024, 10), (2048, 11), (4096, 12),
      (8192, 13), (16384, 14), (32768, 15)]
  ∀ n : Nat,
    (∀ code, (n, code) ∈ standard → bsCodeOf n = some (BitVec.ofNat 20 code))
    ∧ ((∀ code, (n, code) ∉ standard) →
        bsCodeOf n =
          if 1 ≤ n ∧ n ≤ 256 then some (BitVec.ofNat 20 ((n - 1) * 16 + 6))
          else if 257 ≤ n ∧ n ≤ 65535 then some (BitVec.ofNat 20 ((n - 1) * 16 + 7))
          else none)
    ∧ (∀ v, bsCodeOf n = some v → blockOf v = some n)
    ∧ ∀ m v, bsCodeOf n = some v → bsCodeOf m = some v → n = m

/-- `WR_STREAMINFO`, `46_context_commands.md` R307 and `30_encoding.md` R98: the writer starts afresh and its stream is the
272 bits of the table, so OUT[0 .. 33] are its 34 bytes; OUT_LEN is 34, FRAME_OK 0; nothing else changes. -/
def Obligations.streaminfo_block_layout : Prop :=
  ∀ s : State, earlyError .wrStreaminfo s = none →
    ∃ t, exec .wrStreaminfo s = .next t
      ∧ StreamIs t
          (msbBits 16 s.regs.cfg.blocksize.toNat ++ msbBits 16 s.regs.cfg.blocksize.toNat ++ msbBits 24 0
            ++ msbBits 24 s.regs.maxFramesize.toNat ++ msbBits 20 s.regs.cfg.sampleRate.toNat
            ++ msbBits 3 ((s.regs.cfg.channels.toNat : Int) - 1) ++ msbBits 5 15 ++ List.replicate 36 false
            ++ List.replicate 128 false)
      ∧ t.regs = { withWriter s.regs t.regs with
          bwCap := s.regs.outCap, bwOk := true, frameOk := false, outLen := 34, err := .noError }
      ∧ keptOutside [(.out, 0, 34)] s t

/-! ## The bit writer -/

/-- `BW_INIT`, `40_bit_writer.md` R142: the effects of `Init (OUT_CAP)`, and nothing else. -/
def Obligations.bw_init_starts_writer : Prop :=
  ∀ s : State, earlyError .bwInit s = none →
    exec .bwInit s = .next { s with regs := { s.regs with
      bwCap := s.regs.outCap, bwAcc := 0, bitpos := 0, crc8Run := 0, crc16Run := 0, outLen := 0, bwOk := true,
      frameOk := false, err := .noError } }

/-- `BW_PUTU`, `BW_PUTS`, `BW_FLUSH` and `BW_UTF8`, `40_bit_writer.md` R143 to R145 and R147: appended to the stream are the
low x bits of a0, most significant first; 0 to 7 zero bits, up to the next byte boundary; and the bytes of a0's coding by
the table of `30_encoding.md` R108. Nothing else changes. `BW_PUTU` takes every value of 0 .. 2^x − 1; a value outside is
`E_OPERAND` with no other effect (`47_common_semantics.md` R310; the model's reading of R143 beside it, log 11). The
premises on BITPOS rule out its wrap at 2^64, which no host reaches (R310; log 14). -/
def Obligations.append_commands_extend_stream : Prop :=
  ∀ s : State,
    (∀ x : Nat, earlyError (.bwPutu x) s = none → s.regs.bitpos.toNat + x < 2 ^ 64 →
      ∃ t, exec (.bwPutu x) s = .next t ∧ Appended s t (msbBits x s.regs.ops.a0.toInt)
        ∧ t.regs = { withWriter s.regs t.regs with err := .noError })
    ∧ (∀ x : Nat, configReady (.bwPutu x) s = true → stateReady (.bwPutu x) s = true → fieldsReady (.bwPutu x) s = true →
      let fits := 0 ≤ s.regs.ops.a0.toInt ∧ s.regs.ops.a0.toInt < 2 ^ x
      (fits → earlyError (.bwPutu x) s = none)
        ∧ (¬fits → exec (.bwPutu x) s = .next { s with regs := { s.regs with err := .operand, errSticky := true } }))
    ∧ (∀ x : Nat, earlyError (.bwPuts x) s = none → s.regs.bitpos.toNat + x < 2 ^ 64 →
      ∃ t, exec (.bwPuts x) s = .next t ∧ Appended s t (msbBits x s.regs.ops.a0.toInt)
        ∧ t.regs = { withWriter s.regs t.regs with err := .noError })
    ∧ (earlyError .bwFlush s = none → s.regs.bitpos.toNat + 8 ≤ 2 ^ 64 - 8 →
      ∃ t k, exec .bwFlush s = .next t ∧ k < 8 ∧ (s.regs.bitpos.toNat + k) % 8 = 0
        ∧ Appended s t (List.replicate k false) ∧ t.regs = { withWriter s.regs t.regs with err := .noError })
    ∧ (earlyError .bwUtf8 s = none → s.regs.bitpos.toNat + 56 < 2 ^ 64 →
      ∃ t, exec .bwUtf8 s = .next t ∧ Appended s t (frameNumberBits s.regs.ops.a0.toNat)
        ∧ t.regs = { withWriter s.regs t.regs with err := .noError })

/-- `BW_RICE`, `40_bit_writer.md` R148 with the codeword of `30_encoding.md` R118: without a threshold, or below it, the
codeword of a0 is appended; a threshold that the quotient reaches is `E_RICE_ESCAPE`, and nothing else changes. -/
def Obligations.bw_rice_appends_codeword : Prop :=
  ∀ (s : State) (k : Nat), earlyError (.bwRice k) s = none → s.regs.bitpos.toNat + 2 ^ 33 < 2 ^ 64 →
    let v := s.regs.ops.a0.toInt
    let threshold := s.regs.ops.a1.toInt
    (threshold = 0 ∨ zigzagValue v / ((2 ^ k : Nat) : Int) < threshold →
      ∃ t, exec (.bwRice k) s = .next t ∧ Appended s t (riceCode k v)
        ∧ t.regs = { withWriter s.regs t.regs with err := .noError })
    ∧ (threshold ≠ 0 ∧ threshold ≤ zigzagValue v / ((2 ^ k : Nat) : Int) →
      exec (.bwRice k) s = .next { s with regs := { s.regs with err := .riceEscape, errSticky := true } })

/-- The variable-length codes tell their own length, `30_encoding.md` R121: whatever follows, a reader of the bits that
the model writes for a frame number below 2^36 or for a residual gets the value back and stops where it ends. -/
def Obligations.codes_read_back : Prop :=
  (∀ (v : Nat) (rest : List Bool), v < 2 ^ 36 → readFrameNumber (utf8Bits v ++ rest) = some (v, rest))
    ∧ ∀ (v : Int) (k : Nat) (rest : List Bool), readRice k (riceBits v k ++ rest) = some (v, rest)

/-- `BW_POS`, `CRC8` and `CRC16`, `40_bit_writer.md` R146, R149, R150: a4 is the position, or the checksum of
OUT[a0 .. a1 − 1]; nothing else changes, and they run while a frame is in progress too. The checksums are those of R152
and R153, written out in Safety.lean (`crcTurn`: polynomials 0x07 and 0x8005, initial value 0, most significant bit
first), and so are those of every statement about the stream; they give the check values of R152 and R153. (A position
of 2^63 and above is copied as its pattern, log 14; the range ends before a1, log 13.) -/
def Obligations.writer_queries_answer_a4 : Prop :=
  checksum8 [0xFF, 0xF8, 0xC9, 0x08, 0x00] = 0x95
  ∧ checksum8 [0xFF, 0xF8, 0x39, 0x18, 0x00] = 0xAE
  ∧ checksum16 [0xFF, 0xF8, 0x39, 0x18, 0x00, 0xAE, 0x00, 0x03, 0xE8, 0x00, 0x03, 0xE8] = 0x76F7
  ∧ (∀ (c b : BitVec 8), (crc8Step c b).toNat = crcByte 8 0x07 c.toNat b.toNat)
  ∧ (∀ (c : BitVec 16) (b : BitVec 8), (crc16Step c b).toNat = crcByte 16 0x8005 c.toNat b.toNat)
  ∧ ∀ s : State,
    let bytes := (List.range' s.regs.ops.a0.toNat (s.regs.ops.a1.toNat - s.regs.ops.a0.toNat)).map fun j =>
      BitVec.ofInt 8 (s.memRead .out j)
    (earlyError .bwPos s = none →
      exec .bwPos s = .next { s with regs := { s.regs with
        err := .noError, ops := { s.regs.ops with a4 := s.regs.bitpos } } })
    ∧ (earlyError .crc8 s = none →
      exec .crc8 s = .next { s with regs := { s.regs with
        err := .noError, ops := { s.regs.ops with a4 := BitVec.ofNat 64 (checksum8 bytes) } } })
    ∧ (earlyError .crc16 s = none →
      exec .crc16 s = .next { s with regs := { s.regs with
        err := .noError, ops := { s.regs.ops with a4 := BitVec.ofNat 64 (checksum16 bytes) } } })

/-- The range checksums and the running ones agree, `40_bit_writer.md` R151: over [0, m) with m ≤ BW.cap, at a moment
when BITPOS = 8m and OUT holds the stream, `CRC8` gives CRC8_RUN and `CRC16` gives CRC16_RUN. -/
def Obligations.range_checksum_is_running : Prop :=
  ∀ (s : State) (l : List Bool) (m : Nat), StreamIs s l → s.regs.bitpos.toNat = 8 * m → m ≤ s.regs.bwCap.toNat →
    s.regs.ops.a0.toInt = 0 → s.regs.ops.a1.toInt = m → earlyError .crc8 s = none →
    exec .crc8 s = .next { s with regs := { s.regs with
        err := .noError, ops := { s.regs.ops with a4 := s.regs.crc8Run.setWidth 64 } } }
      ∧ exec .crc16 s = .next { s with regs := { s.regs with
        err := .noError, ops := { s.regs.ops with a4 := s.regs.crc16Run.setWidth 64 } } }

/-- OUT[j] for j ≥ BW.cap is never written by any command (`20_memory.md` R65): whatever the command, the bytes of OUT at
and above the capacity that it leaves latched are as before. -/
def Obligations.bytes_above_capacity_stay : Prop :=
  ∀ (i : Instr) (s t : State), exec i s = .next t →
    ∀ j, t.regs.bwCap.toNat ≤ j → memGet? t.mem .out j = memGet? s.mem .out j

/-! ## The Rice coder -/

/-- `ZIGZAG`, `41_rice_coder.md` R171: a4 is the zigzag value, nothing else changes; on 32-bit numbers the value is
(2v) XOR (v >> 31); and the map is a bijection from the integers to the naturals. -/
def Obligations.zigzag_value_and_bijection : Prop :=
  (∀ s : State, earlyError .zigzag s = none →
    exec .zigzag s = .next { s with regs := { s.regs with
      err := .noError, ops := { s.regs.ops with a4 := BitVec.ofInt 64 (zigzagValue s.regs.ops.a0.toInt) } } })
  ∧ (∀ v : BitVec 32, zigzagValue v.toInt = (((v <<< 1) ^^^ v.sshiftRight 31).toNat : Int))
  ∧ (∀ u : Nat, ∃ v : Int, zigzagValue v = u ∧ ∀ v' : Int, zigzagValue v' = u → v' = v)

/-- `RICE_COUNT` and `FIND_PARAM`, `41_rice_coder.md` R172, R173: a4 is the estimate; `FIND_PARAM` writes the parameter of
least estimate, the smallest among equals, and that estimate. Nothing else changes. -/
def Obligations.rice_estimates_and_best_param : Prop :=
  ∀ s : State,
    let sum := s.regs.ops.a0.toInt
    let n := s.regs.ops.a1.toNat
    (∀ k, earlyError (.riceCount k) s = none →
      exec (.riceCount k) s = .next { s with regs := { s.regs with
        err := .noError, ops := { s.regs.ops with a4 := BitVec.ofInt 64 (riceCost sum n k) } } })
    ∧ (earlyError .findParam s = none →
      ∃ k, BestParam sum n k ∧ exec .findParam s = .next { s with regs := { s.regs with
        err := .noError, ops := { s.regs.ops with
          a4 := BitVec.ofNat 64 k, a5 := BitVec.ofInt 64 (riceCost sum n k) } } })

/-- `MAX_PORDER`, `41_rice_coder.md` R174: a4 is the greatest partition order up to pmax whose spans are equal and at
least as long as the prediction order; nothing else changes. -/
def Obligations.max_porder_is_greatest : Prop :=
  ∀ (s : State) (order pmax : Nat), earlyError (.maxPorder order pmax) s = none →
    ∃ p, IsMaxPorder pmax s.regs.n.toNat order p ∧
      exec (.maxPorder order pmax) s = .next { s with regs := { s.regs with
        err := .noError, ops := { s.regs.ops with a4 := BitVec.ofNat 64 p } } }

/-- `PART_SUMS`, `41_rice_coder.md` R175 with the geometry of R177: SUMS[p][j] is the sum of the zigzag values of partition
j, for every partition order between the two capped bounds, which go to a4 and a5; nothing else changes. -/
def Obligations.part_sums_fill_sums : Prop :=
  ∀ (s : State) (ch order pmin pmax : Nat), configError s.regs.cfg = none →
    earlyError (.partSums ch order pmin pmax) s = none →
    let n := s.regs.n.toNat
    ∃ lo hi t, IsMaxPorder pmin n order lo ∧ IsMaxPorder pmax n order hi
      ∧ exec (.partSums ch order pmin pmax) s = .next t
      ∧ t.regs = { s.regs with err := .noError, ops := { s.regs.ops with
          a4 := BitVec.ofNat 64 lo, a5 := BitVec.ofNat 64 hi } }
      ∧ (∀ p j, lo ≤ p → p ≤ hi → j < 2 ^ p →
          memGet? t.mem .sums (p * 256 + j) = some (partTotal (residualAt s ch) n order p j))
      ∧ keptOutside ((List.range' lo (hi + 1 - lo)).map fun p => (Space.sums, p * 256, 2 ^ p)) s t

/-- `CALC_RICE`, `41_rice_coder.md` R176: the plan of least estimated cost among the partition orders between the capped
bounds, the smallest order among equals, goes to SUB[ch].porder and SUB[ch].param, its cost to a4 and its order to a5;
SUMS is as `PART_SUMS` leaves it; nothing else changes. -/
def Obligations.calc_rice_finds_best_plan : Prop :=
  ∀ (s : State) (ch order pmin pmax : Nat), configError s.regs.cfg = none →
    earlyError (.calcRice ch order pmin pmax) s = none →
    let n := s.regs.n.toNat
    ∃ lo hi p param bits t, IsMaxPorder pmin n order lo ∧ IsMaxPorder pmax n order hi
      ∧ IsBestPlan (residualAt s ch) n order pmin pmax p param bits
      ∧ exec (.calcRice ch order pmin pmax) s = .next t
      ∧ t.regs = { s.regs with err := .noError, ops := { s.regs.ops with
          a4 := BitVec.ofInt 64 bits, a5 := BitVec.ofNat 64 p } }
      ∧ memGet? t.mem .subrec (ch * 512 + 5) = some (p : Int)
      ∧ (∀ j, j < 2 ^ p → memGet? t.mem .subrec (ch * 512 + 256 + j) = some (param j : Int))
      ∧ (∀ q j, lo ≤ q → q ≤ hi → j < 2 ^ q →
          memGet? t.mem .sums (q * 256 + j) = some (partTotal (residualAt s ch) n order q j))
      ∧ keptOutside ([(.subrec, ch * 512 + 5, 1), (.subrec, ch * 512 + 256, 2 ^ p)]
          ++ (List.range' lo (hi + 1 - lo)).map fun q => (Space.sums, q * 256, 2 ^ q)) s t

/-! ## The linear predictor -/

/-- `FIXED_RES` and `LPC_RES`, `42_linear_predictor.md` R191, R198: RES[ch] holds the warm-up samples, then the differences
of the order, or each later sample less the floor-shifted weighted sum of the samples before it, with the weights of
QC[o] and the shift of QSH[o]; nothing else changes. A residual that does not fit 32 bits is `E_RESIDUAL_RANGE`, with the
effects of `60_exceptions.md` R324(c) (the whole row and record but obits, log 8). -/
def Obligations.residual_commands_differences : Prop :=
  ∀ (s : State) (ch order : Nat), configError s.regs.cfg = none →
    let n := s.regs.n.toNat
    let outcome := fun (i : Instr) (res : Nat → Int) =>
      ((∀ i, order ≤ i → i < n → fits32 (res i)) →
        ∃ t, exec i s = .next t ∧ t.regs = { s.regs with err := .noError }
          ∧ (∀ i, i < n → memGet? t.mem .res (ch * 65536 + i) = some (res i))
          ∧ keptOutside [(.res, ch * 65536, n)] s t)
      ∧ ((∃ i, order ≤ i ∧ i < n ∧ ¬fits32 (res i)) →
        ∃ t, exec i s = .next t
          ∧ t.regs = { s.regs with err := .residualRange, errSticky := true }
          ∧ keptOutside (rangeScratch ch) s t)
    (earlyError (.fixedRes ch order) s = none →
      outcome (.fixedRes ch order) (fixedDiff order (sampleAt s ch)))
    ∧ (earlyError (.lpcRes ch order) s = none →
      outcome (.lpcRes ch order) (lpcDiff order (fun j => s.memRead .qc ((order - 1) * 32 + (j - 1)))
        (s.memRead .qsh (order - 1)).toNat (sampleAt s ch)))

/-- Integer exactness, `42_linear_predictor.md` R191, R198, R205: from the RES that a successful `FIXED_RES` or `LPC_RES`
leaves, a reader with the same weights and shift rebuilds the samples. -/
def Obligations.prediction_is_undone : Prop :=
  ∀ (s t : State) (ch order : Nat), configError s.regs.cfg = none → t.regs.err = .noError →
    let n := s.regs.n.toNat
    let res := (List.range n).map (residualAt t ch)
    let samples := (List.range n).map (sampleAt s ch)
    (exec (.fixedRes ch order) s = .next t → rebuild order (fixedWeights order) 0 res = samples)
    ∧ (exec (.lpcRes ch order) s = .next t →
      rebuild order ((List.range order).map fun j => s.memRead .qc ((order - 1) * 32 + j))
        (s.memRead .qsh (order - 1)).toNat res = samples)

/-- The real arithmetic, `00_scope.md` R11 and `42_linear_predictor.md` R204 (log 6): on finite values each operation answers the
exact rational result rounded once, to nearest with ties to even; comparisons are those of the values, and false with a
NaN; an integer converts by the same rounding, and `rne` is the integer nearest, the even one on a tie. The special values
go as IEEE 754 says, and a pattern has the value of `20_memory.md` R66. -/
def Obligations.reals_are_rounded_once : Prop :=
  (∀ (s t : Bool) (m k : Nat) (e f : Int), IsBinary64 (.fin s m e) → IsBinary64 (.fin t k f) →
    let x := Flt.fin s m e
    let y := Flt.fin t k f
    let a := finValue s m e
    let b := finValue t k f
    IsRounded (a + b) (fadd x y) ∧ IsRounded (a - b) (fsub x y) ∧ IsRounded (a * b) (fmul x y)
      ∧ (b ≠ 0 → IsRounded (a / b) (fdiv x y))
      ∧ (b = 0 → fdiv x y = if a = 0 then .nan else .inf (s != t))
      ∧ (flt x y = true ↔ a < b) ∧ (feq x y = true ↔ a = b) ∧ (fle x y = true ↔ a ≤ b)
      ∧ fabs x = .fin false m e ∧ finValue false m e = |a|
      ∧ ∀ i : Int, |a - rne x| ≤ |a - i| ∧ (|a - rne x| = |a - i| → i = rne x ∨ rne x % 2 = 0))
  ∧ (∀ v : Int, IsRounded v (fltOfInt v))
  ∧ (∀ x : Flt, fadd .nan x = .nan ∧ fadd x .nan = .nan ∧ fsub .nan x = .nan ∧ fsub x .nan = .nan
    ∧ fmul .nan x = .nan ∧ fmul x .nan = .nan ∧ fdiv .nan x = .nan ∧ fdiv x .nan = .nan
    ∧ flt .nan x = false ∧ flt x .nan = false ∧ feq .nan x = false ∧ feq x .nan = false
    ∧ fle .nan x = false ∧ fle x .nan = false)
  ∧ (∀ (s t : Bool) (m : Nat) (e : Int),
    let x := Flt.inf s
    let y := Flt.fin t m e
    fadd x y = x ∧ fadd y x = x ∧ fadd x (.inf t) = (if s = t then x else .nan)
      ∧ fsub x y = x ∧ fsub y x = .inf (!s) ∧ fsub x (.inf t) = (if s = t then .nan else x)
      ∧ fmul x y = (if m = 0 then .nan else .inf (s != t)) ∧ fmul y x = fmul x y ∧ fmul x (.inf t) = .inf (s != t)
      ∧ fdiv x y = .inf (s != t) ∧ (∃ z, fdiv y x = .fin z 0 (-1074)) ∧ fdiv x (.inf t) = .nan
      ∧ flt x y = s ∧ flt y x = !s ∧ flt x (.inf t) = (s && !t)
      ∧ feq x y = false ∧ feq y x = false ∧ feq x (.inf t) = (s == t) ∧ fabs x = .inf false
      ∧ finite x = false ∧ finite y = true ∧ finite .nan = false)
  ∧ (∀ b : Word64,
    let sign := decide (b.toNat / 2 ^ 63 = 1)
    let exponent : Nat := b.toNat / 2 ^ 52 % 2 ^ 11
    let fraction : Nat := b.toNat % 2 ^ 52
    fltOfBits b =
      if exponent = 2047 then (if fraction = 0 then .inf sign else .nan)
      else if exponent = 0 then .fin sign fraction (-1074)
      else .fin sign (2 ^ 52 + fraction) ((exponent : Int) - 1075))

/-- `WELCH` and `AUTOCORR`, `42_linear_predictor.md` R193, R194: each element holds the value of the rule's operations in the
rule's order; nothing else changes. -/
def Obligations.window_and_autocorrelation : Prop :=
  ∀ s : State,
    let n := s.regs.n.toNat
    (∀ ch, earlyError (.welch ch) s = none →
      ∃ t, exec (.welch ch) s = .next t ∧ t.regs = { s.regs with err := .noError }
        ∧ (∀ i, i < n →
            let u := fsub (fdiv (fltOfInt (2 * i)) (fltOfInt ((n : Int) - 1))) (fltOfInt 1)
            HoldsReal t .win i (fmul (fltOfInt (sampleAt s ch i)) (fsub (fltOfInt 1) (fmul u u))))
        ∧ keptOutside [(.win, 0, n)] s t)
    ∧ (∀ maxorder, earlyError (.autocorr maxorder) s = none →
      ∃ t, exec (.autocorr maxorder) s = .next t ∧ t.regs = { s.regs with err := .noError }
        ∧ (∀ j, j ≤ maxorder → HoldsReal t .autoc j
            ((List.range' j (n - j)).foldl
              (fun a i => fadd a (fmul (realAt s .win i) (realAt s .win (i - j)))) (Flt.zero false)))
        ∧ keptOutside [(.autoc, 0, maxorder + 1)] s t)

/-- `LEVINSON`, `42_linear_predictor.md` R195: REFL and LPCF hold the values of the recursion, from AUTOC[0 .. M]; nothing
else changes. -/
def Obligations.levinson_recursion_values : Prop :=
  ∀ (s : State) (m : Nat), earlyError (.levinson m) s = none →
    ∃ (t : State) (k err : Nat → Flt) (c : Nat → Nat → Flt),
      exec (.levinson m) s = .next t ∧ t.regs = { s.regs with err := .noError }
      ∧ err 0 = realAt s .autoc 0
      ∧ (∀ i, 1 ≤ i → i ≤ m →
          k i = (if feq (err (i - 1)) (Flt.zero false) then Flt.zero false
            else fdiv ((List.range' 1 (i - 1)).foldl
              (fun a j => fsub a (fmul (c (i - 1) j) (realAt s .autoc (i - j)))) (realAt s .autoc i)) (err (i - 1)))
          ∧ (∀ j, 1 ≤ j → j < i → c i j = fsub (c (i - 1) j) (fmul (k i) (c (i - 1) (i - j))))
          ∧ c i i = k i
          ∧ err i = fmul (err (i - 1)) (fsub (fltOfInt 1) (fmul (k i) (k i)))
          ∧ HoldsReal t .refl (i - 1) (k i)
          ∧ ∀ j, 1 ≤ j → j ≤ i → HoldsReal t .lpcf ((i - 1) * 32 + (j - 1)) (c i j))
      ∧ keptOutside ((Space.refl, 0, m) :: (List.range m).map fun i => (Space.lpcf, i * 32, i + 1)) s t

/-- `LSQ_FIT`, `42_linear_predictor.md` R196: without the open parameter, `E_CFG_UNSUPPORTED` and no change; with it, LPCF
and REFL take the values the function returns, and nothing else changes (log 5). The pass count it is given is
CFG_LPC_PASSES when CFG_LPC_TYPE is 2; otherwise the register is ignored (`10_state.md` R42) and the count is one free
value (log 23). -/
def Obligations.lsq_fit_by_open_parameter : Prop :=
  ∀ (s : State) (ch m : Nat), earlyError (.lsqFit ch m) s = none →
    match Config.lsqFit with
    | none => exec (.lsqFit ch m) s
        = .next { s with regs := { s.regs with err := .cfgUnsupported, errSticky := true } }
    | some f =>
      let samples := (List.range s.regs.n.toNat).map (sampleAt s ch)
      let passes := if s.regs.cfg.lpcType.toNat = 2 then s.regs.cfg.lpcPasses
        else Config.passesOtherwise
      ∃ t, exec (.lsqFit ch m) s = .next t ∧ t.regs = { s.regs with err := .noError }
        ∧ (∀ o, 1 ≤ o → o ≤ m →
            memGet? t.mem .refl (o - 1) = some ((f.refl samples m passes o).toNat : Int)
            ∧ ∀ j, 1 ≤ j → j ≤ o →
              memGet? t.mem .lpcf ((o - 1) * 32 + (j - 1)) = some ((f.coef samples m passes o j).toNat : Int))
        ∧ keptOutside ((Space.refl, 0, m) :: (List.range m).map fun i => (Space.lpcf, i * 32, i + 1)) s t

/-- `QUANT`, `42_linear_predictor.md` R197: QC[o] and QSH[o] hold the quantized set of LPCF[o], and a4 the shift; nothing
else changes. A set with a value that is not finite is all zero with shift 0; otherwise the shift is the largest of
0 .. 15 at which the largest magnitude fits, with the coefficients rescaled when none does, and each coefficient is
rounded with the error of the one before carried in, then clipped. -/
def Obligations.quant_shift_and_rounding : Prop :=
  ∀ (s : State) (o prec : Nat), earlyError (.quant o prec) s = none →
    let c := fun j => realAt s .lpcf ((o - 1) * 32 + (j - 1))
    let qmax : Int := 2 ^ (prec - 1) - 1
    let qmin : Int := -2 ^ (prec - 1)
    let cmax := (List.range' 1 o).foldl (fun m j => if flt m (fabs (c j)) then fabs (c j) else m) (Flt.zero false)
    let fits := fun k : Nat => fle (fmul cmax (fltOfInt (2 ^ k))) (fltOfInt qmax)
    ∃ (t : State) (q : Nat → Int) (shift : Nat),
      exec (.quant o prec) s = .next t
      ∧ t.regs = { s.regs with err := .noError, ops := { s.regs.ops with a4 := BitVec.ofNat 64 shift } }
      ∧ (∀ j, 1 ≤ j → j ≤ o → qmin ≤ q j ∧ q j ≤ qmax
          ∧ memGet? t.mem .qc ((o - 1) * 32 + (j - 1)) = some (q j))
      ∧ shift ≤ 15 ∧ memGet? t.mem .qsh (o - 1) = some (shift : Int)
      ∧ keptOutside [(.qc, (o - 1) * 32, o), (.qsh, o - 1, 1)] s t
      ∧ ((∃ j, 1 ≤ j ∧ j ≤ o ∧ finite (c j) = false) → shift = 0 ∧ ∀ j, 1 ≤ j → j ≤ o → q j = 0)
      ∧ ((∀ j, 1 ≤ j → j ≤ o → finite (c j) = true) →
          ((∃ k, k ≤ 15 ∧ fits k = true) → fits shift = true ∧ ∀ k, k ≤ 15 → fits k = true → k ≤ shift)
          ∧ ((∀ k, k ≤ 15 → fits k = false) → shift = 0)
          ∧ ∃ e : Nat → Flt, e 0 = Flt.zero false ∧ ∀ j, 1 ≤ j → j ≤ o →
              let cj := if (List.range 16).any fits then c j else fmul (c j) (fdiv (fltOfInt qmax) cmax)
              let x := fadd (fmul cj (fltOfInt (2 ^ shift))) (e (j - 1))
              q j = max qmin (min (rne x) qmax) ∧ e j = fsub x (fltOfInt (q j)))

/-- `ORDER_EST`, `42_linear_predictor.md` R199: a4 is the largest order in lo .. hi whose reflection coefficient exceeds the
binary64 0x3FB999999999999A in magnitude, and lo when none does; nothing else changes. -/
def Obligations.order_est_largest_above : Prop :=
  ∀ (s : State) (lo hi : Nat), earlyError (.orderEst lo hi) s = none →
    let above := fun i => flt (fltOfBits 0x3FB999999999999A#64) (fabs (realAt s .refl (i - 1)))
    ∃ o, lo ≤ o ∧ o ≤ hi ∧ (∀ i, o < i → i ≤ hi → above i = false) ∧ (above o = true ∨ o = lo)
      ∧ exec (.orderEst lo hi) s = .next { s with regs := { s.regs with
          err := .noError, ops := { s.regs.ops with a4 := BitVec.ofNat 64 o } } }

/-- The order searches, `42_linear_predictor.md` R199 to R203 and the methods of `43_subframe_encoder.md` R235, over any costs: each
CFG_ORDER_METHOD evaluates the orders its rule names, in its rule's sequence, none twice and all in lo .. hi, and keeps the
least cost, the order evaluated first among equals. The estimate evaluates its one order; the grid ends at hi; the
exhaustive search finds the lowest order of least cost of all; the log search evaluates its seed and at most 11 orders. -/
def Obligations.order_searches_find_least : Prop :=
  ∀ (cost : Nat → Int) (method est lo hi : Nat), method ≤ 5 → 1 ≤ lo → lo ≤ hi → hi ≤ 32 → lo ≤ est → est ≤ hi →
    let eval := fun o : Nat =>
      (.ok { cost := cost o, order := o, q := [], shift := 0, res := [], plan := ⟨0, 0, []⟩ }
        : Except ErrCode Candidate)
    ∃ a c, searchOrders method est eval lo hi = .ok a ∧ a.best = some c ∧ c.cost = cost c.order ∧
      let all := (a.done.map fun d => d.order).reverse
      Selects method est cost lo hi all c.order ∧ all.Nodup ∧ c.order ∈ all
      ∧ (∀ o ∈ all, lo ≤ o ∧ o ≤ hi ∧ cost c.order ≤ cost o)
      ∧ (1 ≤ method → method ≤ 4 → hi ∈ all ∧ ∀ o ∈ all, o < c.order → cost c.order < cost o)
      ∧ (method = 4 → ∀ o, lo ≤ o → o ≤ hi → cost c.order ≤ cost o ∧ (o < c.order → cost c.order < cost o))
      ∧ (method = 5 → all.length ≤ 11 ∧ lo + (hi - lo) / 3 ∈ all)

/-! ## The subframe encoder -/

/-- `SUB_ENCODE` of a constant block, `43_subframe_encoder.md` R231, R232: type CONSTANT, order 0, cost the bit depth, RES[ch][0]
the sample; the rest of RES[ch] and SUMS unspecified (R237; logs 7 and 10); nothing else changes. -/
def Obligations.sub_encode_constant_block : Prop :=
  ∀ (s : State) (ch : Nat), configError s.regs.cfg = none → earlyError (.subEncode ch) s = none →
    (∀ i, i < s.regs.n.toNat → sampleAt s ch i = sampleAt s ch 0) →
    let obits := recordAt s ch 2
    ∃ t, exec (.subEncode ch) s = .next t
      ∧ t.regs = { s.regs with err := .noError, ops := { s.regs.ops with a4 := BitVec.ofInt 64 obits } }
      ∧ memGet? t.mem .subrec (ch * 512) = some 0 ∧ memGet? t.mem .subrec (ch * 512 + 1) = some 0
      ∧ memGet? t.mem .subrec (ch * 512 + 6) = some obits
      ∧ memGet? t.mem .res (ch * 65536) = some (sampleAt s ch 0)
      ∧ keptOutside [(.subrec, ch * 512, 2), (.subrec, ch * 512 + 6, 1), (.res, ch * 65536, 65535),
          (.sums, 0, 2097152)] s t

/-- VERBATIM, `43_subframe_encoder.md` R238 and R233: `SUB_VERBATIM` on any block, and `SUB_ENCODE` on a block of fewer than 5
samples that are not all equal (for which SUMS is unspecified besides, R237), write type VERBATIM, order 0, cost
bit depth × n, and the samples to RES[ch]; nothing else changes. -/
def Obligations.verbatim_subframes : Prop :=
  ∀ (s : State) (ch : Nat), configError s.regs.cfg = none →
    let n := s.regs.n.toNat
    let bits := recordAt s ch 2 * n
    let verbatim := fun t : State =>
      t.regs = { s.regs with err := .noError, ops := { s.regs.ops with a4 := BitVec.ofInt 64 bits } }
      ∧ memGet? t.mem .subrec (ch * 512) = some 1 ∧ memGet? t.mem .subrec (ch * 512 + 1) = some 0
      ∧ memGet? t.mem .subrec (ch * 512 + 6) = some bits
      ∧ ∀ i, i < n → memGet? t.mem .res (ch * 65536 + i) = some (sampleAt s ch i)
    let written : List Range := [(.subrec, ch * 512, 2), (.subrec, ch * 512 + 6, 1), (.res, ch * 65536, n)]
    (earlyError (.subVerbatim ch) s = none →
      ∃ t, exec (.subVerbatim ch) s = .next t ∧ verbatim t ∧ keptOutside written s t)
    ∧ (earlyError (.subEncode ch) s = none → n < 5 → (∃ i, i < n ∧ sampleAt s ch i ≠ sampleAt s ch 0) →
      ∃ t, exec (.subEncode ch) s = .next t ∧ verbatim t
        ∧ keptOutside (written ++ [(.sums, 0, 2097152)]) s t)

/-- The FIXED path of `SUB_ENCODE`, `43_subframe_encoder.md` R234, R236: of the orders
min (CFG_MIN_ORDER, 4) .. min (CFG_MAX_ORDER, 4) the one of least cost o·b + 6 + plan_bits, the lowest among equals, with its
plan and its residuals; SUMS unspecified (R237); nothing else changes. A residual of any of these orders that does not fit
32 bits is `E_RESIDUAL_RANGE`, with the effects of `60_exceptions.md` R324(c) (log 8), which samples of at most 17 bits
never meet (`42_linear_predictor.md` R191). -/
def Obligations.sub_encode_fixed_least_cost : Prop :=
  ∀ (s : State) (ch : Nat), configError s.regs.cfg = none → earlyError (.subEncode ch) s = none →
    5 ≤ s.regs.n.toNat → (∃ i, i < s.regs.n.toNat ∧ sampleAt s ch i ≠ sampleAt s ch 0) →
    (s.regs.cfg.lpcType.toNat = 0 ∨ s.regs.n.toNat ≤ s.regs.cfg.maxOrder.toNat) →
    let n := s.regs.n.toNat
    let lo := min s.regs.cfg.minOrder.toNat 4
    let hi := min s.regs.cfg.maxOrder.toNat 4
    let plan := fun o => IsBestPlan (fixedDiff o (sampleAt s ch)) n o s.regs.cfg.minPorder.toNat
      s.regs.cfg.maxPorder.toNat
    let fits := fun o => ∀ i, o ≤ i → i < n → fits32 (fixedDiff o (sampleAt s ch) i)
    ((∀ i, i < n → -65536 ≤ sampleAt s ch i ∧ sampleAt s ch i ≤ 65536) → ∀ o, lo ≤ o → o ≤ hi → fits o)
    ∧ ((∀ o, lo ≤ o → o ≤ hi → fits o) →
      ∃ t o p param bits,
        lo ≤ o ∧ o ≤ hi ∧ plan o p param bits
        ∧ (∀ o' p' param' bits', lo ≤ o' → o' ≤ hi → plan o' p' param' bits' →
            o * recordAt s ch 2 + 6 + bits ≤ o' * recordAt s ch 2 + 6 + bits'
            ∧ (o' < o → o * recordAt s ch 2 + 6 + bits < o' * recordAt s ch 2 + 6 + bits'))
        ∧ exec (.subEncode ch) s = .next t
        ∧ t.regs = { s.regs with err := .noError, ops := { s.regs.ops with
            a4 := BitVec.ofInt 64 (o * recordAt s ch 2 + 6 + bits) } }
        ∧ memGet? t.mem .subrec (ch * 512) = some 2 ∧ memGet? t.mem .subrec (ch * 512 + 1) = some (o : Int)
        ∧ memGet? t.mem .subrec (ch * 512 + 6) = some (o * recordAt s ch 2 + 6 + bits)
        ∧ memGet? t.mem .subrec (ch * 512 + 5) = some (p : Int)
        ∧ (∀ j, j < 2 ^ p → memGet? t.mem .subrec (ch * 512 + 256 + j) = some (param j : Int))
        ∧ (∀ i, i < n → memGet? t.mem .res (ch * 65536 + i) = some (fixedDiff o (sampleAt s ch) i))
        ∧ keptOutside [(.subrec, ch * 512, 2), (.subrec, ch * 512 + 5, 2), (.subrec, ch * 512 + 256, 2 ^ p),
            (.res, ch * 65536, n), (.sums, 0, 2097152)] s t)
    ∧ ((∃ o, lo ≤ o ∧ o ≤ hi ∧ ¬fits o) →
      ∃ t, exec (.subEncode ch) s = .next t
        ∧ t.regs = { s.regs with err := .residualRange, errSticky := true }
        ∧ keptOutside (rangeScratch ch ++ [(.sums, 0, 2097152)]) s t)

/-- The LPC path of `SUB_ENCODE`, `43_subframe_encoder.md` R235 to R237 with `42_linear_predictor.md` R192, R200 to R203: the
channel's fit stands in WIN, AUTOC, LPCF and REFL as `WELCH`, `AUTOCORR` and then `LEVINSON` or `LSQ_FIT` leave it (for the
latter log 22); each order evaluated has its quantized set, as `QUANT` gives it, in QC and QSH; CFG_ORDER_METHOD names the
orders evaluated and the one selected by the cost o·b + 4 + 5 + o·P + 6 + plan_bits; the record, RES[ch] and a4 are those of
that order; SUMS is unspecified; nothing else changes. A residual of an order evaluated that does not fit 32 bits is
`E_RESIDUAL_RANGE`, with the effects of `60_exceptions.md` R324(c) (log 8). -/
def Obligations.sub_encode_lpc_selected_order : Prop :=
  ∀ (s : State) (ch : Nat), configError s.regs.cfg = none → earlyError (.subEncode ch) s = none →
    5 ≤ s.regs.n.toNat → (∃ i, i < s.regs.n.toNat ∧ sampleAt s ch i ≠ sampleAt s ch 0) →
    s.regs.cfg.lpcType.toNat ≠ 0 → s.regs.cfg.maxOrder.toNat < s.regs.n.toNat →
    let n := s.regs.n.toNat
    let lo := max s.regs.cfg.minOrder.toNat 1
    let hi := s.regs.cfg.maxOrder.toNat
    let prec := s.regs.cfg.precision.toNat
    ∃ (windowed correlated fit estimated : State) (est : Nat),
      exec (.welch ch) s = .next windowed ∧ exec (.autocorr hi) windowed = .next correlated
      ∧ exec (if s.regs.cfg.lpcType.toNat = 1 then .levinson hi else .lsqFit ch hi) correlated = .next fit
      ∧ fit.regs.err = .noError
      ∧ exec (.orderEst lo hi) fit = .next estimated ∧ estimated.regs.ops.a4 = BitVec.ofNat 64 est
      ∧ lo ≤ est ∧ est ≤ hi
      ∧ ∃ (q : Nat → Nat → Int) (shift porder : Nat → Nat) (param : Nat → Nat → Nat) (bits : Nat → Int),
        let res := fun o => lpcDiff o (q o) (shift o) (sampleAt s ch)
        let cost := fun o : Nat => o * recordAt s ch 2 + 4 + 5 + o * prec + 6 + bits o
        let fits := fun o => ∀ i, o ≤ i → i < n → fits32 (res o i)
        (∀ o, lo ≤ o → o ≤ hi →
          (∃ u, exec (.quant o prec) fit = .next u ∧ memGet? u.mem .qsh (o - 1) = some (shift o : Int)
            ∧ ∀ j, 1 ≤ j → j ≤ o → memGet? u.mem .qc ((o - 1) * 32 + (j - 1)) = some (q o j))
          ∧ IsBestPlan (res o) n o s.regs.cfg.minPorder.toNat s.regs.cfg.maxPorder.toNat (porder o) (param o) (bits o))
        ∧ ∃ (all : List Nat) (opt : Nat), Selects s.regs.cfg.orderMethod.toNat est cost lo hi all opt
          ∧ ((∀ o ∈ all, fits o) →
            ∃ t, exec (.subEncode ch) s = .next t
              ∧ t.regs = { s.regs with err := .noError, ops := { s.regs.ops with a4 := BitVec.ofInt 64 (cost opt) } }
              ∧ memGet? t.mem .subrec (ch * 512) = some 3 ∧ memGet? t.mem .subrec (ch * 512 + 1) = some (opt : Int)
              ∧ memGet? t.mem .subrec (ch * 512 + 3) = some (prec : Int)
              ∧ memGet? t.mem .subrec (ch * 512 + 4) = some (shift opt : Int)
              ∧ memGet? t.mem .subrec (ch * 512 + 5) = some (porder opt : Int)
              ∧ memGet? t.mem .subrec (ch * 512 + 6) = some (cost opt)
              ∧ (∀ j, 1 ≤ j → j ≤ opt → memGet? t.mem .subrec (ch * 512 + 32 + (j - 1)) = some (q opt j))
              ∧ (∀ j, j < 2 ^ porder opt →
                  memGet? t.mem .subrec (ch * 512 + 256 + j) = some (param opt j : Int))
              ∧ (∀ i, i < n → memGet? t.mem .res (ch * 65536 + i) = some (res opt i))
              ∧ (∀ o ∈ all, memGet? t.mem .qsh (o - 1) = some (shift o : Int)
                  ∧ ∀ j, 1 ≤ j → j ≤ o → memGet? t.mem .qc ((o - 1) * 32 + (j - 1)) = some (q o j))
              ∧ (∀ sp ∈ [Space.win, .autoc, .lpcf, .refl], ∀ i, memGet? t.mem sp i = memGet? fit.mem sp i)
              ∧ keptOutside ([(.subrec, ch * 512, 2), (.subrec, ch * 512 + 3, 4), (.subrec, ch * 512 + 32, opt),
                  (.subrec, ch * 512 + 256, 2 ^ porder opt), (.res, ch * 65536, n), (.win, 0, n), (.autoc, 0, hi + 1),
                  (.refl, 0, hi), (.sums, 0, 2097152)]
                ++ (List.range hi).map (fun i => (Space.lpcf, i * 32, i + 1))
                ++ all.flatMap fun o => [(Space.qc, (o - 1) * 32, o), (Space.qsh, o - 1, 1)]) s t)
          ∧ ((∃ o ∈ all, ¬fits o) →
            ∃ t, exec (.subEncode ch) s = .next t
              ∧ t.regs = { s.regs with err := .residualRange, errSticky := true }
              ∧ keptOutside (lpcScratch ch) s t)

/-- Losslessness of a subframe, `43_subframe_encoder.md` R239: after a `SUB_ENCODE` that succeeds, by whatever path, `WR_SUBFRAME`
accepts the record, and from the bits it writes, whatever follows them, a reader rebuilds SMP[ch][0 .. n−1] exactly and
stops where they end. The channel's bit depth is one that `DEINTERLEAVE` or the host has written, and the samples fit it
(`44_stereo_decorrelation.md` R255). -/
def Obligations.subframe_is_lossless : Prop :=
  ∀ (s t : State) (ch : Nat) (rest : List Bool), configError s.regs.cfg = none →
    (memGet? s.mem .subrec (ch * 512 + 2)).isSome = true →
    (∀ i, i < s.regs.n.toNat →
      -2 ^ (recordAt s ch 2 - 1).toNat ≤ sampleAt s ch i ∧ sampleAt s ch i < 2 ^ (recordAt s ch 2 - 1).toNat) →
    exec (.subEncode ch) s = .next t → t.regs.err = .noError →
    recordAccepted t ch = true
      ∧ readSubframe s.regs.n.toNat (recordAt s ch 2).toNat (subframeBits t ch ++ rest)
          = some ((List.range s.regs.n.toNat).map (sampleAt s ch), rest)

/-! ## Stereo decorrelation -/

/-- `DEINTERLEAVE`, `44_stereo_decorrelation.md` R251: SMP[ch][i] is IN[i·C + ch], every channel's bit depth is 16, CH_MODE is 0;
nothing else changes. -/
def Obligations.deinterleave_splits_channels : Prop :=
  ∀ s : State, configError s.regs.cfg = none → earlyError .deinterleave s = none →
    let n := s.regs.n.toNat
    let c := s.regs.cfg.channels.toNat
    ∃ t, exec .deinterleave s = .next t ∧ t.regs = { s.regs with err := .noError, chMode := 0 }
      ∧ (∀ ch i, ch < c → i < n → memGet? t.mem .smp (ch * 65536 + i) = some (s.memRead .inp (i * c + ch)))
      ∧ (∀ ch, ch < c → memGet? t.mem .subrec (ch * 512 + 2) = some 16)
      ∧ keptOutside ((List.range c).flatMap fun ch =>
          [(Space.smp, ch * 65536, n), (Space.subrec, ch * 512 + 2, 1)]) s t

/-- `ST_ESTIMATE`, `44_stereo_decorrelation.md` R252, R254: with two channels, STSUM holds the second-difference sums of left,
right, mid and side, SCORE the four scores made of their estimates, and CH_MODE and a4 the mode of least score, the lowest
among equals; with another channel count CH_MODE and a4 are 0. Nothing else changes. -/
def Obligations.st_estimate_least_score : Prop :=
  ∀ s : State, configError s.regs.cfg = none → earlyError .stEstimate s = none →
    let n := s.regs.n.toNat
    let l := sampleAt s 0
    let r := sampleAt s 1
    let sums : List Int := [secondDiffs l n, secondDiffs r n, secondDiffs (fun i => (l i + r i) / 2) n,
      secondDiffs (fun i => l i - r i) n]
    let result := fun mode : Nat => { s.regs with
      err := .noError, chMode := BitVec.ofNat 2 mode, ops := { s.regs.ops with a4 := BitVec.ofNat 64 mode } }
    (s.regs.cfg.channels.toNat = 2 →
      ∃ (t : State) (mode : Nat) (k : Nat → Nat), (∀ x, x < 4 → BestParam (sums.getD x 0) n (k x)) ∧
        let cost := fun x => riceCost (sums.getD x 0) n (k x)
        let scores : List Int := [cost 0 + cost 1, cost 0 + cost 3, cost 1 + cost 3, cost 2 + cost 3]
        mode < 4 ∧ (∀ m, m < 4 → scores.getD mode 0 ≤ scores.getD m 0
          ∧ (m < mode → scores.getD mode 0 < scores.getD m 0))
        ∧ exec .stEstimate s = .next t ∧ t.regs = result mode
        ∧ (∀ x, x < 4 → memGet? t.mem .stsum x = sums[x]? ∧ memGet? t.mem .score x = scores[x]?)
        ∧ keptOutside [(.stsum, 0, 4), (.score, 0, 4)] s t)
    ∧ (s.regs.cfg.channels.toNat ≠ 2 → exec .stEstimate s = .next { s with regs := result 0 })

/-- `ST_APPLY`, `44_stereo_decorrelation.md` R253: CH_MODE is the mode; in modes 1 and 3 SMP[1] becomes the side signal and its bit
depth 17, in mode 2 SMP[0] does, and in mode 3 SMP[0] becomes the mid signal, all from the samples before the command;
nothing else changes. -/
def Obligations.st_apply_transforms_samples : Prop :=
  ∀ (s : State) (mode : Nat), configError s.regs.cfg = none → earlyError (.stApply mode) s = none →
    let n := s.regs.n.toNat
    let l := sampleAt s 0
    let r := sampleAt s 1
    ∃ t, exec (.stApply mode) s = .next t
      ∧ t.regs = { s.regs with err := .noError, chMode := BitVec.ofNat 2 mode }
      ∧ (mode = 0 → keptOutside [] s t)
      ∧ (mode = 1 → (∀ i, i < n → memGet? t.mem .smp (65536 + i) = some (l i - r i))
          ∧ memGet? t.mem .subrec 514 = some 17 ∧ keptOutside [(.smp, 65536, n), (.subrec, 514, 1)] s t)
      ∧ (mode = 2 → (∀ i, i < n → memGet? t.mem .smp i = some (l i - r i))
          ∧ memGet? t.mem .subrec 2 = some 17 ∧ keptOutside [(.smp, 0, n), (.subrec, 2, 1)] s t)
      ∧ (mode = 3 → (∀ i, i < n → memGet? t.mem .smp i = some ((l i + r i) / 2)
            ∧ memGet? t.mem .smp (65536 + i) = some (l i - r i))
          ∧ memGet? t.mem .subrec 514 = some 17
          ∧ keptOutside [(.smp, 0, n), (.smp, 65536, n), (.subrec, 514, 1)] s t)

/-- Stereo decorrelation loses nothing and grows a channel by one bit at most, `44_stereo_decorrelation.md` R253, R255: after
`DEINTERLEAVE` and `ST_APPLY`, a reader's inverse gives the two input channels back; a channel of bit depth 16 lies in
−32768 .. 32767 and one of bit depth 17 in −65535 .. 65535. -/
def Obligations.stereo_is_undone : Prop :=
  ∀ (s t u : State) (mode : Nat), configError s.regs.cfg = none → s.regs.cfg.channels.toNat = 2 →
    exec .deinterleave s = .next t → t.regs.err = .noError →
    exec (.stApply mode) t = .next u → u.regs.err = .noError →
    ∀ i, i < s.regs.n.toNat →
      undoStereo mode (sampleAt u 0 i) (sampleAt u 1 i) = (s.memRead .inp (i * 2), s.memRead .inp (i * 2 + 1))
      ∧ ∀ ch, ch < 2 →
          (recordAt u ch 2 = 16 ∧ -32768 ≤ sampleAt u ch i ∧ sampleAt u ch i ≤ 32767)
          ∨ (recordAt u ch 2 = 17 ∧ -65535 ≤ sampleAt u ch i ∧ sampleAt u ch i ≤ 65535)

/-! ## The frame encoder -/

/-- `FRAME_INIT`, `45_frame_encoder.md` R267: the writer starts afresh, BS_CODE is the code of N, RETRIED the field, SUBCNT 0, FSM
INIT; nothing else changes, FRAME_COUNT and CH_MODE among it. -/
def Obligations.frame_init_starts_frame : Prop :=
  ∀ (s : State) (retry : Nat), configError s.regs.cfg = none → earlyError (.frameInit retry) s = none →
    ∃ code, bsCodeOf s.regs.n.toNat = some code ∧
      exec (.frameInit retry) s = .next { s with regs := { s.regs with
        bwCap := s.regs.outCap, bwAcc := 0, bitpos := 0, crc8Run := 0, crc16Run := 0, outLen := 0, bwOk := true,
        frameOk := false, bsCode := code, retried := decide (retry = 1), subcnt := 0, fsm := .init,
        err := .noError } }

/-- `WR_HEADER`, `45_frame_encoder.md` R268 with the table of `30_encoding.md` R100 and R110: after `FRAME_INIT` the stream is the
header's fields, a whole number of bytes, followed by their CRC-8; SUBCNT is 0 and FSM HEADER_WRITTEN; nothing else
changes. -/
def Obligations.wr_header_appends_header : Prop :=
  ∀ s : State, earlyError .wrHeader s = none → StreamIs s [] →
    let h := headerLayout s.regs
    h.length % 8 = 0 ∧
    ∃ t, exec .wrHeader s = .next t
      ∧ StreamIs t (h ++ msbBits 8 (streamCrc8 h).toNat)
      ∧ t.regs = { withWriter s.regs t.regs with subcnt := 0, fsm := .headerWritten, err := .noError }
      ∧ keptOutside [(.out, 0, min (h.length / 8 + 1) s.regs.bwCap.toNat)] s t

/-- `WR_SUBFRAME`, `45_frame_encoder.md` R269 to R274: the subframe of the record and RES[ch] is appended (log 12), SUBCNT grows by
one, FSM is SUBFRAMES_WRITTEN when it reaches the channel count; nothing else changes. -/
def Obligations.wr_subframe_appends_record : Prop :=
  ∀ (s : State) (ch : Nat), configError s.regs.cfg = none → earlyError (.wrSubframe ch) s = none →
    s.regs.bitpos.toNat + (subframeLayout s ch).length < 2 ^ 64 →
    ∃ t, exec (.wrSubframe ch) s = .next t ∧ Appended s t (subframeLayout s ch)
      ∧ t.regs = { withWriter s.regs t.regs with
          err := .noError, subcnt := s.regs.subcnt + 1
          fsm := if s.regs.subcnt.toNat + 1 = s.regs.cfg.channels.toNat then .subframesWritten
            else .headerWritten }

/-- `WR_FOOTER`, `45_frame_encoder.md` R276 to R279, R282: zero bits to the byte boundary and the CRC-16 of every byte before it are
appended, which leaves CRC16_RUN 0; a length within the budget and the capacity is DONE, with the frame counted modulo
2^32; else the first overflow is OVERFLOW_RETRY and the second FAILED with `E_FRAME_OVERFLOW`. Nothing else changes. -/
def Obligations.wr_footer_ends_frame : Prop :=
  ∀ (s : State) (l : List Bool), earlyError .wrFooter s = none → StreamIs s l → l.length + 32 < 2 ^ 64 →
    ∃ t k, k < 8 ∧ (l.length + k) % 8 = 0 ∧ exec .wrFooter s = .next t ∧
      let body := l ++ List.replicate k false
      let len := body.length / 8 + 2
      StreamIs t (body ++ msbBits 16 (streamCrc16 body).toNat)
      ∧ t.regs.crc16Run = 0
      ∧ keptOutside [(.out, l.length / 8, min len s.regs.bwCap.toNat - l.length / 8)] s t
      ∧ t.regs =
          if len ≤ s.regs.maxFramesize.toNat ∧ len ≤ s.regs.bwCap.toNat then
            { withWriter s.regs t.regs with
              outLen := BitVec.ofNat 32 len, frameOk := true, frameCount := s.regs.frameCount + 1, fsm := .done,
              err := .noError }
          else if s.regs.retried = false then
            { withWriter s.regs t.regs with fsm := .overflowRetry, err := .noError }
          else
            { withWriter s.regs t.regs with fsm := .failed, err := .frameOverflow, errSticky := true }

/-- `ENCODE_FRAME`, `45_frame_encoder.md` R280 with the guarantee of R278 and `70_reset_and_hazards.md` R353: with a valid
configuration and a capacity of at least MAX_FRAMESIZE, the frame never overflows for good. With fixed prediction it
always completes: FSM DONE, FRAME_OK 1, OUT_LEN within the budget, one frame counted. With LPC the only error left is
`E_RESIDUAL_RANGE`, which leaves FSM FAILED, FRAME_OK 0, OUT_LEN 0 and no frame counted. a0 to a7, N, OUT_CAP and the
configuration stay in every case. -/
def Obligations.encode_frame_fits : Prop :=
  ∀ s : State, RegsInv s.regs → earlyError .encodeFrame s = none →
    s.regs.maxFramesize.toNat ≤ s.regs.outCap.toNat →
    ∃ t, exec .encodeFrame s = .next t
      ∧ t.regs.ops = s.regs.ops ∧ t.regs.n = s.regs.n ∧ t.regs.outCap = s.regs.outCap ∧ t.regs.cfg = s.regs.cfg
      ∧ (s.regs.cfg.lpcType.toNat = 0 → t.regs.err = .noError)
      ∧ (t.regs.err = .noError → t.regs.fsm = .done ∧ t.regs.frameOk = true ∧ 1 ≤ t.regs.outLen.toNat
          ∧ t.regs.outLen.toNat ≤ s.regs.maxFramesize.toNat
          ∧ t.regs.bitpos.toNat = 8 * t.regs.outLen.toNat
          ∧ t.regs.frameCount = s.regs.frameCount + 1)
      ∧ (t.regs.err ≠ .noError → t.regs.err = .residualRange ∧ t.regs.errSticky = true ∧ t.regs.fsm = .failed
          ∧ t.regs.frameOk = false ∧ t.regs.outLen = 0 ∧ t.regs.frameCount = s.regs.frameCount)

/-- `ENCODE_FRAME` is the step commands of `45_frame_encoder.md` R280 in their order (`stepFrame`), issued from FSM IDLE so that
their own state checks hold: when all succeed it leaves exactly the state they leave, memory, RETRIED and FRAME_COUNT
among it, but for a0 to a7, which stay. When one fails, the error is that command's, FSM is FAILED, FRAME_OK and OUT_LEN 0,
and the scratch is unspecified (`60_exceptions.md` R324(g); log 9): IN and OUT from the capacity on stay. -/
def Obligations.encode_frame_is_step_sequence : Prop :=
  ∀ s : State, RegsInv s.regs → earlyError .encodeFrame s = none →
    match stepFrame { s with regs := { s.regs with fsm := .idle } } with
    | .ok u => exec .encodeFrame s = .next { u with regs := { u.regs with ops := s.regs.ops } }
    | .error u => ∃ t, exec .encodeFrame s = .next t
        ∧ t.regs = { withWriter u.regs t.regs with
            ops := s.regs.ops, fsm := .failed, frameOk := false, outLen := 0 }
        ∧ keptOutside (frameScratch t.regs.bwCap.toNat) s t

/-! ## The whole machine -/

/-- Errors found before a command does anything, `60_exceptions.md` R323, R324(a): the first in the order of the priority
classes 3 to 8 is reported, and nothing but STATUS.ERR and STATUS.ERR_STICKY changes. -/
def Obligations.early_errors_change_nothing : Prop :=
  ∀ (i : Instr) (s : State) (e : ErrCode), earlyError i s = some e →
    exec i s = .next { s with regs := { s.regs with err := e, errSticky := true } }

/-- A failing command, `60_exceptions.md` R320, R324: it sets STATUS.ERR_STICKY and leaves a0 to a7, N, OUT_CAP, the CFG_*
registers and, but for `CFG_INIT`, FRAME_COUNT as they are. -/
def Obligations.failing_commands_leave_inputs : Prop :=
  ∀ (i : Instr) (s t : State), exec i s = .next t → t.regs.err ≠ .noError →
    t.regs.errSticky = true ∧ t.regs.ops = s.regs.ops ∧ t.regs.n = s.regs.n ∧ t.regs.outCap = s.regs.outCap
      ∧ t.regs.cfg = s.regs.cfg ∧ (i ≠ .cfgInit → t.regs.frameCount = s.regs.frameCount)

/-- What no command writes, `10_state.md` R21, R31, R47 and `30_encoding.md` R92: every command but `RESET` leaves a0 to a3, a6,
a7, N, OUT_CAP and the CFG_* registers as they are, and a4 and a5 but where the opcode map names them; FRAME_COUNT
returns to 0 by `RESET` and `CFG_INIT` and grows by one when `WR_FOOTER` or `ENCODE_FRAME` reaches DONE, and at no other
time; no command touches the host's accesses. -/
def Obligations.registers_commands_leave : Prop :=
  ∀ (i : Instr) (s t : State), exec i s = .next t →
    t.host = s.host ∧ t.readData = s.readData
    ∧ (i ≠ .reset → t.regs.ops.a0 = s.regs.ops.a0 ∧ t.regs.ops.a1 = s.regs.ops.a1 ∧ t.regs.ops.a2 = s.regs.ops.a2
        ∧ t.regs.ops.a3 = s.regs.ops.a3 ∧ t.regs.ops.a6 = s.regs.ops.a6 ∧ t.regs.ops.a7 = s.regs.ops.a7
        ∧ t.regs.n = s.regs.n ∧ t.regs.outCap = s.regs.outCap ∧ t.regs.cfg = s.regs.cfg)
    ∧ (match i with
        | .reset | .bwPos | .crc8 | .crc16 | .zigzag | .riceCount _ | .findParam | .maxPorder _ _
        | .partSums _ _ _ _ | .calcRice _ _ _ _ | .quant _ _ | .orderEst _ _ | .subEncode _ | .subVerbatim _
        | .stEstimate => True
        | _ => t.regs.ops.a4 = s.regs.ops.a4)
    ∧ (match i with
        | .reset | .findParam | .partSums _ _ _ _ | .calcRice _ _ _ _ => True
        | _ => t.regs.ops.a5 = s.regs.ops.a5)
    ∧ (t.regs.frameCount = s.regs.frameCount
        ∨ ((i = .reset ∨ i = .cfgInit) ∧ t.regs.frameCount = 0)
        ∨ ((i = .wrFooter ∨ i = .encodeFrame) ∧ t.regs.fsm = .done ∧ t.regs.err = .noError
            ∧ t.regs.frameCount = s.regs.frameCount + 1))

/-- The transitions of STATUS.FSM, `45_frame_encoder.md` R266, from any state the machine reaches: each command leaves FSM in the
state its row names, and a command that fails before it does anything leaves it unchanged. -/
def Obligations.fsm_transitions : Prop :=
  ∀ (i : Instr) (s t : State), RegsInv s.regs → exec i s = .next t →
    (earlyError i s ≠ none → t.regs.fsm = s.regs.fsm)
    ∧ (earlyError i s = none →
      match i with
      | .cfgInit | .reset => t.regs.fsm = .idle
      | .frameInit _ => t.regs.fsm = .init
      | .wrHeader => s.regs.fsm = .init ∧ t.regs.fsm = .headerWritten
      | .wrSubframe ch => s.regs.fsm = .headerWritten ∧ t.regs.fsm =
          (if ch + 1 = s.regs.cfg.channels.toNat then .subframesWritten else .headerWritten)
      | .wrFooter => s.regs.fsm = .subframesWritten
          ∧ (t.regs.fsm = .done ∨ t.regs.fsm = .overflowRetry ∨ t.regs.fsm = .failed)
      | .encodeFrame => t.regs.fsm = (if t.regs.err = .noError then .done else .failed)
      | _ => t.regs.fsm = s.regs.fsm)

/-- The block has no trap (`60_exceptions.md` R320) and every command ends (`70_reset_and_hazards.md` R357): a step always
answers a next state. -/
def Obligations.step_never_traps : Prop := ∀ s : State, ∃ t, step s = .next t

/-- The registers right after reset have the invariant. -/
def Obligations.reset_has_invariant : Prop := RegsInv State.reset.regs ∧ MemInv State.reset.mem

/-- Every step keeps the invariant of the registers: FOOTER_WRITTEN is never visible, a locked configuration is valid and
stays as `CFG_INIT` derived it, BW.acc has BITPOS mod 8 bits, a complete frame fits its budget (the fields of `RegsInv`
cite the rules). -/
def Obligations.step_keeps_registers : Prop :=
  ∀ s t : State, RegsInv s.regs → step s = .next t → RegsInv t.regs

/-- Every step keeps the memory in canonical form and lists only valid indices: a command computes only indices inside the
valid ones (`20_memory.md` R79). -/
def Obligations.step_keeps_memory : Prop :=
  ∀ s t : State, RegsInv s.regs → MemInv s.mem → step s = .next t → MemInv t.mem
end

