-- ==== Sys2Proof/Laws/State.lean ====
section
/-!
SUPPORT. One lemma per field per named update of the state, each true by definition, so that no later proof
unfolds a record update.
-/
namespace Sys2Proof.Machine

/-! ### `setA4` -/

@[simp] theorem setA4_mem (s : State) (v : Int) :
    (s.setA4 v).mem = s.mem := rfl

@[simp] theorem setA4_host (s : State) (v : Int) :
    (s.setA4 v).host = s.host := rfl

@[simp] theorem setA4_readData (s : State) (v : Int) :
    (s.setA4 v).readData = s.readData := rfl

@[simp] theorem setA4_forgets (s : State) (v : Int) :
    (s.setA4 v).forgets = s.forgets := rfl

@[simp] theorem setA4_nans (s : State) (v : Int) :
    (s.setA4 v).nans = s.nans := rfl

@[simp] theorem setA4_cfgOk (s : State) (v : Int) :
    (s.setA4 v).regs.cfgOk = s.regs.cfgOk := rfl

@[simp] theorem setA4_bwOk (s : State) (v : Int) :
    (s.setA4 v).regs.bwOk = s.regs.bwOk := rfl

@[simp] theorem setA4_frameOk (s : State) (v : Int) :
    (s.setA4 v).regs.frameOk = s.regs.frameOk := rfl

@[simp] theorem setA4_retried (s : State) (v : Int) :
    (s.setA4 v).regs.retried = s.regs.retried := rfl

@[simp] theorem setA4_fsm (s : State) (v : Int) :
    (s.setA4 v).regs.fsm = s.regs.fsm := rfl

@[simp] theorem setA4_subcnt (s : State) (v : Int) :
    (s.setA4 v).regs.subcnt = s.regs.subcnt := rfl

@[simp] theorem setA4_err (s : State) (v : Int) :
    (s.setA4 v).regs.err = s.regs.err := rfl

@[simp] theorem setA4_errSticky (s : State) (v : Int) :
    (s.setA4 v).regs.errSticky = s.regs.errSticky := rfl

@[simp] theorem setA4_n (s : State) (v : Int) :
    (s.setA4 v).regs.n = s.regs.n := rfl

@[simp] theorem setA4_outCap (s : State) (v : Int) :
    (s.setA4 v).regs.outCap = s.regs.outCap := rfl

@[simp] theorem setA4_outLen (s : State) (v : Int) :
    (s.setA4 v).regs.outLen = s.regs.outLen := rfl

@[simp] theorem setA4_bitpos (s : State) (v : Int) :
    (s.setA4 v).regs.bitpos = s.regs.bitpos := rfl

@[simp] theorem setA4_frameCount (s : State) (v : Int) :
    (s.setA4 v).regs.frameCount = s.regs.frameCount := rfl

@[simp] theorem setA4_chMode (s : State) (v : Int) :
    (s.setA4 v).regs.chMode = s.regs.chMode := rfl

@[simp] theorem setA4_maxFramesize (s : State) (v : Int) :
    (s.setA4 v).regs.maxFramesize = s.regs.maxFramesize := rfl

@[simp] theorem setA4_bsCode (s : State) (v : Int) :
    (s.setA4 v).regs.bsCode = s.regs.bsCode := rfl

@[simp] theorem setA4_srCode (s : State) (v : Int) :
    (s.setA4 v).regs.srCode = s.regs.srCode := rfl

@[simp] theorem setA4_crc8Run (s : State) (v : Int) :
    (s.setA4 v).regs.crc8Run = s.regs.crc8Run := rfl

@[simp] theorem setA4_crc16Run (s : State) (v : Int) :
    (s.setA4 v).regs.crc16Run = s.regs.crc16Run := rfl

@[simp] theorem setA4_cfg (s : State) (v : Int) :
    (s.setA4 v).regs.cfg = s.regs.cfg := rfl

@[simp] theorem setA4_bwCap (s : State) (v : Int) :
    (s.setA4 v).regs.bwCap = s.regs.bwCap := rfl

@[simp] theorem setA4_bwAcc (s : State) (v : Int) :
    (s.setA4 v).regs.bwAcc = s.regs.bwAcc := rfl

@[simp] theorem setA4_a0 (s : State) (v : Int) :
    (s.setA4 v).regs.ops.a0 = s.regs.ops.a0 := rfl

@[simp] theorem setA4_a1 (s : State) (v : Int) :
    (s.setA4 v).regs.ops.a1 = s.regs.ops.a1 := rfl

@[simp] theorem setA4_a2 (s : State) (v : Int) :
    (s.setA4 v).regs.ops.a2 = s.regs.ops.a2 := rfl

@[simp] theorem setA4_a3 (s : State) (v : Int) :
    (s.setA4 v).regs.ops.a3 = s.regs.ops.a3 := rfl

@[simp] theorem setA4_a4 (s : State) (v : Int) :
    (s.setA4 v).regs.ops.a4 = BitVec.ofInt 64 v := rfl

@[simp] theorem setA4_a5 (s : State) (v : Int) :
    (s.setA4 v).regs.ops.a5 = s.regs.ops.a5 := rfl

@[simp] theorem setA4_a6 (s : State) (v : Int) :
    (s.setA4 v).regs.ops.a6 = s.regs.ops.a6 := rfl

@[simp] theorem setA4_a7 (s : State) (v : Int) :
    (s.setA4 v).regs.ops.a7 = s.regs.ops.a7 := rfl

/-! ### `setA5` -/

@[simp] theorem setA5_mem (s : State) (v : Int) :
    (s.setA5 v).mem = s.mem := rfl

@[simp] theorem setA5_host (s : State) (v : Int) :
    (s.setA5 v).host = s.host := rfl

@[simp] theorem setA5_readData (s : State) (v : Int) :
    (s.setA5 v).readData = s.readData := rfl

@[simp] theorem setA5_forgets (s : State) (v : Int) :
    (s.setA5 v).forgets = s.forgets := rfl

@[simp] theorem setA5_nans (s : State) (v : Int) :
    (s.setA5 v).nans = s.nans := rfl

@[simp] theorem setA5_cfgOk (s : State) (v : Int) :
    (s.setA5 v).regs.cfgOk = s.regs.cfgOk := rfl

@[simp] theorem setA5_bwOk (s : State) (v : Int) :
    (s.setA5 v).regs.bwOk = s.regs.bwOk := rfl

@[simp] theorem setA5_frameOk (s : State) (v : Int) :
    (s.setA5 v).regs.frameOk = s.regs.frameOk := rfl

@[simp] theorem setA5_retried (s : State) (v : Int) :
    (s.setA5 v).regs.retried = s.regs.retried := rfl

@[simp] theorem setA5_fsm (s : State) (v : Int) :
    (s.setA5 v).regs.fsm = s.regs.fsm := rfl

@[simp] theorem setA5_subcnt (s : State) (v : Int) :
    (s.setA5 v).regs.subcnt = s.regs.subcnt := rfl

@[simp] theorem setA5_err (s : State) (v : Int) :
    (s.setA5 v).regs.err = s.regs.err := rfl

@[simp] theorem setA5_errSticky (s : State) (v : Int) :
    (s.setA5 v).regs.errSticky = s.regs.errSticky := rfl

@[simp] theorem setA5_n (s : State) (v : Int) :
    (s.setA5 v).regs.n = s.regs.n := rfl

@[simp] theorem setA5_outCap (s : State) (v : Int) :
    (s.setA5 v).regs.outCap = s.regs.outCap := rfl

@[simp] theorem setA5_outLen (s : State) (v : Int) :
    (s.setA5 v).regs.outLen = s.regs.outLen := rfl

@[simp] theorem setA5_bitpos (s : State) (v : Int) :
    (s.setA5 v).regs.bitpos = s.regs.bitpos := rfl

@[simp] theorem setA5_frameCount (s : State) (v : Int) :
    (s.setA5 v).regs.frameCount = s.regs.frameCount := rfl

@[simp] theorem setA5_chMode (s : State) (v : Int) :
    (s.setA5 v).regs.chMode = s.regs.chMode := rfl

@[simp] theorem setA5_maxFramesize (s : State) (v : Int) :
    (s.setA5 v).regs.maxFramesize = s.regs.maxFramesize := rfl

@[simp] theorem setA5_bsCode (s : State) (v : Int) :
    (s.setA5 v).regs.bsCode = s.regs.bsCode := rfl

@[simp] theorem setA5_srCode (s : State) (v : Int) :
    (s.setA5 v).regs.srCode = s.regs.srCode := rfl

@[simp] theorem setA5_crc8Run (s : State) (v : Int) :
    (s.setA5 v).regs.crc8Run = s.regs.crc8Run := rfl

@[simp] theorem setA5_crc16Run (s : State) (v : Int) :
    (s.setA5 v).regs.crc16Run = s.regs.crc16Run := rfl

@[simp] theorem setA5_cfg (s : State) (v : Int) :
    (s.setA5 v).regs.cfg = s.regs.cfg := rfl

@[simp] theorem setA5_bwCap (s : State) (v : Int) :
    (s.setA5 v).regs.bwCap = s.regs.bwCap := rfl

@[simp] theorem setA5_bwAcc (s : State) (v : Int) :
    (s.setA5 v).regs.bwAcc = s.regs.bwAcc := rfl

@[simp] theorem setA5_a0 (s : State) (v : Int) :
    (s.setA5 v).regs.ops.a0 = s.regs.ops.a0 := rfl

@[simp] theorem setA5_a1 (s : State) (v : Int) :
    (s.setA5 v).regs.ops.a1 = s.regs.ops.a1 := rfl

@[simp] theorem setA5_a2 (s : State) (v : Int) :
    (s.setA5 v).regs.ops.a2 = s.regs.ops.a2 := rfl

@[simp] theorem setA5_a3 (s : State) (v : Int) :
    (s.setA5 v).regs.ops.a3 = s.regs.ops.a3 := rfl

@[simp] theorem setA5_a4 (s : State) (v : Int) :
    (s.setA5 v).regs.ops.a4 = s.regs.ops.a4 := rfl

@[simp] theorem setA5_a5 (s : State) (v : Int) :
    (s.setA5 v).regs.ops.a5 = BitVec.ofInt 64 v := rfl

@[simp] theorem setA5_a6 (s : State) (v : Int) :
    (s.setA5 v).regs.ops.a6 = s.regs.ops.a6 := rfl

@[simp] theorem setA5_a7 (s : State) (v : Int) :
    (s.setA5 v).regs.ops.a7 = s.regs.ops.a7 := rfl

/-! ### `setFsm` -/

@[simp] theorem setFsm_mem (s : State) (f : Fsm) :
    (s.setFsm f).mem = s.mem := rfl

@[simp] theorem setFsm_host (s : State) (f : Fsm) :
    (s.setFsm f).host = s.host := rfl

@[simp] theorem setFsm_readData (s : State) (f : Fsm) :
    (s.setFsm f).readData = s.readData := rfl

@[simp] theorem setFsm_forgets (s : State) (f : Fsm) :
    (s.setFsm f).forgets = s.forgets := rfl

@[simp] theorem setFsm_nans (s : State) (f : Fsm) :
    (s.setFsm f).nans = s.nans := rfl

@[simp] theorem setFsm_cfgOk (s : State) (f : Fsm) :
    (s.setFsm f).regs.cfgOk = s.regs.cfgOk := rfl

@[simp] theorem setFsm_bwOk (s : State) (f : Fsm) :
    (s.setFsm f).regs.bwOk = s.regs.bwOk := rfl

@[simp] theorem setFsm_frameOk (s : State) (f : Fsm) :
    (s.setFsm f).regs.frameOk = s.regs.frameOk := rfl

@[simp] theorem setFsm_retried (s : State) (f : Fsm) :
    (s.setFsm f).regs.retried = s.regs.retried := rfl

@[simp] theorem setFsm_fsm (s : State) (f : Fsm) :
    (s.setFsm f).regs.fsm = f := rfl

@[simp] theorem setFsm_subcnt (s : State) (f : Fsm) :
    (s.setFsm f).regs.subcnt = s.regs.subcnt := rfl

@[simp] theorem setFsm_err (s : State) (f : Fsm) :
    (s.setFsm f).regs.err = s.regs.err := rfl

@[simp] theorem setFsm_errSticky (s : State) (f : Fsm) :
    (s.setFsm f).regs.errSticky = s.regs.errSticky := rfl

@[simp] theorem setFsm_n (s : State) (f : Fsm) :
    (s.setFsm f).regs.n = s.regs.n := rfl

@[simp] theorem setFsm_outCap (s : State) (f : Fsm) :
    (s.setFsm f).regs.outCap = s.regs.outCap := rfl

@[simp] theorem setFsm_outLen (s : State) (f : Fsm) :
    (s.setFsm f).regs.outLen = s.regs.outLen := rfl

@[simp] theorem setFsm_bitpos (s : State) (f : Fsm) :
    (s.setFsm f).regs.bitpos = s.regs.bitpos := rfl

@[simp] theorem setFsm_frameCount (s : State) (f : Fsm) :
    (s.setFsm f).regs.frameCount = s.regs.frameCount := rfl

@[simp] theorem setFsm_chMode (s : State) (f : Fsm) :
    (s.setFsm f).regs.chMode = s.regs.chMode := rfl

@[simp] theorem setFsm_maxFramesize (s : State) (f : Fsm) :
    (s.setFsm f).regs.maxFramesize = s.regs.maxFramesize := rfl

@[simp] theorem setFsm_bsCode (s : State) (f : Fsm) :
    (s.setFsm f).regs.bsCode = s.regs.bsCode := rfl

@[simp] theorem setFsm_srCode (s : State) (f : Fsm) :
    (s.setFsm f).regs.srCode = s.regs.srCode := rfl

@[simp] theorem setFsm_crc8Run (s : State) (f : Fsm) :
    (s.setFsm f).regs.crc8Run = s.regs.crc8Run := rfl

@[simp] theorem setFsm_crc16Run (s : State) (f : Fsm) :
    (s.setFsm f).regs.crc16Run = s.regs.crc16Run := rfl

@[simp] theorem setFsm_cfg (s : State) (f : Fsm) :
    (s.setFsm f).regs.cfg = s.regs.cfg := rfl

@[simp] theorem setFsm_bwCap (s : State) (f : Fsm) :
    (s.setFsm f).regs.bwCap = s.regs.bwCap := rfl

@[simp] theorem setFsm_bwAcc (s : State) (f : Fsm) :
    (s.setFsm f).regs.bwAcc = s.regs.bwAcc := rfl

@[simp] theorem setFsm_ops (s : State) (f : Fsm) :
    (s.setFsm f).regs.ops = s.regs.ops := rfl

/-! ### `setChMode` -/

@[simp] theorem setChMode_mem (s : State) (v : Nat) :
    (s.setChMode v).mem = s.mem := rfl

@[simp] theorem setChMode_host (s : State) (v : Nat) :
    (s.setChMode v).host = s.host := rfl

@[simp] theorem setChMode_readData (s : State) (v : Nat) :
    (s.setChMode v).readData = s.readData := rfl

@[simp] theorem setChMode_forgets (s : State) (v : Nat) :
    (s.setChMode v).forgets = s.forgets := rfl

@[simp] theorem setChMode_nans (s : State) (v : Nat) :
    (s.setChMode v).nans = s.nans := rfl

@[simp] theorem setChMode_cfgOk (s : State) (v : Nat) :
    (s.setChMode v).regs.cfgOk = s.regs.cfgOk := rfl

@[simp] theorem setChMode_bwOk (s : State) (v : Nat) :
    (s.setChMode v).regs.bwOk = s.regs.bwOk := rfl

@[simp] theorem setChMode_frameOk (s : State) (v : Nat) :
    (s.setChMode v).regs.frameOk = s.regs.frameOk := rfl

@[simp] theorem setChMode_retried (s : State) (v : Nat) :
    (s.setChMode v).regs.retried = s.regs.retried := rfl

@[simp] theorem setChMode_fsm (s : State) (v : Nat) :
    (s.setChMode v).regs.fsm = s.regs.fsm := rfl

@[simp] theorem setChMode_subcnt (s : State) (v : Nat) :
    (s.setChMode v).regs.subcnt = s.regs.subcnt := rfl

@[simp] theorem setChMode_err (s : State) (v : Nat) :
    (s.setChMode v).regs.err = s.regs.err := rfl

@[simp] theorem setChMode_errSticky (s : State) (v : Nat) :
    (s.setChMode v).regs.errSticky = s.regs.errSticky := rfl

@[simp] theorem setChMode_n (s : State) (v : Nat) :
    (s.setChMode v).regs.n = s.regs.n := rfl

@[simp] theorem setChMode_outCap (s : State) (v : Nat) :
    (s.setChMode v).regs.outCap = s.regs.outCap := rfl

@[simp] theorem setChMode_outLen (s : State) (v : Nat) :
    (s.setChMode v).regs.outLen = s.regs.outLen := rfl

@[simp] theorem setChMode_bitpos (s : State) (v : Nat) :
    (s.setChMode v).regs.bitpos = s.regs.bitpos := rfl

@[simp] theorem setChMode_frameCount (s : State) (v : Nat) :
    (s.setChMode v).regs.frameCount = s.regs.frameCount := rfl

@[simp] theorem setChMode_chMode (s : State) (v : Nat) :
    (s.setChMode v).regs.chMode = BitVec.ofNat 2 v := rfl

@[simp] theorem setChMode_maxFramesize (s : State) (v : Nat) :
    (s.setChMode v).regs.maxFramesize = s.regs.maxFramesize := rfl

@[simp] theorem setChMode_bsCode (s : State) (v : Nat) :
    (s.setChMode v).regs.bsCode = s.regs.bsCode := rfl

@[simp] theorem setChMode_srCode (s : State) (v : Nat) :
    (s.setChMode v).regs.srCode = s.regs.srCode := rfl

@[simp] theorem setChMode_crc8Run (s : State) (v : Nat) :
    (s.setChMode v).regs.crc8Run = s.regs.crc8Run := rfl

@[simp] theorem setChMode_crc16Run (s : State) (v : Nat) :
    (s.setChMode v).regs.crc16Run = s.regs.crc16Run := rfl

@[simp] theorem setChMode_cfg (s : State) (v : Nat) :
    (s.setChMode v).regs.cfg = s.regs.cfg := rfl

@[simp] theorem setChMode_bwCap (s : State) (v : Nat) :
    (s.setChMode v).regs.bwCap = s.regs.bwCap := rfl

@[simp] theorem setChMode_bwAcc (s : State) (v : Nat) :
    (s.setChMode v).regs.bwAcc = s.regs.bwAcc := rfl

@[simp] theorem setChMode_ops (s : State) (v : Nat) :
    (s.setChMode v).regs.ops = s.regs.ops := rfl

/-! ### `writerInit` -/

@[simp] theorem writerInit_mem (s : State) (cap : Word32) :
    (writerInit s cap).mem = s.mem := rfl

@[simp] theorem writerInit_host (s : State) (cap : Word32) :
    (writerInit s cap).host = s.host := rfl

@[simp] theorem writerInit_readData (s : State) (cap : Word32) :
    (writerInit s cap).readData = s.readData := rfl

@[simp] theorem writerInit_forgets (s : State) (cap : Word32) :
    (writerInit s cap).forgets = s.forgets := rfl

@[simp] theorem writerInit_nans (s : State) (cap : Word32) :
    (writerInit s cap).nans = s.nans := rfl

@[simp] theorem writerInit_cfgOk (s : State) (cap : Word32) :
    (writerInit s cap).regs.cfgOk = s.regs.cfgOk := rfl

@[simp] theorem writerInit_bwOk (s : State) (cap : Word32) :
    (writerInit s cap).regs.bwOk = true := rfl

@[simp] theorem writerInit_frameOk (s : State) (cap : Word32) :
    (writerInit s cap).regs.frameOk = false := rfl

@[simp] theorem writerInit_retried (s : State) (cap : Word32) :
    (writerInit s cap).regs.retried = s.regs.retried := rfl

@[simp] theorem writerInit_fsm (s : State) (cap : Word32) :
    (writerInit s cap).regs.fsm = s.regs.fsm := rfl

@[simp] theorem writerInit_subcnt (s : State) (cap : Word32) :
    (writerInit s cap).regs.subcnt = s.regs.subcnt := rfl

@[simp] theorem writerInit_err (s : State) (cap : Word32) :
    (writerInit s cap).regs.err = s.regs.err := rfl

@[simp] theorem writerInit_errSticky (s : State) (cap : Word32) :
    (writerInit s cap).regs.errSticky = s.regs.errSticky := rfl

@[simp] theorem writerInit_n (s : State) (cap : Word32) :
    (writerInit s cap).regs.n = s.regs.n := rfl

@[simp] theorem writerInit_outCap (s : State) (cap : Word32) :
    (writerInit s cap).regs.outCap = s.regs.outCap := rfl

@[simp] theorem writerInit_outLen (s : State) (cap : Word32) :
    (writerInit s cap).regs.outLen = 0 := rfl

@[simp] theorem writerInit_bitpos (s : State) (cap : Word32) :
    (writerInit s cap).regs.bitpos = 0 := rfl

@[simp] theorem writerInit_frameCount (s : State) (cap : Word32) :
    (writerInit s cap).regs.frameCount = s.regs.frameCount := rfl

@[simp] theorem writerInit_chMode (s : State) (cap : Word32) :
    (writerInit s cap).regs.chMode = s.regs.chMode := rfl

@[simp] theorem writerInit_maxFramesize (s : State) (cap : Word32) :
    (writerInit s cap).regs.maxFramesize = s.regs.maxFramesize := rfl

@[simp] theorem writerInit_bsCode (s : State) (cap : Word32) :
    (writerInit s cap).regs.bsCode = s.regs.bsCode := rfl

@[simp] theorem writerInit_srCode (s : State) (cap : Word32) :
    (writerInit s cap).regs.srCode = s.regs.srCode := rfl

@[simp] theorem writerInit_crc8Run (s : State) (cap : Word32) :
    (writerInit s cap).regs.crc8Run = 0 := rfl

@[simp] theorem writerInit_crc16Run (s : State) (cap : Word32) :
    (writerInit s cap).regs.crc16Run = 0 := rfl

@[simp] theorem writerInit_cfg (s : State) (cap : Word32) :
    (writerInit s cap).regs.cfg = s.regs.cfg := rfl

@[simp] theorem writerInit_bwCap (s : State) (cap : Word32) :
    (writerInit s cap).regs.bwCap = cap := rfl

@[simp] theorem writerInit_bwAcc (s : State) (cap : Word32) :
    (writerInit s cap).regs.bwAcc = 0 := rfl

@[simp] theorem writerInit_ops (s : State) (cap : Word32) :
    (writerInit s cap).regs.ops = s.regs.ops := rfl

/-! ### `frameDone` -/

@[simp] theorem frameDone_mem (s : State) (len : Nat) :
    (frameDone s len).mem = s.mem := rfl

@[simp] theorem frameDone_host (s : State) (len : Nat) :
    (frameDone s len).host = s.host := rfl

@[simp] theorem frameDone_readData (s : State) (len : Nat) :
    (frameDone s len).readData = s.readData := rfl

@[simp] theorem frameDone_forgets (s : State) (len : Nat) :
    (frameDone s len).forgets = s.forgets := rfl

@[simp] theorem frameDone_nans (s : State) (len : Nat) :
    (frameDone s len).nans = s.nans := rfl

@[simp] theorem frameDone_cfgOk (s : State) (len : Nat) :
    (frameDone s len).regs.cfgOk = s.regs.cfgOk := rfl

@[simp] theorem frameDone_bwOk (s : State) (len : Nat) :
    (frameDone s len).regs.bwOk = s.regs.bwOk := rfl

@[simp] theorem frameDone_frameOk (s : State) (len : Nat) :
    (frameDone s len).regs.frameOk = true := rfl

@[simp] theorem frameDone_retried (s : State) (len : Nat) :
    (frameDone s len).regs.retried = s.regs.retried := rfl

@[simp] theorem frameDone_fsm (s : State) (len : Nat) :
    (frameDone s len).regs.fsm = .done := rfl

@[simp] theorem frameDone_subcnt (s : State) (len : Nat) :
    (frameDone s len).regs.subcnt = s.regs.subcnt := rfl

@[simp] theorem frameDone_err (s : State) (len : Nat) :
    (frameDone s len).regs.err = s.regs.err := rfl

@[simp] theorem frameDone_errSticky (s : State) (len : Nat) :
    (frameDone s len).regs.errSticky = s.regs.errSticky := rfl

@[simp] theorem frameDone_n (s : State) (len : Nat) :
    (frameDone s len).regs.n = s.regs.n := rfl

@[simp] theorem frameDone_outCap (s : State) (len : Nat) :
    (frameDone s len).regs.outCap = s.regs.outCap := rfl

@[simp] theorem frameDone_outLen (s : State) (len : Nat) :
    (frameDone s len).regs.outLen = BitVec.ofNat 32 len := rfl

@[simp] theorem frameDone_bitpos (s : State) (len : Nat) :
    (frameDone s len).regs.bitpos = s.regs.bitpos := rfl

@[simp] theorem frameDone_frameCount (s : State) (len : Nat) :
    (frameDone s len).regs.frameCount = s.regs.frameCount + 1 := rfl

@[simp] theorem frameDone_chMode (s : State) (len : Nat) :
    (frameDone s len).regs.chMode = s.regs.chMode := rfl

@[simp] theorem frameDone_maxFramesize (s : State) (len : Nat) :
    (frameDone s len).regs.maxFramesize = s.regs.maxFramesize := rfl

@[simp] theorem frameDone_bsCode (s : State) (len : Nat) :
    (frameDone s len).regs.bsCode = s.regs.bsCode := rfl

@[simp] theorem frameDone_srCode (s : State) (len : Nat) :
    (frameDone s len).regs.srCode = s.regs.srCode := rfl

@[simp] theorem frameDone_crc8Run (s : State) (len : Nat) :
    (frameDone s len).regs.crc8Run = s.regs.crc8Run := rfl

@[simp] theorem frameDone_crc16Run (s : State) (len : Nat) :
    (frameDone s len).regs.crc16Run = s.regs.crc16Run := rfl

@[simp] theorem frameDone_cfg (s : State) (len : Nat) :
    (frameDone s len).regs.cfg = s.regs.cfg := rfl

@[simp] theorem frameDone_bwCap (s : State) (len : Nat) :
    (frameDone s len).regs.bwCap = s.regs.bwCap := rfl

@[simp] theorem frameDone_bwAcc (s : State) (len : Nat) :
    (frameDone s len).regs.bwAcc = s.regs.bwAcc := rfl

@[simp] theorem frameDone_ops (s : State) (len : Nat) :
    (frameDone s len).regs.ops = s.regs.ops := rfl

/-! ### `clearStream` -/

@[simp] theorem clearStream_mem (s : State) :
    (clearStream s).mem = s.mem := rfl

@[simp] theorem clearStream_host (s : State) :
    (clearStream s).host = s.host := rfl

@[simp] theorem clearStream_readData (s : State) :
    (clearStream s).readData = s.readData := rfl

@[simp] theorem clearStream_forgets (s : State) :
    (clearStream s).forgets = s.forgets := rfl

@[simp] theorem clearStream_nans (s : State) :
    (clearStream s).nans = s.nans := rfl

@[simp] theorem clearStream_cfgOk (s : State) :
    (clearStream s).regs.cfgOk = s.regs.cfgOk := rfl

@[simp] theorem clearStream_bwOk (s : State) :
    (clearStream s).regs.bwOk = false := rfl

@[simp] theorem clearStream_frameOk (s : State) :
    (clearStream s).regs.frameOk = false := rfl

@[simp] theorem clearStream_retried (s : State) :
    (clearStream s).regs.retried = false := rfl

@[simp] theorem clearStream_fsm (s : State) :
    (clearStream s).regs.fsm = .idle := rfl

@[simp] theorem clearStream_subcnt (s : State) :
    (clearStream s).regs.subcnt = 0 := rfl

@[simp] theorem clearStream_err (s : State) :
    (clearStream s).regs.err = s.regs.err := rfl

@[simp] theorem clearStream_errSticky (s : State) :
    (clearStream s).regs.errSticky = s.regs.errSticky := rfl

@[simp] theorem clearStream_n (s : State) :
    (clearStream s).regs.n = s.regs.n := rfl

@[simp] theorem clearStream_outCap (s : State) :
    (clearStream s).regs.outCap = s.regs.outCap := rfl

@[simp] theorem clearStream_outLen (s : State) :
    (clearStream s).regs.outLen = 0 := rfl

@[simp] theorem clearStream_bitpos (s : State) :
    (clearStream s).regs.bitpos = 0 := rfl

@[simp] theorem clearStream_frameCount (s : State) :
    (clearStream s).regs.frameCount = 0 := rfl

@[simp] theorem clearStream_chMode (s : State) :
    (clearStream s).regs.chMode = 0 := rfl

@[simp] theorem clearStream_maxFramesize (s : State) :
    (clearStream s).regs.maxFramesize = s.regs.maxFramesize := rfl

@[simp] theorem clearStream_bsCode (s : State) :
    (clearStream s).regs.bsCode = 0 := rfl

@[simp] theorem clearStream_srCode (s : State) :
    (clearStream s).regs.srCode = s.regs.srCode := rfl

@[simp] theorem clearStream_crc8Run (s : State) :
    (clearStream s).regs.crc8Run = 0 := rfl

@[simp] theorem clearStream_crc16Run (s : State) :
    (clearStream s).regs.crc16Run = 0 := rfl

@[simp] theorem clearStream_cfg (s : State) :
    (clearStream s).regs.cfg = s.regs.cfg := rfl

@[simp] theorem clearStream_bwCap (s : State) :
    (clearStream s).regs.bwCap = 0 := rfl

@[simp] theorem clearStream_bwAcc (s : State) :
    (clearStream s).regs.bwAcc = 0 := rfl

@[simp] theorem clearStream_ops (s : State) :
    (clearStream s).regs.ops = s.regs.ops := rfl

/-! ### `memWrite` -/

@[simp] theorem memWrite_regs (s : State) (sp : Space) (lo : Nat) (vals : List Int) :
    (s.memWrite sp lo vals).regs = s.regs := rfl

@[simp] theorem memWrite_mem (s : State) (sp : Space) (lo : Nat) (vals : List Int) :
    (s.memWrite sp lo vals).mem = memPut s.mem sp lo vals := rfl

@[simp] theorem memWrite_host (s : State) (sp : Space) (lo : Nat) (vals : List Int) :
    (s.memWrite sp lo vals).host = s.host := rfl

@[simp] theorem memWrite_readData (s : State) (sp : Space) (lo : Nat) (vals : List Int) :
    (s.memWrite sp lo vals).readData = s.readData := rfl

@[simp] theorem memWrite_forgets (s : State) (sp : Space) (lo : Nat) (vals : List Int) :
    (s.memWrite sp lo vals).forgets = s.forgets := rfl

@[simp] theorem memWrite_nans (s : State) (sp : Space) (lo : Nat) (vals : List Int) :
    (s.memWrite sp lo vals).nans = s.nans := rfl

/-! ### `forget` -/

@[simp] theorem forget_regs (s : State) (rs : List (Space × Nat × Nat)) :
    (s.forget rs).regs = s.regs := rfl

@[simp] theorem forget_mem (s : State) (rs : List (Space × Nat × Nat)) :
    (s.forget rs).mem = rs.foldl (fun m r => memErase m r.1 r.2.1 r.2.2) s.mem := rfl

@[simp] theorem forget_host (s : State) (rs : List (Space × Nat × Nat)) :
    (s.forget rs).host = s.host := rfl

@[simp] theorem forget_readData (s : State) (rs : List (Space × Nat × Nat)) :
    (s.forget rs).readData = s.readData := rfl

@[simp] theorem forget_forgets (s : State) (rs : List (Space × Nat × Nat)) :
    (s.forget rs).forgets = s.forgets + 1 := rfl

@[simp] theorem forget_nans (s : State) (rs : List (Space × Nat × Nat)) :
    (s.forget rs).nans = s.nans := rfl

/-! ### `storeReals` -/

@[simp] theorem storeReals_regs (s : State) (sp : Space) (lo : Nat) (vals : List Flt) :
    (s.storeReals sp lo vals).regs = s.regs := rfl

@[simp] theorem storeReals_mem (s : State) (sp : Space) (lo : Nat) (vals : List Flt) :
    (s.storeReals sp lo vals).mem = memPut s.mem sp lo (realPatterns s.nans sp lo vals) := rfl

@[simp] theorem storeReals_host (s : State) (sp : Space) (lo : Nat) (vals : List Flt) :
    (s.storeReals sp lo vals).host = s.host := rfl

@[simp] theorem storeReals_readData (s : State) (sp : Space) (lo : Nat) (vals : List Flt) :
    (s.storeReals sp lo vals).readData = s.readData := rfl

@[simp] theorem storeReals_forgets (s : State) (sp : Space) (lo : Nat) (vals : List Flt) :
    (s.storeReals sp lo vals).forgets = s.forgets := rfl

@[simp] theorem storeReals_nans (s : State) (sp : Space) (lo : Nat) (vals : List Flt) :
    (s.storeReals sp lo vals).nans = s.nans + 1 := rfl

/-! ### `setSub` -/

@[simp] theorem setSub_regs (s : State) (ch f : Nat) (vals : List Int) :
    (s.setSub ch f vals).regs = s.regs := rfl

@[simp] theorem setSub_mem (s : State) (ch f : Nat) (vals : List Int) :
    (s.setSub ch f vals).mem = memPut s.mem .subrec (recIndex ch f) vals := rfl

@[simp] theorem setSub_host (s : State) (ch f : Nat) (vals : List Int) :
    (s.setSub ch f vals).host = s.host := rfl

@[simp] theorem setSub_readData (s : State) (ch f : Nat) (vals : List Int) :
    (s.setSub ch f vals).readData = s.readData := rfl

@[simp] theorem setSub_forgets (s : State) (ch f : Nat) (vals : List Int) :
    (s.setSub ch f vals).forgets = s.forgets := rfl

@[simp] theorem setSub_nans (s : State) (ch f : Nat) (vals : List Int) :
    (s.setSub ch f vals).nans = s.nans := rfl

/-! ### `setResiduals` -/

@[simp] theorem setResiduals_regs (s : State) (ch : Nat) (vals : List Int) :
    (s.setResiduals ch vals).regs = s.regs := rfl

@[simp] theorem setResiduals_mem (s : State) (ch : Nat) (vals : List Int) :
    (s.setResiduals ch vals).mem = memPut s.mem .res (chIndex ch 0) vals := rfl

@[simp] theorem setResiduals_host (s : State) (ch : Nat) (vals : List Int) :
    (s.setResiduals ch vals).host = s.host := rfl

@[simp] theorem setResiduals_readData (s : State) (ch : Nat) (vals : List Int) :
    (s.setResiduals ch vals).readData = s.readData := rfl

@[simp] theorem setResiduals_forgets (s : State) (ch : Nat) (vals : List Int) :
    (s.setResiduals ch vals).forgets = s.forgets := rfl

@[simp] theorem setResiduals_nans (s : State) (ch : Nat) (vals : List Int) :
    (s.setResiduals ch vals).nans = s.nans := rfl

end Sys2Proof.Machine
end

