-- ==== Sys2Proof/Laws/Ops.lean ====
section
/-!
SUPPORT. What the memory operations do: a read after a write, the elements a write leaves alone, and the canonical form,
which every memory operation keeps. One lemma for each operation, which later proofs cite instead of unfolding it.
-/
namespace Sys2Proof.Machine

/-! ## Element lists -/

theorem cellGet_append {w : Nat} (a b : Cells w) (i : Nat) :
    cellGet (a ++ b) i = (cellGet a i).or (cellGet b i) := by
  induction a with
  | nil => simp [cellGet]
  | cons e t ih =>
    obtain ⟨k, v⟩ := e
    by_cases h : k = i <;> simp [cellGet, h, ih]

theorem cellGet_filter {w : Nat} (p : Nat → Bool) (c : Cells w) (i : Nat) :
    cellGet (c.filter fun e => p e.1) i = if p i then cellGet c i else none := by
  induction c with
  | nil => simp [cellGet]
  | cons e t ih =>
    obtain ⟨k, v⟩ := e
    by_cases hk : k = i
    · subst hk; by_cases hp : p k <;> simp [cellGet, hp, ih]
    · by_cases hp : p k <;> simp [cellGet, hp, hk, ih]

theorem cellGet_cellRun {w : Nat} (vals : List (BitVec w)) (lo i : Nat) :
    cellGet (cellRun lo vals) i = if lo ≤ i then vals[i - lo]? else none := by
  induction vals generalizing lo with
  | nil => simp [cellRun, cellGet]
  | cons v t ih =>
    rcases Nat.lt_trichotomy lo i with h | h | h
    · obtain ⟨d, rfl⟩ : ∃ d, i = lo + 1 + d := ⟨i - (lo + 1), by omega⟩
      have : lo + 1 + d - lo = d + 1 := by omega
      simp [cellRun, cellGet, ih, this, h.ne, show lo ≤ lo + 1 + d by omega]
    · subst h; simp [cellRun, cellGet]
    · simp [cellRun, cellGet, ih, h.ne', show ¬lo + 1 ≤ i by omega, show ¬lo ≤ i by omega]

/-- A read after a write: the value written, and every other index as before. -/
theorem cellGet_cellPut {w : Nat} (c : Cells w) (lo : Nat) (vals : List (BitVec w)) (i : Nat) :
    cellGet (cellPut c lo vals) i
      = if lo ≤ i ∧ i < lo + vals.length then vals[i - lo]? else cellGet c i := by
  have h1 := cellGet_filter (fun k => decide (k < lo)) c i
  have h2 := cellGet_filter (fun k => decide (lo + vals.length ≤ k)) c i
  simp only [cellPut, cellGet_append, h1, h2, cellGet_cellRun]
  rcases Nat.lt_or_ge i lo with h | h
  · simp [h, show ¬lo ≤ i by omega, show ¬lo + vals.length ≤ i by omega]
  · rcases Nat.lt_or_ge i (lo + vals.length) with h' | h'
    · have : i - lo < vals.length := by omega
      simp [h, h', show ¬i < lo by omega, List.getElem?_eq_getElem this]
    · have : vals.length ≤ i - lo := by omega
      simp [h, show ¬i < lo by omega, h', show ¬i < lo + vals.length by omega, List.getElem?_eq_none this]

/-- An erased index is unspecified, every other one is as before. -/
theorem cellGet_cellErase {w : Nat} (c : Cells w) (lo len i : Nat) :
    cellGet (cellErase c lo len) i = if lo ≤ i ∧ i < lo + len then none else cellGet c i := by
  have h := cellGet_filter (fun k => decide (k < lo) || decide (lo + len ≤ k)) c i
  simp only [cellErase, h]
  by_cases h1 : lo ≤ i
  · by_cases h2 : i < lo + len
    · simp [h1, h2, show ¬i < lo by omega, show ¬lo + len ≤ i by omega]
    · simp [h1, h2, show lo + len ≤ i by omega]
  · simp [h1, show i < lo by omega]

theorem cellRun_keys {w : Nat} (vals : List (BitVec w)) (lo : Nat) :
    (cellRun lo vals).map Prod.fst = List.range' lo vals.length := by
  induction vals generalizing lo with
  | nil => rfl
  | cons v t ih => simp [cellRun, ih, List.range'_succ]

theorem cellsRising_iff {w : Nat} (c : Cells w) :
    cellsRising c = true ↔ (c.map Prod.fst).Pairwise (· < ·) := by simp [cellsRising]

theorem cellsRising_filter {w : Nat} {c : Cells w} (p : Nat × BitVec w → Bool) (h : cellsRising c = true) :
    cellsRising (c.filter p) = true := by
  rw [cellsRising_iff] at *
  exact h.sublist (List.filter_sublist.map _)

/-- A write keeps the canonical form. -/
theorem cellsRising_cellPut {w : Nat} {c : Cells w} (lo : Nat) (vals : List (BitVec w))
    (h : cellsRising c = true) : cellsRising (cellPut c lo vals) = true := by
  have hl := cellsRising_filter (fun e => decide (e.1 < lo)) h
  have hr := cellsRising_filter (fun e => decide (lo + vals.length ≤ e.1)) h
  rw [cellsRising_iff] at *
  simp only [cellPut, List.map_append, cellRun_keys, List.pairwise_append]
  refine ⟨⟨hl, List.pairwise_lt_range', ?_⟩, hr, ?_⟩
  · intro a ha b hb
    simp only [List.mem_map, List.mem_filter, decide_eq_true_eq] at ha
    obtain ⟨e, ⟨-, he⟩, rfl⟩ := ha
    have := (List.mem_range'_1.1 hb).1
    omega
  · intro a ha b hb
    simp only [List.mem_append, List.mem_map, List.mem_filter, decide_eq_true_eq] at ha hb
    obtain ⟨e, ⟨-, he⟩, rfl⟩ := hb
    rcases ha with ⟨e', ⟨-, he'⟩, rfl⟩ | ha
    · omega
    · have := (List.mem_range'_1.1 ha).2
      omega

/-- Leaving elements unspecified keeps the canonical form. -/
theorem cellsRising_cellErase {w : Nat} {c : Cells w} (lo len : Nat) (h : cellsRising c = true) :
    cellsRising (cellErase c lo len) = true := cellsRising_filter _ h

/-! ## Spaces -/

/-- The element a space holds after a value is written to it: the low bits, read as the element's type (R61). -/
def Space.stored (sp : Space) (v : Int) : Int := sp.elem (BitVec.ofInt 64 v)

theorem setWidth_ofInt {w : Nat} (hw : w ≤ 64) (v : Int) :
    (BitVec.ofInt 64 v).setWidth w = BitVec.ofInt w v := by
  apply BitVec.eq_of_toNat_eq
  have hd : ((2 ^ w : Nat) : Int) ∣ (2 ^ 64 : Nat) := by exact_mod_cast pow_dvd_pow 2 hw
  have h0 : (0 : Int) ≤ v % (2 ^ 64 : Nat) := Int.emod_nonneg _ (by decide)
  have h1 : (0 : Int) ≤ v % (2 ^ w : Nat) := Int.emod_nonneg _ (by exact_mod_cast (Nat.two_pow_pos w).ne')
  rw [BitVec.toNat_setWidth, BitVec.toNat_ofInt, BitVec.toNat_ofInt]
  apply Int.ofNat.inj
  show ((_ : Nat) : Int) = ((_ : Nat) : Int)
  rw [Int.natCast_emod, Int.toNat_of_nonneg h0, Int.toNat_of_nonneg h1]
  exact Int.emod_emod_of_dvd v hd

theorem map_getElem?_map {α β γ : Type} (l : List α) (f : α → β) (g : β → γ) (i : Nat) :
    ((l.map f)[i]?).map g = (l[i]?).map fun v => g (f v) := by
  simp [List.getElem?_map, Option.map_map, Function.comp_def]

/-- What a space's element reads as after `memPut`: the value written, and every other element of every space as
before. -/
theorem memGet?_memPut (m : Mems) (sp sp' : Space) (lo : Nat) (vals : List Int) (i : Nat) :
    memGet? (memPut m sp lo vals) sp' i
      = if sp' = sp ∧ lo ≤ i ∧ i < lo + vals.length then (vals[i - lo]?).map sp.stored else memGet? m sp' i := by
  by_cases hs : sp' = sp
  · subst hs
    cases sp' <;>
      simp only [memPut, memGet?, cellGet_cellPut, List.length_map, true_and, apply_ite (Option.map _),
        map_getElem?_map] <;>
      (split
       · refine congrArg (Option.map · _) (funext fun v => ?_)
         simp [Space.stored, Space.elem, Space.signed, Space.width, setWidth_ofInt]
       · rfl)
  · simp only [hs, false_and, if_false]
    cases sp <;> cases sp' <;> first | exact absurd rfl hs | rfl

/-- What an element reads as after `memErase`. -/
theorem memGet?_memErase (m : Mems) (sp sp' : Space) (lo len i : Nat) :
    memGet? (memErase m sp lo len) sp' i
      = if sp' = sp ∧ lo ≤ i ∧ i < lo + len then none else memGet? m sp' i := by
  by_cases hs : sp' = sp
  · subst hs
    cases sp' <;>
      simp only [memErase, memGet?, cellGet_cellErase, true_and, apply_ite (Option.map _), Option.map_none]
  · simp only [hs, false_and, if_false]
    cases sp <;> cases sp' <;> first | exact absurd rfl hs | rfl

/-- `memPut` keeps the canonical form. -/
theorem wf_memPut {m : Mems} (sp : Space) (lo : Nat) (vals : List Int) (h : Memory.wf m = true) :
    Memory.wf (memPut m sp lo vals) = true := by
  simp only [Memory.wf, Bool.and_eq_true] at h ⊢
  cases sp <;> simp [memPut, h, cellsRising_cellPut]

/-- `memErase` keeps the canonical form. -/
theorem wf_memErase {m : Mems} (sp : Space) (lo len : Nat) (h : Memory.wf m = true) :
    Memory.wf (memErase m sp lo len) = true := by
  simp only [Memory.wf, Bool.and_eq_true] at h ⊢
  cases sp <;> simp [memErase, h, cellsRising_cellErase]

/-- The memory right after reset is in canonical form. -/
theorem wf_reset : Memory.wf State.reset.mem = true := rfl

theorem wf_foldl_memErase (rs : List (Space × Nat × Nat)) {m : Mems} (h : Memory.wf m = true) :
    Memory.wf (rs.foldl (fun m r => memErase m r.1 r.2.1 r.2.2) m) = true := by
  induction rs generalizing m with
  | nil => exact h
  | cons r t ih => exact ih (wf_memErase _ _ _ h)

/-- What an element reads as after several ranges are erased. -/
theorem memGet?_foldl_memErase (rs : List (Space × Nat × Nat)) (m : Mems) (sp : Space) (i : Nat) :
    memGet? (rs.foldl (fun m r => memErase m r.1 r.2.1 r.2.2) m) sp i
      = if rs.any (fun r => decide (r.1 = sp) && decide (r.2.1 ≤ i) && decide (i < r.2.1 + r.2.2)) then none
        else memGet? m sp i := by
  induction rs generalizing m with
  | nil => simp
  | cons r t ih =>
    simp only [List.foldl_cons, ih, memGet?_memErase, List.any_cons]
    by_cases h : sp = r.1 ∧ r.2.1 ≤ i ∧ i < r.2.1 + r.2.2
    · obtain ⟨h1, h2, h3⟩ := h
      simp [h1, h2, h3]
    · have : (decide (r.1 = sp) && decide (r.2.1 ≤ i) && decide (i < r.2.1 + r.2.2)) = false := by
        simp only [Bool.and_eq_false_iff, decide_eq_false_iff_not]
        by_cases h1 : r.1 = sp
        · by_cases h2 : r.2.1 ≤ i
          · exact .inr fun h3 => h ⟨h1.symm, h2, h3⟩
          · exact .inl (.inr h2)
        · exact .inl (.inl h1)
      simp only [this, Bool.false_or, if_neg h]

/-! ## The state's memory operations -/

/-- A known element reads as it stands. -/
theorem memRead_of_some {s : State} {sp : Space} {i : Nat} {v : Int} (h : memGet? s.mem sp i = some v) :
    s.memRead sp i = v := by simp [State.memRead, h]

/-- Two states that agree on an element and on the draw number read it alike. -/
theorem memRead_congr {s t : State} {sp : Space} {i : Nat} (h : memGet? t.mem sp i = memGet? s.mem sp i)
    (hd : t.forgets = s.forgets) : t.memRead sp i = s.memRead sp i := by simp [State.memRead, h, hd]

/-- What an element reads as after `memWrite`. -/
theorem memGet?_memWrite (s : State) (sp sp' : Space) (lo : Nat) (vals : List Int) (i : Nat) :
    memGet? (s.memWrite sp lo vals).mem sp' i
      = if sp' = sp ∧ lo ≤ i ∧ i < lo + vals.length then (vals[i - lo]?).map sp.stored
        else memGet? s.mem sp' i := by simp [memGet?_memPut]

/-- What an element reads as after `forget`. -/
theorem memGet?_forget (s : State) (rs : List (Space × Nat × Nat)) (sp : Space) (i : Nat) :
    memGet? (s.forget rs).mem sp i
      = if rs.any (fun r => decide (r.1 = sp) && decide (r.2.1 ≤ i) && decide (i < r.2.1 + r.2.2)) then none
        else memGet? s.mem sp i := by simp [memGet?_foldl_memErase]

theorem realPatterns_length (draw : Nat) (sp : Space) (lo : Nat) (vals : List Flt) :
    (realPatterns draw sp lo vals).length = vals.length := by
  induction vals generalizing lo with
  | nil => rfl
  | cons v t ih => simp [realPatterns, ih]

theorem readRun_length (s : State) (sp : Space) (lo n : Nat) : (s.readRun sp lo n).length = n := by
  simp [State.readRun]

theorem readRun_getElem? (s : State) (sp : Space) (lo n i : Nat) :
    (s.readRun sp lo n)[i]? = if i < n then some (s.memRead sp (lo + i)) else none := by
  by_cases h : i < n
  · simp [State.readRun, h]
  · simp [State.readRun, h]

/-! ## The values of a space's elements -/

/-- An element of a signed space is in the range of its width, and one of another space is a natural below 2^width
(R60). -/
theorem elem_range (sp : Space) (b : Word64) :
    if sp.signed then -(2 ^ (sp.width - 1) : Int) ≤ sp.elem b ∧ sp.elem b < 2 ^ (sp.width - 1)
    else 0 ≤ sp.elem b ∧ sp.elem b < 2 ^ sp.width := by
  by_cases h : sp.signed
  · simp only [h, if_true, Space.elem]
    have h1 := BitVec.le_toInt (b.setWidth sp.width)
    have h2 := BitVec.toInt_lt (x := b.setWidth sp.width)
    exact ⟨by simpa using h1, by simpa using h2⟩
  · simp only [h, Space.elem]
    have := (b.setWidth sp.width).isLt
    simp only [Bool.false_eq_true, if_false]
    exact ⟨Int.natCast_nonneg _, by exact_mod_cast this⟩

/-! ## How a command ends -/

theorem firstError_cons (c : Bool × ErrCode) (t : List (Bool × ErrCode)) :
    firstError (c :: t) = if c.1 then firstError t else some c.2 := rfl

/-- A command's answer: the first failing check, with nothing else changed, or its effect. -/
theorem command_cases (s : State) (checks : List (Bool × ErrCode)) (effect : State → Result) :
    (∃ e, firstError checks = some e ∧ command s checks effect = fail e s)
      ∨ (firstError checks = none ∧ command s checks effect = effect s) := by
  cases h : firstError checks with
  | some e => exact .inl ⟨e, rfl, by simp [command, h]⟩
  | none => exact .inr ⟨rfl, by simp [command, h]⟩

/-- All checks hold exactly when there is no first error. -/
theorem firstError_eq_none (checks : List (Bool × ErrCode)) :
    firstError checks = none ↔ ∀ c ∈ checks, c.1 = true := by
  induction checks with
  | nil => simp [firstError]
  | cons c t ih => cases hc : c.1 <;> simp [firstError, hc, ih]

theorem command_of_checks {s : State} {checks : List (Bool × ErrCode)} {effect : State → Result}
    (h : ∀ c ∈ checks, c.1 = true) : command s checks effect = effect s := by
  simp [command, (firstError_eq_none checks).2 h]

/-- A command whose effect always answers a next state always answers a next state. -/
theorem command_next {s : State} {checks : List (Bool × ErrCode)} {effect : State → Result}
    (h : ∃ t, effect s = .next t) : ∃ t, command s checks effect = .next t := by
  rcases command_cases s checks effect with ⟨e, -, he⟩ | ⟨-, he⟩
  · exact ⟨_, he⟩
  · exact he ▸ h

theorem finish_cases (e : Effect) :
    (∃ t, e = .ok t ∧ finish e = succeed t) ∨ (∃ c t, e = .error (c, t) ∧ finish e = fail c t) := by
  cases e with
  | ok t => exact .inl ⟨t, rfl, rfl⟩
  | error p => exact .inr ⟨p.1, p.2, rfl, rfl⟩

end Sys2Proof.Machine
end

