-- ==== Sys2Proof/Laws/BitWriter.lean ====
section
/-!
SUPPORT. What the bit writer does: `putBits_appended` says once everything that appending bits can do, to the logical
stream, to the registers and to memory. Later proofs cite it instead of unfolding `putBit`.
-/
namespace Sys2Proof.Machine

/-! ## Bits and numbers -/

theorem bitsToNat_append_singleton (l : List Bool) (b : Bool) :
    bitsToNat (l ++ [b]) = 2 * bitsToNat l + b.toNat := by simp [bitsToNat]

theorem bitsToNat_lt (l : List Bool) : bitsToNat l < 2 ^ l.length := by
  induction l using List.reverseRecOn with
  | nil => simp [bitsToNat]
  | append_singleton l b ih =>
    have hb : b.toNat ≤ 1 := by cases b <;> simp
    simp only [bitsToNat_append_singleton, List.length_append, List.length_singleton, Nat.pow_succ]
    omega

/-- The bits `PutU` writes are the low bits of the value, most significant first (`40_bit_writer.md` R143). -/
theorem fieldBits_eq_msbBits (w : Nat) (v : Int) : fieldBits w v = msbBits w v := by
  refine List.map_congr_left fun i hi => ?_
  have hw : i < w := List.mem_range.1 hi
  rw [BitVec.getMsbD_eq_getLsbD, BitVec.getLsbD, BitVec.toNat_ofInt, Nat.testBit_eq_decide_div_mod_eq]
  simp only [hw, decide_true, Bool.true_and, decide_eq_decide]
  have h0 : (0 : Int) ≤ v % (2 ^ w : Nat) := Int.emod_nonneg _ (by exact_mod_cast (Nat.two_pow_pos w).ne')
  have hm : v % (2 ^ w : Nat) = v + ((2 ^ (w - 1 - i) : Nat) : Int) * (2 * (-(2 ^ i * (v / (2 ^ w : Nat))))) := by
    have hd : (2 ^ w : Nat) = 2 ^ (w - 1 - i) * (2 * 2 ^ i) := by
      rw [← Nat.pow_succ', ← Nat.pow_add]; congr 1; omega
    have := Int.emod_add_mul_ediv v (2 ^ w : Nat)
    have hc : ((2 ^ w : Nat) : Int) = ((2 ^ (w - 1 - i) : Nat) : Int) * (2 * 2 ^ i) := by rw [hd]; push_cast; ring
    linear_combination this - (v / (2 ^ w : Nat)) * hc
  have hp : ((2 ^ (w - 1 - i) : Nat) : Int) ≠ 0 := by exact_mod_cast (Nat.two_pow_pos _).ne'
  have hq : (((v % (2 ^ w : Nat)).toNat / 2 ^ (w - 1 - i) : Nat) : Int)
      = v / ((2 ^ (w - 1 - i) : Nat) : Int) + 2 * (-(2 ^ i * (v / (2 ^ w : Nat)))) := by
    rw [Int.natCast_ediv, Int.toNat_of_nonneg h0, hm, Int.add_mul_ediv_left _ _ hp]
  omega

theorem msbBits_length (w : Nat) (v : Int) : (msbBits w v).length = w := by simp [msbBits]

theorem fieldBits_length (w : Nat) (v : Int) : (fieldBits w v).length = w := by simp [fieldBits]

/-! ## The bytes of a stream -/

theorem streamByte_append {l r : List Bool} {j : Nat} (h : 8 * (j + 1) ≤ l.length) :
    streamByte (l ++ r) j = streamByte l j := by
  unfold streamByte
  rw [List.drop_append_of_le_length (by omega), List.take_append_of_le_length (by simp; omega)]

theorem streamBytes_append {l r : List Bool} (h : (l ++ r).length / 8 = l.length / 8) :
    streamBytes (l ++ r) = streamBytes l := by
  unfold streamBytes
  rw [h]
  refine List.map_congr_left fun j hj => ?_
  rw [streamByte_append]
  have := List.mem_range.1 hj
  omega

/-- The last byte of a stream of whole bytes. -/
theorem streamByte_last {l : List Bool} {j : Nat} (h : l.length = 8 * (j + 1)) :
    streamByte l j = bitsToNat (l.drop (8 * j)) := by
  unfold streamByte
  rw [List.take_of_length_le (by simp; omega)]

/-- A bit that completes a byte adds that byte. -/
theorem streamBytes_snoc {l : List Bool} {b : Bool} (h : (l.length + 1) % 8 = 0) :
    streamBytes (l ++ [b])
      = streamBytes l ++ [BitVec.ofNat 8 (2 * bitsToNat (l.drop (8 * (l.length / 8))) + b.toNat)] := by
  have hn : (l ++ [b]).length / 8 = l.length / 8 + 1 := by simp; omega
  unfold streamBytes
  rw [hn, List.range_succ, List.map_append, List.map_singleton]
  congr 1
  · refine List.map_congr_left fun j hj => ?_
    rw [streamByte_append]
    have := List.mem_range.1 hj
    omega
  · rw [streamByte_last (by simp; omega), List.drop_append_of_le_length (by omega),
      bitsToNat_append_singleton]

/-! ## The checksums -/

theorem toNat_repeat {w : Nat} {f : BitVec w → BitVec w} {g : Nat → Nat} (h : ∀ c, (f c).toNat = g c.toNat) (n : Nat)
    (c : BitVec w) : (Nat.repeat f n c).toNat = Nat.repeat g n c.toNat := by
  induction n with
  | zero => rfl
  | succ n ih => simp only [Nat.repeat, h, ih]

theorem crc8Bit_toNat (c : BitVec 8) : (crc8Bit c).toNat = crcTurn 8 0x07 c.toNat := by
  unfold crc8Bit crcTurn
  rw [BitVec.msb_eq_getLsbD_last, BitVec.getLsbD]
  split <;> simp [Nat.xor_mod_two_pow (n := 8)]

theorem crc16Bit_toNat (c : BitVec 16) : (crc16Bit c).toNat = crcTurn 16 0x8005 c.toNat := by
  unfold crc16Bit crcTurn
  rw [BitVec.msb_eq_getLsbD_last, BitVec.getLsbD]
  split <;> simp [Nat.xor_mod_two_pow (n := 16)]

/-- The model's step of the CRC-8 is that of `40_bit_writer.md` R152. -/
theorem crc8Step_toNat (c b : BitVec 8) : (crc8Step c b).toNat = crcByte 8 0x07 c.toNat b.toNat := by
  rw [crc8Step, toNat_repeat crc8Bit_toNat, BitVec.toNat_xor]
  rfl

/-- The model's step of the CRC-16 is that of `40_bit_writer.md` R153. -/
theorem crc16Step_toNat (c : BitVec 16) (b : BitVec 8) : (crc16Step c b).toNat = crcByte 16 0x8005 c.toNat b.toNat := by
  have hb : (b.setWidth 16 <<< 8).toNat = b.toNat <<< 8 := by
    have := b.isLt
    simp only [BitVec.toNat_shiftLeft, BitVec.toNat_setWidth, Nat.shiftLeft_eq]
    omega
  rw [crc16Step, toNat_repeat crc16Bit_toNat, BitVec.toNat_xor, hb]
  rfl

/-- The model's CRC-8 of bytes is the written-out one. -/
theorem foldl_crc8Step (bytes : List Byte) : (bytes.foldl crc8Step 0).toNat = checksum8 bytes := by
  induction bytes using List.reverseRecOn with
  | nil => rfl
  | append_singleton l b ih => simp only [checksum8, checksum, List.foldl_append, List.foldl_cons, List.foldl_nil,
      crc8Step_toNat] at ih ⊢; rw [ih]

/-- The model's CRC-16 of bytes is the written-out one. -/
theorem foldl_crc16Step (bytes : List Byte) : (bytes.foldl crc16Step 0).toNat = checksum16 bytes := by
  induction bytes using List.reverseRecOn with
  | nil => rfl
  | append_singleton l b ih => simp only [checksum16, checksum, List.foldl_append, List.foldl_cons, List.foldl_nil,
      crc16Step_toNat] at ih ⊢; rw [ih]

theorem streamCrc8_eq (l : List Bool) : streamCrc8 l = (streamBytes l).foldl crc8Step 0 := by
  rw [streamCrc8, ← foldl_crc8Step, BitVec.ofNat_toNat, BitVec.setWidth_eq]

theorem streamCrc16_eq (l : List Bool) : streamCrc16 l = (streamBytes l).foldl crc16Step 0 := by
  rw [streamCrc16, ← foldl_crc16Step, BitVec.ofNat_toNat, BitVec.setWidth_eq]

/-! ## One bit -/

/-- The byte in progress with one more bit, `40_bit_writer.md` R141. -/
theorem acc_toNat {a : BitVec 8} {b : Bool} (h : a.toNat < 128) :
    ((a <<< 1) ||| (BitVec.ofBool b).setWidth 8).toNat = 2 * a.toNat + b.toNat := by
  have ha : a = BitVec.ofNat 8 a.toNat := by simp
  have key : ∀ n : Fin 128, ((BitVec.ofNat 8 n.val <<< 1) ||| (BitVec.ofBool b).setWidth 8).toNat
      = 2 * n.val + b.toNat := by cases b <;> decide
  rw [ha]
  simpa using key ⟨a.toNat, h⟩

@[simp] theorem putBit_host (s : State) (b : Bool) : (putBit s b).host = s.host := by
  unfold putBit; simp only; split <;> rfl
@[simp] theorem putBit_readData (s : State) (b : Bool) : (putBit s b).readData = s.readData := by
  unfold putBit; simp only; split <;> rfl
@[simp] theorem putBit_forgets (s : State) (b : Bool) : (putBit s b).forgets = s.forgets := by
  unfold putBit; simp only; split <;> rfl
@[simp] theorem putBit_nans (s : State) (b : Bool) : (putBit s b).nans = s.nans := by
  unfold putBit; simp only; split <;> rfl
@[simp] theorem putBit_bitpos (s : State) (b : Bool) : (putBit s b).regs.bitpos = s.regs.bitpos + 1 := by
  unfold putBit; simp only; split <;> rfl

/-- Of the registers, a bit changes BITPOS, BW.acc and the two checksums alone. -/
theorem putBit_regs (s : State) (b : Bool) : (putBit s b).regs = withWriter s.regs (putBit s b).regs := by
  unfold putBit; simp only; split <;> rfl

/-- What a byte of memory holds after one bit: OUT[BITPOS div 8] is the byte that the bit completes, below BW.cap;
every other element is as before. -/
theorem memGet?_putBit (s : State) (b : Bool) (sp : Space) (i : Nat) :
    memGet? (putBit s b).mem sp i
      = if sp = .out ∧ (s.regs.bitpos + 1).toNat % 8 = 0 ∧ i = s.regs.bitpos.toNat / 8 ∧ i < s.regs.bwCap.toNat
        then some (((s.regs.bwAcc <<< 1) ||| (BitVec.ofBool b).setWidth 8).toNat : Int)
        else memGet? s.mem sp i := by
  unfold putBit
  simp only
  split
  · rename_i h8
    simp only [h8, true_and]
    split
    · rename_i hc
      rw [memGet?_memPut]
      by_cases hi : sp = .out ∧ i = s.regs.bitpos.toNat / 8
      · obtain ⟨rfl, rfl⟩ := hi
        simp [hc, Space.stored, Space.elem, Space.signed, Space.width]
      · have h1 : ¬(sp = .out ∧ s.regs.bitpos.toNat / 8 ≤ i
            ∧ i < s.regs.bitpos.toNat / 8 + [(((s.regs.bwAcc <<< 1) ||| (BitVec.ofBool b).setWidth 8).toNat : Int)].length) := by
          simp only [List.length_singleton]
          rintro ⟨h1, h2, h3⟩
          exact hi ⟨h1, by omega⟩
        rw [if_neg h1, if_neg fun h => hi ⟨h.1, h.2.1⟩]
    · rename_i hc
      rw [if_neg]
      rintro ⟨-, rfl, h⟩
      exact hc h
  · rename_i h8
    rw [if_neg fun h => h8 h.2.1]

/-- One bit extends the logical stream by itself (`10_state.md` R53). -/
theorem putBit_stream {s : State} {l : List Bool} (b : Bool) (hs : StreamIs s l) (hl : l.length + 1 < 2 ^ 64) :
    StreamIs (putBit s b) (l ++ [b]) := by
  have hpos : (s.regs.bitpos + 1).toNat = l.length + 1 := by
    rw [BitVec.toNat_add, hs.pos]; simp; omega
  have hacc : s.regs.bwAcc.toNat < 2 ^ (l.length % 8) := by
    rw [hs.acc]
    have := bitsToNat_lt (l.drop (8 * (l.length / 8)))
    rwa [List.length_drop, show l.length - 8 * (l.length / 8) = l.length % 8 by omega] at this
  have h128 : s.regs.bwAcc.toNat < 128 :=
    lt_of_lt_of_le hacc (Nat.pow_le_pow_right (by decide) (show l.length % 8 ≤ 7 by omega))
  have hval := acc_toNat (b := b) h128
  have hmem := memGet?_putBit s b .out
  have hbp := putBit_bitpos s b
  by_cases h8 : (l.length + 1) % 8 = 0
  · have hd : (l ++ [b]).length / 8 = l.length / 8 + 1 := by simp; omega
    have hbyte : BitVec.ofNat 8 (2 * bitsToNat (l.drop (8 * (l.length / 8))) + b.toNat)
        = (s.regs.bwAcc <<< 1) ||| (BitVec.ofBool b).setWidth 8 := by
      rw [← hs.acc, ← hval, BitVec.ofNat_toNat, BitVec.setWidth_eq]
    have hr : (putBit s b).regs.bwAcc = 0
        ∧ (putBit s b).regs.crc8Run
            = crc8Step s.regs.crc8Run ((s.regs.bwAcc <<< 1) ||| (BitVec.ofBool b).setWidth 8)
        ∧ (putBit s b).regs.crc16Run
            = crc16Step s.regs.crc16Run ((s.regs.bwAcc <<< 1) ||| (BitVec.ofBool b).setWidth 8)
        ∧ (putBit s b).regs.bwCap = s.regs.bwCap := by
      unfold putBit
      simp only [hpos, h8, if_true]
      exact ⟨trivial, trivial, trivial, trivial⟩
    refine ⟨by rw [hbp, hpos]; simp, ?_, ?_, ?_, ?_⟩
    · rw [hr.1, hd, List.drop_of_length_le (by simp; omega)]; simp [bitsToNat]
    · rw [hr.2.1, streamCrc8_eq, streamBytes_snoc h8, List.foldl_append, hbyte, hs.crc8, streamCrc8_eq]; rfl
    · rw [hr.2.2.1, streamCrc16_eq, streamBytes_snoc h8, List.foldl_append, hbyte, hs.crc16, streamCrc16_eq]; rfl
    · intro j hj hc
      rw [hr.2.2.2] at hc
      rw [hmem j, hpos, hs.pos]
      by_cases hjl : j = l.length / 8
      · rw [if_pos ⟨rfl, h8, hjl, hc⟩, streamByte_last (by simp; omega), hjl,
          List.drop_append_of_le_length (by omega), bitsToNat_append_singleton, hval, hs.acc]
      · rw [if_neg fun h => hjl h.2.2.1, hs.out j (by omega) hc, streamByte_append (by omega)]
  · have hd : (l ++ [b]).length / 8 = l.length / 8 := by simp; omega
    have hr : (putBit s b).regs.bwAcc = ((s.regs.bwAcc <<< 1) ||| (BitVec.ofBool b).setWidth 8)
        ∧ (putBit s b).regs.crc8Run = s.regs.crc8Run ∧ (putBit s b).regs.crc16Run = s.regs.crc16Run
        ∧ (putBit s b).regs.bwCap = s.regs.bwCap := by
      unfold putBit
      simp only [hpos, h8, if_false]
      exact ⟨trivial, trivial, trivial, trivial⟩
    refine ⟨by rw [hbp, hpos]; simp, ?_, ?_, ?_, ?_⟩
    · rw [hr.1, hd, List.drop_append_of_le_length (by omega), bitsToNat_append_singleton, hval, hs.acc]
    · rw [hr.2.1, streamCrc8, streamBytes_append hd, hs.crc8]; rfl
    · rw [hr.2.2.1, streamCrc16, streamBytes_append hd, hs.crc16]; rfl
    · intro j hj hc
      rw [hr.2.2.2] at hc
      rw [hd] at hj
      rw [hmem j, hpos, if_neg fun h => h8 h.2.1, hs.out j hj hc, streamByte_append (by omega)]

/-! ## Lists of bits -/

theorem putBits_nil (s : State) : putBits s [] = s := rfl
theorem putBits_cons (s : State) (b : Bool) (l : List Bool) : putBits s (b :: l) = putBits (putBit s b) l := rfl
theorem putBits_append (s : State) (l r : List Bool) : putBits s (l ++ r) = putBits (putBits s l) r :=
  List.foldl_append ..

@[simp] theorem putBits_host (s : State) (l : List Bool) : (putBits s l).host = s.host := by
  induction l generalizing s with
  | nil => rfl
  | cons b t ih => rw [putBits_cons, ih, putBit_host]
@[simp] theorem putBits_readData (s : State) (l : List Bool) : (putBits s l).readData = s.readData := by
  induction l generalizing s with
  | nil => rfl
  | cons b t ih => rw [putBits_cons, ih, putBit_readData]
@[simp] theorem putBits_forgets (s : State) (l : List Bool) : (putBits s l).forgets = s.forgets := by
  induction l generalizing s with
  | nil => rfl
  | cons b t ih => rw [putBits_cons, ih, putBit_forgets]
@[simp] theorem putBits_nans (s : State) (l : List Bool) : (putBits s l).nans = s.nans := by
  induction l generalizing s with
  | nil => rfl
  | cons b t ih => rw [putBits_cons, ih, putBit_nans]

theorem withWriter_trans {r p q : Regs} (h : q = withWriter r q) (h' : p = withWriter q p) : p = withWriter r p := by
  rw [h'] ; rw [h]; rfl

/-- Of the registers, appending bits changes BITPOS, BW.acc and the two checksums alone. -/
theorem putBits_regs (s : State) (l : List Bool) : (putBits s l).regs = withWriter s.regs (putBits s l).regs := by
  induction l generalizing s with
  | nil => rfl
  | cons b t ih => exact withWriter_trans (putBit_regs s b) (ih (putBit s b))

theorem putBits_bwCap (s : State) (l : List Bool) : (putBits s l).regs.bwCap = s.regs.bwCap := by
  rw [putBits_regs]; rfl

theorem putBits_bitpos (s : State) (l : List Bool) :
    (putBits s l).regs.bitpos = s.regs.bitpos + BitVec.ofNat 64 l.length := by
  induction l generalizing s with
  | nil => simp [putBits_nil]
  | cons b t ih =>
    rw [putBits_cons, ih, putBit_bitpos, List.length_cons, BitVec.add_assoc]
    congr 1
    rw [Nat.add_comm, BitVec.ofNat_add]
    rfl

theorem putBits_pos {s : State} {l : List Bool} (h : s.regs.bitpos.toNat + l.length < 2 ^ 64) :
    (putBits s l).regs.bitpos.toNat = s.regs.bitpos.toNat + l.length := by
  rw [putBits_bitpos, BitVec.toNat_add, BitVec.toNat_ofNat]
  omega

/-- No element of another space changes. -/
theorem memGet?_putBits_of_ne (s : State) (l : List Bool) {sp : Space} (h : sp ≠ .out) (i : Nat) :
    memGet? (putBits s l).mem sp i = memGet? s.mem sp i := by
  induction l generalizing s with
  | nil => rfl
  | cons b t ih => rw [putBits_cons, ih, memGet?_putBit, if_neg fun hh => h hh.1]

/-- A byte of OUT that no appended bit completes, or at or above BW.cap, is as before (`20_memory.md` R65). -/
theorem memGet?_putBits_outside (s : State) (l : List Bool) (j : Nat)
    (h : s.regs.bitpos.toNat + l.length < 2 ^ 64)
    (hj : j < s.regs.bitpos.toNat / 8 ∨ (s.regs.bitpos.toNat + l.length) / 8 ≤ j ∨ s.regs.bwCap.toNat ≤ j) :
    memGet? (putBits s l).mem .out j = memGet? s.mem .out j := by
  induction l generalizing s with
  | nil => rfl
  | cons b t ih =>
    simp only [List.length_cons] at h hj
    have hp : (s.regs.bitpos + 1).toNat = s.regs.bitpos.toNat + 1 := by
      rw [BitVec.toNat_add]; simp; omega
    have hc : (putBit s b).regs.bwCap = s.regs.bwCap := putBits_bwCap s [b]
    rw [putBits_cons, ih, memGet?_putBit, if_neg]
    · rintro ⟨-, h1, h2, h3⟩
      omega
    · rw [putBit_bitpos, hp]; omega
    · rw [putBit_bitpos, hp, hc]; omega

/-- At or above BW.cap no byte changes, wherever BITPOS stands. -/
theorem memGet?_putBits_above (s : State) (l : List Bool) (j : Nat) (hj : s.regs.bwCap.toNat ≤ j) :
    memGet? (putBits s l).mem .out j = memGet? s.mem .out j := by
  induction l generalizing s with
  | nil => rfl
  | cons b t ih =>
    have hc : (putBit s b).regs.bwCap = s.regs.bwCap := putBits_bwCap s [b]
    rw [putBits_cons, ih _ (by rwa [hc]), memGet?_putBit, if_neg]
    rintro ⟨-, -, -, h⟩
    omega

theorem putBits_stream {s : State} {l : List Bool} (r : List Bool) (hs : StreamIs s l)
    (hl : l.length + r.length < 2 ^ 64) : StreamIs (putBits s r) (l ++ r) := by
  induction r generalizing s l with
  | nil => simpa [putBits_nil] using hs
  | cons b t ih =>
    simp only [List.length_cons] at hl
    have := ih (putBit_stream b hs (by omega)) (by simp; omega)
    rwa [List.append_assoc, List.singleton_append] at this

/-- Appending bits, once and for all: `40_bit_writer.md` R141, R155. -/
theorem putBits_appended {s : State} {bits : List Bool} (h : s.regs.bitpos.toNat + bits.length < 2 ^ 64) :
    Appended s (putBits s bits) bits where
  pos := putBits_pos h
  stream l hl := putBits_stream bits hl (by rw [← hl.pos]; exact h)
  outside j hj := memGet?_putBits_outside s bits j h hj
  kept sp i hsp := memGet?_putBits_of_ne s bits hsp i
  host := ⟨putBits_host s bits, putBits_readData s bits⟩

/-- The canonical form is kept. -/
theorem wf_putBit {s : State} (b : Bool) (h : Memory.wf s.mem = true) : Memory.wf (putBit s b).mem = true := by
  unfold putBit
  simp only
  split
  · simp only
    split
    · exact wf_memPut _ _ _ h
    · exact h
  · exact h

theorem wf_putBits {s : State} (l : List Bool) (h : Memory.wf s.mem = true) :
    Memory.wf (putBits s l).mem = true := by
  induction l generalizing s with
  | nil => exact h
  | cons b t ih => exact ih (wf_putBit b h)

/-- A writer that has just been initialised holds the empty stream (`40_bit_writer.md` R142). -/
theorem writerInit_stream (s : State) (cap : Word32) : StreamIs (writerInit s cap) [] where
  pos := rfl
  acc := rfl
  crc8 := rfl
  crc16 := rfl
  out j h := absurd h (by simp)

end Sys2Proof.Machine
end

