-- ==== Sys2Proof/Laws/Flt.lean ====
section
/-!
SUPPORT. Binary64 values: every operation answers a canonical value (the fields of `20_memory.md` R66), a canonical
value is read back from its pattern, and so real values that are stored are the values that are read.
-/
namespace Sys2Proof.Machine

/-- A value that a binary64 pattern has: 53-bit mantissa, normalised unless the exponent is the least. -/
def Flt.Canonical : Flt → Prop
  | .nan => True
  | .inf _ => True
  | .fin _ m e => m < 2 ^ 53 ∧ fltMinExp ≤ e ∧ e ≤ fltMaxExp ∧ (2 ^ 52 ≤ m ∨ e = fltMinExp)

theorem canonical_zero (neg : Bool) : (Flt.zero neg).Canonical := by
  simp [Flt.Canonical, Flt.zero, fltMinExp, fltMaxExp]

theorem canonical_fltFinish (neg : Bool) {m : Nat} {e : Int} (hm : m ≤ 2 ^ 53) (he : fltMinExp ≤ e)
    (hn : 2 ^ 52 ≤ m ∨ e = fltMinExp) : (fltFinish neg m e).Canonical := by
  unfold fltFinish
  by_cases h53 : m = 2 ^ 53
  · simp only [h53, if_true]
    by_cases h : fltMaxExp < e + 1
    · rw [if_pos h]; trivial
    · rw [if_neg h]; exact ⟨by norm_num, by omega, by omega, .inl (le_refl _)⟩
  · simp only [h53, if_false]
    by_cases h : fltMaxExp < e
    · rw [if_pos h]; trivial
    · rw [if_neg h]; exact ⟨by omega, he, by omega, hn⟩

theorem roundShift_bounds (m k : Nat) (sticky : Bool) :
    m / 2 ^ k ≤ roundShift m k sticky ∧ roundShift m k sticky ≤ m / 2 ^ k + 1 := by
  unfold roundShift
  simp only [Nat.shiftRight_eq_div_pow]
  split
  · omega
  · split <;> omega

/-- A rounded value is canonical (`00_scope.md` R11). -/
theorem canonical_fltRound (neg : Bool) (m : Nat) (e : Int) (sticky : Bool) :
    (fltRound neg m e sticky).Canonical := by
  unfold fltRound
  split
  · exact canonical_zero neg
  rename_i hm
  have hlo : 2 ^ Nat.log2 m ≤ m := Nat.log2_self_le hm
  have hhi : m < 2 ^ (Nat.log2 m + 1) := Nat.lt_log2_self
  generalize Nat.log2 m = L at hlo hhi ⊢
  simp only
  obtain ⟨unit, hu⟩ : ∃ unit, max (e + ((L + 1 : Nat) : Int) - 53) fltMinExp = unit := ⟨_, rfl⟩
  rw [hu]
  have hmin : fltMinExp ≤ unit := hu ▸ le_max_right _ _
  have hge : e + ((L + 1 : Nat) : Int) - 53 ≤ unit := hu ▸ le_max_left _ _
  have hor : unit = e + ((L + 1 : Nat) : Int) - 53 ∨ unit = fltMinExp := by
    rcases max_choice (e + ((L + 1 : Nat) : Int) - 53) fltMinExp with h | h <;> omega
  split
  · rename_i hle
    rw [Nat.shiftLeft_eq]
    obtain ⟨d, hd⟩ : ∃ d : Nat, (e - unit).toNat = d := ⟨_, rfl⟩
    rw [hd]
    have hd53 : L + 1 + d ≤ 53 := by omega
    have hup : m * 2 ^ d ≤ 2 ^ 53 := by
      calc m * 2 ^ d ≤ 2 ^ (L + 1) * 2 ^ d := Nat.mul_le_mul_right _ hhi.le
        _ = 2 ^ (L + 1 + d) := (Nat.pow_add ..).symm
        _ ≤ 2 ^ 53 := Nat.pow_le_pow_right (by decide) hd53
    refine canonical_fltFinish neg hup hmin ?_
    rcases hor with h | h
    · left
      calc 2 ^ 52 = 2 ^ (L + d) := by congr 1; omega
        _ = 2 ^ L * 2 ^ d := Nat.pow_add ..
        _ ≤ m * 2 ^ d := Nat.mul_le_mul_right _ hlo
    · exact .inr h
  · rename_i hlt
    obtain ⟨k, hk⟩ : ∃ k : Nat, (unit - e).toNat = k := ⟨_, rfl⟩
    rw [hk]
    have hk53 : L + 1 ≤ 53 + k := by omega
    obtain ⟨hr1, hr2⟩ := roundShift_bounds m k sticky
    have hq : m / 2 ^ k < 2 ^ 53 := by
      rw [Nat.div_lt_iff_lt_mul (Nat.two_pow_pos k), ← Nat.pow_add]
      exact lt_of_lt_of_le hhi (Nat.pow_le_pow_right (by decide) hk53)
    refine canonical_fltFinish neg (by omega) hmin ?_
    rcases hor with h | h
    · left
      refine le_trans ?_ hr1
      rw [Nat.le_div_iff_mul_le (Nat.two_pow_pos k), ← Nat.pow_add]
      exact le_trans (Nat.pow_le_pow_right (by decide) (by omega)) hlo
    · exact .inr h

theorem canonical_fltOfInt (x : Int) : (fltOfInt x).Canonical := canonical_fltRound ..

theorem canonical_fadd (x y : Flt) : (fadd x y).Canonical := by
  cases x <;> cases y <;> simp only [fadd] <;> try trivial
  · split <;> trivial
  · split
    · exact canonical_zero _
    · exact canonical_fltRound ..

theorem canonical_fsub (x y : Flt) : (fsub x y).Canonical := canonical_fadd ..

theorem canonical_fmul (x y : Flt) : (fmul x y).Canonical := by
  cases x <;> cases y <;> simp only [fmul] <;> (try trivial) <;> first
    | (split <;> trivial)
    | exact canonical_fltRound ..

theorem canonical_fdiv (x y : Flt) : (fdiv x y).Canonical := by
  cases x <;> cases y <;> simp only [fdiv] <;> first
    | trivial
    | exact canonical_zero _
    | skip
  split
  · split <;> trivial
  · exact canonical_fltRound ..

/-- The fields of a pattern put together from a sign, an exponent field and a fraction. -/
theorem pattern_fields {sign ex fr : Nat} (hs : sign < 2) (he : ex < 2 ^ 11) (hf : fr < 2 ^ 52) :
    (BitVec.ofNat 64 (sign * 2 ^ 63 + ex * 2 ^ 52 + fr)).toNat / 2 ^ 63 = sign
      ∧ (BitVec.ofNat 64 (sign * 2 ^ 63 + ex * 2 ^ 52 + fr)).toNat / 2 ^ 52 % 2 ^ 11 = ex
      ∧ (BitVec.ofNat 64 (sign * 2 ^ 63 + ex * 2 ^ 52 + fr)).toNat % 2 ^ 52 = fr := by
  rw [BitVec.toNat_ofNat]
  omega

theorem toNat_lt_two (b : Bool) : b.toNat < 2 := by cases b <;> decide

theorem toNat_beq_one (b : Bool) : (b.toNat == 1) = b := by cases b <;> rfl

/-- A canonical value is read back from its pattern; a NaN whatever its sign and fraction. -/
theorem fltOfBits_fltToBits (free : Word64) {v : Flt} (h : v.Canonical) : fltOfBits (fltToBits free v) = v := by
  cases v with
  | nan =>
    have hf := free.isLt
    obtain ⟨g, hg⟩ : ∃ g, (if free.toNat % 2 ^ 52 = 0 then 2 ^ 51 else free.toNat % 2 ^ 52) = g := ⟨_, rfl⟩
    have hg1 : 0 < g ∧ g < 2 ^ 52 := by split at hg <;> omega
    obtain ⟨-, e2, e3⟩ := pattern_fields (sign := free.toNat / 2 ^ 63) (ex := 2047) (by omega) (by decide) hg1.2
    simp only [fltToBits, nanPattern, fltOfBits, hg, e2, e3, if_true]
    rw [if_neg (by omega)]
  | inf neg =>
    obtain ⟨e1, e2, e3⟩ := pattern_fields (ex := 2047) (fr := 0) (toNat_lt_two neg) (by decide) (by decide)
    rw [Nat.add_zero] at e1 e2 e3
    simp only [fltToBits, fltOfBits, e1, e2, e3, if_true, toNat_beq_one]
  | fin neg m e =>
    obtain ⟨h1, h2, h3, h4⟩ := h
    simp only [fltMinExp, fltMaxExp] at h2 h3 h4
    by_cases hm : m < 2 ^ 52
    · have he : e = -1074 := h4.resolve_left (by omega)
      subst he
      obtain ⟨e1, e2, e3⟩ := pattern_fields (ex := 0) (toNat_lt_two neg) (by decide) hm
      rw [Nat.zero_mul, Nat.add_zero] at e1 e2 e3
      simp only [fltToBits, hm, if_true, fltOfBits, e1, e2, e3, toNat_beq_one, fltMinExp]
      rfl
    · obtain ⟨x, hx⟩ : ∃ x : Nat, (e + 1075).toNat = x := ⟨_, rfl⟩
      obtain ⟨f, rfl⟩ : ∃ f, m = f + 2 ^ 52 := ⟨m - 2 ^ 52, by omega⟩
      obtain ⟨e1, e2, e3⟩ := pattern_fields (sign := neg.toNat) (ex := x) (fr := f) (toNat_lt_two neg) (by omega) (by omega)
      simp only [fltToBits, hm, if_false, hx, Nat.add_sub_cancel, fltOfBits, e1, e2, e3, toNat_beq_one]
      rw [if_neg (by omega), if_neg (by omega), show (x : Int) - 1075 = e by omega]

theorem realPatterns_getElem? (draw : Nat) (sp : Space) (lo : Nat) (vals : List Flt) (i : Nat) :
    (realPatterns draw sp lo vals)[i]?
      = (vals[i]?).map fun v => ((fltToBits (Config.nanBits draw sp.id (lo + i)) v).toNat : Int) := by
  induction vals generalizing lo i with
  | nil => simp [realPatterns]
  | cons v t ih =>
    cases i with
    | zero => simp [realPatterns]
    | succ i => simp [realPatterns, ih, Nat.add_assoc, Nat.add_comm 1 i]

/-- The element that a real value is stored to holds it (`20_memory.md` R66). -/
theorem holdsReal_storeReals {s : State} {sp : Space} {lo i : Nat} {vals : List Flt} {v : Flt}
    (hsp : sp.signed = false ∧ sp.width = 64) (hi : vals[i]? = some v) (hv : v.Canonical) :
    HoldsReal (s.storeReals sp lo vals) sp (lo + i) v := by
  have hlen : i < vals.length := (List.getElem?_eq_some_iff.1 hi).1
  refine ⟨fltToBits (Config.nanBits s.nans sp.id (lo + i)) v, ?_, fltOfBits_fltToBits _ hv⟩
  have h1 : (s.storeReals sp lo vals).mem = (s.memWrite sp lo (realPatterns s.nans sp lo vals)).mem := rfl
  rw [h1, memGet?_memWrite, if_pos ⟨rfl, by omega, by rw [realPatterns_length]; omega⟩, Nat.add_sub_cancel_left,
    realPatterns_getElem?, hi]
  obtain ⟨hs, hw⟩ := hsp
  have hlt := (fltToBits (Config.nanBits s.nans sp.id (lo + i)) v).isLt
  simp only [Option.map_some, Space.stored, Space.elem, hs, Bool.false_eq_true, if_false,
    BitVec.setWidth_eq, BitVec.ofInt_natCast, BitVec.ofNat_toNat, BitVec.toNat_setWidth, hw, Nat.mod_eq_of_lt hlt]

/-- Every other element is as before. -/
theorem memGet?_storeReals_of_not {s : State} {sp sp' : Space} {lo i : Nat} {vals : List Flt}
    (h : ¬(sp' = sp ∧ lo ≤ i ∧ i < lo + vals.length)) :
    memGet? (s.storeReals sp lo vals).mem sp' i = memGet? s.mem sp' i := by
  have h1 : (s.storeReals sp lo vals).mem = (s.memWrite sp lo (realPatterns s.nans sp lo vals)).mem := rfl
  rw [h1, memGet?_memWrite, realPatterns_length, if_neg h]

end Sys2Proof.Machine
end

