-- ==== Sys2Proof/Laws/PerInstr.lean ====
section
/-!
SUPPORT. Statements about every command, one lemma per constructor. `Opcode`: the word of a well-formed command has the
opcode of its row in bits 31 to 24, and the opcode is none of the reserved ones (`30_encoding.md` R92, R93).
-/
namespace Sys2Proof.Laws

/-- The opcode of a command's row, `30_encoding.md` R92. -/
def opcode : Instr → Nat
  | .nop => 0x00
  | .reset => 0x01
  | .cfgInit => 0x02
  | .wrStreaminfo => 0x03
  | .bwInit => 0x10
  | .bwPutu _ => 0x11
  | .bwPuts _ => 0x12
  | .bwFlush => 0x13
  | .bwPos => 0x14
  | .bwUtf8 => 0x15
  | .bwRice _ => 0x16
  | .crc8 => 0x17
  | .crc16 => 0x18
  | .zigzag => 0x20
  | .riceCount _ => 0x21
  | .findParam => 0x22
  | .maxPorder _ _ => 0x23
  | .partSums _ _ _ _ => 0x24
  | .calcRice _ _ _ _ => 0x25
  | .fixedRes _ _ => 0x30
  | .welch _ => 0x31
  | .autocorr _ => 0x32
  | .levinson _ => 0x33
  | .lsqFit _ _ => 0x34
  | .quant _ _ => 0x35
  | .lpcRes _ _ => 0x36
  | .orderEst _ _ => 0x37
  | .subEncode _ => 0x40
  | .subVerbatim _ => 0x41
  | .deinterleave => 0x50
  | .stEstimate => 0x51
  | .stApply _ => 0x52
  | .frameInit _ => 0x60
  | .wrHeader => 0x61
  | .wrSubframe _ => 0x62
  | .wrFooter => 0x63
  | .encodeFrame => 0x64

/-- An opcode that R92 assigns. -/
def assigned (op : Nat) : Bool :=
  decide (op ≤ 0x03) || (decide (0x10 ≤ op) && decide (op ≤ 0x18)) || (decide (0x20 ≤ op) && decide (op ≤ 0x25))
    || (decide (0x30 ≤ op) && decide (op ≤ 0x37)) || (decide (0x40 ≤ op) && decide (op ≤ 0x41))
    || (decide (0x50 ≤ op) && decide (op ≤ 0x52)) || (decide (0x60 ≤ op) && decide (op ≤ 0x64))

theorem cmdWord_opcode {op ch x y z : Nat} (ho : op < 256) (hc : ch < 16) (hx : x < 64) (hy : y < 64)
    (hz : z < 256) : (cmdWord op ch x y z).toNat / 2 ^ 24 = op := by
  rw [cmdWord, BitVec.toNat_ofNat]
  omega

/-- Both halves of a conjunction of checks. -/
theorem both {a b : Bool} (h : (a && b) = true) : a = true ∧ b = true := (Bool.and_eq_true a b).mp h

theorem zero_fits {w : Nat} : 0 < w + 1 := Nat.succ_pos w

namespace Opcode

/-- The word of the command has its row's opcode, and that opcode is assigned. -/
def Statement (i : Instr) : Prop :=
  WellFormed i = true → (encode i).toNat / 2 ^ 24 = opcode i ∧ assigned (opcode i) = true

/-- From the word's four fields to the statement. -/
theorem of_fields {i : Instr} (ch x y z : Nat) (he : encode i = cmdWord (opcode i) ch x y z)
    (ho : (decide (opcode i < 256) && assigned (opcode i)) = true)
    (hf : WellFormed i = true → ch < 16 ∧ x < 64 ∧ y < 64 ∧ z < 256) : Statement i := fun h =>
  ⟨he ▸ cmdWord_opcode (of_decide_eq_true (both ho).1) (hf h).1 (hf h).2.1 (hf h).2.2.1 (hf h).2.2.2, (both ho).2⟩

theorem nop : Statement .nop :=
  of_fields 0 0 0 0 rfl rfl fun _ =>
    ⟨zero_fits, zero_fits, zero_fits, zero_fits⟩
theorem reset : Statement .reset :=
  of_fields 0 0 0 0 rfl rfl fun _ =>
    ⟨zero_fits, zero_fits, zero_fits, zero_fits⟩
theorem cfgInit : Statement .cfgInit :=
  of_fields 0 0 0 0 rfl rfl fun _ =>
    ⟨zero_fits, zero_fits, zero_fits, zero_fits⟩
theorem wrStreaminfo : Statement .wrStreaminfo :=
  of_fields 0 0 0 0 rfl rfl fun _ =>
    ⟨zero_fits, zero_fits, zero_fits, zero_fits⟩
theorem bwInit : Statement .bwInit :=
  of_fields 0 0 0 0 rfl rfl fun _ =>
    ⟨zero_fits, zero_fits, zero_fits, zero_fits⟩
theorem bwPutu (a : Nat) : Statement (.bwPutu a) :=
  of_fields 0 a 0 0 rfl rfl fun h =>
    ⟨zero_fits, of_decide_eq_true h, zero_fits, zero_fits⟩
theorem bwPuts (a : Nat) : Statement (.bwPuts a) :=
  of_fields 0 a 0 0 rfl rfl fun h =>
    ⟨zero_fits, of_decide_eq_true h, zero_fits, zero_fits⟩
theorem bwFlush : Statement .bwFlush :=
  of_fields 0 0 0 0 rfl rfl fun _ =>
    ⟨zero_fits, zero_fits, zero_fits, zero_fits⟩
theorem bwPos : Statement .bwPos :=
  of_fields 0 0 0 0 rfl rfl fun _ =>
    ⟨zero_fits, zero_fits, zero_fits, zero_fits⟩
theorem bwUtf8 : Statement .bwUtf8 :=
  of_fields 0 0 0 0 rfl rfl fun _ =>
    ⟨zero_fits, zero_fits, zero_fits, zero_fits⟩
theorem bwRice (a : Nat) : Statement (.bwRice a) :=
  of_fields 0 a 0 0 rfl rfl fun h =>
    ⟨zero_fits, of_decide_eq_true h, zero_fits, zero_fits⟩
theorem crc8 : Statement .crc8 :=
  of_fields 0 0 0 0 rfl rfl fun _ =>
    ⟨zero_fits, zero_fits, zero_fits, zero_fits⟩
theorem crc16 : Statement .crc16 :=
  of_fields 0 0 0 0 rfl rfl fun _ =>
    ⟨zero_fits, zero_fits, zero_fits, zero_fits⟩
theorem zigzag : Statement .zigzag :=
  of_fields 0 0 0 0 rfl rfl fun _ =>
    ⟨zero_fits, zero_fits, zero_fits, zero_fits⟩
theorem riceCount (a : Nat) : Statement (.riceCount a) :=
  of_fields 0 a 0 0 rfl rfl fun h =>
    ⟨zero_fits, of_decide_eq_true h, zero_fits, zero_fits⟩
theorem findParam : Statement .findParam :=
  of_fields 0 0 0 0 rfl rfl fun _ =>
    ⟨zero_fits, zero_fits, zero_fits, zero_fits⟩
theorem maxPorder (a b : Nat) : Statement (.maxPorder a b) :=
  of_fields 0 a b 0 rfl rfl fun h =>
    ⟨zero_fits, of_decide_eq_true (both h).1, of_decide_eq_true (both h).2, zero_fits⟩
theorem partSums (a b c d : Nat) : Statement (.partSums a b c d) :=
  of_fields a b c d rfl rfl fun h =>
    ⟨of_decide_eq_true (both (both (both h).1).1).1, of_decide_eq_true (both (both (both h).1).1).2, of_decide_eq_true (both (both h).1).2, of_decide_eq_true (both h).2⟩
theorem calcRice (a b c d : Nat) : Statement (.calcRice a b c d) :=
  of_fields a b c d rfl rfl fun h =>
    ⟨of_decide_eq_true (both (both (both h).1).1).1, of_decide_eq_true (both (both (both h).1).1).2, of_decide_eq_true (both (both h).1).2, of_decide_eq_true (both h).2⟩
theorem fixedRes (a b : Nat) : Statement (.fixedRes a b) :=
  of_fields a b 0 0 rfl rfl fun h =>
    ⟨of_decide_eq_true (both h).1, of_decide_eq_true (both h).2, zero_fits, zero_fits⟩
theorem welch (a : Nat) : Statement (.welch a) :=
  of_fields a 0 0 0 rfl rfl fun h =>
    ⟨of_decide_eq_true h, zero_fits, zero_fits, zero_fits⟩
theorem autocorr (a : Nat) : Statement (.autocorr a) :=
  of_fields 0 a 0 0 rfl rfl fun h =>
    ⟨zero_fits, of_decide_eq_true h, zero_fits, zero_fits⟩
theorem levinson (a : Nat) : Statement (.levinson a) :=
  of_fields 0 a 0 0 rfl rfl fun h =>
    ⟨zero_fits, of_decide_eq_true h, zero_fits, zero_fits⟩
theorem lsqFit (a b : Nat) : Statement (.lsqFit a b) :=
  of_fields a b 0 0 rfl rfl fun h =>
    ⟨of_decide_eq_true (both h).1, of_decide_eq_true (both h).2, zero_fits, zero_fits⟩
theorem quant (a b : Nat) : Statement (.quant a b) :=
  of_fields 0 a b 0 rfl rfl fun h =>
    ⟨zero_fits, of_decide_eq_true (both h).1, of_decide_eq_true (both h).2, zero_fits⟩
theorem lpcRes (a b : Nat) : Statement (.lpcRes a b) :=
  of_fields a b 0 0 rfl rfl fun h =>
    ⟨of_decide_eq_true (both h).1, of_decide_eq_true (both h).2, zero_fits, zero_fits⟩
theorem orderEst (a b : Nat) : Statement (.orderEst a b) :=
  of_fields 0 a b 0 rfl rfl fun h =>
    ⟨zero_fits, of_decide_eq_true (both h).1, of_decide_eq_true (both h).2, zero_fits⟩
theorem subEncode (a : Nat) : Statement (.subEncode a) :=
  of_fields a 0 0 0 rfl rfl fun h =>
    ⟨of_decide_eq_true h, zero_fits, zero_fits, zero_fits⟩
theorem subVerbatim (a : Nat) : Statement (.subVerbatim a) :=
  of_fields a 0 0 0 rfl rfl fun h =>
    ⟨of_decide_eq_true h, zero_fits, zero_fits, zero_fits⟩
theorem deinterleave : Statement .deinterleave :=
  of_fields 0 0 0 0 rfl rfl fun _ =>
    ⟨zero_fits, zero_fits, zero_fits, zero_fits⟩
theorem stEstimate : Statement .stEstimate :=
  of_fields 0 0 0 0 rfl rfl fun _ =>
    ⟨zero_fits, zero_fits, zero_fits, zero_fits⟩
theorem stApply (a : Nat) : Statement (.stApply a) :=
  of_fields 0 a 0 0 rfl rfl fun h =>
    ⟨zero_fits, of_decide_eq_true h, zero_fits, zero_fits⟩
theorem frameInit (a : Nat) : Statement (.frameInit a) :=
  of_fields 0 0 0 a rfl rfl fun h =>
    ⟨zero_fits, zero_fits, zero_fits, of_decide_eq_true h⟩
theorem wrHeader : Statement .wrHeader :=
  of_fields 0 0 0 0 rfl rfl fun _ =>
    ⟨zero_fits, zero_fits, zero_fits, zero_fits⟩
theorem wrSubframe (a : Nat) : Statement (.wrSubframe a) :=
  of_fields a 0 0 0 rfl rfl fun h =>
    ⟨of_decide_eq_true h, zero_fits, zero_fits, zero_fits⟩
theorem wrFooter : Statement .wrFooter :=
  of_fields 0 0 0 0 rfl rfl fun _ =>
    ⟨zero_fits, zero_fits, zero_fits, zero_fits⟩
theorem encodeFrame : Statement .encodeFrame :=
  of_fields 0 0 0 0 rfl rfl fun _ =>
    ⟨zero_fits, zero_fits, zero_fits, zero_fits⟩

end Opcode

end Sys2Proof.Laws
end

