-- ==== Sys2Proof/Laws/Rules.lean ====
section
/-!
SUPPORT. The terms of the statements are written from the rules; here the model's own definitions are shown to agree with
them: the codes of STATUS, the table of spaces, the record checks of `WR_SUBFRAME`; and what a run of commands and one visit of
an order search can do.
-/
namespace Sys2Proof.Machine

/-! ## The codes of STATUS -/

@[simp] theorem fsmNumber_eq (f : Fsm) : fsmNumber f = f.code := by cases f <;> rfl

@[simp] theorem errNumber_eq (e : ErrCode) : errNumber e = e.code := by cases e <;> rfl

/-! ## The table of spaces -/

@[simp] theorem spaceRow_id (sp : Space) : (spaceRow sp).id = sp.id := by cases sp <;> rfl

@[simp] theorem spaceRow_width (sp : Space) : (spaceRow sp).width = sp.width := by cases sp <;> rfl

@[simp] theorem spaceRow_signed (sp : Space) : (spaceRow sp).signed = sp.signed := by cases sp <;> rfl

theorem channelIndex_iff (i : Nat) :
    (∃ ch j, ch ≤ 7 ∧ j ≤ 65534 ∧ i = ch * 65536 + j) ↔ i / 65536 < 8 ∧ i % 65536 < 65535 :=
  ⟨fun ⟨ch, j, hc, hj, h⟩ => by omega,
    fun h => ⟨i / 65536, i % 65536, by omega, by omega, by omega⟩⟩

theorem triangleIndex_iff (i : Nat) :
    (∃ o j, 1 ≤ j ∧ j ≤ o ∧ o ≤ 32 ∧ i = (o - 1) * 32 + (j - 1)) ↔ i / 32 < 32 ∧ i % 32 ≤ i / 32 :=
  ⟨fun ⟨o, j, hj, ho, h32, h⟩ => by omega,
    fun h => ⟨i / 32 + 1, i % 32 + 1, by omega, by omega, by omega, by omega⟩⟩

theorem orderIndex_iff (i : Nat) : (∃ o, 1 ≤ o ∧ o ≤ 32 ∧ i = o - 1) ↔ i < 32 :=
  ⟨fun ⟨o, h1, h2, h⟩ => by omega, fun h => ⟨i + 1, by omega, by omega, rfl⟩⟩

theorem partitionIndex_iff (i : Nat) :
    (∃ p j, p ≤ 8 ∧ j < 2 ^ p ∧ i = p * 256 + j) ↔ i / 256 ≤ 8 ∧ i % 256 < 2 ^ (i / 256) := by
  constructor
  · rintro ⟨p, j, hp, hj, rfl⟩
    have hle : 2 ^ p ≤ 2 ^ 8 := Nat.pow_le_pow_right (by decide) hp
    by_cases hp8 : j < 256
    · have hd : (p * 256 + j) / 256 = p := by omega
      rw [hd]; exact ⟨hp, by omega⟩
    · omega
  · exact fun h => ⟨i / 256, i % 256, h.1, h.2, by omega⟩

theorem recordIndex_iff (i : Nat) :
    (∃ ch f, ch ≤ 7 ∧ (f ≤ 6 ∨ (32 ≤ f ∧ f ≤ 63) ∨ (256 ≤ f ∧ f ≤ 511)) ∧ i = ch * 512 + f)
      ↔ i / 512 < 8 ∧ (i % 512 < 7 ∨ (32 ≤ i % 512 ∧ i % 512 < 64) ∨ 256 ≤ i % 512) :=
  ⟨fun ⟨ch, f, hc, hf, h⟩ => by omega,
    fun h => ⟨i / 512, i % 512, by omega, by omega, by omega⟩⟩

/-- The model's valid indices are those of `20_memory.md` R60. -/
theorem spaceRow_valid (sp : Space) (i : Nat) : (spaceRow sp).valid i ↔ sp.valid i = true := by
  cases sp
  case out =>
    show i ≤ 2097152 - 1 ↔ decide (i < 2097152) = true
    rw [decide_eq_true_iff]
    omega
  all_goals
    simp only [spaceRow, Space.valid, channelIndex_iff, triangleIndex_iff, orderIndex_iff, partitionIndex_iff,
      recordIndex_iff, Bool.and_eq_true, Bool.or_eq_true, decide_eq_true_eq]
  all_goals omega

/-! ## The record checks -/

theorem fitsSigned_eq (w : Nat) (v : Int) : fitsSigned w v = inRange (-2 ^ (w - 1)) v (2 ^ (w - 1) - 1) := by
  have h : ((2 ^ (w - 1) : Nat) : Int) = 2 ^ (w - 1) := by push_cast; rfl
  rw [Bool.eq_iff_iff]
  simp only [fitsSigned, inRange, Bool.and_eq_true, decide_eq_true_eq, h]
  omega

/-- A check of a run of a record's fields. -/
theorem readRun_all (s : State) (sp : Space) (lo n : Nat) (check : Int → Bool) :
    (s.readRun sp lo n).all check = (List.range n).all fun j => check (s.memRead sp (lo + j)) := by
  simp only [State.readRun, List.all_map]; rfl

/-- The model's record checks are those of `45_frame_encoder.md` R269. -/
theorem recordOk_eq (s : State) (ch : Nat) : recordOk s ch = recordAccepted s ch := by
  have hcoef : (recCoefs s ch).all (fitsSigned (s.sub ch 3).toNat)
      = (List.range (s.sub ch 1).toNat).all fun j => inRange (-2 ^ ((s.sub ch 3).toNat - 1))
          (s.memRead .subrec (ch * 512 + (32 + j))) (2 ^ ((s.sub ch 3).toNat - 1) - 1) := by
    simp only [recCoefs, readRun_all, fitsSigned_eq, recIndex, Nat.add_assoc]
  have hparam : (s.readRun .subrec (recIndex ch 256) (2 ^ (s.sub ch 5).toNat)).all (withinInt 0 · 14)
      = (List.range (2 ^ (s.sub ch 5).toNat)).all fun j =>
          inRange 0 (s.memRead .subrec (ch * 512 + (256 + j))) 14 := by
    simp only [readRun_all, recIndex, Nat.add_assoc]; rfl
  have hdiv : ∀ p : Nat, ((s.regs.n.toNat : Int) % 2 ^ p = 0 ↔ s.regs.n.toNat % 2 ^ p = 0)
      ∧ ((s.regs.n.toNat : Int) / 2 ^ p = ((s.regs.n.toNat / 2 ^ p : Nat) : Int)) := by
    intro p
    constructor
    · have : ((s.regs.n.toNat : Int) % 2 ^ p) = ((s.regs.n.toNat % 2 ^ p : Nat) : Int) := by push_cast; rfl
      rw [this]; omega
    · push_cast; rfl
  have hr : ∀ a b c : Int, withinInt a b c = inRange a b c := fun _ _ _ => rfl
  unfold recordOk recordAccepted predictedRecordOk lpcRecordOk
  dsimp only
  rw [hcoef, hparam]
  simp only [hr, State.blockLen, typeFixed, typeLpc, State.sub, recIndex, (hdiv _).1, (hdiv _).2]
  obtain ⟨field, hf⟩ : ∃ g : Nat → Int, (fun f => s.memRead .subrec (ch * 512 + f)) = g := ⟨_, rfl⟩
  have hf' : ∀ f, s.memRead .subrec (ch * 512 + f) = field f := fun f => congrFun hf f
  simp only [hf']
  by_cases h2 : field 0 = 2
  · simp only [h2]
    rw [Bool.eq_iff_iff]; simp; tauto
  · by_cases h3 : field 0 = 3
    · simp only [h3]
      rw [Bool.eq_iff_iff]; simp; tauto
    · simp [h2, h3]

/-! ## Runs of commands -/

@[simp] theorem runCommands_nil (s : State) : runCommands [] s = .ok s := rfl

/-- One command of a run: it answers `t`, and the run goes on from `t` or ends there with its error. -/
theorem runCommands_cons {i : Instr} {rest : List Instr} {s t : State} (h : exec i s = .next t) :
    runCommands (i :: rest) s = if t.regs.err = .noError then runCommands rest t else .error t := by
  simp [runCommands, h]

/-- A run of two lists is a run of the second from where the first ends. -/
theorem runCommands_append (a b : List Instr) (s : State) :
    runCommands (a ++ b) s = (runCommands a s).bind (runCommands b) := by
  induction a generalizing s with
  | nil => rfl
  | cons i rest ih =>
    simp only [List.cons_append, runCommands]
    split
    · split
      · exact ih _
      · rfl
    · rfl

/-! ## Order searches -/

/-- The pass count of a least-squares configuration is CFG_LPC_PASSES (`10_state.md` R42). -/
@[simp] theorem lsqPasses_of_type {c : Cfg} (h : c.lpcType.toNat = 2) : lsqPasses c = c.lpcPasses := by
  simp [lsqPasses, h]

/-- CFG_LPC_PASSES is ignored while CFG_LPC_TYPE is not 2 (`10_state.md` R42). -/
theorem lsqPasses_ignored {c : Cfg} (h : c.lpcType.toNat ≠ 2) (p : Word32) :
    lsqPasses { c with lpcPasses := p } = lsqPasses c := by
  simp [lsqPasses, h]

/-- One visit of a search: the order was evaluated before and nothing changes, or its candidate joins those evaluated and
the better one is kept. -/
theorem visit_cases {eval : Nat → Except ErrCode Candidate} {a b : Search} {o : Nat} (h : visit eval a o = .ok b) :
    (b = a ∧ ∃ d ∈ a.done, d.order = o)
      ∨ ∃ c, eval o = .ok c ∧ (∀ d ∈ a.done, d.order ≠ o)
          ∧ b = { done := c :: a.done, best := some (betterOf a.best c) } := by
  unfold visit at h
  split at h
  · rename_i hd
    cases h
    obtain ⟨d, hd, he⟩ := List.any_eq_true.1 hd
    exact .inl ⟨rfl, d, hd, by simpa using he⟩
  · rename_i hd
    split at h
    · rename_i c hc
      cases h
      refine .inr ⟨c, hc, fun d hm he => hd (List.any_eq_true.2 ⟨d, hm, by simpa using he⟩), rfl⟩
    · cases h

end Sys2Proof.Machine
end

