-- ==== Sys2Proof/Tests/Slice0.lean ====
section
/-!
SUPPORT. The model's own tests: the checks of WellFormed, a word of every command, one or two steps of every command
with the values of the spec's vectors (`95_test_vectors.md`; each test names its vector), and a witness for every
statement that has hypotheses.
-/
namespace Sys2Proof.Tests
open Sys2Proof.Machine

set_option Elab.async false

/-! ## Helpers -/

/-- The result is a next state with the property. -/
def after (r : Result) (p : State → Bool) : Bool :=
  match r with
  | .next t => p t
  | .fault _ => false
  | .refused _ => false

theorem exists_of_after {r : Result} {p : State → Bool} (h : after r p = true) :
    ∃ t, r = .next t ∧ p t = true := by
  cases r with
  | next t => exact ⟨t, rfl, h⟩
  | fault f => exact absurd h (by simp [after])
  | refused f => exact absurd h (by simp [after])

/-- STATUS as the port reads it. -/
def status (s : State) : Nat := (readRegister s.regs 0x01).toNat

/-- Elements from `lo` hold these values. -/
def holds (s : State) (sp : Space) (lo : Nat) (l : List Int) : Bool :=
  (List.range l.length).all fun i => decide (memGet? s.mem sp (lo + i) = l[i]?)

/-- A machine right after a successful `CFG_INIT` with these registers. -/
def locked (c : Cfg) (n cap : Nat) : State :=
  { State.reset with regs := { Regs.reset with
      cfg := c, cfgOk := true, maxFramesize := BitVec.ofNat 24 (budget c)
      srCode := (srCodeOf c.sampleRate.toNat).getD 0, n := BitVec.ofNat 32 n, outCap := BitVec.ofNat 32 cap } }

/-- The configuration `KF16` of the vectors. -/
def kf16 : Cfg := ⟨1, 44100, 16, 0, 0, 0, 0, 4, 0, 0, 8, 15⟩

/-- The configuration `K5` of the vectors. -/
def k5 : Cfg := ⟨1, 44100, 4096, 5, 1, 0, 1, 8, 0, 0, 8, 15⟩

/-- Two channels, block size 16, fixed predictors (program G3c). -/
def stereo16 : Cfg := ⟨2, 48000, 16, 0, 0, 0, 0, 4, 0, 0, 8, 15⟩

/-- The same state with a0 and a1. -/
def withOps (s : State) (a0 a1 : Int) : State :=
  { s with regs := { s.regs with ops := { s.regs.ops with a0 := BitVec.ofInt 64 a0, a1 := BitVec.ofInt 64 a1 } } }

/-- The same state in a state of the frame encoder. -/
def inFsm (s : State) (f : Fsm) : State := { s with regs := { s.regs with fsm := f } }

/-- An initialised writer whose stream is these bits. -/
def writing (s : State) (bits : List Bool) : State := putBits (writerInit s s.regs.outCap) bits

/-- The bits of bytes. -/
def bytesBits (l : List Nat) : List Bool := l.flatMap fun b => msbBits 8 b

/-- One channel's samples and its bit depth. -/
def channel (s : State) (ch obits : Nat) (l : List Int) : State :=
  (s.memWrite .smp (chIndex ch 0) l).setSub ch 2 [obits]

/-- The block q16 of vector V42. -/
def q16 : List Int := [3, -1, 4, 1, -5, 9, 2, -6, 5, 3, 5, -8, 9, -7, 9, 3]

/-- The block s16 of vector V34. -/
def s16 : List Int := [0, 10, 20, 28, 34, 38, 40, 38, 34, 28, 20, 10, 0, -10, -20, -28]

/-! ## WellFormed: one ill-formed command for each check, refused; the greatest values accepted -/

theorem test_wellformed_ch : WellFormed (.welch 16) = false ∧ WellFormed (.welch 15) = true := by decide
theorem test_wellformed_x : WellFormed (.bwPutu 64) = false ∧ WellFormed (.bwPutu 63) = true := by decide
theorem test_wellformed_y : WellFormed (.quant 1 64) = false ∧ WellFormed (.quant 63 63) = true := by decide
theorem test_wellformed_z : WellFormed (.frameInit 256) = false ∧ WellFormed (.frameInit 255) = true := by decide
theorem test_wellformed_all : WellFormed (.partSums 16 0 0 0) = false ∧ WellFormed (.partSums 0 64 0 0) = false
    ∧ WellFormed (.calcRice 0 0 64 0) = false ∧ WellFormed (.calcRice 0 0 0 256) = false := by decide

/-! ## Decoding -/

/-- `30_encoding.md` R92, bit by bit. -/
theorem test_decode_context :
    decode 0b00000000000000000000000000000000#32 = .ok .nop
    ∧ decode 0b00000001000000000000000000000000#32 = .ok .reset
    ∧ decode 0b00000010000000000000000000000000#32 = .ok .cfgInit
    ∧ decode 0b00000011000000000000000000000000#32 = .ok .wrStreaminfo := by decide +kernel

/-- `30_encoding.md` R92, bit by bit. -/
theorem test_decode_bit_writer :
    decode 0b00010000000000000000000000000000#32 = .ok .bwInit
    ∧ decode 0b00010001000001110100000000000000#32 = .ok (.bwPutu 29)
    ∧ decode 0b00010010000001110100000000000000#32 = .ok (.bwPuts 29)
    ∧ decode 0b00010011000000000000000000000000#32 = .ok .bwFlush
    ∧ decode 0b00010100000000000000000000000000#32 = .ok .bwPos
    ∧ decode 0b00010101000000000000000000000000#32 = .ok .bwUtf8
    ∧ decode 0b00010110000001110100000000000000#32 = .ok (.bwRice 29)
    ∧ decode 0b00010111000000000000000000000000#32 = .ok .crc8
    ∧ decode 0b00011000000000000000000000000000#32 = .ok .crc16 := by decide +kernel

/-- `30_encoding.md` R92, bit by bit. -/
theorem test_decode_rice_coder :
    decode 0b00100000000000000000000000000000#32 = .ok .zigzag
    ∧ decode 0b00100001000001110100000000000000#32 = .ok (.riceCount 29)
    ∧ decode 0b00100010000000000000000000000000#32 = .ok .findParam
    ∧ decode 0b00100011000001110100101100000000#32 = .ok (.maxPorder 29 11)
    ∧ decode 0b00100100011101110100101100000110#32 = .ok (.partSums 7 29 11 6)
    ∧ decode 0b00100101011101110100101100000110#32 = .ok (.calcRice 7 29 11 6) := by decide +kernel

/-- `30_encoding.md` R92, bit by bit. -/
theorem test_decode_predictor :
    decode 0b00110000011101110100000000000000#32 = .ok (.fixedRes 7 29)
    ∧ decode 0b00110001011100000000000000000000#32 = .ok (.welch 7)
    ∧ decode 0b00110010000001110100000000000000#32 = .ok (.autocorr 29)
    ∧ decode 0b00110011000001110100000000000000#32 = .ok (.levinson 29)
    ∧ decode 0b00110100011101110100000000000000#32 = .ok (.lsqFit 7 29)
    ∧ decode 0b00110101000001110100101100000000#32 = .ok (.quant 29 11)
    ∧ decode 0b00110110011101110100000000000000#32 = .ok (.lpcRes 7 29)
    ∧ decode 0b00110111000001110100101100000000#32 = .ok (.orderEst 29 11) := by decide +kernel

/-- `30_encoding.md` R92, bit by bit. -/
theorem test_decode_subframe :
    decode 0b01000000011100000000000000000000#32 = .ok (.subEncode 7)
    ∧ decode 0b01000001011100000000000000000000#32 = .ok (.subVerbatim 7) := by decide +kernel

/-- `30_encoding.md` R92, bit by bit. -/
theorem test_decode_stereo :
    decode 0b01010000000000000000000000000000#32 = .ok .deinterleave
    ∧ decode 0b01010001000000000000000000000000#32 = .ok .stEstimate
    ∧ decode 0b01010010000001110100000000000000#32 = .ok (.stApply 29) := by decide +kernel

/-- `30_encoding.md` R92, bit by bit. -/
theorem test_decode_frame :
    decode 0b01100000000000000000000000000110#32 = .ok (.frameInit 6)
    ∧ decode 0b01100001000000000000000000000000#32 = .ok .wrHeader
    ∧ decode 0b01100010011100000000000000000000#32 = .ok (.wrSubframe 7)
    ∧ decode 0b01100011000000000000000000000000#32 = .ok .wrFooter
    ∧ decode 0b01100100000000000000000000000000#32 = .ok .encodeFrame := by decide +kernel

/-- R91, R93: a reserved opcode and an unused field. -/
theorem test_decode_refuses :
    decode 0x04000000#32 = .error (.reservedOpcode 4) ∧ decode 0xFF000000#32 = .error (.reservedOpcode 255)
    ∧ decode 0x00000001#32 = .error (.unusedField "NOP") ∧ decode 0x64100000#32 = .error (.unusedField "ENCODE_FRAME")
    ∧ decode 0x30008100#32 = .error (.unusedField "FIXED_RES") := by decide +kernel

/-- The table's numbering of a word, and the words of programs G1 and G3b. -/
theorem test_decode_table_word :
    decodeTableWord 32 0x1100C000 = some (.bwPutu 3) ∧ decodeTableWord 32 0x12014000 = some (.bwPuts 5)
    ∧ decodeTableWord 32 0x16008000 = some (.bwRice 2) ∧ decodeTableWord 32 0x5200C000 = some (.stApply 3)
    ∧ decodeTableWord 32 0x62100000 = some (.wrSubframe 1) ∧ decodeTableWord 32 0x65000000 = none := by
  decide +kernel

/-! ## Steps -/

/-- From reset, the word of `NOP` runs; STATUS reads 0x00000070 (R54). -/
theorem test_step_nop : after (step (State.reset.withFetchWord 32 0x00000000)) (fun t =>
    decide (status t = 0x70) && decide (t.host = [])) = true := by decide +kernel

/-- From reset, `BW_INIT` before `CFG_INIT` is `E_SEQ`: STATUS 0x01020070 (`60_exceptions.md` R322). -/
theorem test_step_seq : after (step (State.reset.withFetchWord 32 0x10000000)) (fun t =>
    decide (status t = 0x01020070)) = true := by decide +kernel

/-- A reserved opcode is `E_ILLEGAL_CMD` (`30_encoding.md` R93). -/
theorem test_step_illegal : after (step (State.reset.withFetchWord 32 0x04000000)) (fun t =>
    decide (status t = 0x01010070)) = true := by decide +kernel

/-- A locked CFG_* register ignores a write (R47), N does not. -/
theorem test_step_writes :
    (writeRegister (locked kf16 16 64).regs 0x10 2).cfg.channels = 1
    ∧ (writeRegister State.reset.regs 0x10 0x100000002).cfg.channels = 2
    ∧ (writeRegister (locked kf16 16 64).regs 0x03 7).n = 7 := by decide +kernel

/-- The memory port, R61: truncated and extended; an index that is not valid reads 0. -/
theorem test_step_memory :
    portRead (portWrite State.reset 0 5 0x1FFFE) 0 5 = 0xFFFFFFFFFFFFFFFE
    ∧ portRead (portWrite State.reset 3 5 0x1FE) 3 5 = 0xFE
    ∧ portRead (portWrite State.reset 5 33 1) 5 33 = 0 ∧ portRead State.reset 14 0 = 0 := by decide +kernel

/-! ## The encoder context -/

theorem test_nop : after (exec .nop { State.reset with regs := { Regs.reset with err := .seq, errSticky := true } })
    (fun t => decide (status t = 0x01000070)) = true := by decide +kernel

/-- R302: registers at reset, memory kept. -/
theorem test_reset : after (exec .reset ((locked kf16 16 64).memWrite .inp 0 [5])) (fun t =>
    decide (status t = 0x70) && decide (t.regs.n = 0) && holds t .inp 0 [5]) = true := by decide +kernel

/-- V62, V63: `K5`. -/
theorem test_cfg_init : after (exec .cfgInit { State.reset with regs := { Regs.reset with cfg := k5 } }) (fun t =>
    decide (status t = 0x71) && decide (t.regs.maxFramesize = 8211) && decide (t.regs.srCode = 9)) = true := by
  decide +kernel

/-- V63: CHANNELS = 0 and PRECISION = 0 give the first failing check. -/
theorem test_cfg_init_fails :
    after (exec .cfgInit { State.reset with regs := { Regs.reset with
      cfg := { k5 with channels := 0, precision := 0 } } }) (fun t => decide (status t = 0x01040070)) = true := by
  decide +kernel

/-- V64. -/
theorem test_wr_streaminfo : after (exec .wrStreaminfo (locked k5 16 34)) (fun t =>
    holds t .out 0 [0x10, 0x00, 0x10, 0x00, 0x00, 0x00, 0x00, 0x00, 0x20, 0x13, 0x0A, 0xC4, 0x40, 0xF0]
      && holds t .out 14 (List.replicate 20 0) && decide (t.regs.outLen = 34) && decide (t.regs.bitpos = 272))
    = true := by decide +kernel

/-- V64: OUT_CAP = 33 is `E_CAPACITY`. -/
theorem test_wr_streaminfo_capacity : after (exec .wrStreaminfo (locked k5 16 33)) (fun t =>
    decide (t.regs.err = .capacity)) = true := by decide +kernel

/-! ## The bit writer -/

theorem test_bw_init : after (exec .bwInit (locked kf16 16 16)) (fun t => decide (status t = 0x73)
    && decide (t.regs.bwCap = 16) && decide (t.regs.bitpos = 0)) = true := by decide +kernel

/-- R143: the greatest value of the field; and V3, the procedure truncates. -/
theorem test_bw_putu : after (exec (.bwPutu 4) (withOps (writing (locked kf16 16 16) []) 0xF 0)) (fun t =>
    decide (t.regs.bitpos = 4) && decide (t.regs.bwAcc = 15) && decide (t.regs.err = .noError)) = true
    ∧ (putU (writing (locked kf16 16 16) []) 4 0x1F).regs.bwAcc = 15 := by decide +kernel

/-- `47_common_semantics.md` R310: the values next to the range are `E_OPERAND`, with nothing written (log 11). -/
theorem test_bw_putu_wide : ∀ v ∈ [-1, 0x10], after (exec (.bwPutu 4) (withOps (writing (locked kf16 16 16) []) v 0))
    (fun t => decide (t.regs.err = .operand) && decide (t.regs.errSticky = true) && decide (t.regs.bitpos = 0)) = true := by
  decide +kernel

/-- V3: PutS (16, 1000) is 03 E8. -/
theorem test_bw_puts : after (exec (.bwPuts 16) (withOps (writing (locked kf16 16 16) []) 1000 0)) (fun t =>
    holds t .out 0 [0x03, 0xE8]) = true := by decide +kernel

/-- V3: PutS (5, −3) is the bits 11101. -/
theorem test_bw_puts_negative : after (exec (.bwPuts 5) (withOps (writing (locked kf16 16 16) []) (-3) 0)) (fun t =>
    decide (t.regs.bwAcc = 0b11101)) = true := by decide +kernel

/-- V1: after B5 and the bits 0111101, the flush gives 7A and the two checksums. -/
theorem test_bw_flush : after (exec .bwFlush (writing (locked kf16 16 64)
      (bytesBits [0xB5] ++ [false, true, true, true, true, false, true]))) (fun t =>
    holds t .out 0 [0xB5, 0x7A] && decide (t.regs.bitpos = 16) && decide (t.regs.crc8Run = 0x6F)
      && decide (t.regs.crc16Run = 0xBF16)) = true := by decide +kernel

/-- V7: the byte at the capacity is not written, and counts. -/
theorem test_bw_capacity : after (exec (.bwPutu 8) (withOps (writing (locked kf16 16 2) (bytesBits [0xAB, 0xCD])) 0xEF 0))
    (fun t => decide (t.regs.bitpos = 24) && decide (memGet? t.mem .out 2 = none) && decide (t.regs.crc8Run = 0x23)
      && decide (t.regs.crc16Run = 0xA472)) = true := by decide +kernel

/-- G1: the position goes to a4. -/
theorem test_bw_pos : after (exec .bwPos (writing (locked kf16 16 16) (bytesBits [1, 2] ++ [true]))) (fun t =>
    decide (t.regs.ops.a4 = 17)) = true := by decide +kernel

/-- V4: 65536 is F0 90 80 80. -/
theorem test_bw_utf8 : after (exec .bwUtf8 (withOps (writing (locked kf16 16 16) []) 65536 0)) (fun t =>
    holds t .out 0 [0xF0, 0x90, 0x80, 0x80]) = true := by decide +kernel

/-- V4: the other rows. -/
theorem test_bw_utf8_rows : [0, 127, 128, 2047, 2048, 65535, 0x1FFFFF, 0x200000, 0x3FFFFFF, 0x4000000, 0x7FFFFFFF,
      0x80000000, 2 ^ 36 - 1].map utf8Bytes
    = [[0x00], [0x7F], [0xC2, 0x80], [0xDF, 0xBF], [0xE0, 0xA0, 0x80], [0xEF, 0xBF, 0xBF], [0xF7, 0xBF, 0xBF, 0xBF],
      [0xF8, 0x88, 0x80, 0x80, 0x80], [0xFB, 0xBF, 0xBF, 0xBF, 0xBF], [0xFC, 0x84, 0x80, 0x80, 0x80, 0x80],
      [0xFD, 0xBF, 0xBF, 0xBF, 0xBF, 0xBF], [0xFE, 0x82, 0x80, 0x80, 0x80, 0x80, 0x80],
      [0xFE, 0xBF, 0xBF, 0xBF, 0xBF, 0xBF, 0xBF]] := by decide +kernel

/-- V5: 100 with k = 4 is 00000000000011000, 17 bits. -/
theorem test_bw_rice : after (exec (.bwRice 4) (withOps (writing (locked kf16 16 16) []) 100 0)) (fun t =>
    decide (t.regs.bitpos = 17) && holds t .out 0 [0x00, 0x0C]) = true := by decide +kernel

/-- V5: the quotient of 5 with k = 0 is 10, and reaches the threshold 10. -/
theorem test_bw_rice_escape : after (exec (.bwRice 0) (withOps (writing (locked kf16 16 16) []) 5 10)) (fun t =>
    decide (t.regs.err = .riceEscape) && decide (t.regs.bitpos = 0)) = true := by decide +kernel

/-- V6: "123456789". -/
theorem test_crc8 : after (exec .crc8 (withOps (writing (locked kf16 16 16)
      (bytesBits [0x31, 0x32, 0x33, 0x34, 0x35, 0x36, 0x37, 0x38, 0x39])) 0 9)) (fun t =>
    decide (t.regs.ops.a4 = 0xF4)) = true := by decide +kernel

/-- V6: "123456789". -/
theorem test_crc16 : after (exec .crc16 (withOps (writing (locked kf16 16 16)
      (bytesBits [0x31, 0x32, 0x33, 0x34, 0x35, 0x36, 0x37, 0x38, 0x39])) 0 9)) (fun t =>
    decide (t.regs.ops.a4 = 0xFEE8)) = true := by decide +kernel

/-! ## The Rice coder -/

/-- S1. -/
theorem test_zigzag : after (exec .zigzag (withOps (locked kf16 16 16) (-2147483648) 0)) (fun t =>
    decide (t.regs.ops.a4 = 4294967295)) = true := by decide +kernel

/-- S3, V10. -/
theorem test_rice_count : after (exec (.riceCount 2) (withOps (locked kf16 16 16) 100 16)) (fun t =>
    decide (t.regs.ops.a4 = 71)) = true := by decide +kernel

/-- V10: a negative bracket. -/
theorem test_rice_count_negative : after (exec (.riceCount 14) (withOps (locked kf16 16 16) 0 16)) (fun t =>
    decide (t.regs.ops.a4 = 239)) = true := by decide +kernel

/-- V11: k = 6 also costs 127; the smaller k wins. -/
theorem test_find_param : after (exec .findParam (withOps (locked kf16 16 16) 1000 16)) (fun t =>
    decide (t.regs.ops.a4 = 5) && decide (t.regs.ops.a5 = 127)) = true := by decide +kernel

/-- V11: the largest operands. -/
theorem test_find_param_largest : after (exec .findParam (withOps (locked kf16 16 16) (2 ^ 49) 65535)) (fun t =>
    decide (t.regs.ops.a4 = 14) && decide (t.regs.ops.a5 = 34360721391)) = true := by decide +kernel

/-- V12. -/
theorem test_max_porder : after (exec (.maxPorder 32 8) (locked k5 4096 16)) (fun t =>
    decide (t.regs.ops.a4 = 7)) = true := by decide +kernel

/-- V12: 24 = 8·3. -/
theorem test_max_porder_odd : after (exec (.maxPorder 4 3) (locked k5 24 16)) (fun t =>
    decide (t.regs.ops.a4 = 2)) = true := by decide +kernel

/-- The residual of V13. -/
def r16 : List Int := [5, -3, 1, -1, 0, 2, -2, 1, 40, -37, 25, -60, 33, -20, 45, -52]

/-- V13. -/
theorem test_part_sums : after (exec (.partSums 0 2 0 8) ((locked kf16 16 16).setResiduals 0 r16)) (fun t =>
    holds t .sums 0 [632] && holds t .sums 256 [12, 620] && holds t .sums 512 [3, 9, 322, 298]
      && holds t .sums 768 [0, 3, 4, 5, 153, 169, 105, 193] && decide (t.regs.ops.a4 = 0) && decide (t.regs.ops.a5 = 3))
    = true := by decide +kernel

/-- V14. -/
theorem test_calc_rice : after (exec (.calcRice 0 2 0 8) ((locked kf16 16 16).setResiduals 0 r16)) (fun t =>
    decide (t.regs.ops.a4 = 88) && decide (t.regs.ops.a5 = 1) && holds t .subrec 5 [1] && holds t .subrec 256 [0, 6])
    = true := by decide +kernel

/-! ## The linear predictor -/

/-- V30. -/
theorem test_fixed_res : after (exec (.fixedRes 0 2) (channel (locked kf16 8 16) 0 16 [3, -1, 4, 1, -5, 9, 2, -6]))
    (fun t => holds t .res 0 [3, -1, 9, -8, -3, 20, -21, -1]) = true := by decide +kernel

/-- V33: STATUS 0x1100071. -/
theorem test_fixed_res_range : after (exec (.fixedRes 0 1)
      (channel (locked k5 3 16) 0 16 [2147483647, -2147483648, 2147483647])) (fun t =>
    decide (status t = 0x1100071) && decide (memGet? t.mem .res 0 = none) && holds t .subrec 2 [16]) = true := by
  decide +kernel

/-- V34. -/
theorem test_welch : after (exec (.welch 0) (channel (locked kf16 16 16) 0 16 s16)) (fun t =>
    holds t .win 0 [0x0000000000000000, 0x4003E93E93E93E92, 0x40227D27D27D27D1, 0x4031EB851EB851EC, 0x403A987654320FED,
      0x4040E38E38E38E39, 0x4043333333333333, 0x4042EA61D950C840, 0x4040ECA8641FDB97, 0x403AE147AE147AE1,
      0x4031C71C71C71C72, 0x401F49F49F49F4A1, 0x0000000000000000, 0xC0127D27D27D27D1, 0xC013E93E93E93E92,
      0x8000000000000000]) = true := by decide +kernel

/-- V34. -/
theorem test_autocorr : after (exec (.autocorr 4) ((locked kf16 16 16).memWrite .win 0
      [0x0000000000000000, 0x4003E93E93E93E92, 0x40227D27D27D27D1, 0x4031EB851EB851EC, 0x403A987654320FED,
      0x4040E38E38E38E39, 0x4043333333333333, 0x4042EA61D950C840, 0x4040ECA8641FDB97, 0x403AE147AE147AE1,
      0x4031C71C71C71C72, 0x401F49F49F49F4A1, 0x0000000000000000, 0xC0127D27D27D27D1, 0xC013E93E93E93E92,
      0x8000000000000000])) (fun t =>
    holds t .autoc 0 [0x40BD2274FBD92F1E, 0x40BBE7B7A0917946, 0x40B88F70DF6385CE, 0x40B3C8776175A2D8,
      0x40ACD608A07B7772]) = true := by decide +kernel

/-- V34. -/
theorem test_levinson : after (exec (.levinson 4) ((locked kf16 16 16).memWrite .autoc 0 [0x40BD2274FBD92F1E,
      0x40BBE7B7A0917946, 0x40B88F70DF6385CE, 0x40B3C8776175A2D8, 0x40ACD608A07B7772])) (fun t =>
    holds t .lpcf 0 [0x3FEEA64E367F8675] && holds t .lpcf 32 [0x3FFD1F85906D4812, 0xBFECCFFF78922EBA]
      && holds t .lpcf 64 [0x4001C96905F45B03, 0xBFFB72340565B57C, 0x3FDCA7EC74D800DA]
      && holds t .lpcf 96 [0x40011B17C7A3FF8B, 0xBFF63A8A96303BF0, 0x3F99B32A3C8DA550, 0x3FC8551B3F3F9A08]
      && holds t .refl 0 [0x3FEEA64E367F8675, 0xBFECCFFF78922EBA, 0x3FDCA7EC74D800DA, 0x3FC8551B3F3F9A08]) = true := by
  decide +kernel

/-- V38: an autocorrelation of zeros. -/
theorem test_levinson_zero : after (exec (.levinson 2) ((locked kf16 16 16).memWrite .autoc 0 [0, 0, 0])) (fun t =>
    holds t .lpcf 32 [0, 0] && holds t .refl 0 [0, 0]) = true := by decide +kernel

/-- R196: N = 1 is `E_BLOCK_LEN`. -/
theorem test_lsq_fit : after (exec (.lsqFit 0 4) (locked kf16 1 16)) (fun t => decide (t.regs.err = .blockLen))
    = true := by decide +kernel

/-- V35. -/
theorem test_quant : after (exec (.quant 4 12) ((locked kf16 16 16).memWrite .lpcf 96
      [0x40011B17C7A3FF8B, 0xBFF63A8A96303BF0, 0x3F99B32A3C8DA550, 0x3FC8551B3F3F9A08])) (fun t =>
    holds t .qc 96 [1095, -712, 13, 98] && holds t .qsh 3 [9] && decide (t.regs.ops.a4 = 9)) = true := by
  decide +kernel

/-- V35: no shift fits, [100, 1] is rescaled by 7/100. -/
theorem test_quant_rescaled : after (exec (.quant 2 4) ((locked kf16 16 16).memWrite .lpcf 32
      [0x4059000000000000, 0x3FF0000000000000])) (fun t =>
    holds t .qc 32 [7, 0] && holds t .qsh 1 [0]) = true := by decide +kernel

/-- V36. -/
theorem test_lpc_res : after (exec (.lpcRes 0 2) (((channel (locked kf16 16 16) 0 16 s16).memWrite .qc 32
      [1864, -922]).memWrite .qsh 1 [10])) (fun t =>
    holds t .res 0 [0, 10, 2, 1, 2, 2, 2, 0, 1, 1, 0, -1, 0, 0, -1, 0]) = true := by decide +kernel

/-- V37: 0.5, the binary64 next above the threshold, 0.05. -/
theorem test_order_est : after (exec (.orderEst 1 3) ((locked kf16 16 16).memWrite .refl 0
      [0x3FE0000000000000, 0x3FB999999999999B, 0x3FA999999999999A])) (fun t =>
    decide (t.regs.ops.a4 = 2)) = true := by decide +kernel

/-- V37: the threshold itself does not exceed it. -/
theorem test_order_est_none : after (exec (.orderEst 1 2) ((locked kf16 16 16).memWrite .refl 0
      [0x3FB999999999999A, 0x3FB999999999999A])) (fun t => decide (t.regs.ops.a4 = 1)) = true := by decide +kernel

/-! ## The subframe encoder -/

/-- V42: FIXED order 0, parameter 3, 92 bits. -/
theorem test_sub_encode : after (exec (.subEncode 0) (channel (locked kf16 16 64) 0 16 q16)) (fun t =>
    decide (t.regs.ops.a4 = 92) && holds t .subrec 0 [2, 0, 16] && holds t .subrec 5 [0, 92]
      && holds t .subrec 256 [3] && holds t .res 0 q16) = true := by decide +kernel

/-- V45: LPC, order 4 by the estimate. -/
theorem test_sub_encode_lpc : after (exec (.subEncode 0)
      (channel (locked { k5 with maxOrder := 4 } 16 64) 0 16 s16)) (fun t =>
    decide (t.regs.ops.a4 = 170) && holds t .subrec 0 [3, 4, 16, 15, 12, 0, 170]
      && holds t .subrec 32 [8758, -5690, 102, 779] && holds t .subrec 256 [0]) = true := by decide +kernel

/-- V46. -/
theorem test_sub_verbatim : after (exec (.subVerbatim 0) (channel (locked kf16 16 64) 0 16 s16)) (fun t =>
    decide (t.regs.ops.a4 = 256) && holds t .subrec 0 [1, 0, 16] && holds t .res 0 s16) = true := by decide +kernel

/-- V46: a bit depth of 15 is `E_OPERAND`. -/
theorem test_sub_verbatim_depth : after (exec (.subVerbatim 0) (channel (locked kf16 16 64) 0 15 s16)) (fun t =>
    decide (t.regs.err = .operand)) = true := by decide +kernel

/-! ## Stereo decorrelation -/

theorem test_deinterleave : after (exec .deinterleave ((locked stereo16 3 64).memWrite .inp 0 [1, -2, 3, -4, 5, -6]))
    (fun t => holds t .smp 0 [1, 3, 5] && holds t .smp 65536 [-2, -4, -6] && holds t .subrec 2 [16]
      && holds t .subrec 514 [16]) = true := by decide +kernel

/-- V52, the row that MID_SIDE wins. -/
theorem test_st_estimate : after (exec .stEstimate (channel (channel (locked stereo16 8 64) 0 16
      [2, 17, -22, 4, 43, -32, 0, 41]) 1 16 [-6, 11, -18, 0, 47, -28, 6, 35])) (fun t =>
    holds t .stsum 0 [362, 358, 355, 66] && holds t .score 0 [118, 98, 98, 97] && decide (t.regs.chMode = 3)
      && decide (t.regs.ops.a4 = 3)) = true := by decide +kernel

/-- V51: modes 1, 2 and 3 tie and mode 1 wins. -/
theorem test_st_estimate_tie : after (exec .stEstimate (channel (channel (locked stereo16 8 64) 0 16
      [-3, -2, -9, -14, 2, 30, 34, 31]) 1 16 [-3, -2, -9, -14, 2, 30, 34, 31])) (fun t =>
    holds t .score 0 [80, 44, 44, 44] && decide (t.regs.ops.a4 = 1)) = true := by decide +kernel

/-- V54: floor of a negative sum. -/
theorem test_st_apply : after (exec (.stApply 3) (channel (channel (locked stereo16 4 64) 0 16 [-1, -1, 0, 1]) 1 16
      [0, -2, 1, 0])) (fun t =>
    holds t .smp 0 [-1, -2, 0, 0] && holds t .smp 65536 [-1, 1, -1, 1] && holds t .subrec 2 [16]
      && holds t .subrec 514 [17] && decide (t.regs.chMode = 3)) = true := by decide +kernel

/-- V54: one channel admits mode 0 alone. -/
theorem test_st_apply_mono : after (exec (.stApply 1) (channel (locked kf16 4 64) 0 16 [-1, -1, 0, 1])) (fun t =>
    decide (t.regs.err = .operand)) = true := by decide +kernel

/-! ## The frame encoder -/

/-- G2: BS_CODE 0xF6. -/
theorem test_frame_init : after (exec (.frameInit 0) (locked kf16 16 64)) (fun t =>
    decide (status t = 0x03) && decide (t.regs.bsCode = 0xF6)) = true := by decide +kernel

/-- R266: a retry is allowed in OVERFLOW_RETRY alone. -/
theorem test_frame_init_retry : after (exec (.frameInit 1) (locked kf16 16 64)) (fun t =>
    decide (t.regs.err = .seq)) = true := by decide +kernel

/-- A frame in progress on one channel, with the header still to come. -/
def frameStart (s : State) : State := frameInitEffect false s

/-- G2. -/
theorem test_wr_header : after (exec .wrHeader (frameStart (locked kf16 16 64))) (fun t =>
    decide (status t = 0x13) && decide (t.regs.bitpos = 56) && decide (t.regs.crc8Run = 0)
      && holds t .out 0 [0xFF, 0xF8, 0x69, 0x08, 0x00, 0x0F, 0x30]) = true := by decide +kernel

/-- A frame whose header has been written and whose next subframe is channel 0's. -/
def frameBody (s : State) : State := wrHeaderEffect (frameStart s)

/-- V40: 00 03 E8. -/
theorem test_wr_subframe : after (exec (.wrSubframe 0) (frameBody (((locked kf16 16 64).setSub 0 0
      [0, 0, 16]).setResiduals 0 [1000]))) (fun t =>
    holds t .out 7 [0x00, 0x03, 0xE8] && decide (t.regs.bitpos = 80) && decide (status t = 0x123)) = true := by
  decide +kernel

/-- V41: 02 00 01 00 02 00 03 00 04. -/
theorem test_wr_subframe_verbatim : after (exec (.wrSubframe 0) (frameBody (((locked kf16 4 64).setSub 0 0
      [1, 0, 16]).setResiduals 0 [1, 2, 3, 4]))) (fun t =>
    holds t .out 7 [0x02, 0x00, 0x01, 0x00, 0x02, 0x00, 0x03, 0x00, 0x04]) = true := by decide +kernel

/-- G3: the footer 76 F7. -/
theorem test_wr_footer : after (exec .wrFooter (inFsm (writing (locked stereo16 16 64)
      (bytesBits [0xFF, 0xF8, 0x39, 0x18, 0x00, 0xAE, 0x00, 0x03, 0xE8, 0x00, 0x03, 0xE8])) .subframesWritten)) (fun t =>
    holds t .out 12 [0x76, 0xF7] && decide (t.regs.outLen = 14) && decide (t.regs.fsm = .done)
      && decide (t.regs.crc16Run = 0) && decide (t.regs.frameCount = 1)) = true := by decide +kernel

/-- R278: a frame longer than its capacity waits for the retry, and STATUS.ERR is 0. -/
theorem test_wr_footer_overflow : after (exec .wrFooter (inFsm (writing (locked stereo16 16 3)
      (bytesBits [0xFF, 0xF8])) .subframesWritten)) (fun t =>
    decide (t.regs.fsm = .overflowRetry) && decide (t.regs.err = .noError)) = true := by decide +kernel

/-- G2: one command, 21 bytes. -/
theorem test_encode_frame : after (exec .encodeFrame ((locked kf16 16 64).memWrite .inp 0 q16)) (fun t =>
    decide (status t = 0x147) && decide (t.regs.outLen = 21) &&
      holds t .out 0 [0xFF, 0xF8, 0x69, 0x08, 0x00, 0x0F, 0x30, 0x10, 0x00, 0xFA, 0x51, 0x49, 0x2B, 0x16, 0xAE, 0x53,
        0xCA, 0x69, 0x5C, 0x20, 0xE1]) = true := by decide +kernel

/-- G3c, row 4: MID_SIDE. -/
theorem test_encode_frame_stereo : after (exec .encodeFrame ((locked stereo16 8 100).memWrite .inp 0
      [2, -6, 17, 11, -22, -18, 4, 0, 43, 47, -32, -28, 0, 6, 41, 35])) (fun t =>
    decide (status t = 0x247) && holds t .out 0 [0xFF, 0xF8, 0x6A, 0xA8, 0x00, 0x07, 0x7A, 0x10, 0x01, 0x63, 0xF1, 0x3C,
      0x87, 0x4E, 0xE6, 0x2C, 0x10, 0x00, 0xC8, 0x67, 0xA3, 0xFD, 0x6C, 0x45, 0x96]) = true := by decide +kernel

/-! ## Witnesses: for each statement with hypotheses, a state and operands that meet all of them -/

/-- `decode_of_encode`: the greatest value of every field. -/
theorem witness_decode_of_encode : WellFormed (.partSums 15 63 63 255) = true
    ∧ WellFormed (.frameInit 255) = true := by decide

/-- `encode_of_decode`. -/
theorem witness_encode_of_decode : decode 0x24FFFFFF#32 = .ok (.partSums 15 63 63 255) := by decide +kernel

/-- `reserved_opcodes_are_illegal`: both ends of every range. -/
theorem witness_reserved_opcodes_are_illegal : ∀ op ∈ [0x04, 0x0F, 0x19, 0x1F, 0x26, 0x2F, 0x38, 0x3F, 0x42, 0x4F, 0x53, 0x5F, 0x65,
      0xFF], (cmdWord op 15 63 63 255).toNat / 2 ^ 24 = op
    ∧ after (runWord (cmdWord op 15 63 63 255) State.reset) (fun t => decide (t.regs.err = .illegalCmd)) = true := by
  decide +kernel

/-- Every command has its opcode in its word. -/
theorem witness_opcode (i : Instr) : Laws.Opcode.Statement i := by
  cases i with
  | nop => exact Laws.Opcode.nop
  | reset => exact Laws.Opcode.reset
  | cfgInit => exact Laws.Opcode.cfgInit
  | wrStreaminfo => exact Laws.Opcode.wrStreaminfo
  | bwInit => exact Laws.Opcode.bwInit
  | bwPutu => exact Laws.Opcode.bwPutu _
  | bwPuts => exact Laws.Opcode.bwPuts _
  | bwFlush => exact Laws.Opcode.bwFlush
  | bwPos => exact Laws.Opcode.bwPos
  | bwUtf8 => exact Laws.Opcode.bwUtf8
  | bwRice => exact Laws.Opcode.bwRice _
  | crc8 => exact Laws.Opcode.crc8
  | crc16 => exact Laws.Opcode.crc16
  | zigzag => exact Laws.Opcode.zigzag
  | riceCount => exact Laws.Opcode.riceCount _
  | findParam => exact Laws.Opcode.findParam
  | maxPorder => exact Laws.Opcode.maxPorder _ _
  | partSums => exact Laws.Opcode.partSums _ _ _ _
  | calcRice => exact Laws.Opcode.calcRice _ _ _ _
  | fixedRes => exact Laws.Opcode.fixedRes _ _
  | welch => exact Laws.Opcode.welch _
  | autocorr => exact Laws.Opcode.autocorr _
  | levinson => exact Laws.Opcode.levinson _
  | lsqFit => exact Laws.Opcode.lsqFit _ _
  | quant => exact Laws.Opcode.quant _ _
  | lpcRes => exact Laws.Opcode.lpcRes _ _
  | orderEst => exact Laws.Opcode.orderEst _ _
  | subEncode => exact Laws.Opcode.subEncode _
  | subVerbatim => exact Laws.Opcode.subVerbatim _
  | deinterleave => exact Laws.Opcode.deinterleave
  | stEstimate => exact Laws.Opcode.stEstimate
  | stApply => exact Laws.Opcode.stApply _
  | frameInit => exact Laws.Opcode.frameInit _
  | wrHeader => exact Laws.Opcode.wrHeader
  | wrSubframe => exact Laws.Opcode.wrSubframe _
  | wrFooter => exact Laws.Opcode.wrFooter
  | encodeFrame => exact Laws.Opcode.encodeFrame

/-- `unused_fields_are_illegal`: the word of `NOP` with a bit of its unused z field. -/
theorem witness_unused_fields_are_illegal : ∀ i : Instr, WellFormed i = true → encode i ≠ 0x00000001#32 := by
  intro i hw he
  have h := (witness_opcode i hw).1
  rw [he] at h
  cases i with
  | nop => exact absurd he (by decide +kernel)
  | _ => exact absurd h (by simp [Laws.opcode])

/-- `step_runs_decoded`: bits 63:32 of the data are not 0; a word of a command, and one of a reserved opcode. -/
theorem witness_step_runs_decoded :
    ({ State.reset with host := [.wreg 0x02 0xFFFFFFFF30008000, .rreg 1] } : State).host
      = .wreg 0x02 0xFFFFFFFF30008000 :: [.rreg 1]
    ∧ decode ((0xFFFFFFFF30008000 : Word64).setWidth 32) = .ok (.fixedRes 0 2)
    ∧ ({ State.reset with host := [.wreg 0x02 0x65000000] } : State).host = .wreg 0x02 0x65000000 :: []
    ∧ decode ((0x65000000 : Word64).setWidth 32) = .error (.reservedOpcode 0x65) := by decide +kernel

/-- `reset_values`: a state with the reset input next. -/
theorem witness_reset_values : ({ locked kf16 16 64 with host := [.resetInput, .rreg 1] } : State).host
    = .resetInput :: [.rreg 1] := rfl

/-- `step_other_accesses`: one state for each clause. -/
theorem witness_step_other_accesses :
    State.reset.host = []
    ∧ ({ State.reset with host := [.rreg 0x27] } : State).host = .rreg 0x27 :: []
    ∧ ((0x01 : Nat) ≠ 0x02 ∧ ({ State.reset with host := [.wreg 0x01 5] } : State).host = .wreg 0x01 5 :: [])
    ∧ ({ State.reset with host := [.rmem 13 4095] } : State).host = .rmem 13 4095 :: []
    ∧ ({ State.reset with host := [.wmem 14 0 1] } : State).host = .wmem 14 0 1 :: []
    ∧ ({ State.reset with host := [.resetInput] } : State).host = .resetInput :: [] := by decide +kernel

/-- `register_port_writes`: each clause. -/
theorem witness_register_port_writes :
    (locked kf16 16 64).regs.cfgOk = true ∧ State.reset.regs.cfgOk = false
    ∧ readRegister (writeRegister State.reset.regs 0x1B 0x1000000FF) 0x1B = 0xFF
    ∧ readRegister (writeRegister (locked kf16 16 64).regs 0x1B 0x1000000FF) 0x1B = 15
    ∧ readRegister (writeRegister State.reset.regs 0x27 0x1000000FF) 0x27 = 0x1000000FF
    ∧ readRegister (writeRegister State.reset.regs 0x05 1) 0x05 = 0 := by decide +kernel

/-- `memory_port_round_trip`: the greatest valid index of a space and the first that is not valid; an unassigned space. -/
theorem witness_memory_port_round_trip :
    ((spaceRow .out).valid 2097151 ∧ ¬(spaceRow .out).valid 2097152)
    ∧ ((spaceRow .inp).valid 524279 ∧ ¬(spaceRow .inp).valid 524280)
    ∧ ((spaceRow .lpcf).valid 1023 ∧ ¬(spaceRow .lpcf).valid 31)
    ∧ ((spaceRow .sums).valid 2303 ∧ ¬(spaceRow .sums).valid 1)
    ∧ ((spaceRow .subrec).valid 63 ∧ ¬(spaceRow .subrec).valid 64)
    ∧ (spaceRow .out).id = 3 ∧ (14 : Nat) ≤ 14 := by
  simp only [spaceRow_valid]
  decide +kernel

/-- `cfg_init_locks_or_rejects`: both arms. -/
theorem witness_cfg_init_locks_or_rejects : configError kf16 = none ∧ configError { kf16 with precision := 16 } = some .cfgPrecision := by
  decide +kernel

/-- `sample_rate_code`: each clause at the ends of its range. -/
theorem witness_sample_rate_code : srCodeOf 96000 = some 11 ∧ srCodeOf 0 = none ∧ srCodeOf 255000 = some 0xFFC
    ∧ srCodeOf 65535 = some 0xFFFFD ∧ srCodeOf 655350 = some 0xFFFFE ∧ srCodeOf 655351 = none := by decide +kernel

/-- `block_size_code`: each clause at the ends of its range. -/
theorem witness_block_size_code : bsCodeOf 32768 = some 15 ∧ bsCodeOf 1 = some 0x6 ∧ bsCodeOf 255 = some 0xFE6
    ∧ bsCodeOf 257 = some 0x1007 ∧ bsCodeOf 65535 = some 0xFFFE7 ∧ bsCodeOf 0 = none ∧ bsCodeOf 65536 = none := by
  decide +kernel

/-- `streaminfo_block_layout`: the least and the greatest capacity. -/
theorem witness_streaminfo_block_layout : earlyError .wrStreaminfo (locked kf16 0 34) = none
    ∧ earlyError .wrStreaminfo (locked kf16 0 2097152) = none := by decide +kernel

/-- `bw_init_starts_writer`: the least and the greatest capacity. -/
theorem witness_bw_init_starts_writer : earlyError .bwInit (locked kf16 0 0) = none
    ∧ earlyError .bwInit (locked kf16 0 2097152) = none := by decide +kernel

/-- A writer with one byte and three bits. -/
def writer11 (a0 a1 : Int) : State :=
  withOps (writing (locked kf16 16 16) (bytesBits [0xA5] ++ [true, false, true])) a0 a1

/-- `append_commands_extend_stream`: the least and the greatest width, each with the greatest value that fits and the values
next to the range; a flush; the least and the greatest frame number. -/
theorem witness_append_commands_extend_stream :
    (∀ x ∈ [0, 32], earlyError (.bwPutu x) (writer11 (2 ^ x - 1) 0) = none
      ∧ (∀ a ∈ [-1, 2 ^ x], configReady (.bwPutu x) (writer11 a 0) = true ∧ stateReady (.bwPutu x) (writer11 a 0) = true
        ∧ fieldsReady (.bwPutu x) (writer11 a 0) = true ∧ ¬(0 ≤ a ∧ a < 2 ^ x)
        ∧ (writer11 a 0).regs.ops.a0.toInt = a)
      ∧ earlyError (.bwPuts x) (writer11 (-1) 0) = none)
    ∧ earlyError .bwFlush (writer11 0 0) = none
    ∧ earlyError .bwUtf8 (writer11 0 0) = none ∧ earlyError .bwUtf8 (writer11 (2 ^ 36 - 1) 0) = none
    ∧ ∀ a ∈ [-1, 0, 2 ^ 36 - 1], (writer11 a 0).regs.bitpos.toNat + 56 < 2 ^ 64 := by decide +kernel

/-- `bw_rice_appends_codeword`: no threshold; the quotient 10 below the threshold 11; the quotient 10 at the threshold 10. -/
theorem witness_bw_rice_appends_codeword : (∀ a1 ∈ [0, 11, 10, 2 ^ 33], earlyError (.bwRice 0) (writer11 5 a1) = none)
    ∧ earlyError (.bwRice 14) (writer11 (-2 ^ 31) 0) = none
    ∧ zigzagValue 5 / ((2 ^ 0 : Nat) : Int) < 11 ∧ (10 : Int) ≤ zigzagValue 5 / ((2 ^ 0 : Nat) : Int)
    ∧ (writer11 0 0).regs.bitpos.toNat + 2 ^ 33 < 2 ^ 64 := by decide +kernel

/-- `codes_read_back`: the greatest number. -/
theorem witness_codes_read_back : (2 : Nat) ^ 36 - 1 < 2 ^ 36 := by omega

/-- `writer_queries_answer_a4`: a frame is in progress; the empty range and the whole one. -/
theorem witness_writer_queries_answer_a4 : earlyError .bwPos (inFsm (writer11 0 1) .init) = none
    ∧ earlyError .crc8 (inFsm (writer11 0 1) .init) = none ∧ earlyError .crc16 (inFsm (writer11 1 1) .init) = none := by
  decide +kernel

/-- A writer whose stream is a whole number of bytes. -/
def wholeBytes (l : List Nat) : State := writing (withOps (locked kf16 16 16) 0 l.length) (bytesBits l)

theorem writing_stream (s : State) {l : List Bool} (h : l.length < 2 ^ 64) : StreamIs (writing s l) l :=
  putBits_stream (l := []) l (writerInit_stream ..) (by simpa using h)

theorem inFsm_stream {s : State} {l : List Bool} (h : StreamIs s l) (f : Fsm) : StreamIs (inFsm s f) l :=
  ⟨h.pos, h.acc, h.crc8, h.crc16, h.out⟩

/-- `range_checksum_is_running`: the empty stream and two bytes. -/
theorem witness_range_checksum_is_running : ∀ l ∈ [[], [0x12, 0x34]], StreamIs (wholeBytes l) (bytesBits l)
    ∧ (wholeBytes l).regs.bitpos.toNat = 8 * l.length ∧ l.length ≤ (wholeBytes l).regs.bwCap.toNat
    ∧ (wholeBytes l).regs.ops.a0.toInt = 0 ∧ (wholeBytes l).regs.ops.a1.toInt = l.length
    ∧ earlyError .crc8 (wholeBytes l) = none := by
  intro l hl
  refine ⟨writing_stream _ ?_, ?_⟩
  · revert l; decide +kernel
  · revert l; decide +kernel

/-- `bytes_above_capacity_stay`: a byte is completed at the capacity 1. -/
theorem witness_bytes_above_capacity_stay : ∃ t, exec (.bwPutu 8) (withOps (writing (locked kf16 16 1) (bytesBits [7])) 9 0)
    = .next t ∧ (decide (t.regs.bwCap.toNat ≤ 1) && decide (t.regs.bitpos = 16)) = true :=
  exists_of_after (by decide +kernel)

/-- `zigzag_value_and_bijection`: both ends of the range. -/
theorem witness_zigzag_value_and_bijection : earlyError .zigzag (withOps (locked kf16 0 0) (-2 ^ 31) 0) = none
    ∧ earlyError .zigzag (withOps (locked kf16 0 0) (2 ^ 31 - 1) 0) = none := by decide +kernel

/-- `rice_estimates_and_best_param`: both ends of every range. -/
theorem witness_rice_estimates_and_best_param : earlyError (.riceCount 0) (withOps (locked kf16 0 0) 0 0) = none
    ∧ earlyError (.riceCount 14) (withOps (locked kf16 0 0) (2 ^ 49) 65535) = none
    ∧ earlyError .findParam (withOps (locked kf16 0 0) (2 ^ 49) 65535) = none := by decide +kernel

/-- `max_porder_is_greatest`: the order is the block length; pmax 8. -/
theorem witness_max_porder_is_greatest : earlyError (.maxPorder 16 8) (locked kf16 16 0) = none
    ∧ earlyError (.maxPorder 0 0) (locked kf16 1 0) = none := by decide +kernel

/-- `part_sums_fill_sums` and `calc_rice_finds_best_plan`. -/
theorem witness_part_sums_fill_sums : configError kf16 = none ∧ earlyError (.partSums 0 2 0 8) (locked kf16 16 0) = none
    ∧ earlyError (.partSums 0 16 8 8) (locked kf16 16 0) = none := by decide +kernel

/-- `calc_rice_finds_best_plan`. -/
theorem witness_calc_rice_finds_best_plan : configError kf16 = none ∧ earlyError (.calcRice 0 0 0 8) (locked kf16 1 0) = none
    ∧ earlyError (.calcRice 0 16 8 8) (locked kf16 16 0) = none := by decide +kernel

/-- One channel of three 32-bit samples, weight 0.5 and a reflection coefficient. -/
def wide3 (l : List Int) : State := ((channel (locked k5 3 16) 0 16 l).memWrite .qc 0 [8192]).memWrite .qsh 0 [14]

/-- A residual of `LPC_RES 0 1` on these samples. -/
def lpcWitness (l : List Int) (i : Nat) : Int :=
  lpcDiff 1 (fun j => (wide3 l).memRead .qc ((1 - 1) * 32 + (j - 1))) ((wide3 l).memRead .qsh (1 - 1)).toNat
    (sampleAt (wide3 l) 0) i

/-- `residual_commands_differences`: for each command, every residual fits, and one does not. -/
theorem witness_residual_commands_differences : configError k5 = none
    ∧ (∀ l ∈ [[2147483647, 0, 1], [-2147483648, 2147483647, 0]], earlyError (.fixedRes 0 1) (wide3 l) = none)
    ∧ (∀ i ∈ [1, 2], -2 ^ 31 ≤ fixedDiff 1 (sampleAt (wide3 [2147483647, 0, 1]) 0) i
        ∧ fixedDiff 1 (sampleAt (wide3 [2147483647, 0, 1]) 0) i ≤ 2 ^ 31 - 1)
    ∧ fixedDiff 1 (sampleAt (wide3 [-2147483648, 2147483647, 0]) 0) 1 = 2 ^ 32 - 1
    ∧ (∀ l ∈ [[5, 7, 9], [-2147483648, 2147483647, 0]], earlyError (.lpcRes 0 1) (wide3 l) = none)
    ∧ lpcWitness [5, 7, 9] 1 = 5 ∧ lpcWitness [5, 7, 9] 2 = 6
    ∧ lpcWitness [-2147483648, 2147483647, 0] 1 = 3221225471 := by
  decide +kernel

/-- `prediction_is_undone`: both commands. -/
theorem witness_prediction_is_undone : configError k5 = none
    ∧ (∃ t, exec (.fixedRes 0 2) (wide3 [5, 7, 9]) = .next t ∧ decide (t.regs.err = .noError) = true)
    ∧ ∃ t, exec (.lpcRes 0 1) (wide3 [5, 7, 9]) = .next t ∧ decide (t.regs.err = .noError) = true :=
  ⟨by decide +kernel, exists_of_after (by decide +kernel), exists_of_after (by decide +kernel)⟩

/-- `reals_are_rounded_once`: the greatest finite value with the least, and with zero. -/
theorem witness_reals_are_rounded_once :
    IsBinary64 (.fin false (2 ^ 53 - 1) 971) ∧ IsBinary64 (.fin true 1 (-1074)) ∧ finValue true 1 (-1074) ≠ 0
      ∧ IsBinary64 (.fin false 0 (-1074)) ∧ finValue false 0 (-1074) = 0 := by
  refine ⟨by simp [IsBinary64], by simp [IsBinary64], ?_, by simp [IsBinary64], by simp [finValue]⟩
  simp [finValue]

/-- `window_and_autocorrelation`: the least blocks and the greatest order. -/
theorem witness_window_and_autocorrelation : earlyError (.welch 0) (locked kf16 2 0) = none
    ∧ earlyError (.autocorr 1) (locked kf16 1 0) = none ∧ earlyError (.autocorr 32) (locked kf16 1 0) = none := by
  decide +kernel

/-- `levinson_recursion_values`: both ends of the order. -/
theorem witness_levinson_recursion_values : earlyError (.levinson 1) (locked kf16 0 0) = none
    ∧ earlyError (.levinson 32) (locked kf16 0 0) = none := by decide +kernel

/-- `lsq_fit_by_open_parameter`: both ends of the order. -/
theorem witness_lsq_fit_by_open_parameter : earlyError (.lsqFit 0 1) (locked kf16 2 0) = none
    ∧ earlyError (.lsqFit 0 32) (locked kf16 16 0) = none := by decide +kernel

/-- A machine with these coefficients of order 1. -/
def coefOne (b : Int) : State := (locked kf16 0 0).memWrite .lpcf 0 [b]

/-- `quant_shift_and_rounding`: a NaN; 0.5, which fits at shift 14; 100, which fits at no shift at precision 4. -/
theorem witness_quant_shift_and_rounding : (∀ b ∈ [0x7FF8000000000000, 0x3FE0000000000000, 0x4059000000000000],
      earlyError (.quant 1 4) (coefOne b) = none)
    ∧ finite (realAt (coefOne 0x7FF8000000000000) .lpcf 0) = false
    ∧ finite (realAt (coefOne 0x3FE0000000000000) .lpcf 0) = true
    ∧ fle (fmul (fabs (realAt (coefOne 0x3FE0000000000000) .lpcf 0)) (fltOfInt (2 ^ 0))) (fltOfInt 7) = true
    ∧ finite (realAt (coefOne 0x4059000000000000) .lpcf 0) = true
    ∧ fle (fmul (fabs (realAt (coefOne 0x4059000000000000) .lpcf 0)) (fltOfInt (2 ^ 0))) (fltOfInt 7) = false
    ∧ earlyError (.quant 32 15) (locked kf16 0 0) = none ∧ earlyError (.quant 1 1) (locked kf16 0 0) = none := by
  decide +kernel

/-- `order_est_largest_above`: one order, and all of them. -/
theorem witness_order_est_largest_above : earlyError (.orderEst 32 32) (locked kf16 0 0) = none
    ∧ earlyError (.orderEst 1 32) (locked kf16 0 0) = none := by decide +kernel

/-- `order_searches_find_least`: one order, and all of them, with the first and the last method. -/
theorem witness_order_searches_find_least :
    ((0 : Nat) ≤ 5 ∧ (1 : Nat) ≤ 1 ∧ (1 : Nat) ≤ 32) ∧ ((5 : Nat) ≤ 5 ∧ (1 : Nat) ≤ 32 ∧ (32 : Nat) ≤ 32) := by decide

/-- `sub_encode_constant_block`: four equal samples of 17 bits. -/
theorem witness_sub_encode_constant_block : configError kf16 = none
    ∧ earlyError (.subEncode 0) (channel (locked kf16 4 0) 0 17 [7, 7, 7, 7]) = none
    ∧ ∀ i, i < 4 → sampleAt (channel (locked kf16 4 0) 0 17 [7, 7, 7, 7]) 0 i
        = sampleAt (channel (locked kf16 4 0) 0 17 [7, 7, 7, 7]) 0 0 := by decide +kernel

/-- `verbatim_subframes`: both commands, the second on four samples that are not all equal. -/
theorem witness_verbatim_subframes : configError kf16 = none
    ∧ earlyError (.subVerbatim 0) (channel (locked kf16 16 0) 0 16 q16) = none
    ∧ earlyError (.subEncode 0) (channel (locked kf16 4 0) 0 16 [1, 2, 3, 4]) = none ∧ 4 < 5
    ∧ sampleAt (channel (locked kf16 4 0) 0 16 [1, 2, 3, 4]) 0 1
        ≠ sampleAt (channel (locked kf16 4 0) 0 16 [1, 2, 3, 4]) 0 0 := by decide +kernel

/-- One channel of five samples, 17 bits deep. -/
def five (l : List Int) : State := channel (locked kf16 5 0) 0 17 l

/-- `sub_encode_fixed_least_cost`: fixed prediction on 17-bit samples and on samples with a difference of 33 bits, and a
block not longer than the greatest LPC order. -/
theorem witness_sub_encode_fixed_least_cost : (configError kf16 = none ∧ configError k5 = none)
    ∧ (∀ l ∈ [[65536, -65536, 3, 4, 5], [-2147483648, 2147483647, 0, 0, 0]],
        earlyError (.subEncode 0) (five l) = none ∧ sampleAt (five l) 0 1 ≠ sampleAt (five l) 0 0)
    ∧ (∀ i, i < 5 → -65536 ≤ sampleAt (five [65536, -65536, 3, 4, 5]) 0 i
        ∧ sampleAt (five [65536, -65536, 3, 4, 5]) 0 i ≤ 65536)
    ∧ fixedDiff 1 (sampleAt (five [-2147483648, 2147483647, 0, 0, 0]) 0) 1 = 2 ^ 32 - 1
    ∧ kf16.lpcType.toNat = 0
    ∧ earlyError (.subEncode 0) (channel (locked k5 8 0) 0 16 [1, 2, 3, 4, 5, 6, 7, 8]) = none
    ∧ (channel (locked k5 8 0) 0 16 [1, 2, 3, 4, 5, 6, 7, 8]).regs.n.toNat ≤ k5.maxOrder.toNat := by decide +kernel

/-- Linear prediction of orders 1 to 4 by an order method. -/
def lpc4 (method : Nat) : Cfg := { k5 with maxOrder := 4, orderMethod := BitVec.ofNat 32 method }

/-- One channel of sixteen samples under `lpc4`. -/
def lpcBlock (method : Nat) (l : List Int) : State := channel (locked (lpc4 method) 16 64) 0 16 l

/-- Samples whose prediction errs by more than 2^31. -/
def wild16 : List Int :=
  [2147483647, 2147483647, -2147483648, -2147483648, 2147483647, -2147483648, -2147483648, 2147483647, 2147483647,
    2147483647, -2147483648, 2147483647, -2147483648, -2147483648, -2147483648, 2147483647]

/-- `sub_encode_lpc_selected_order`: the estimate on a block that it encodes, the log search on one it cannot. -/
theorem witness_sub_encode_lpc_selected_order :
    (∀ c ∈ [(0, s16), (5, wild16)], configError (lpc4 c.1) = none
      ∧ earlyError (.subEncode 0) (lpcBlock c.1 c.2) = none
      ∧ (∃ i ∈ List.range 16, sampleAt (lpcBlock c.1 c.2) 0 i ≠ sampleAt (lpcBlock c.1 c.2) 0 0)
      ∧ (lpc4 c.1).lpcType.toNat ≠ 0 ∧ (lpc4 c.1).maxOrder.toNat < 16)
    ∧ after (exec (.subEncode 0) (lpcBlock 0 s16)) (fun t =>
        decide (t.regs.err = .noError) && decide (memGet? t.mem .subrec 0 = some 3)) = true
    ∧ after (exec (.subEncode 0) (lpcBlock 5 wild16)) (fun t => decide (t.regs.err = .residualRange)) = true :=
  ⟨by decide +kernel, by decide +kernel, by decide +kernel⟩

/-- `subframe_is_lossless`: the FIXED and the LPC path. -/
theorem witness_subframe_is_lossless :
    (configError kf16 = none ∧ configError { k5 with maxOrder := 4 } = none)
    ∧ (∀ l ∈ [q16, s16], (memGet? (channel (locked kf16 16 64) 0 16 l).mem .subrec (0 * 512 + 2)).isSome = true
      ∧ recordAt (channel (locked kf16 16 64) 0 16 l) 0 2 = 16
      ∧ ∀ x ∈ l, -2 ^ 15 ≤ x ∧ x < 2 ^ 15)
    ∧ (∃ t, exec (.subEncode 0) (channel (locked kf16 16 64) 0 16 q16) = .next t
        ∧ (decide (t.regs.err = .noError) && recordAccepted t 0) = true)
    ∧ ∃ t, exec (.subEncode 0) (channel (locked { k5 with maxOrder := 4 } 16 64) 0 16 s16) = .next t
        ∧ (decide (t.regs.err = .noError) && recordAccepted t 0
          && decide (readSubframe 16 16 (subframeBits t 0 ++ [true]) = some (s16, [true]))) = true :=
  ⟨by decide +kernel, by decide +kernel, exists_of_after (by decide +kernel), exists_of_after (by decide +kernel)⟩

/-- `deinterleave_splits_channels`: the least and the greatest block. -/
theorem witness_deinterleave_splits_channels : configError stereo16 = none ∧ earlyError .deinterleave (locked stereo16 1 0) = none
    ∧ earlyError .deinterleave (locked stereo16 16 0) = none := by decide +kernel

/-- `st_estimate_least_score`: two channels, and one. -/
theorem witness_st_estimate_least_score : configError stereo16 = none ∧ configError kf16 = none
    ∧ earlyError .stEstimate (locked stereo16 1 0) = none ∧ stereo16.channels.toNat = 2
    ∧ earlyError .stEstimate (locked kf16 16 0) = none ∧ kf16.channels.toNat ≠ 2 := by decide +kernel

/-- Two channels with the extremes of 16 bits. -/
def extremes : State := channel (channel (locked stereo16 2 64) 0 16 [32767, -32768]) 1 16 [-32768, 32767]

/-- `st_apply_transforms_samples`: every mode on two channels, mode 0 on one. -/
theorem witness_st_apply_transforms_samples : configError stereo16 = none ∧ configError kf16 = none
    ∧ (∀ mode ∈ [0, 1, 2, 3], earlyError (.stApply mode) extremes = none)
    ∧ earlyError (.stApply 0) (locked kf16 1 0) = none := by decide +kernel

/-- Two channels' input. -/
def interleaved : State := (locked stereo16 2 64).memWrite .inp 0 [32767, -32768, -32768, 32767]

/-- `stereo_is_undone`: mode 3 on the extremes. -/
theorem witness_stereo_is_undone : configError stereo16 = none ∧ stereo16.channels.toNat = 2
    ∧ ∃ t, exec .deinterleave interleaved = .next t
      ∧ (decide (t.regs.err = .noError)
        && after (exec (.stApply 3) t) (fun u => decide (u.regs.err = .noError))) = true :=
  ⟨by decide +kernel, by decide +kernel, exists_of_after (by decide +kernel)⟩

/-- `frame_init_starts_frame`: a first attempt and a retry. -/
theorem witness_frame_init_starts_frame : configError kf16 = none ∧ earlyError (.frameInit 0) (locked kf16 1 0) = none
    ∧ earlyError (.frameInit 1) (inFsm (locked kf16 16 2097152) .overflowRetry) = none := by decide +kernel

/-- `wr_header_appends_header`. -/
theorem witness_wr_header_appends_header : earlyError .wrHeader (frameStart (locked kf16 16 64)) = none
    ∧ StreamIs (frameStart (locked kf16 16 64)) [] := by
  refine ⟨by decide +kernel, ?_⟩
  have h := writerInit_stream (locked kf16 16 64) (locked kf16 16 64).regs.outCap
  exact ⟨h.pos, h.acc, h.crc8, h.crc16, h.out⟩

/-- A frame whose next subframe is a VERBATIM one. -/
def verbatimNext : State := frameBody (((locked kf16 2 64).setSub 0 0 [1, 0, 17]).setResiduals 0 [-65535, 65535])

/-- `wr_subframe_appends_record`. -/
theorem witness_wr_subframe_appends_record : configError kf16 = none ∧ earlyError (.wrSubframe 0) verbatimNext = none
    ∧ verbatimNext.regs.bitpos.toNat + (subframeLayout verbatimNext 0).length < 2 ^ 64 := by decide +kernel

/-- A frame whose subframes have been written. -/
def footerNext (cap : Nat) (retried : Bool) : State :=
  inFsm (writing { locked kf16 16 cap with regs := { (locked kf16 16 cap).regs with retried := retried } }
    (bytesBits [0xFF, 0xF8] ++ [true])) .subframesWritten

/-- `wr_footer_ends_frame`: a frame that fits (5 bytes in 5), a first overflow and a second one. -/
theorem witness_wr_footer_ends_frame : ∀ c ∈ [(5, false), (4, false), (4, true)],
    earlyError .wrFooter (footerNext c.1 c.2) = none
      ∧ StreamIs (footerNext c.1 c.2) (bytesBits [0xFF, 0xF8] ++ [true])
      ∧ (bytesBits [0xFF, 0xF8] ++ [true]).length + 32 < 2 ^ 64 := by
  intro c hc
  refine ⟨?_, ?_, by decide +kernel⟩
  · revert c; decide +kernel
  · exact inFsm_stream (writing_stream _ (by decide +kernel)) _

/-- The invariant holds of a machine right after `CFG_INIT`. -/
theorem regsInv_locked {c : Cfg} {n cap : Nat} (hc : configError c = none) (hb : budget c < 2 ^ 24)
    (hs : (srCodeOf c.sampleRate.toNat).isSome = true) : RegsInv (locked c n cap).regs where
  footer := by simp [locked, Regs.reset]
  locked _ := by
    refine ⟨hc, ?_, ?_⟩
    · show (BitVec.ofNat 24 (budget c)).toNat = budget c
      rw [BitVec.toNat_ofNat, Nat.mod_eq_of_lt hb]
    · show some ((srCodeOf c.sampleRate.toNat).getD 0) = srCodeOf c.sampleRate.toNat
      obtain ⟨v, hv⟩ := Option.isSome_iff_exists.1 hs
      rw [hv]; rfl
  unlocked h := by simp [locked] at h
  mode h := by simp [locked, Regs.reset] at h
  acc := by simp [locked, Regs.reset]
  cap := by simp [locked, Regs.reset]
  count := by simp [locked, Regs.reset]
  owner h := by simp [locked, Regs.reset] at h
  complete h := by simp [locked, Regs.reset] at h
  retry h := by simp [locked, Regs.reset] at h
  sticky h := by simp [locked, Regs.reset] at h

/-- `encode_frame_fits`, `fsm_transitions` and the two invariants: KF16 with the capacity equal to the budget. -/
theorem witness_encode_frame_fits : RegsInv (locked kf16 16 51).regs ∧ earlyError .encodeFrame (locked kf16 16 51) = none
    ∧ (locked kf16 16 51).regs.maxFramesize.toNat ≤ (locked kf16 16 51).regs.outCap.toNat
    ∧ (locked kf16 16 51).regs.cfg.lpcType.toNat = 0 :=
  ⟨regsInv_locked (by decide +kernel) (by decide +kernel) (by decide +kernel), by decide +kernel, by decide +kernel,
    by decide +kernel⟩

/-- The outcome of the step sequence has the property. -/
def ranTo (r : Except State State) (good : Bool) (f : Fsm) : Bool :=
  match r with
  | .ok u => good && decide (u.regs.fsm = f)
  | .error u => !good && decide (u.regs.fsm = f)

/-- `encode_frame_is_step_sequence`: a frame that fits, and one that no capacity holds. -/
theorem witness_encode_frame_is_step_sequence :
    (∀ cap ∈ [51, 0], earlyError .encodeFrame ((locked kf16 16 cap).memWrite .inp 0 q16) = none)
    ∧ RegsInv ((locked kf16 16 51).memWrite .inp 0 q16).regs ∧ RegsInv ((locked kf16 16 0).memWrite .inp 0 q16).regs
    ∧ ranTo (stepFrame ((locked kf16 16 51).memWrite .inp 0 q16)) true .done = true
    ∧ ranTo (stepFrame ((locked kf16 16 0).memWrite .inp 0 q16)) false .failed = true :=
  ⟨by decide +kernel, witness_encode_frame_fits.1,
    regsInv_locked (by decide +kernel) (by decide +kernel) (by decide +kernel), by decide +kernel, by decide +kernel⟩

/-- `early_errors_change_nothing`: one command for each class of priority, and a record that is not accepted. -/
theorem witness_early_errors_change_nothing : earlyError .bwFlush State.reset = some .seq
    ∧ earlyError .bwFlush (locked kf16 16 64) = some .seq
    ∧ earlyError (.fixedRes 1 0) (locked kf16 16 64) = some .operand
    ∧ earlyError (.fixedRes 0 0) (locked kf16 0 64) = some .blockLen
    ∧ earlyError .bwInit (locked kf16 16 2097153) = some .capacity
    ∧ earlyError .zigzag (withOps (locked kf16 16 64) (2 ^ 31) 0) = some .operand
    ∧ earlyError (.wrSubframe 0) (verbatimNext.setSub 0 0 [4]) = some .operand := by decide +kernel

/-- `failing_commands_leave_inputs`, `registers_commands_leave`: a failing command. -/
theorem witness_failing_commands_leave_inputs : ∃ t, exec (.fixedRes 0 1) (wide3 [-2147483648, 2147483647, 0]) = .next t
    ∧ decide (t.regs.err ≠ .noError) = true := exists_of_after (by decide +kernel)

/-- `registers_commands_leave`: a command that writes a4 and a5. -/
theorem witness_registers_commands_leave : ∃ t, exec .findParam (withOps (locked kf16 0 0) 1000 16) = .next t
    ∧ decide (t.regs.ops.a5 = 127) = true := exists_of_after (by decide +kernel)

/-- `fsm_transitions`: a command that fails early, and one that moves the FSM. -/
theorem witness_fsm_transitions : RegsInv (locked kf16 16 51).regs
    ∧ (earlyError .wrHeader (locked kf16 16 51) ≠ none ∧ ∃ t, exec .wrHeader (locked kf16 16 51) = .next t
        ∧ decide (t.regs.fsm = .idle) = true)
    ∧ earlyError (.frameInit 0) (locked kf16 16 51) = none ∧ ∃ t, exec (.frameInit 0) (locked kf16 16 51) = .next t
        ∧ decide (t.regs.fsm = .init) = true :=
  ⟨witness_encode_frame_fits.1, ⟨by decide +kernel, exists_of_after (by decide +kernel)⟩, by decide +kernel,
    exists_of_after (by decide +kernel)⟩

/-- `step_keeps_registers`: a step that runs `FRAME_INIT`. -/
theorem witness_step_keeps_registers : RegsInv ((locked kf16 16 51).withFetchWord 32 0x60000000).regs
    ∧ ∃ t, step ((locked kf16 16 51).withFetchWord 32 0x60000000) = .next t ∧ decide (t.regs.fsm = .init) = true :=
  ⟨witness_encode_frame_fits.1, exists_of_after (by decide +kernel)⟩

/-- `step_keeps_memory`: a step that runs `WR_STREAMINFO`. -/
theorem witness_step_keeps_memory : RegsInv ((locked kf16 16 51).withFetchWord 32 0x03000000).regs
    ∧ MemInv ((locked kf16 16 51).withFetchWord 32 0x03000000).mem
    ∧ ∃ t, step ((locked kf16 16 51).withFetchWord 32 0x03000000) = .next t
      ∧ (decide (t.mem.out.length = 34) && Memory.wf t.mem) = true := by
  refine ⟨witness_encode_frame_fits.1, ⟨rfl, fun sp i h => ?_⟩, exists_of_after (by decide +kernel)⟩
  cases sp <;> exact absurd h Bool.false_ne_true

end Sys2Proof.Tests
end

section
/-!
The step on a write to CMD (`10_state.md` R26).
-/
namespace Sys2Proof.Proofs
open Sys2Proof.Machine

/-- What a word does that decodes to no command (`30_encoding.md` R91, R93). -/
theorem illegalCommand_eq (s : State) :
    illegalCommand s = .next { s with regs := { s.regs with err := .illegalCmd, errSticky := true } } := rfl

theorem runWord_of_decode_ok {w : Word32} {i : Instr} (h : decode w = .ok i) (s : State) : runWord w s = exec i s := by
  simp only [runWord, h]

theorem runWord_of_decode_ne_ok {w : Word32} (h : ∀ i, decode w ≠ .ok i) (s : State) :
    runWord w s = illegalCommand s := by
  cases hd : decode w with
  | ok i => exact absurd hd (h i)
  | error e => simp only [runWord, hd]

theorem step_cons {s : State} {a : HostAction} {rest : List HostAction} (h : s.host = a :: rest) :
    step s = runAccess a { s with host := rest } := by
  simp only [step, h]

theorem runAccess_write_cmd (data : Word64) (s : State) :
    runAccess (.wreg 0x02 data) s = runWord (data.setWidth 32) s := rfl

/-- Settles O6: the step is the access, the access is the word, and the word runs as it decodes. -/
theorem step_runs_decoded : Obligations.step_runs_decoded := by
  intro s data rest hhost w
  have hstep : step s = runWord w { s with host := rest } := (step_cons hhost).trans (runAccess_write_cmd data _)
  refine ⟨hstep, fun i hi => ?_, fun hno => ?_⟩
  · rw [hstep, runWord_of_decode_ok hi]
  · rw [hstep, runWord_of_decode_ne_ok hno, illegalCommand_eq]

end Sys2Proof.Proofs
end

section
/-!
Rounding to nearest with ties to even, on the rationals: the nearest integer, and with it the nearest value of binary64
(`00_scope.md` R11).
-/
namespace Sys2Proof.Proofs
open Sys2Proof.Machine

/-- `n` is the integer nearest `t`, the even one when two are nearest. -/
def NearestEven (t : ℚ) (n : ℤ) : Prop := |t - n| ≤ 1 / 2 ∧ (|t - n| = 1 / 2 → n % 2 = 0)

theorem NearestEven.self (n : ℤ) : NearestEven n n := by simp [NearestEven]

theorem NearestEven.neg {t : ℚ} {n : ℤ} (h : NearestEven t n) : NearestEven (-t) (-n : ℤ) := by
  obtain ⟨hle, htie⟩ := h
  have habs : |-t - ((-n : ℤ) : ℚ)| = |t - n| := by
    rw [← abs_neg]; congr 1; push_cast; ring
  rw [NearestEven, habs]
  exact ⟨hle, fun h => by have := htie h; omega⟩

/-- No integer is closer, and another as close leaves `n` even. -/
theorem NearestEven.closest {t : ℚ} {n : ℤ} (h : NearestEven t n) (i : ℤ) :
    |t - n| ≤ |t - i| ∧ (|t - n| = |t - i| → i = n ∨ n % 2 = 0) := by
  obtain ⟨hle, htie⟩ := h
  by_cases hi : i = n
  · subst hi; exact ⟨le_rfl, fun _ => .inl rfl⟩
  have hone : (1 : ℚ) ≤ |(i : ℚ) - n| := by
    exact_mod_cast Int.one_le_abs (sub_ne_zero.2 hi)
  have htri : |(i : ℚ) - n| ≤ |t - n| + |t - i| := by
    have := abs_sub_le (i : ℚ) t n
    rw [abs_sub_comm (i : ℚ) t] at this
    linarith
  exact ⟨by linarith, fun h => .inr (htie (by linarith))⟩

/-- From half a unit below an even integer on, the integer is reached. -/
theorem NearestEven.ge_of_half_le {t : ℚ} {n i : ℤ} (h : NearestEven t n) (heven : i % 2 = 0)
    (hi : (i : ℚ) - 1 / 2 ≤ t) : i ≤ n := by
  obtain ⟨hle, htie⟩ := h
  by_contra hlt
  have hn : (n : ℚ) ≤ i - 1 := by exact_mod_cast Int.le_sub_one_of_lt (not_le.1 hlt)
  have hup := (abs_le.1 hle).2
  have hdiff : t - n = 1 / 2 := by linarith
  have hn' : (n : ℚ) = ((i - 1 : ℤ) : ℚ) := by push_cast; linarith
  have hni : n = i - 1 := by exact_mod_cast hn'
  have := htie (by rw [hdiff]; norm_num)
  omega

/-- In the lower half of a unit the nearest integer is the one below. -/
theorem nearestEven_of_lt_half {t : ℚ} {q : ℤ} (h0 : q ≤ t) (h1 : t < q + 1 / 2) : NearestEven t q := by
  have habs : |t - q| < 1 / 2 := abs_lt.2 ⟨by linarith, by linarith⟩
  exact ⟨habs.le, fun h => absurd h habs.ne⟩

/-- In the upper half of a unit it is the one above. -/
theorem nearestEven_of_half_lt {t : ℚ} {q : ℤ} (h0 : q + 1 / 2 < t) (h1 : t ≤ q + 1) :
    NearestEven t (q + 1 : ℤ) := by
  have habs : |t - (q + 1 : ℤ)| < 1 / 2 := by push_cast; exact abs_lt.2 ⟨by linarith, by linarith⟩
  exact ⟨habs.le, fun h => absurd h habs.ne⟩

/-- In the middle it is the even one of the two. -/
theorem nearestEven_of_eq_half {t : ℚ} {q n : ℤ} (h : t = q + 1 / 2) (hn : n = q ∨ n = q + 1)
    (heven : n % 2 = 0) : NearestEven t n := by
  have habs : |t - n| = 1 / 2 := by
    rcases hn with rfl | rfl
    · rw [h, add_sub_cancel_left]; norm_num
    · rw [h]; push_cast; rw [add_sub_add_left_eq_sub]; norm_num
  exact ⟨habs.le, fun _ => heven⟩

/-- `roundShift` is the nearest integer to x / 2^k for x = m, or for m < x < m + 1 when `sticky`. -/
theorem nearestEven_roundShift {m k : Nat} {sticky : Bool} {x : ℚ} (hk : 1 ≤ k) (hlo : m ≤ x) (hhi : x < m + 1)
    (hexact : sticky = false → x = m) (hsticky : sticky = true → m < x) :
    NearestEven (x / 2 ^ k) (roundShift m k sticky : ℕ) := by
  obtain ⟨half, hhalf⟩ : ∃ half : Nat, 2 ^ (k - 1) = half := ⟨_, rfl⟩
  have hpow : 2 ^ k = 2 * half := by rw [← hhalf, ← pow_succ', Nat.sub_add_cancel hk]
  have hpowQ : (2 : ℚ) ^ k = 2 * half := by exact_mod_cast hpow
  have hpos : 0 < half := hhalf ▸ Nat.two_pow_pos _
  have hposQ : (0 : ℚ) < 2 * half := by exact_mod_cast (by omega : 0 < 2 * half)
  rw [roundShift, Nat.shiftRight_eq_div_pow, hhalf, hpow, hpowQ]
  obtain ⟨q, hq⟩ : ∃ q, m / (2 * half) = q := ⟨_, rfl⟩
  obtain ⟨r, hr⟩ : ∃ r, m % (2 * half) = r := ⟨_, rfl⟩
  have hm : (2 * half * q + r : ℚ) = m := by
    rw [← hq, ← hr]; exact_mod_cast Nat.div_add_mod m (2 * half)
  have hr2 : (r : ℚ) + 1 ≤ 2 * half := by
    rw [← hr]; exact_mod_cast Nat.mod_lt m (by omega : 0 < 2 * half)
  simp only [hq, hr]
  obtain ⟨frac, hfrac⟩ : ∃ frac, (r + (x - m)) / (2 * half) = frac := ⟨_, rfl⟩
  have ht : x / (2 * half) = (q : ℤ) + frac := by
    rw [← hfrac, div_eq_iff hposQ.ne', add_mul, div_mul_cancel₀ _ hposQ.ne']; push_cast; linarith
  have hfrac0 : 0 ≤ frac := hfrac ▸ div_nonneg (by linarith [r.cast_nonneg (α := ℚ)]) hposQ.le
  have hfrac1 : frac ≤ 1 := hfrac ▸ (div_le_one hposQ).2 (by linarith)
  rw [ht]
  by_cases hgt : half < r
  · have hgtQ : (half : ℚ) + 1 ≤ r := by exact_mod_cast hgt
    have : 1 / 2 < frac := hfrac ▸ (lt_div_iff₀ hposQ).2 (by linarith)
    rw [if_pos hgt, Nat.cast_add_one]
    exact nearestEven_of_half_lt (by linarith) (by linarith)
  rw [if_neg hgt]
  by_cases heq : r = half
  · have heqQ : (r : ℚ) = half := by exact_mod_cast heq
    cases sticky with
    | true =>
      have : 1 / 2 < frac := hfrac ▸ (lt_div_iff₀ hposQ).2 (by linarith [hsticky rfl])
      rw [if_pos (by simp [heq]), Nat.cast_add_one]
      exact nearestEven_of_half_lt (by linarith) (by linarith)
    | false =>
      have hhalf : frac = 1 / 2 := hfrac ▸ (div_eq_iff hposQ.ne').2 (by linarith [hexact rfl])
      by_cases hodd : q % 2 = 1
      · rw [if_pos (by simp [heq, hodd]), hhalf, Nat.cast_add_one]
        exact nearestEven_of_eq_half rfl (.inr rfl) (by omega)
      · rw [if_neg (by simp [hodd]), hhalf]
        exact nearestEven_of_eq_half rfl (.inl rfl) (by omega)
  · have hltQ : (r : ℚ) + 1 ≤ half := by exact_mod_cast (by omega : r + 1 ≤ half)
    have : frac < 1 / 2 := hfrac ▸ (div_lt_iff₀ hposQ).2 (by linarith)
    rw [if_neg (by simp [heq])]
    exact nearestEven_of_lt_half (by linarith) (by linarith)

/-! ## Magnitudes in units of the result's last place -/

/-- `t` units of 2^u: 2^u is the unit of the last place of a value of binary64 with 53 significant bits, or the least
unit. -/
structure InUnit (t : ℚ) (u : ℤ) : Prop where
  nonneg : 0 ≤ t
  lt : t < 2 ^ 53
  least : -1074 ≤ u
  normal : 2 ^ 52 ≤ t ∨ u = -1074

/-- A binary64 value in units of 2^u is a whole number, or is below the normalised mantissas, and then 2^u is not the
least unit. -/
theorem binary64_in_unit {neg : Bool} {m : Nat} {e u : ℤ} (h : IsBinary64 (.fin neg m e)) :
    (∃ i : ℤ, finValue neg m e = i * 2 ^ u) ∨ (u ≠ -1074 ∧ finValue neg m e < 2 ^ 52 * 2 ^ u) := by
  obtain ⟨hm, he, -, -⟩ := h
  by_cases hue : u ≤ e
  · left
    obtain ⟨d, rfl⟩ : ∃ d : Nat, e = u + d := ⟨(e - u).toNat, by omega⟩
    refine ⟨(if neg then -1 else 1) * m * 2 ^ d, ?_⟩
    rw [finValue, zpow_add₀ two_ne_zero, zpow_natCast]
    split <;> push_cast <;> ring
  · right
    refine ⟨by omega, ?_⟩
    have hmQ : (m : ℚ) < 2 ^ 53 := by exact_mod_cast hm
    have hle : finValue neg m e ≤ m * 2 ^ e := by
      have : 0 ≤ (m : ℚ) * 2 ^ e := by positivity
      rw [finValue]; split <;> linarith
    calc finValue neg m e ≤ m * 2 ^ e := hle
      _ < 2 ^ 53 * 2 ^ e := by gcongr
      _ = 2 ^ 52 * 2 ^ (e + 1) := by rw [zpow_add_one₀ two_ne_zero]; ring
      _ ≤ 2 ^ 52 * 2 ^ u := by gcongr <;> [norm_num; omega]

/-- Rounding a magnitude in its unit gives a closest binary64 value, and an even one on a tie. -/
theorem InUnit.closest {t : ℚ} {u : ℤ} {n : Nat} (h : InUnit t u) (hn : NearestEven t n) {neg : Bool} {m : Nat}
    {e : ℤ} (hb : IsBinary64 (.fin neg m e)) :
    |t * 2 ^ u - n * 2 ^ u| ≤ |t * 2 ^ u - finValue neg m e|
      ∧ (|t * 2 ^ u - n * 2 ^ u| = |t * 2 ^ u - finValue neg m e| →
        finValue neg m e = n * 2 ^ u ∨ n % 2 = 0) := by
  have hu : (0 : ℚ) < 2 ^ u := by positivity
  have hscale : ∀ y : ℚ, |t * 2 ^ u - y * 2 ^ u| = |t - y| * 2 ^ u := fun y => by
    rw [← sub_mul, abs_mul, abs_of_pos hu]
  rw [hscale]
  rcases binary64_in_unit (u := u) hb with ⟨i, hi⟩ | ⟨hne, hlt⟩
  · obtain ⟨hle, htie⟩ := hn.closest i
    rw [hi, hscale]
    refine ⟨mul_le_mul_of_nonneg_right hle hu.le, fun heq => ?_⟩
    rcases htie (mul_right_cancel₀ hu.ne' heq) with rfl | heven
    · exact .inl (by push_cast; rfl)
    · exact .inr (by omega)
  · have ht : 2 ^ 52 ≤ t := h.normal.resolve_right hne
    have hbound : |t - (n : ℤ)| ≤ |t - (2 ^ 52 : ℤ)| := (hn.closest (2 ^ 52)).1
    have hstrict : |t - n| * 2 ^ u < |t * 2 ^ u - finValue neg m e| := by
      calc |t - n| * 2 ^ u ≤ (t - 2 ^ 52) * 2 ^ u := by
            rw [abs_of_nonneg (a := t - (2 ^ 52 : ℤ)) (by push_cast; linarith)] at hbound
            exact mul_le_mul_of_nonneg_right (by exact_mod_cast hbound) hu.le
        _ < t * 2 ^ u - finValue neg m e := by linarith
        _ ≤ _ := le_abs_self _
    exact ⟨hstrict.le, fun heq => absurd heq hstrict.ne⟩

end Sys2Proof.Proofs
end

section
/-!
The rounded operations of binary64 (`00_scope.md` R11, `42_linear_predictor.md` R204).
-/
namespace Sys2Proof.Proofs
open Sys2Proof.Machine

/-! ## Signs and values -/

/-- ±1, the sign of a binary64 value. -/
def signum (neg : Bool) : ℚ := if neg then -1 else 1

theorem finValue_eq (neg : Bool) (m : Nat) (e : ℤ) : finValue neg m e = signum neg * (m * 2 ^ e) := by
  rw [finValue, signum, mul_assoc]

theorem signum_mul_self (neg : Bool) : signum neg * signum neg = 1 := by cases neg <;> norm_num [signum]

theorem abs_signum (neg : Bool) : |signum neg| = 1 := by cases neg <;> norm_num [signum]

theorem inv_signum (neg : Bool) : (signum neg)⁻¹ = signum neg := inv_eq_of_mul_eq_one_left (signum_mul_self neg)

theorem signum_bne (s t : Bool) : signum (s != t) = signum s * signum t := by
  cases s <;> cases t <;> norm_num [signum]

theorem signum_mul_finValue (s neg : Bool) (m : Nat) (e : ℤ) :
    signum s * finValue neg m e = finValue (s != neg) m e := by
  rw [finValue_eq, finValue_eq, signum_bne, mul_assoc]

theorem finValue_not (neg : Bool) (m : Nat) (e : ℤ) : finValue (!neg) m e = -finValue neg m e := by
  cases neg <;> simp [finValue]

theorem finValue_false_eq_abs (neg : Bool) (m : Nat) (e : ℤ) : finValue false m e = |finValue neg m e| := by
  have h : (0 : ℚ) ≤ m * 2 ^ e := by positivity
  rw [finValue_eq neg, abs_mul, abs_signum, abs_of_nonneg h, finValue_eq, signum]; simp

theorem finValue_eq_zero_iff (neg : Bool) (m : Nat) (e : ℤ) : finValue neg m e = 0 ↔ m = 0 := by
  have hs : signum neg ≠ 0 := fun h => by simpa [h] using signum_mul_self neg
  have he : (2 : ℚ) ^ e ≠ 0 := zpow_ne_zero e two_ne_zero
  rw [finValue_eq, mul_eq_zero_iff_left hs, mul_eq_zero_iff_right he, Nat.cast_eq_zero]

/-- `neg` is a sign that q may carry: its own, or either one for 0. -/
def SignOf (neg : Bool) (q : ℚ) : Prop := (q < 0 → neg = true) ∧ (0 < q → neg = false)

theorem signOf_signum_mul (neg : Bool) {r : ℚ} (hr : 0 ≤ r) : SignOf neg (signum neg * r) := by
  cases neg
  · exact ⟨fun h => absurd h (by simpa [signum] using hr), fun _ => rfl⟩
  · exact ⟨fun _ => rfl, fun h => absurd h (by simpa [signum] using hr)⟩

theorem SignOf.eq_signum_mul {neg : Bool} {q : ℚ} (h : SignOf neg q) : q = signum neg * |q| := by
  obtain ⟨hneg, hpos⟩ := h
  rcases lt_trichotomy q 0 with hq | rfl | hq
  · rw [hneg hq, abs_of_neg hq]; simp [signum]
  · simp
  · rw [hpos hq, abs_of_pos hq]; simp [signum]

theorem SignOf.decide_lt_zero {neg : Bool} {q : ℚ} (h : SignOf neg q) (hq : q ≠ 0) : decide (q < 0) = neg := by
  rcases lt_or_gt_of_ne hq with hlt | hgt
  · simp [hlt, h.1 hlt]
  · simp [not_lt.2 hgt.le, h.2 hgt]

theorem isBinary64_of_canonical {z : Flt} (h : z.Canonical) : IsBinary64 z := by
  cases z <;> exact h

/-! ## Rounding a magnitude -/

/-- The unit of the greatest finite values. -/
def greatestUnit : ℚ := 2 ^ (971 : ℤ)

theorem greatestUnit_pos : 0 < greatestUnit := by unfold greatestUnit; positivity

theorem two_mul_zpow_le_greatestUnit {u : ℤ} (h : u < 971) : 2 * 2 ^ u ≤ greatestUnit := by
  rw [greatestUnit, ← zpow_one_add₀ two_ne_zero]
  exact zpow_le_zpow_right₀ one_le_two (by omega)

theorem two_mul_greatestUnit_le_zpow {u : ℤ} (h : 971 < u) : 2 * greatestUnit ≤ 2 ^ u := by
  rw [greatestUnit, ← zpow_one_add₀ two_ne_zero]
  exact zpow_le_zpow_right₀ one_le_two (by omega)

/-- The least magnitude that overflows: half a unit beyond the greatest finite value. -/
theorem overflow_bound_eq : (2 : ℚ) ^ 1024 - 2 ^ 970 = (2 ^ 53 - 1 / 2) * greatestUnit := by
  have h971 : greatestUnit = 2 ^ 970 * 2 := pow_succ (2 : ℚ) 970
  have h1024 : (2 : ℚ) ^ 1024 = 2 ^ 970 * 2 ^ 54 := pow_add 2 970 54
  rw [h971, h1024]
  generalize (2 : ℚ) ^ 970 = c
  ring

/-- The exponent of n·2^u, with 2^53 renormalised, is one of binary64. -/
def ExponentFits (n : Nat) (u : ℤ) : Prop := u < 971 ∨ (u = 971 ∧ n ≠ 2 ^ 53)

/-- Exactly the magnitudes below the bound are rounded to a mantissa and an exponent of binary64. -/
theorem InUnit.lt_overflow_bound_iff {t : ℚ} {u : ℤ} {n : Nat} (h : InUnit t u) (hn : NearestEven t n) :
    t * 2 ^ u < 2 ^ 1024 - 2 ^ 970 ↔ ExponentFits n u := by
  rw [overflow_bound_eq, ExponentFits]
  have hpos := greatestUnit_pos
  have hnear : n - 1 / 2 ≤ t := by
    have := (abs_le.1 hn.1).1
    push_cast at this; linarith
  rcases lt_trichotomy u 971 with hu | rfl | hu
  · refine iff_of_true ?_ (.inl hu)
    calc t * 2 ^ u < 2 ^ 53 * 2 ^ u := by gcongr; exact h.lt
      _ = 2 ^ 52 * (2 * 2 ^ u) := by ring
      _ ≤ 2 ^ 52 * greatestUnit := by gcongr; exact two_mul_zpow_le_greatestUnit hu
      _ < (2 ^ 53 - 1 / 2) * greatestUnit := by gcongr; norm_num
  · rw [← greatestUnit, mul_lt_mul_iff_left₀ hpos]
    simp only [lt_irrefl, true_and, false_or]
    constructor
    · rintro hlt rfl
      push_cast at hnear; linarith
    · intro hne
      by_contra hge
      have h53 : (2 ^ 53 : ℤ) ≤ n := hn.ge_of_half_le (by norm_num) (by push_cast; linarith)
      have hle : (n : ℚ) < 2 ^ 53 + 1 := by linarith [h.lt]
      have : n < 2 ^ 53 + 1 := by exact_mod_cast hle
      omega
  · refine iff_of_false (not_lt.2 ?_) (by omega)
    have h52 : 2 ^ 52 ≤ t := h.normal.resolve_right (by omega)
    calc (2 ^ 53 - 1 / 2) * greatestUnit ≤ 2 ^ 52 * (2 * greatestUnit) := by linarith
      _ ≤ t * 2 ^ u := by gcongr; exact two_mul_greatestUnit_le_zpow hu

/-- `fltFinish` answers n·2^u, the even mantissa 2^52 standing for 2^53, or an infinity for an exponent too great. -/
theorem fltFinish_cases (neg : Bool) (n : Nat) (u : ℤ) :
    (ExponentFits n u → ∃ m e, fltFinish neg n u = .fin neg m e ∧ finValue neg m e = signum neg * (n * 2 ^ u)
      ∧ (n % 2 = 0 → m % 2 = 0))
    ∧ (¬ExponentFits n u → fltFinish neg n u = .inf neg) := by
  unfold ExponentFits
  by_cases h53 : n = 2 ^ 53
  · subst h53
    simp only [fltFinish, fltMaxExp, if_true]
    refine ⟨fun h => ⟨2 ^ 52, u + 1, if_neg (by omega), ?_, fun _ => by norm_num⟩, fun h => if_pos (by omega)⟩
    rw [finValue_eq, zpow_add_one₀ two_ne_zero]; push_cast; ring
  · simp only [fltFinish, fltMaxExp, h53, if_false]
    exact ⟨fun h => ⟨n, u, if_neg (by omega), finValue_eq .., id⟩, fun h => if_pos (by omega)⟩

/-- From a magnitude rounded in its unit to the rounded value. -/
theorem isRounded_fltFinish {neg : Bool} {q t : ℚ} {u : ℤ} {n : Nat} (hq : |q| = t * 2 ^ u) (hsign : SignOf neg q)
    (ht : InUnit t u) (hn : NearestEven t n) (hcan : (fltFinish neg n u).Canonical) :
    IsRounded q (fltFinish neg n u) := by
  obtain ⟨hfin, hinf⟩ := fltFinish_cases neg n u
  constructor
  · intro hbig
    have hq0 : q ≠ 0 := by
      rintro rfl
      rw [abs_zero, overflow_bound_eq] at hbig
      linarith [greatestUnit_pos]
    rw [hsign.decide_lt_zero hq0]
    rw [hq] at hbig
    exact hinf fun h => absurd ((ht.lt_overflow_bound_iff hn).2 h) (not_lt.2 hbig)
  · intro hsmall
    rw [hq] at hsmall
    obtain ⟨m, e, hz, hval, heven⟩ := hfin ((ht.lt_overflow_bound_iff hn).1 hsmall)
    refine ⟨neg, m, e, hz, isBinary64_of_canonical hcan, hsign.1, hsign.2, fun neg' m' e' hb => ?_⟩
    have hflip : ∀ y, |q - signum neg * y| = |t * 2 ^ u - y| := fun y => by
      rw [hsign.eq_signum_mul, ← mul_sub, abs_mul, abs_signum, one_mul, hq]
    have hback : finValue neg' m' e' = signum neg * finValue (neg != neg') m' e' := by
      rw [← signum_mul_finValue, ← mul_assoc, signum_mul_self, one_mul]
    rw [hval, hback, hflip, hflip]
    obtain ⟨hle, htie⟩ := ht.closest hn (neg := neg != neg') (m := m') (e := e') hb
    refine ⟨hle, fun heq => ?_⟩
    rcases htie heq with h | h
    · exact .inl (by rw [h])
    · exact .inr (heven h)

theorem isRounded_zero (neg : Bool) : IsRounded 0 (Flt.zero neg) := by
  have h0 : InUnit 0 (-1074) := ⟨le_rfl, by norm_num, le_rfl, .inr rfl⟩
  have hz : fltFinish neg 0 (-1074) = Flt.zero neg := by simp [fltFinish, Flt.zero, fltMaxExp, fltMinExp]
  rw [← hz]
  exact isRounded_fltFinish (by simp) ⟨fun h => absurd h (lt_irrefl 0), fun h => absurd h (lt_irrefl 0)⟩ h0
    (by exact_mod_cast NearestEven.self 0) (hz ▸ canonical_zero neg)

/-- `fltRound` takes the magnitude of a number with L + 1 bits in its unit. -/
theorem inUnit_of_bits {x : ℚ} {L : Nat} {e u : ℤ} (hlo : 2 ^ L ≤ x) (hhi : x < 2 ^ (L + 1))
    (hu : max (e + ((L + 1 : Nat) : ℤ) - 53) fltMinExp = u) : InUnit (x * 2 ^ e / 2 ^ u) u := by
  have hpos : (0 : ℚ) < 2 ^ u := by positivity
  have hadd : ∀ (k : ℕ) (a : ℤ), (2 : ℚ) ^ k * 2 ^ a = 2 ^ (k + a) := fun k a => by
    rw [zpow_add₀ two_ne_zero, zpow_natCast]
  have hx : 0 ≤ x := le_trans (by positivity) hlo
  rw [fltMinExp] at hu
  refine ⟨by positivity, ?_, by omega, ?_⟩
  · rw [div_lt_iff₀ hpos]
    calc x * 2 ^ e < 2 ^ (L + 1) * 2 ^ e := by gcongr
      _ = 2 ^ (((L + 1 : ℕ) : ℤ) + e) := hadd ..
      _ ≤ 2 ^ (((53 : ℕ) : ℤ) + u) := zpow_le_zpow_right₀ one_le_two (by omega)
      _ = 2 ^ 53 * 2 ^ u := (hadd ..).symm
  · rcases (by omega : u = e + L - 52 ∨ u = -1074) with hnorm | hleast
    · left
      rw [le_div_iff₀ hpos]
      calc (2 ^ 52 * 2 ^ u : ℚ) = 2 ^ (((52 : ℕ) : ℤ) + u) := hadd ..
        _ = 2 ^ ((L : ℤ) + e) := by congr 1; omega
        _ = 2 ^ L * 2 ^ e := (hadd ..).symm
        _ ≤ x * 2 ^ e := by gcongr
    · exact .inr hleast

/-- `fltRound` rounds the magnitude x·2^e, for x = m, or for m < x < m + 1 when `sticky` and m has at least 55 bits. -/
theorem isRounded_fltRound {neg : Bool} {m : Nat} {e : ℤ} {sticky : Bool} {q x : ℚ} (hq : |q| = x * 2 ^ e)
    (hsign : SignOf neg q) (hlo : m ≤ x) (hhi : x < m + 1) (hexact : sticky = false → x = m)
    (hsticky : sticky = true → m < x ∧ 2 ^ 54 ≤ m) : IsRounded q (fltRound neg m e sticky) := by
  by_cases hm : m = 0
  · subst hm
    have hx : x = 0 := by
      cases sticky with
      | false => exact_mod_cast hexact rfl
      | true => exact absurd (hsticky rfl).2 (by norm_num)
    have hq0 : q = 0 := by rw [hx, zero_mul] at hq; exact abs_eq_zero.1 hq
    rw [hq0, fltRound, if_pos rfl]
    exact isRounded_zero neg
  have hcan := canonical_fltRound neg m e sticky
  have hLlo : 2 ^ Nat.log2 m ≤ m := Nat.log2_self_le hm
  have hLhi : m + 1 ≤ 2 ^ (Nat.log2 m + 1) := Nat.lt_log2_self
  rw [fltRound, if_neg hm] at hcan ⊢
  generalize Nat.log2 m = L at hLlo hLhi hcan ⊢
  obtain ⟨u, hu⟩ : ∃ u, max (e + ((L + 1 : Nat) : ℤ) - 53) fltMinExp = u := ⟨_, rfl⟩
  simp only [hu] at hcan ⊢
  have hpos : (0 : ℚ) < 2 ^ u := by positivity
  have hunit : InUnit (x * 2 ^ e / 2 ^ u) u :=
    inUnit_of_bits (le_trans (by exact_mod_cast hLlo) hlo) (lt_of_lt_of_le hhi (by exact_mod_cast hLhi)) hu
  have hqt : |q| = x * 2 ^ e / 2 ^ u * 2 ^ u := by rw [hq, div_mul_cancel₀ _ hpos.ne']
  by_cases hue : u ≤ e
  · have hx : x = m := hexact <| Bool.eq_false_iff.2 fun h => by
      have : 54 < L + 1 := (Nat.pow_lt_pow_iff_right one_lt_two).1 (lt_of_le_of_lt (hsticky h).2 hLhi)
      omega
    rw [if_pos hue] at hcan ⊢
    refine isRounded_fltFinish hqt hsign hunit ?_ hcan
    obtain ⟨d, rfl⟩ : ∃ d : ℕ, e = u + d := ⟨(e - u).toNat, by omega⟩
    have hd : (u + d - u).toNat = d := by omega
    have htd : x * 2 ^ (u + d) / 2 ^ u = (((m <<< d : ℕ) : ℤ) : ℚ) := by
      rw [hx, zpow_add₀ two_ne_zero, zpow_natCast, Nat.shiftLeft_eq, mul_left_comm, mul_div_cancel_left₀ _ hpos.ne']
      push_cast; rfl
    rw [hd, htd]
    exact NearestEven.self _
  · rw [if_neg hue] at hcan ⊢
    refine isRounded_fltFinish hqt hsign hunit ?_ hcan
    obtain ⟨k, rfl⟩ : ∃ k : ℕ, u = e + k := ⟨(u - e).toNat, by omega⟩
    have hk : (e + k - e).toNat = k := by omega
    have htk : x * 2 ^ e / 2 ^ (e + k) = x / 2 ^ k := by
      rw [zpow_add₀ two_ne_zero, zpow_natCast, mul_comm x, mul_div_mul_left _ _ (by positivity)]
    rw [hk, htk]
    exact nearestEven_roundShift (by omega) hlo hhi hexact fun h => (hsticky h).1

/-- Rounding of an exact magnitude. -/
theorem isRounded_fltRound_exact {neg : Bool} {m : Nat} {e : ℤ} {q : ℚ} (hq : q = signum neg * (m * 2 ^ e)) :
    IsRounded q (fltRound neg m e false) := by
  have hr : (0 : ℚ) ≤ m * 2 ^ e := by positivity
  refine isRounded_fltRound (x := m) ?_ (hq ▸ signOf_signum_mul neg hr) le_rfl (lt_add_one _) (fun _ => rfl) (by simp)
  rw [hq, abs_mul, abs_signum, one_mul, abs_of_nonneg hr]

/-- Rounding of a whole number of units. -/
theorem isRounded_fltRound_int (v e : ℤ) : IsRounded (v * 2 ^ e) (fltRound (decide (v < 0)) v.natAbs e false) := by
  refine isRounded_fltRound_exact ?_
  rw [← mul_assoc]
  congr 1
  rw [Nat.cast_natAbs, signum]
  by_cases h : v < 0
  · simp [h, abs_of_neg h]
  · simp [h, abs_of_nonneg (not_lt.1 h)]

/-! ## The operations on finite values -/

theorem isRounded_fltOfInt (v : ℤ) : IsRounded v (fltOfInt v) := by
  simpa [fltOfInt] using isRounded_fltRound_int v 0

theorem scaledMant_mul_zpow {neg : Bool} {m : Nat} {e unit : ℤ} (h : unit ≤ e) :
    (scaledMant neg m e unit : ℚ) * 2 ^ unit = finValue neg m e := by
  obtain ⟨d, rfl⟩ : ∃ d : ℕ, e = unit + d := ⟨(e - unit).toNat, by omega⟩
  have hd : (unit + d - unit).toNat = d := by omega
  rw [scaledMant, finValue, hd, zpow_add₀ two_ne_zero, zpow_natCast, Nat.shiftLeft_eq]
  cases neg <;> push_cast <;> simp <;> ring

section Finite
variable (s t : Bool) (m k : Nat) (e f : ℤ)

theorem isRounded_fadd : IsRounded (finValue s m e + finValue t k f) (fadd (.fin s m e) (.fin t k f)) := by
  rw [← scaledMant_mul_zpow (min_le_left e f), ← scaledMant_mul_zpow (min_le_right e f), ← add_mul,
    ← Int.cast_add]
  simp only [fadd]
  by_cases hsum : scaledMant s m e (min e f) + scaledMant t k f (min e f) = 0
  · rw [if_pos hsum, hsum, Int.cast_zero, zero_mul]
    exact isRounded_zero _
  · rw [if_neg hsum]
    exact isRounded_fltRound_int _ _

theorem isRounded_fsub : IsRounded (finValue s m e - finValue t k f) (fsub (.fin s m e) (.fin t k f)) := by
  rw [sub_eq_add_neg, ← finValue_not]
  exact isRounded_fadd s (!t) m k e f

theorem isRounded_fmul : IsRounded (finValue s m e * finValue t k f) (fmul (.fin s m e) (.fin t k f)) := by
  refine isRounded_fltRound_exact ?_
  rw [finValue_eq, finValue_eq, signum_bne, zpow_add₀ two_ne_zero]
  push_cast; ring

/-- The 128 bits that division adds leave at least 55 of them in an inexact quotient. -/
theorem quotient_bits {m k num : Nat} (hk : k < 2 ^ 53) (h0 : k ≠ 0) (hnum : num = m <<< 128) (hrem : num % k ≠ 0) :
    2 ^ 54 ≤ num / k := by
  rw [Nat.shiftLeft_eq] at hnum
  have hm : 1 ≤ m := Nat.one_le_iff_ne_zero.2 fun h => hrem (by rw [hnum, h, Nat.zero_mul, Nat.zero_mod])
  rw [Nat.le_div_iff_mul_le (Nat.pos_of_ne_zero h0), hnum]
  omega

theorem isRounded_fdiv (hk : k < 2 ^ 53) (h0 : k ≠ 0) :
    IsRounded (finValue s m e / finValue t k f) (fdiv (.fin s m e) (.fin t k f)) := by
  simp only [fdiv, if_neg h0]
  obtain ⟨num, hnum⟩ : ∃ num, m <<< 128 = num := ⟨_, rfl⟩
  rw [hnum]
  have hkQ : (0 : ℚ) < k := by exact_mod_cast Nat.pos_of_ne_zero h0
  have hdiv : (num : ℚ) = k * (num / k : ℕ) + (num % k : ℕ) := by exact_mod_cast (Nat.div_add_mod num k).symm
  have hx : (num : ℚ) / k = (num / k : ℕ) + (num % k : ℕ) / k := by
    rw [hdiv, add_div, mul_div_cancel_left₀ _ hkQ.ne']
  have hrem1 : ((num % k : ℕ) : ℚ) / k < 1 := (div_lt_one hkQ).2 (by exact_mod_cast Nat.mod_lt num (by omega))
  have hq : finValue s m e / finValue t k f = signum (s != t) * (num / k * 2 ^ (e - f - 128)) := by
    have hnumQ : (num : ℚ) = m * 2 ^ 128 := by rw [← hnum, Nat.shiftLeft_eq]; push_cast; rfl
    rw [finValue_eq, finValue_eq, signum_bne, mul_div_mul_comm, div_eq_mul_inv (signum s), inv_signum, hnumQ,
      zpow_sub₀ two_ne_zero, zpow_sub₀ two_ne_zero, show (2 : ℚ) ^ (128 : ℤ) = 2 ^ 128 from rfl]
    have hc : (2 : ℚ) ^ 128 ≠ 0 := by positivity
    generalize (2 : ℚ) ^ 128 = c at hc ⊢
    field_simp
  have hnonneg : (0 : ℚ) ≤ num / k * 2 ^ (e - f - 128) := by positivity
  refine isRounded_fltRound (x := num / k) ?_ (hq ▸ signOf_signum_mul _ hnonneg) ?_ ?_ (fun h => ?_) fun h => ?_
  · rw [hq, abs_mul, abs_signum, one_mul, abs_of_nonneg hnonneg]
  · rw [hx]; exact le_add_of_nonneg_right (div_nonneg (Nat.cast_nonneg _) hkQ.le)
  · rw [hx]; gcongr
  · rw [hx, of_not_not (of_decide_eq_false h)]; simp
  · have hrem := of_decide_eq_true h
    refine ⟨?_, quotient_bits hk h0 hnum.symm hrem⟩
    have : (0 : ℚ) < (num % k : ℕ) := by exact_mod_cast Nat.pos_of_ne_zero hrem
    rw [hx]; exact lt_add_of_pos_right _ (div_pos this hkQ)

theorem finValue_lt_iff :
    finValue s m e < finValue t k f ↔ scaledMant s m e (min e f) < scaledMant t k f (min e f) := by
  rw [← scaledMant_mul_zpow (min_le_left e f), ← scaledMant_mul_zpow (min_le_right e f),
    mul_lt_mul_iff_left₀ (by positivity), Int.cast_lt]

theorem finValue_inj :
    finValue s m e = finValue t k f ↔ scaledMant s m e (min e f) = scaledMant t k f (min e f) := by
  rw [← scaledMant_mul_zpow (min_le_left e f), ← scaledMant_mul_zpow (min_le_right e f),
    mul_left_inj' (by positivity), Int.cast_inj]

theorem flt_fin_iff : flt (.fin s m e) (.fin t k f) = true ↔ finValue s m e < finValue t k f := by
  rw [finValue_lt_iff]; simp only [flt, decide_eq_true_eq]

theorem feq_fin_iff : feq (.fin s m e) (.fin t k f) = true ↔ finValue s m e = finValue t k f := by
  rw [finValue_inj]; simp only [feq, decide_eq_true_eq]

theorem fle_fin_iff : fle (.fin s m e) (.fin t k f) = true ↔ finValue s m e ≤ finValue t k f := by
  rw [fle, Bool.or_eq_true, flt_fin_iff, feq_fin_iff, le_iff_lt_or_eq]

/-- `rne` answers the nearest integer. -/
theorem nearestEven_rne : NearestEven (finValue s m e) (rne (.fin s m e)) := by
  have hmag : NearestEven (m * 2 ^ e)
      ((if 0 ≤ e then m <<< e.toNat else roundShift m (-e).toNat false : ℕ) : ℤ) := by
    by_cases he : 0 ≤ e
    · obtain ⟨d, rfl⟩ := Int.eq_ofNat_of_zero_le he
      rw [if_pos he, Int.toNat_natCast, Nat.shiftLeft_eq, zpow_natCast]
      exact_mod_cast NearestEven.self _
    · obtain ⟨d, rfl⟩ : ∃ d : ℕ, e = -d := ⟨(-e).toNat, by omega⟩
      rw [if_neg he, neg_neg, Int.toNat_natCast, zpow_neg, zpow_natCast, ← div_eq_mul_inv]
      exact nearestEven_roundShift (by omega) le_rfl (lt_add_one _) (fun _ => rfl) (by simp)
  rw [finValue_eq, signum]
  cases s
  · simpa [rne] using hmag
  · simpa [rne] using hmag.neg

end Finite

/-! ## The special values -/

/-- An operation or comparison answers `r` when an operand is a NaN. -/
def NanAnswers {α : Type} (op : Flt → Flt → α) (r : α) : Prop := ∀ x, op .nan x = r ∧ op x .nan = r

theorem fadd_nan : NanAnswers fadd .nan := fun x => ⟨rfl, by cases x <;> rfl⟩
theorem fsub_nan : NanAnswers fsub .nan := fun x => ⟨rfl, by cases x <;> rfl⟩
theorem fmul_nan : NanAnswers fmul .nan := fun x => ⟨rfl, by cases x <;> rfl⟩
theorem fdiv_nan : NanAnswers fdiv .nan := fun x => ⟨rfl, by cases x <;> rfl⟩
theorem flt_nan : NanAnswers flt false := fun x => ⟨rfl, by cases x <;> rfl⟩
theorem feq_nan : NanAnswers feq false := fun x => ⟨rfl, by cases x <;> rfl⟩

theorem fle_nan : NanAnswers fle false := fun x => by
  rw [fle, fle, (flt_nan x).1, (flt_nan x).2, (feq_nan x).1, (feq_nan x).2]
  exact ⟨rfl, rfl⟩

theorem fsub_inf_inf (s t : Bool) : fsub (.inf s) (.inf t) = if s = t then .nan else .inf s := by
  cases s <;> cases t <;> rfl

theorem fmul_fin_inf (s t : Bool) (m : Nat) (e : ℤ) : fmul (.fin t m e) (.inf s) = fmul (.inf s) (.fin t m e) := by
  simp only [fmul, bne_comm]

theorem fdiv_zero (s t : Bool) (m k : Nat) (e f : ℤ) (h : finValue t k f = 0) :
    fdiv (.fin s m e) (.fin t k f) = if finValue s m e = 0 then .nan else .inf (s != t) := by
  rw [finValue_eq_zero_iff] at h
  simp only [fdiv, h, if_true, finValue_eq_zero_iff]

/-- The value of a pattern, with the fields of `20_memory.md` R66. -/
theorem fltOfBits_eq (b : Word64) (sign : Bool) (exponent fraction : Nat) (hs : decide (b.toNat / 2 ^ 63 = 1) = sign)
    (he : b.toNat / 2 ^ 52 % 2 ^ 11 = exponent) (hf : b.toNat % 2 ^ 52 = fraction) :
    fltOfBits b =
      if exponent = 2047 then (if fraction = 0 then .inf sign else .nan)
      else if exponent = 0 then .fin sign fraction (-1074)
      else .fin sign (2 ^ 52 + fraction) ((exponent : ℤ) - 1075) := by
  subst hs he hf
  rw [fltOfBits, Nat.add_comm]
  rfl

end Sys2Proof.Proofs
end

section
/-!
The statement on the real arithmetic.
-/
namespace Sys2Proof.Proofs
open Sys2Proof.Machine

/-- Settles O31: every operation is `fltRound` of its exact magnitude; the equations of the infinities are the cases of
the definitions. -/
theorem reals_are_rounded_once : Obligations.reals_are_rounded_once := by
  refine ⟨fun s t m k e f _ hy => ?_, isRounded_fltOfInt, fun x => ?_, fun s t m e => ?_, fun b => ?_⟩
  · exact ⟨isRounded_fadd .., isRounded_fsub .., isRounded_fmul ..,
      fun hb => isRounded_fdiv s t m k e f hy.1 fun hk => hb ((finValue_eq_zero_iff ..).2 hk), fdiv_zero s t m k e f,
      flt_fin_iff .., feq_fin_iff .., fle_fin_iff .., rfl, finValue_false_eq_abs .., (nearestEven_rne s m e).closest⟩
  · exact ⟨(fadd_nan x).1, (fadd_nan x).2, (fsub_nan x).1, (fsub_nan x).2, (fmul_nan x).1, (fmul_nan x).2,
      (fdiv_nan x).1, (fdiv_nan x).2, (flt_nan x).1, (flt_nan x).2, (feq_nan x).1, (feq_nan x).2, (fle_nan x).1,
      (fle_nan x).2⟩
  · exact ⟨rfl, rfl, rfl, rfl, rfl, fsub_inf_inf s t, rfl, fmul_fin_inf s t m e, rfl, rfl, ⟨t != s, rfl⟩, rfl, rfl,
      rfl, rfl, rfl, rfl, rfl, rfl, rfl, rfl, rfl⟩
  · exact fltOfBits_eq b _ _ _ rfl rfl rfl

end Sys2Proof.Proofs
end

section
/-!
The register port (`10_state.md` R24, R47, R55): what every number reads, and what a write changes of that.
-/
namespace Sys2Proof.Proofs
open Sys2Proof.Machine

/-! ## Reads -/

theorem fsm_code_lt (f : Fsm) : f.code < 8 := by cases f <;> decide

theorem err_code_lt (e : ErrCode) : e.code < 19 := by cases e <;> decide

/-- STATUS as a number: its fields do not overlap and fit 32 bits (`10_state.md` R23). -/
theorem statusWord_toNat (r : Regs) : (statusWord r).toNat =
    (if r.cfgOk then 1 else 0) + (if r.bwOk then 2 else 0) + (if r.frameOk then 4 else 0) + (if r.retried then 8 else 0)
      + 16 * r.fsm.code + 256 * r.subcnt.toNat + 65536 * r.err.code + (if r.errSticky then 16777216 else 0) := by
  have hflag : ∀ (b : Bool) (k : Nat), (if b then k else 0) = b.toNat * k := by
    intro b k; cases b <;> simp
  have hle : ∀ b : Bool, b.toNat ≤ 1 := Bool.toNat_le
  have hcfg := hle r.cfgOk
  have hbw := hle r.bwOk
  have hframe := hle r.frameOk
  have hret := hle r.retried
  have hsticky := hle r.errSticky
  have hfsm := fsm_code_lt r.fsm
  have herr := err_code_lt r.err
  have hsub := r.subcnt.isLt
  simp only [hflag, statusWord, BitVec.toNat_ofNat]
  omega

/-- Settles O8: number by number; a narrower register zero-extends. -/
theorem register_map_reads : Obligations.register_map_reads := by
  intro r number
  unfold readRegister
  split
  case h_2 =>
    rw [BitVec.toNat_setWidth_of_le (by decide), statusWord_toNat, ← fsmNumber_eq, ← errNumber_eq]
    exact (if_pos rfl).symm.trans (if_neg (by decide : ¬(1 : Nat) = 0x00)).symm
  case h_34 => simp_all
  all_goals rfl

/-! ## Writes -/

/-- A read outside the operand registers, 0x20 to 0x27, does not depend on them. -/
theorem readRegister_with_ops (r : Regs) (ops : OpRegs) {read : Nat} (h : ¬(0x20 ≤ read ∧ read ≤ 0x27)) :
    readRegister { r with ops := ops } read = readRegister r read := by
  unfold readRegister
  split <;> first | exact absurd (by decide) h | rfl

/-- A read outside the configuration registers, 0x10 to 0x1B, does not depend on them. -/
theorem readRegister_with_cfg (r : Regs) (cfg : Cfg) {read : Nat} (h : ¬(0x10 ≤ read ∧ read ≤ 0x1B)) :
    readRegister { r with cfg := cfg } read = readRegister r read := by
  unfold readRegister
  split <;> first | exact absurd (by decide) h | rfl

theorem readRegister_with_n (r : Regs) (n : Word32) {read : Nat} (h : read ≠ 0x03) :
    readRegister { r with n := n } read = readRegister r read := by
  unfold readRegister
  split <;> first | exact absurd rfl h | rfl

theorem readRegister_with_outCap (r : Regs) (outCap : Word32) {read : Nat} (h : read ≠ 0x04) :
    readRegister { r with outCap := outCap } read = readRegister r read := by
  unfold readRegister
  split <;> first | exact absurd rfl h | rfl

/-- A number that is no operand register's leaves a0 to a7. -/
theorem writeOperand_of_not {number : Nat} (o : OpRegs) (v : Word64) (h : ¬(0x20 ≤ number ∧ number ≤ 0x27)) :
    writeOperand o number v = o := by
  unfold writeOperand
  split <;> first | exact absurd (by decide) h | rfl

/-- A number that is no configuration register's leaves the CFG_* registers. -/
theorem writeCfg_of_not {number : Nat} (c : Cfg) (v : Word32) (h : ¬(0x10 ≤ number ∧ number ≤ 0x1B)) :
    writeCfg c number v = c := by
  unfold writeCfg
  split <;> first | exact absurd (by decide) h | rfl

/-- After a write to an operand register it reads the data, and the other numbers read as before. -/
theorem readRegister_writeOperand (r : Regs) {number : Nat} (v : Word64) (h : 0x20 ≤ number ∧ number ≤ 0x27)
    (read : Nat) : readRegister { r with ops := writeOperand r.ops number v } read
      = if read = number then v else readRegister r read := by
  by_cases hread : 0x20 ≤ read ∧ read ≤ 0x27
  · obtain ⟨hlo, hhi⟩ := h
    obtain ⟨hlo', hhi'⟩ := hread
    interval_cases number <;> interval_cases read <;> rfl
  · rw [readRegister_with_ops r _ hread, if_neg (fun he => hread (by rwa [he]))]

/-- After a write to a configuration register it reads the data, and the other numbers read as before. -/
theorem readRegister_writeCfg (r : Regs) {number : Nat} (v : Word32) (h : 0x10 ≤ number ∧ number ≤ 0x1B)
    (read : Nat) : readRegister { r with cfg := writeCfg r.cfg number v } read
      = if read = number then v.setWidth 64 else readRegister r read := by
  by_cases hread : 0x10 ≤ read ∧ read ≤ 0x1B
  · obtain ⟨hlo, hhi⟩ := h
    obtain ⟨hlo', hhi'⟩ := hread
    interval_cases number <;> interval_cases read <;> rfl
  · rw [readRegister_with_cfg r _ hread, if_neg (fun he => hread (by rwa [he]))]

/-- The low 32 bits that a register keeps, as they are read. -/
theorem toNat_low_bits (data : Word64) : ((data.setWidth 32).setWidth 64).toNat = data.toNat % 2 ^ 32 := by
  rw [BitVec.toNat_setWidth, BitVec.toNat_setWidth]
  omega

/-- What a write leaves of a register file: one register, or none. -/
theorem writeRegister_cases (r : Regs) (number : Nat) (v : Word64) :
    (number = 0x03 ∧ writeRegister r number v = { r with n := v.setWidth 32 })
      ∨ (number = 0x04 ∧ writeRegister r number v = { r with outCap := v.setWidth 32 })
      ∨ ((0x10 ≤ number ∧ number ≤ 0x1B) ∧ r.cfgOk = false
          ∧ writeRegister r number v = { r with cfg := writeCfg r.cfg number (v.setWidth 32) })
      ∨ ((0x20 ≤ number ∧ number ≤ 0x27) ∧ writeRegister r number v = { r with ops := writeOperand r.ops number v })
      ∨ (number ≠ 0x03 ∧ number ≠ 0x04 ∧ ¬(0x10 ≤ number ∧ number ≤ 0x1B ∧ r.cfgOk = false)
          ∧ ¬(0x20 ≤ number ∧ number ≤ 0x27) ∧ writeRegister r number v = r) := by
  unfold writeRegister
  by_cases hn : number = 0x03
  · exact .inl ⟨hn, by rw [if_pos hn]⟩
  by_cases hcap : number = 0x04
  · exact .inr (.inl ⟨hcap, by rw [if_neg hn, if_pos hcap]⟩)
  rw [if_neg hn, if_neg hcap]
  by_cases hop : 0x20 ≤ number ∧ number ≤ 0x27
  · refine .inr (.inr (.inr (.inl ⟨hop, ?_⟩)))
    rw [writeCfg_of_not r.cfg _ (by omega), ite_self]
  rw [writeOperand_of_not r.ops v hop]
  by_cases hok : r.cfgOk = true
  · exact .inr (.inr (.inr (.inr ⟨hn, hcap, fun h => absurd (hok.symm.trans h.2.2) (by decide), hop, if_pos hok⟩)))
  by_cases hcfg : 0x10 ≤ number ∧ number ≤ 0x1B
  · exact .inr (.inr (.inl ⟨hcfg, Bool.eq_false_iff.2 hok, if_neg hok⟩))
  · refine .inr (.inr (.inr (.inr ⟨hn, hcap, fun h => hcfg ⟨h.1, h.2.1⟩, hop, ?_⟩)))
    rw [writeCfg_of_not r.cfg _ hcfg, ite_self]

/-- Settles O9: the register that is written reads the data, and every other one is read from registers that the write
left. -/
theorem register_port_writes : Obligations.register_port_writes := by
  intro r number read data
  rcases writeRegister_cases r number data with
    ⟨rfl, he⟩ | ⟨rfl, he⟩ | ⟨hcfg, hok, he⟩ | ⟨hop, he⟩ | ⟨hn, hcap, hcfg, hop, he⟩
  · rw [he]
    by_cases h : read = 0x03
    · rw [if_pos ⟨h, .inl rfl⟩, h]
      exact toNat_low_bits data
    · rw [if_neg (fun hh => h hh.1), if_neg (fun hh => h hh.1), readRegister_with_n r _ h]
  · rw [he]
    by_cases h : read = 0x04
    · rw [if_pos ⟨h, .inr (.inl rfl)⟩, h]
      exact toNat_low_bits data
    · rw [if_neg (fun hh => h hh.1), if_neg (fun hh => h hh.1), readRegister_with_outCap r _ h]
  · rw [he, readRegister_writeCfg r _ hcfg read]
    by_cases h : read = number
    · rw [if_pos h, if_pos ⟨h, .inr (.inr ⟨hcfg.1, hcfg.2, hok⟩)⟩]
      exact toNat_low_bits data
    · rw [if_neg h, if_neg (fun hh => h hh.1), if_neg (fun hh => h hh.1)]
  · have hother : ¬(number = 0x03 ∨ number = 0x04 ∨ (0x10 ≤ number ∧ number ≤ 0x1B ∧ r.cfgOk = false)) := by
      rintro (h | h | ⟨-, h, -⟩) <;> omega
    rw [he, readRegister_writeOperand r data hop read, if_neg (c := _ ∧ _) (fun hh => hother hh.2)]
    by_cases h : read = number
    · rw [if_pos h, if_pos ⟨h, hop⟩]
    · rw [if_neg h, if_neg (fun hh => h hh.1)]
  · rw [he, if_neg (fun hh => hh.2.elim hn (fun h => h.elim hcap hcfg)), if_neg (fun hh => hop hh.2)]

end Sys2Proof.Proofs
end

section
/-!
Effects on memory alone: what the commands that compute on samples, working stores and records leave of the registers and
of the host's accesses (everything).
-/
namespace Sys2Proof.Proofs
open Sys2Proof.Machine

/-- Registers, the host's accesses and the read data are as before: only memory and the draw counters may differ. -/
structure MemOnly (s t : State) : Prop where
  regs : t.regs = s.regs
  host : t.host = s.host
  readData : t.readData = s.readData

theorem MemOnly.refl (s : State) : MemOnly s s := ⟨rfl, rfl, rfl⟩

theorem MemOnly.trans {s t u : State} (h : MemOnly s t) (h' : MemOnly t u) : MemOnly s u :=
  ⟨h'.regs.trans h.regs, h'.host.trans h.host, h'.readData.trans h.readData⟩

theorem MemOnly.foldl {α : Type} {f : State → α → State} (h : ∀ s x, MemOnly s (f s x)) (l : List α) (s : State) :
    MemOnly s (l.foldl f s) := by
  induction l generalizing s with
  | nil => exact .refl s
  | cons x t ih => exact (h s x).trans (ih (f s x))

theorem MemOnly.foldr {α : Type} {f : α → State → State} (h : ∀ x s, MemOnly s (f x s)) (l : List α) (s : State) :
    MemOnly s (l.foldr f s) := by
  induction l with
  | nil => exact .refl s
  | cons x t ih => exact ih.trans (h x _)

/-- The state that an effect leaves, whether it completes or fails. -/
def leftBy : Effect → State
  | .ok t => t
  | .error (_, t) => t

/-! ## Storing -/

section
variable {s t : State} (h : MemOnly s t)
include h

theorem MemOnly.memWrite (sp : Space) (lo : Nat) (vals : List Int) : MemOnly s (t.memWrite sp lo vals) :=
  h.trans ⟨rfl, rfl, rfl⟩

theorem MemOnly.setSub (ch f : Nat) (vals : List Int) : MemOnly s (t.setSub ch f vals) := h.memWrite ..

theorem MemOnly.setResiduals (ch : Nat) (vals : List Int) : MemOnly s (t.setResiduals ch vals) := h.memWrite ..

theorem MemOnly.storeReals (sp : Space) (lo : Nat) (vals : List Flt) : MemOnly s (t.storeReals sp lo vals) :=
  h.trans ⟨rfl, rfl, rfl⟩

theorem MemOnly.storeOrder (o : Nat) (row : List Flt) (k : Flt) : MemOnly s (storeOrder t o row k) :=
  (h.storeReals ..).storeReals ..

theorem MemOnly.forget (rs : List (Space × Nat × Nat)) : MemOnly s (t.forget rs) := h.trans ⟨rfl, rfl, rfl⟩

theorem MemOnly.storeHead (ch : Nat) (type : Int) (order : Nat) (bits : Int) :
    MemOnly s (storeHead t ch type order bits) :=
  ((h.setSub ch 0 _).setSub ch 1 _).setSub ch 6 _

theorem MemOnly.storePlan (ch : Nat) (p : Plan) : MemOnly s (storePlan t ch p) := (h.setSub ch 5 _).setSub ch 256 _

theorem MemOnly.storeQuant (o : Nat) (q : List Int) (sh : Nat) : MemOnly s (storeQuant t o q sh) :=
  (h.memWrite .qc _ q).memWrite .qsh _ _

end

theorem memOnly_storeSums (s : State) (r : List Int) (n order lo hi : Nat) :
    MemOnly s (storeSums s r n order lo hi) :=
  MemOnly.foldl (fun s _ => (MemOnly.refl s).memWrite ..) (upto lo hi) s

/-! ## The coefficient fit -/

theorem memOnly_welchEffect (s : State) (ch : Nat) : MemOnly s (welchEffect s ch) := (MemOnly.refl s).storeReals ..

theorem memOnly_autocorrEffect (s : State) (maxorder : Nat) : MemOnly s (autocorrEffect s maxorder) :=
  (MemOnly.refl s).storeReals ..

theorem memOnly_levinsonEffect (s : State) (maxorder : Nat) : MemOnly s (levinsonEffect s maxorder) := by
  unfold levinsonEffect
  refine MemOnly.foldl (fun s r => ?_) _ s
  exact (MemOnly.refl s).storeOrder ..

theorem memOnly_lsqEffect (f : Config.LsqFit) (s : State) (ch maxorder : Nat) :
    MemOnly s (lsqEffect f s ch maxorder) :=
  MemOnly.foldl (fun s _ => ((MemOnly.refl s).memWrite ..).memWrite ..) (upto 1 maxorder) s

/-! ## The subframe encoder -/

theorem memOnly_subVerbatimEffect (ch : Nat) (s : State) : MemOnly s (subVerbatimEffect ch s) :=
  ((MemOnly.refl s).storeHead ..).setResiduals ..

theorem memOnly_constantEffect (ch : Nat) (s : State) : MemOnly s (constantEffect ch s) :=
  (((MemOnly.refl s).storeHead ..).setResiduals ..).forget _

theorem memOnly_storeLpc (ch : Nat) (s : State) (a : Search) (c : Candidate) : MemOnly s (storeLpc ch s a c) :=
  have hquant := MemOnly.foldr (fun d s => (MemOnly.refl s).storeQuant (Candidate.order d) d.q d.shift) a.done s
  (((((hquant.storeHead ..).setSub ch 3 _).setSub ch 32 _).storePlan ..).setResiduals ..).forget _

theorem memOnly_fixedPath (ch : Nat) (s : State) : MemOnly s (leftBy (fixedPath ch s)) := by
  simp only [fixedPath]
  split
  · exact ((((MemOnly.refl s).storeHead ..).storePlan ..).setResiduals ..).forget _
  · exact (MemOnly.refl s).forget _

theorem memOnly_lpcSelect (ch lo hi : Nat) (s : State) : MemOnly s (leftBy (lpcSelect ch lo hi s)) := by
  simp only [lpcSelect]
  split
  · exact memOnly_storeLpc ch s _ _
  · exact (MemOnly.refl s).forget _

theorem memOnly_lpcPath (ch : Nat) (s : State) : MemOnly s (leftBy (lpcPath ch s)) := by
  have hwin : ∀ hi, MemOnly s (autocorrEffect (welchEffect s ch) hi) := fun hi =>
    (memOnly_welchEffect s ch).trans (memOnly_autocorrEffect _ hi)
  simp only [lpcPath]
  split
  · exact (hwin _).trans ((memOnly_levinsonEffect _ _).trans (memOnly_lpcSelect ch _ _ _))
  · split
    · exact (hwin _).trans ((memOnly_lsqEffect _ _ ch _).trans (memOnly_lpcSelect ch _ _ _))
    · exact .refl s

theorem memOnly_subEncodeEffect (ch : Nat) (s : State) : MemOnly s (leftBy (subEncodeEffect ch s)) := by
  simp only [subEncodeEffect]
  split
  · exact (memOnly_constantEffect ch s).forget _
  split
  · exact (memOnly_subVerbatimEffect ch s).forget _
  split
  · exact memOnly_fixedPath ch s
  · exact memOnly_lpcPath ch s

theorem memOnly_subEncodeAll (s : State) : MemOnly s (leftBy (subEncodeAll s)) := by
  unfold subEncodeAll
  generalize List.range s.channels = chs
  induction chs generalizing s with
  | nil => exact .refl s
  | cons ch t ih =>
    have hch := memOnly_subEncodeEffect ch s
    rw [List.foldlM_cons]
    cases he : subEncodeEffect ch s with
    | error p => rw [he] at hch; exact hch
    | ok u => rw [he] at hch; exact hch.trans (ih u)

theorem memOnly_forChannels {eff : Nat → State → State} (h : ∀ ch s, MemOnly s (eff ch s)) (c : Nat) (s : State) :
    MemOnly s (forChannels c eff s) := MemOnly.foldl (fun s ch => h ch s) _ s

/-! ## The stereo selector: CH_MODE, and memory -/

theorem memOnly_deinterleaveEffect (s : State) : MemOnly (s.setChMode 0) (deinterleaveEffect s) := by
  have h : MemOnly s ((List.range s.channels).foldl deinterleaveChannel s) :=
    MemOnly.foldl (fun s ch => ((MemOnly.refl s).memWrite ..).setSub ch 2 _) _ s
  refine ⟨?_, h.host, h.readData⟩
  simp only [deinterleaveEffect, State.setChMode, h.regs]

theorem memOnly_stEstimateEffect (s : State) :
    ∃ v, MemOnly (s.setChMode v) (stEstimateEffect s) ∧ (v = 0 ∨ s.channels = 2) := by
  simp only [stEstimateEffect]
  split
  next hc => exact ⟨_, ⟨rfl, rfl, rfl⟩, .inr hc⟩
  · exact ⟨0, .refl _, .inl rfl⟩

theorem memOnly_stApplyEffect (mode : Nat) (s : State) : MemOnly (s.setChMode mode) (stApplyEffect mode s) := by
  simp only [stApplyEffect]
  split <;> exact ⟨rfl, rfl, rfl⟩

end Sys2Proof.Proofs
end

section
/-!
Appending bits keeps the size of the byte in progress (`10_state.md` R53(b), `40_bit_writer.md` R141).
-/
namespace Sys2Proof.Proofs
open Sys2Proof.Machine

/-- BW.acc has BITPOS mod 8 bits, `10_state.md` R53(b). -/
def AccFits (r : Regs) : Prop := r.bwAcc.toNat < 2 ^ (r.bitpos.toNat % 8)

theorem accFits_putBit {s : State} (b : Bool) (h : AccFits s.regs) : AccFits (putBit s b).regs := by
  unfold AccFits at h ⊢
  obtain ⟨k, hk⟩ : ∃ k, s.regs.bitpos.toNat % 8 = k := ⟨_, rfl⟩
  have hk8 : k < 8 := hk ▸ Nat.mod_lt _ (by decide)
  have hpos : (s.regs.bitpos + 1).toNat % 8 = (k + 1) % 8 := by
    rw [BitVec.toNat_add, ← hk]; simp
  have hval : ((s.regs.bwAcc <<< 1) ||| (BitVec.ofBool b).setWidth 8).toNat < 2 ^ (k + 1) := by
    have hb : b.toNat ≤ 1 := Bool.toNat_le b
    have h128 : s.regs.bwAcc.toNat < 2 ^ 7 :=
      lt_of_lt_of_le (hk ▸ h) (Nat.pow_le_pow_right (by decide) (by omega))
    rw [acc_toNat h128, Nat.pow_succ]
    rw [hk] at h
    omega
  rw [putBit_bitpos, hpos]
  unfold putBit
  simp only [hpos]
  split
  · exact Nat.two_pow_pos _
  · have : (k + 1) % 8 = k + 1 := by omega
    rwa [this]

theorem accFits_putBits {s : State} (l : List Bool) (h : AccFits s.regs) : AccFits (putBits s l).regs := by
  induction l generalizing s with
  | nil => exact h
  | cons b t ih => exact ih (accFits_putBit b h)

/-- Of the registers, only the running registers of the writer differ, and the byte in progress keeps its size. -/
structure WriterOnly (s t : State) : Prop where
  regs : t.regs = withWriter s.regs t.regs
  acc : AccFits s.regs → AccFits t.regs
  host : t.host = s.host
  readData : t.readData = s.readData

theorem WriterOnly.trans {s t u : State} (h : WriterOnly s t) (h' : WriterOnly t u) : WriterOnly s u :=
  ⟨withWriter_trans h.regs h'.regs, h'.acc ∘ h.acc, h'.host.trans h.host, h'.readData.trans h.readData⟩

theorem writerOnly_putBits (s : State) (l : List Bool) : WriterOnly s (putBits s l) :=
  ⟨putBits_regs s l, accFits_putBits l, putBits_host s l, putBits_readData s l⟩

theorem writerOnly_putU (s : State) (w : Nat) (v : Int) : WriterOnly s (putU s w v) := writerOnly_putBits s _

theorem writerOnly_flush (s : State) : WriterOnly s (flush s) := writerOnly_putBits s _

end Sys2Proof.Proofs
end

section
/-!
What a command can do to the registers, said once for all of them: `exec_answers` says that a command completes or fails in
one of a few ways; the statements on registers are derived from it and open no command again.
-/
namespace Sys2Proof.Proofs
open Sys2Proof.Machine

/-! ## The steps of a frame -/

/-- `q` with the registers of `r` that no step of a frame before DONE writes. -/
def withFixed (r q : Regs) : Regs :=
  { q with
    ops := r.ops, cfgOk := r.cfgOk, n := r.n, outCap := r.outCap, frameCount := r.frameCount
    maxFramesize := r.maxFramesize, srCode := r.srCode, cfg := r.cfg, err := r.err, errSticky := r.errSticky }

/-- What the steps of a frame before DONE keep, and how they leave CH_MODE, BW.acc and BW.cap. -/
structure FrameStep (s t : State) : Prop where
  regs : t.regs = withFixed s.regs t.regs
  mode : t.regs.chMode = s.regs.chMode ∨ t.regs.chMode = 0 ∨ s.channels = 2
  acc : AccFits s.regs → AccFits t.regs
  cap : t.regs.bwCap = s.regs.bwCap ∨ t.regs.bwCap = s.regs.outCap
  host : t.host = s.host
  readData : t.readData = s.readData

theorem FrameStep.kept {s t : State} (h : FrameStep s t) {α : Type} (f : Regs → α)
    (hf : ∀ r q, f (withFixed r q) = f r) : f t.regs = f s.regs := (congrArg f h.regs).trans (hf _ _)

theorem FrameStep.cfg {s t : State} (h : FrameStep s t) : t.regs.cfg = s.regs.cfg := h.kept Regs.cfg fun _ _ => rfl

theorem FrameStep.channels {s t : State} (h : FrameStep s t) : t.channels = s.channels := by
  rw [State.channels, h.cfg, State.channels]

theorem FrameStep.trans {s t u : State} (h : FrameStep s t) (h' : FrameStep t u) : FrameStep s u where
  regs := by rw [h'.regs, h.regs]; rfl
  mode := by
    have hm := h'.mode
    rw [h.channels] at hm
    rcases hm with hm | hm
    · rw [hm]; exact h.mode
    · exact .inr hm
  acc := h'.acc ∘ h.acc
  cap := by
    have hout : t.regs.outCap = s.regs.outCap := h.kept Regs.outCap fun _ _ => rfl
    rcases h'.cap with hc | hc
    · rw [hc]; exact h.cap
    · exact .inr (hc.trans hout)
  host := h'.host.trans h.host
  readData := h'.readData.trans h.readData

theorem MemOnly.frameStep {s t : State} (h : MemOnly s t) : FrameStep s t :=
  ⟨by rw [h.regs]; rfl, by rw [h.regs]; exact .inl rfl, by rw [h.regs]; exact id, by rw [h.regs]; exact .inl rfl,
    h.host, h.readData⟩

theorem WriterOnly.kept {s t : State} (h : WriterOnly s t) {α : Type} (f : Regs → α)
    (hf : ∀ r q, f (withWriter r q) = f r) : f t.regs = f s.regs := (congrArg f h.regs).trans (hf _ _)

theorem WriterOnly.frameStep {s t : State} (h : WriterOnly s t) : FrameStep s t :=
  ⟨by rw [h.regs]; rfl, .inl (h.kept Regs.chMode fun _ _ => rfl), h.acc, .inl (h.kept Regs.bwCap fun _ _ => rfl),
    h.host, h.readData⟩

theorem frameStep_setChMode {s : State} {v : Nat} (hv : v = 0 ∨ s.channels = 2) : FrameStep s (s.setChMode v) :=
  ⟨rfl, .inr (hv.imp (fun h => by rw [h]; rfl) id), id, .inl rfl, rfl, rfl⟩

/-- SUBCNT and STATUS.FSM are free. -/
theorem FrameStep.count {s t : State} (h : FrameStep s t) (c : BitVec 4) (f : Fsm) :
    FrameStep s { t with regs := { t.regs with subcnt := c, fsm := f } } :=
  h.trans ⟨rfl, .inl rfl, id, .inl rfl, rfl, rfl⟩

theorem frameStep_frameInitEffect (retry : Bool) (s : State) : FrameStep s (frameInitEffect retry s) :=
  ⟨rfl, .inl rfl, fun _ => Nat.one_pos, .inr rfl, rfl, rfl⟩

/-- The bits of the header, after which `WR_HEADER` writes SUBCNT and STATUS.FSM. -/
theorem wrHeaderEffect_cases (s : State) : ∃ u, WriterOnly s u
    ∧ wrHeaderEffect s = { u with regs := { u.regs with subcnt := 0, fsm := .headerWritten } } :=
  ⟨_, (writerOnly_putBits s _).trans (writerOnly_putU _ 8 _), rfl⟩

/-- The bits of the subframe, after which `WR_SUBFRAME` counts it. -/
theorem wrSubframeEffect_cases (ch : Nat) (s : State) : ∃ u, WriterOnly s u
    ∧ wrSubframeEffect ch s = { u with regs := { u.regs with
        subcnt := s.regs.subcnt + 1
        fsm := if (s.regs.subcnt + 1).toNat = s.channels then .subframesWritten else s.regs.fsm } } := by
  have hu := writerOnly_putBits s (subframeBits s ch)
  have hcnt : (putBits s (subframeBits s ch)).regs.subcnt = s.regs.subcnt := hu.kept Regs.subcnt fun _ _ => rfl
  have hfsm : (putBits s (subframeBits s ch)).regs.fsm = s.regs.fsm := hu.kept Regs.fsm fun _ _ => rfl
  refine ⟨_, hu, ?_⟩
  rw [← hu.frameStep.channels, ← hcnt, ← hfsm]
  rfl

/-- The bits of the footer, after which `WR_FOOTER` ends in one of the three ways of `45_frame_encoder.md` R277 to R279. -/
theorem wrFooterEffect_cases (s : State) : ∃ u, WriterOnly s u
    ∧ ((∃ len, len ≤ u.regs.maxFramesize.toNat ∧ len ≤ u.regs.bwCap.toNat ∧ wrFooterEffect s = .ok (frameDone u len))
      ∨ wrFooterEffect s = .error (.frameOverflow, u.setFsm .failed)
      ∨ (u.regs.retried = false ∧ wrFooterEffect s = .ok (u.setFsm .overflowRetry))) := by
  refine ⟨_, (writerOnly_flush s).trans (writerOnly_putU _ 16 (flush s).regs.crc16Run.toNat), ?_⟩
  simp only [wrFooterEffect]
  split
  next hlen => exact .inl ⟨_, hlen.1, hlen.2, rfl⟩
  next =>
    split
    next => exact .inr (.inl rfl)
    next hret => exact .inr (.inr ⟨Bool.eq_false_iff.2 hret, rfl⟩)

/-! ## The composite command -/

/-- The subframes of the first `c` channels are counted, and STATUS.RETRIED stays. -/
theorem forChannels_wrSubframe (c : Nat) (s : State) : FrameStep s (forChannels c wrSubframeEffect s)
    ∧ (forChannels c wrSubframeEffect s).regs.subcnt = s.regs.subcnt + BitVec.ofNat 4 c
    ∧ (forChannels c wrSubframeEffect s).regs.retried = s.regs.retried := by
  induction c with
  | zero => exact ⟨(MemOnly.refl s).frameStep, by simp [forChannels], rfl⟩
  | succ c ih =>
    obtain ⟨hstep, hcnt, hret⟩ := ih
    have hsucc : forChannels (c + 1) wrSubframeEffect s = wrSubframeEffect c (forChannels c wrSubframeEffect s) := by
      simp only [forChannels, List.range_succ, List.foldl_append, List.foldl_cons, List.foldl_nil]
    obtain ⟨u, hu, he⟩ := wrSubframeEffect_cases c (forChannels c wrSubframeEffect s)
    rw [hsucc, he]
    refine ⟨(hstep.trans hu.frameStep).count _ _, ?_, (hu.kept Regs.retried fun _ _ => rfl).trans hret⟩
    show _ + 1 = _
    rw [hcnt, BitVec.add_assoc, BitVec.ofNat_add]
    rfl

/-- A step of a frame that leaves SUBCNT as it was or at the number of channels. -/
structure FrameRun (s t : State) : Prop extends FrameStep s t where
  subcnt : t.regs.subcnt = s.regs.subcnt ∨ t.regs.subcnt = BitVec.ofNat 4 s.channels

theorem FrameRun.trans {s t u : State} (h : FrameRun s t) (h' : FrameRun t u) : FrameRun s u where
  toFrameStep := h.toFrameStep.trans h'.toFrameStep
  subcnt := by
    rcases h'.subcnt with hc | hc
    · rw [hc]; exact h.subcnt
    · rw [hc, h.channels]; exact .inr rfl

theorem MemOnly.frameRun {s t : State} (h : MemOnly s t) : FrameRun s t :=
  ⟨h.frameStep, .inl (by rw [h.regs])⟩

theorem WriterOnly.frameRun {s t : State} (h : WriterOnly s t) : FrameRun s t :=
  ⟨h.frameStep, .inl (h.kept Regs.subcnt fun _ _ => rfl)⟩

theorem frameRun_setChMode {s : State} {v : Nat} (hv : v = 0 ∨ s.channels = 2) : FrameRun s (s.setChMode v) :=
  ⟨frameStep_setChMode hv, .inl rfl⟩

/-- One attempt serializes the frame and ends in DONE, in an error, or in OVERFLOW_RETRY when it is the first. -/
theorem frameAttempt_cases (retry : Bool) (s : State) : ∃ u, FrameRun s u
    ∧ ((∃ len, len ≤ u.regs.maxFramesize.toNat ∧ len ≤ u.regs.bwCap.toNat
          ∧ frameAttempt retry s = .ok (frameDone u len))
      ∨ (∃ e, frameAttempt retry s = .error (e, u))
      ∨ (retry = false ∧ u.regs.fsm = .overflowRetry ∧ frameAttempt retry s = .ok u)) := by
  obtain ⟨v, hv, hheader⟩ := wrHeaderEffect_cases (frameInitEffect retry s)
  obtain ⟨hsub, hcnt, hret⟩ := forChannels_wrSubframe s.channels (wrHeaderEffect (frameInitEffect retry s))
  obtain ⟨u, hu, hend⟩ := wrFooterEffect_cases
    (forChannels s.channels wrSubframeEffect (wrHeaderEffect (frameInitEffect retry s)))
  have hstep : FrameStep s u := by
    refine .trans (.trans ?_ hsub) hu.frameStep
    rw [hheader]
    exact ((frameStep_frameInitEffect retry s).trans hv.frameStep).count _ _
  have hcount : u.regs.subcnt = BitVec.ofNat 4 s.channels := by
    rw [hu.kept Regs.subcnt fun _ _ => rfl]
    refine hcnt.trans ?_
    rw [hheader]
    exact BitVec.zero_add _
  have hretried : u.regs.retried = retry := by
    rw [hu.kept Regs.retried fun _ _ => rfl]
    refine hret.trans ?_
    rw [hheader]
    exact hv.kept Regs.retried fun _ _ => rfl
  have hrun : ∀ f, FrameRun s (u.setFsm f) := fun f => ⟨hstep.count u.regs.subcnt f, .inr hcount⟩
  rcases hend with ⟨len, hfit, hcap, hdone⟩ | herr | ⟨hfirst, hover⟩
  · exact ⟨u, ⟨hstep, .inr hcount⟩, .inl ⟨len, hfit, hcap, hdone⟩⟩
  · exact ⟨_, hrun .failed, .inr (.inl ⟨_, herr⟩)⟩
  · exact ⟨_, hrun .overflowRetry, .inr (.inr ⟨hretried.symm.trans hfirst, rfl, hover⟩)⟩

theorem frameRun_prepareSamples (s : State) : FrameRun s (prepareSamples s) := by
  have hsplit : FrameRun s (deinterleaveEffect s) :=
    (frameRun_setChMode (.inl rfl)).trans (memOnly_deinterleaveEffect s).frameRun
  simp only [prepareSamples]
  split
  next hc =>
    obtain ⟨v, hv, -⟩ := memOnly_stEstimateEffect (deinterleaveEffect s)
    have hest : FrameRun s (stEstimateEffect (deinterleaveEffect s)) :=
      hsplit.trans ((frameRun_setChMode (.inr hc)).trans hv.frameRun)
    have hc' : (stEstimateEffect (deinterleaveEffect s)).channels = 2 := by
      rw [hest.channels, ← hsplit.channels, hc]
    exact hest.trans ((frameRun_setChMode (.inr hc')).trans (memOnly_stApplyEffect _ _).frameRun)
  next => exact hsplit

/-- `ENCODE_FRAME`'s steps end in DONE or in an error: OVERFLOW_RETRY is left by the second attempt (R278, R280). -/
theorem encodeSteps_cases (s : State) : ∃ u, FrameRun s u
    ∧ ((∃ len, len ≤ u.regs.maxFramesize.toNat ∧ len ≤ u.regs.bwCap.toNat ∧ encodeSteps s = .ok (frameDone u len))
      ∨ ∃ e, encodeSteps s = .error (e, u)) := by
  have hready := (frameRun_prepareSamples s).trans (memOnly_subEncodeAll (prepareSamples s)).frameRun
  unfold encodeSteps
  cases hsub : subEncodeAll (prepareSamples s) with
  | error p => rw [hsub] at hready; exact ⟨_, hready, .inr ⟨_, rfl⟩⟩
  | ok t =>
    rw [hsub] at hready
    obtain ⟨u, hu, hend⟩ := frameAttempt_cases false t
    rcases hend with ⟨len, hfit, hcap, hdone⟩ | ⟨e, herr⟩ | ⟨-, hfsm, hover⟩
    · exact ⟨u, hready.trans hu, .inl ⟨len, hfit, hcap, by simp [bind, Except.bind, hdone, retryIfOverflow]⟩⟩
    · exact ⟨u, hready.trans hu, .inr ⟨e, by simp [bind, Except.bind, herr]⟩⟩
    · have hverb := memOnly_forChannels memOnly_subVerbatimEffect u.channels u
      obtain ⟨w, hw, hend⟩ := frameAttempt_cases true (forChannels u.channels subVerbatimEffect u)
      have hrun := (hready.trans hu).trans (hverb.frameRun.trans hw)
      refine ⟨w, hrun, ?_⟩
      rcases hend with ⟨len, hfit, hcap, hdone⟩ | ⟨e, herr⟩ | ⟨hfalse, -⟩
      · exact .inl ⟨len, hfit, hcap, by simp [bind, Except.bind, hover, retryIfOverflow, hfsm, hdone]⟩
      · exact .inr ⟨e, by simp [bind, Except.bind, hover, retryIfOverflow, hfsm, herr]⟩
      · exact absurd hfalse (by decide)

end Sys2Proof.Proofs
end

section
/-!
The ways in which a command ends: `exec_answers`.
-/
namespace Sys2Proof.Proofs
open Sys2Proof.Machine

/-- The commands that write a4, by the opcode map (`30_encoding.md` R92). -/
def answersA4 : Instr → Bool
  | .bwPos | .crc8 | .crc16 | .zigzag | .riceCount _ | .findParam | .maxPorder _ _ | .partSums _ _ _ _
  | .calcRice _ _ _ _ | .quant _ _ | .orderEst _ _ | .subEncode _ | .subVerbatim _ | .stEstimate => true
  | _ => false

/-- The commands that write a5, by the opcode map (`30_encoding.md` R92). -/
def answersA5 : Instr → Bool
  | .findParam | .partSums _ _ _ _ | .calcRice _ _ _ _ => true
  | _ => false

/-- `s` with a4, a5 and CH_MODE as given. -/
def withResults (s : State) (v4 v5 : Word64) (mode : BitVec 2) : State :=
  { s with regs := { s.regs with ops := { s.regs.ops with a4 := v4, a5 := v5 }, chMode := mode } }

theorem encodeFailed_host (s : State) : (encodeFailed s).host = s.host := by
  simp only [encodeFailed, forget_host]

theorem encodeFailed_readData (s : State) : (encodeFailed s).readData = s.readData := by
  simp only [encodeFailed, forget_readData]

/-- The registers that an `ENCODE_FRAME` writes when it fails (`60_exceptions.md` R324(g), log 9). -/
theorem encodeFailed_regs (s : State) : (encodeFailed s).regs =
    { s.regs with
      fsm := .failed
      frameOk := false
      outLen := 0
      bitpos := Config.unspecifiedBitpos s.forgets
      bwAcc := BitVec.ofNat 8
        ((Config.unspecifiedAcc s.forgets).toNat % 2 ^ ((Config.unspecifiedBitpos s.forgets).toNat % 8))
      crc8Run := Config.unspecifiedCrc8 s.forgets
      crc16Run := Config.unspecifiedCrc16 s.forgets } := by
  simp only [encodeFailed, forget_regs]

/-- What a command that completes leaves of the registers, but for STATUS.ERR: one constructor for each kind of command,
with what its checks had to say. -/
inductive Completes (i : Instr) (s t : State) : Prop
  | results (v4 v5 : Word64) (mode : BitVec 2) (h4 : v4 = s.regs.ops.a4 ∨ answersA4 i = true)
      (h5 : v5 = s.regs.ops.a5 ∨ answersA5 i = true)
      (hmode : mode = s.regs.chMode ∨ mode = 0 ∨ (s.regs.cfgOk = true ∧ s.channels = 2))
      (regs : t.regs = (withResults s v4 v5 mode).regs)
  | reset (hi : i = .reset) (regs : t.regs = Regs.reset)
  | locked (hi : i = .cfgInit) (hvalid : validate s.regs.cfg = none)
      (regs : t.regs = { (clearStream s).regs with
        maxFramesize := BitVec.ofNat 24 (maxFramesizeOf s.channels s.regs.cfg.blocksize.toNat)
        srCode := (srCodeOf s.regs.cfg.sampleRate.toNat).getD 0
        cfgOk := true })
  | wrote (h : WriterOnly s t)
  | opened (u : State) (len : Word32) (hcfg : s.regs.cfgOk = true) (hfree : frameInProgress s.regs.fsm = false)
      (hcap : s.regs.outCap.toNat ≤ Config.outSize) (h : WriterOnly (writerInit s s.regs.outCap) u)
      (regs : t.regs = { u.regs with outLen := len })
  | frameInit (retry : Bool) (hcfg : s.regs.cfgOk = true) (hlen : 1 ≤ s.blockLen)
      (hblock : s.blockLen ≤ s.regs.cfg.blocksize.toNat) (hcap : s.regs.outCap.toNat ≤ Config.outSize)
      (regs : t.regs = (frameInitEffect retry s).regs)
  | header (u : State) (hfsm : s.regs.fsm = .init) (h : WriterOnly s u)
      (regs : t.regs = { u.regs with subcnt := 0, fsm := .headerWritten })
  | subframe (u : State) (hfsm : s.regs.fsm = .headerWritten) (hch : s.regs.subcnt.toNat < s.channels)
      (h : WriterOnly s u)
      (regs : t.regs = { u.regs with
        subcnt := s.regs.subcnt + 1
        fsm := if (s.regs.subcnt + 1).toNat = s.channels then .subframesWritten else s.regs.fsm })
  | done (u : State) (len : Nat) (hi : i = .wrFooter ∨ i = .encodeFrame) (hcfg : s.regs.cfgOk = true)
      (hcap : s.regs.outCap.toNat ≤ Config.outSize ∨ u.regs.bwCap = s.regs.bwCap) (h : FrameRun s u)
      (hfit : len ≤ u.regs.maxFramesize.toNat) (hlen : len ≤ u.regs.bwCap.toNat)
      (regs : t.regs = (frameDone u len).regs)
  | overflow (u : State) (hfsm : s.regs.fsm = .subframesWritten) (h : WriterOnly s u) (hfirst : u.regs.retried = false)
      (regs : t.regs = (u.setFsm .overflowRetry).regs)

/-- What a command that fails leaves of the registers, but for STATUS.ERR and STATUS.ERR_STICKY. -/
inductive Aborts (i : Instr) (s t : State) : Prop
  | unchanged (regs : t.regs = s.regs)
  | rejected (hi : i = .cfgInit)
      (regs : t.regs = { (clearStream s).regs with cfgOk := false, maxFramesize := 0, srCode := 0 })
  | overflow (u : State) (hfsm : s.regs.fsm = .subframesWritten) (h : WriterOnly s u)
      (regs : t.regs = (u.setFsm .failed).regs)
  | failed (u : State) (hcfg : s.regs.cfgOk = true) (hcap : s.regs.outCap.toNat ≤ Config.outSize) (h : FrameRun s u)
      (regs : t.regs = (encodeFailed u).regs)

/-- An answer of command `i` in state `s`: it leaves the host's accesses, and completes or fails as above. -/
def Answers (i : Instr) (s : State) (out : Result) : Prop :=
  ∃ t, t.host = s.host ∧ t.readData = s.readData
    ∧ ((Completes i s t ∧ out = succeed t) ∨ ∃ e, Aborts i s t ∧ out = fail e t)

variable {i : Instr} {s t : State}

theorem Completes.answers (h : Completes i s t) (hh : t.host = s.host) (hd : t.readData = s.readData) :
    Answers i s (succeed t) := ⟨t, hh, hd, .inl ⟨h, rfl⟩⟩

theorem Aborts.answers (h : Aborts i s t) (hh : t.host = s.host) (hd : t.readData = s.readData) (e : ErrCode) :
    Answers i s (fail e t) := ⟨t, hh, hd, .inr ⟨e, h, rfl⟩⟩

theorem answers_finish_ok (h : Completes i s t) (hh : t.host = s.host) (hd : t.readData = s.readData) :
    Answers i s (finish (.ok t)) := h.answers hh hd

theorem answers_finish_error {e : ErrCode} (h : Aborts i s t) (hh : t.host = s.host) (hd : t.readData = s.readData) :
    Answers i s (finish (.error (e, t))) := h.answers hh hd e

/-- A check that fails changes nothing (`60_exceptions.md` R324(a)). -/
theorem answers_command {checks : List (Bool × ErrCode)} {effect : State → Result}
    (h : (∀ c ∈ checks, c.1 = true) → Answers i s (effect s)) : Answers i s (command s checks effect) := by
  rcases command_cases s checks effect with ⟨e, -, hfail⟩ | ⟨hnone, heff⟩
  · rw [hfail]; exact (Aborts.unchanged rfl).answers rfl rfl e
  · rw [heff]; exact h ((firstError_eq_none checks).1 hnone)

/-! ## Results -/

theorem MemOnly.setA4 (h : MemOnly s t) (v : Int) : MemOnly (s.setA4 v) (t.setA4 v) :=
  ⟨by rw [State.setA4, h.regs]; rfl, h.host, h.readData⟩

theorem MemOnly.setA5 (h : MemOnly s t) (v : Int) : MemOnly (s.setA5 v) (t.setA5 v) :=
  ⟨by rw [State.setA5, h.regs]; rfl, h.host, h.readData⟩

theorem MemOnly.answers (h : MemOnly s t) : Answers i s (succeed t) :=
  (Completes.results _ _ _ (.inl rfl) (.inl rfl) (.inl rfl) h.regs).answers h.host h.readData

theorem MemOnly.answers_fail (h : MemOnly s t) (e : ErrCode) : Answers i s (fail e t) :=
  (Aborts.unchanged h.regs).answers h.host h.readData e

theorem MemOnly.answers_a4 (h : MemOnly s t) (hi : answersA4 i = true) (v : Int) : Answers i s (succeed (t.setA4 v)) :=
  (Completes.results _ _ _ (.inr hi) (.inl rfl) (.inl rfl) (h.setA4 v).regs).answers h.host h.readData

theorem MemOnly.answers_a4_a5 (h : MemOnly s t) (hi : answersA4 i = true) (hi' : answersA5 i = true) (v w : Int) :
    Answers i s (succeed ((t.setA4 v).setA5 w)) :=
  (Completes.results (s := s) _ _ _ (.inr hi) (.inr hi') (.inl rfl) ((h.setA4 v).setA5 w).regs).answers h.host h.readData

/-- CH_MODE is written with 0, or in a configuration of two channels (`10_state.md` R32). -/
theorem mode_cases {v : Nat} (hcfg : s.regs.cfgOk = true) (hv : v = 0 ∨ s.channels = 2) :
    BitVec.ofNat 2 v = s.regs.chMode ∨ BitVec.ofNat 2 v = 0 ∨ (s.regs.cfgOk = true ∧ s.channels = 2) :=
  .inr (hv.imp (fun h => by rw [h]; rfl) fun h => ⟨hcfg, h⟩)

theorem MemOnly.answers_mode {v : Nat} (h : MemOnly (s.setChMode v) t) (hcfg : s.regs.cfgOk = true)
    (hv : v = 0 ∨ s.channels = 2) : Answers i s (succeed t) :=
  (Completes.results _ _ _ (.inl rfl) (.inl rfl) (mode_cases hcfg hv) h.regs).answers h.host h.readData

theorem WriterOnly.answers (h : WriterOnly s t) : Answers i s (succeed t) :=
  (Completes.wrote h).answers h.host h.readData

/-! ## The checks, as they are read -/

theorem frameInProgress_of_check (h : (noFrameCheck s).1 = true) : frameInProgress s.regs.fsm = false := by
  simpa [noFrameCheck] using h

theorem outCap_le_of_check {lo : Nat} (h : (capacityCheck s lo).1 = true) : s.regs.outCap.toNat ≤ Config.outSize := by
  simp only [capacityCheck, within, Bool.and_eq_true, decide_eq_true_eq] at h
  exact h.2

theorem fsm_of_check {f : Fsm} (h : (fsmCheck s f).1 = true) : s.regs.fsm = f := of_decide_eq_true h

/-! ## Every command -/

theorem answers_residuals {ch : Nat} {r : List Int} {fits : Bool} :
    Answers i s (if fits then succeed (s.setResiduals ch r) else fail .residualRange (s.forget (rangeErrorScratch ch))) := by
  split
  · exact ((MemOnly.refl s).setResiduals ..).answers
  · exact ((MemOnly.refl s).forget _).answers_fail _

theorem answers_cfgInit (s : State) : Answers .cfgInit s (execCfgInit s) := by
  simp only [execCfgInit, cfgInitEffect]
  split
  next => exact answers_finish_error (.rejected rfl rfl) rfl rfl
  next hvalid => exact answers_finish_ok (.locked rfl hvalid rfl) rfl rfl

theorem answers_wrStreaminfo (s : State) : Answers .wrStreaminfo s (execWrStreaminfo s) :=
  answers_command fun h => by
    have hw := writerOnly_putBits (writerInit s s.regs.outCap) (streaminfoBits s.regs)
    simp only [streaminfoEffect]
    generalize putBits (writerInit s s.regs.outCap) (streaminfoBits s.regs) = u at hw ⊢
    exact Completes.answers (Completes.opened u _ (h _ (.head _)) (frameInProgress_of_check (h _ (.tail _ (.head _))))
      (outCap_le_of_check (h _ (.tail _ (.tail _ (.head _))))) hw rfl) hw.host hw.readData

theorem answers_bwInit (s : State) : Answers .bwInit s (execBwInit s) :=
  answers_command fun h =>
    (Completes.opened (writerInit s s.regs.outCap) 0 (h _ (.head _)) (frameInProgress_of_check (h _ (.tail _ (.head _))))
      (outCap_le_of_check (h _ (.tail _ (.tail _ (.head _))))) (writerOnly_putBits _ []) rfl).answers rfl rfl

theorem answers_bwRice (k : Nat) (s : State) : Answers (.bwRice k) s (execBwRice k s) :=
  answers_command fun _ => by
    split
    · exact (MemOnly.refl s).answers_fail _
    · exact (writerOnly_putBits s _).answers

theorem answers_lsqFit (ch maxorder : Nat) (s : State) : Answers (.lsqFit ch maxorder) s (execLsqFit ch maxorder s) :=
  answers_command fun _ => by
    split
    · exact (memOnly_lsqEffect _ s ch maxorder).answers
    · exact (MemOnly.refl s).answers_fail _

theorem answers_subEncode (ch : Nat) (s : State) : Answers (.subEncode ch) s (execSubEncode ch s) :=
  answers_command fun _ => by
    have hmem := memOnly_subEncodeEffect ch s
    cases he : subEncodeEffect ch s with
    | ok t => rw [he] at hmem; exact hmem.answers_a4 rfl _
    | error p => rw [he] at hmem; exact hmem.answers_fail _

theorem answers_deinterleave (s : State) : Answers .deinterleave s (execDeinterleave s) :=
  answers_command fun h => (memOnly_deinterleaveEffect s).answers_mode (h _ (.head _)) (.inl rfl)

theorem answers_stEstimate (s : State) : Answers .stEstimate s (execStEstimate s) :=
  answers_command fun h => by
    obtain ⟨v, hmem, hv⟩ := memOnly_stEstimateEffect s
    exact (Completes.results _ _ _ (.inr rfl) (.inl rfl) (mode_cases (h _ (.head _)) hv) (hmem.setA4 _).regs).answers
      hmem.host hmem.readData

theorem answers_stApply (mode : Nat) (s : State) : Answers (.stApply mode) s (execStApply mode s) :=
  answers_command fun h => by
    have htwo := h _ (.tail _ (.tail _ (.tail _ (.head _))))
    simp only [Bool.or_eq_true, decide_eq_true_eq] at htwo
    exact (memOnly_stApplyEffect mode s).answers_mode (h _ (.head _)) htwo.symm

theorem answers_frameInit (retry : Nat) (s : State) : Answers (.frameInit retry) s (execFrameInit retry s) :=
  answers_command fun h => by
    have hblock := h (blockCheck s 1) (by simp)
    simp only [blockCheck, within, Bool.and_eq_true, decide_eq_true_eq] at hblock
    exact (Completes.frameInit _ (h _ (.head _)) hblock.1 hblock.2 (outCap_le_of_check (h (capacityCheck s 0) (by simp)))
      rfl).answers rfl rfl

theorem answers_wrHeader (s : State) : Answers .wrHeader s (execWrHeader s) :=
  answers_command fun h => by
    obtain ⟨u, hu, he⟩ := wrHeaderEffect_cases s
    rw [he]
    exact (Completes.header u (fsm_of_check (h _ (.tail _ (.head _)))) hu rfl).answers hu.host hu.readData

theorem answers_wrSubframe (ch : Nat) (s : State) : Answers (.wrSubframe ch) s (execWrSubframe ch s) :=
  answers_command fun h => by
    have hcnt : ch = s.regs.subcnt.toNat := of_decide_eq_true (h _ (.tail _ (.tail _ (.head _))))
    have hch : ch < s.channels := of_decide_eq_true (h (chCheck s ch) (by simp))
    obtain ⟨u, hu, he⟩ := wrSubframeEffect_cases ch s
    rw [he]
    exact (Completes.subframe u (fsm_of_check (h _ (.tail _ (.head _)))) (hcnt ▸ hch) hu rfl).answers hu.host hu.readData

theorem answers_wrFooter (s : State) : Answers .wrFooter s (execWrFooter s) :=
  answers_command fun h => by
    have hfsm := fsm_of_check (h (fsmCheck s .subframesWritten) (by simp))
    obtain ⟨u, hu, ⟨len, hfit, hlen, he⟩ | he | ⟨hfirst, he⟩⟩ := wrFooterEffect_cases s <;> rw [he]
    · exact answers_finish_ok (.done u len (.inl rfl) (h _ (.head _)) (.inr (hu.kept Regs.bwCap fun _ _ => rfl))
        hu.frameRun hfit hlen rfl) hu.host hu.readData
    · exact answers_finish_error (.overflow u hfsm hu rfl) hu.host hu.readData
    · exact answers_finish_ok (.overflow u hfsm hu hfirst rfl) hu.host hu.readData

theorem answers_encodeFrame (s : State) : Answers .encodeFrame s (execEncodeFrame s) :=
  answers_command fun h => by
    have hcap := outCap_le_of_check (h (capacityCheck s 0) (by simp))
    simp only [encodeFrameEffect]
    obtain ⟨u, hu, ⟨len, hfit, hlen, he⟩ | ⟨e, he⟩⟩ := encodeSteps_cases s <;> simp only [he]
    · exact answers_finish_ok (.done u len (.inr rfl) (h _ (.head _)) (.inl hcap) hu hfit hlen rfl) hu.host hu.readData
    · exact answers_finish_error (.failed u (h _ (.head _)) hcap hu rfl) ((encodeFailed_host u).trans hu.host)
        ((encodeFailed_readData u).trans hu.readData)

/-- Every command answers in one of these ways. -/
theorem exec_answers (i : Instr) (s : State) : Answers i s (exec i s) := by
  have hs := MemOnly.refl s
  unfold exec
  cases i with
  | nop => exact hs.answers
  | reset => exact (Completes.reset rfl rfl).answers rfl rfl
  | cfgInit => exact answers_cfgInit s
  | wrStreaminfo => exact answers_wrStreaminfo s
  | bwInit => exact answers_bwInit s
  | bwPutu bits => exact answers_command fun _ => (writerOnly_putU s bits _).answers
  | bwPuts bits => exact answers_command fun _ => (writerOnly_putU s bits _).answers
  | bwFlush => exact answers_command fun _ => (writerOnly_flush s).answers
  | bwPos => exact answers_command fun _ => hs.answers_a4 rfl _
  | bwUtf8 => exact answers_command fun _ => (writerOnly_putBits s _).answers
  | bwRice k => exact answers_bwRice k s
  | crc8 => exact answers_command fun _ => hs.answers_a4 rfl _
  | crc16 => exact answers_command fun _ => hs.answers_a4 rfl _
  | zigzag => exact answers_command fun _ => hs.answers_a4 rfl _
  | riceCount k => exact answers_command fun _ => hs.answers_a4 rfl _
  | findParam => exact answers_command fun _ => hs.answers_a4_a5 rfl rfl _ _
  | maxPorder order pmax => exact answers_command fun _ => hs.answers_a4 rfl _
  | partSums ch order pmin pmax =>
    exact answers_command fun _ => (memOnly_storeSums s _ _ _ _ _).answers_a4_a5 rfl rfl _ _
  | calcRice ch order pmin pmax =>
    exact answers_command fun _ => ((memOnly_storeSums s _ _ _ _ _).storePlan ch _).answers_a4_a5 rfl rfl _ _
  | fixedRes ch order => exact answers_command fun _ => answers_residuals
  | welch ch => exact answers_command fun _ => (memOnly_welchEffect s ch).answers
  | autocorr maxorder => exact answers_command fun _ => (memOnly_autocorrEffect s maxorder).answers
  | levinson maxorder => exact answers_command fun _ => (memOnly_levinsonEffect s maxorder).answers
  | lsqFit ch maxorder => exact answers_lsqFit ch maxorder s
  | quant order precision => exact answers_command fun _ => (hs.storeQuant order _ _).answers_a4 rfl _
  | lpcRes ch order => exact answers_command fun _ => answers_residuals
  | orderEst lo hi => exact answers_command fun _ => hs.answers_a4 rfl _
  | subEncode ch => exact answers_subEncode ch s
  | subVerbatim ch => exact answers_command fun _ => (memOnly_subVerbatimEffect ch s).answers_a4 rfl _
  | deinterleave => exact answers_deinterleave s
  | stEstimate => exact answers_stEstimate s
  | stApply mode => exact answers_stApply mode s
  | frameInit retry => exact answers_frameInit retry s
  | wrHeader => exact answers_wrHeader s
  | wrSubframe ch => exact answers_wrSubframe ch s
  | wrFooter => exact answers_wrFooter s
  | encodeFrame => exact answers_encodeFrame s

/-- A command that answers `t` completed, or failed with an error that STATUS.ERR_STICKY remembers; the rest of the state
is that of `u`. -/
theorem exec_cases (h : exec i s = .next t) : t.host = s.host ∧ t.readData = s.readData
    ∧ ((∃ u, Completes i s u ∧ t.regs = { u.regs with err := .noError })
      ∨ ∃ u e, Aborts i s u ∧ t.regs = { u.regs with err := e, errSticky := true }) := by
  obtain ⟨u, hh, hd, ⟨hc, hout⟩ | ⟨e, ha, hout⟩⟩ := exec_answers i s
  · obtain rfl : t = _ := Host.Outcome.next.inj (h.symm.trans hout)
    exact ⟨hh, hd, .inl ⟨u, hc, rfl⟩⟩
  · obtain rfl : t = _ := Host.Outcome.next.inj (h.symm.trans hout)
    exact ⟨hh, hd, .inr ⟨u, e, ha, rfl⟩⟩

end Sys2Proof.Proofs
end

section
/-!
The invariant of the registers is kept by every command, every other port access and the reset input.
-/
namespace Sys2Proof.Proofs
open Sys2Proof.Machine

/-! ## A locked configuration -/

theorem within_eq_true (lo v hi : Nat) : within lo v hi = true ↔ lo ≤ v ∧ v ≤ hi := by
  simp only [within, Bool.and_eq_true, decide_eq_true_eq]

/-- A check in front of others, as the condition under which it fails. -/
theorem firstError_eq_ite {p : Prop} [Decidable p] {ok : Bool} {e : ErrCode} {rest : List (Bool × ErrCode)}
    {out : Option ErrCode} (hp : p ↔ ¬ok = true) (hrest : firstError rest = out) :
    firstError ((ok, e) :: rest) = if p then some e else out := by
  rw [firstError_cons, hrest, if_congr hp rfl rfl, ite_not]

/-- The checks of `Validate ()` in their order are those of `46_context_commands.md` R304. -/
theorem validate_eq_configError (c : Cfg) : validate c = configError c := by
  unfold validate configChecks configError
  refine firstError_eq_ite ?channels <| firstError_eq_ite ?rate <| firstError_eq_ite ?blocksize <|
    firstError_eq_ite ?level <| firstError_eq_ite ?enum <| firstError_eq_ite ?unsupported <|
    firstError_eq_ite ?order <| firstError_eq_ite ?porder <| firstError_eq_ite ?precision rfl
  case channels => exact not_congr (within_eq_true ..).symm
  case rate => exact Option.not_isSome_iff_eq_none.symm
  case blocksize => exact not_congr (within_eq_true ..).symm
  case level => rw [decide_eq_true_eq, not_le]; rfl
  case enum => simp only [Bool.and_eq_true, decide_eq_true_eq]; omega
  case unsupported =>
    unfold lsqAccepted
    generalize c.lpcType.toNat = type
    by_cases h : type = 2
    · rw [if_pos h, and_iff_right h]
      cases Config.lsqFit with
      | none => exact ⟨fun _ => Bool.false_ne_true, fun _ => nofun⟩
      | some f => rw [Option.map_some, ne_eq, Option.some_inj]
    · rw [if_neg h]; exact ⟨fun hp => absurd hp.1 h, fun hn => absurd rfl hn⟩
  case order =>
    have hfixed : Config.maxFixedOrder = 4 := rfl
    have hlpc : Config.maxLpcOrder = 32 := rfl
    rw [orderBoundsOk, Bool.and_eq_true, decide_eq_true_eq]
    split
    · rw [decide_eq_true_eq]; omega
    · rw [within_eq_true]; omega
  case porder =>
    have hmax : Config.maxPartitionOrder = 8 := rfl
    rw [Bool.and_eq_true, decide_eq_true_eq, decide_eq_true_eq]; omega
  case precision => exact not_congr (within_eq_true ..).symm

/-- What a configuration accepted by `Validate ()` has: 1 to 8 channels, at most 65535 samples a block, and a rate code. -/
theorem configError_none {c : Cfg} (h : configError c = none) : (1 ≤ c.channels.toNat ∧ c.channels.toNat ≤ 8)
    ∧ c.blocksize.toNat ≤ 65535 ∧ srCodeOf c.sampleRate.toNat ≠ none := by
  rw [← validate_eq_configError] at h
  have hchecks := (firstError_eq_none _).1 h
  have hch := (within_eq_true ..).1 (hchecks _ (.head _))
  have hblock := (within_eq_true ..).1 (hchecks _ (.tail _ (.tail _ (.head _))))
  exact ⟨hch, hblock.2, Option.isSome_iff_ne_none.1 (hchecks _ (.tail _ (.head _)))⟩

/-- The budget of a valid configuration fits MAX_FRAMESIZE's 24 bits (`46_context_commands.md` R305). -/
theorem budget_lt {c : Cfg} (hch : c.channels.toNat ≤ 8) (hblock : c.blocksize.toNat ≤ 65535) : budget c < 2 ^ 24 := by
  have hprod : c.blocksize.toNat * (16 * c.channels.toNat + (if c.channels.toNat = 2 then 1 else 0)) ≤ 65535 * 129 :=
    Nat.mul_le_mul hblock (by split <;> omega)
  unfold budget
  omega

/-- A block-size code exists for every block length of a valid configuration (`30_encoding.md` R104). -/
theorem bsCodeOf_of_le {n : Nat} (h1 : 1 ≤ n) (hn : n ≤ 65535) : bsCodeOf n = some ((bsCodeOf n).getD 0) := by
  have hw : within 1 n 65535 = true := by simp [within, h1, hn]
  rw [bsCodeOf, if_pos hw]
  split <;> rfl

/-! ## The invariant and single registers -/

theorem regsInv_reset : RegsInv Regs.reset where
  footer := by decide
  locked := by decide
  unlocked := by decide
  mode := by decide
  acc := by decide
  cap := by decide
  count := by decide
  owner := fun h => absurd h (by decide)
  complete := by decide
  retry := by decide
  sticky := by decide

/-- How a command ends: STATUS.ERR is written, and an error is remembered. -/
theorem regsInv_ended {r : Regs} (h : RegsInv r) {e : ErrCode} {sticky : Bool} (hs : e ≠ .noError → sticky = true) :
    RegsInv { r with err := e, errSticky := sticky } := { h with sticky := hs }

/-- a0 to a7, N and OUT_CAP are free, and so are the CFG_* registers until they are locked. -/
theorem regsInv_host_written {r : Regs} (h : RegsInv r) (ops : OpRegs) (n outCap : Word32) {cfg : Cfg}
    (hcfg : r.cfgOk = true → cfg = r.cfg) :
    RegsInv { r with ops := ops, n := n, outCap := outCap, cfg := cfg } := by
  by_cases hok : r.cfgOk = true
  · rw [hcfg hok]
    exact { h with }
  · obtain ⟨hidle, -, -, hmode, -⟩ := h.unlocked (Bool.eq_false_iff.2 hok)
    exact { h with
      locked := fun hl => absurd hl hok
      mode := fun hm => absurd hmode hm
      count := ⟨h.count.1, h.count.2.1, fun hf => absurd (hidle.symm.trans hf) (by decide),
        fun hf => absurd (hidle.symm.trans hf) (by decide)⟩ }

/-! ## Commands that complete -/

section
variable {i : Instr} {s t u : State}

theorem regsInv_wrote (h : RegsInv s.regs) (hw : WriterOnly s t) : RegsInv t.regs := by
  have hacc := hw.acc h.acc
  rw [hw.regs]
  exact { h with acc := hacc }

/-- A command that needs STATUS.CFG_OK found a valid configuration, with its budget and rate code. -/
theorem channels_of_regsInv (h : RegsInv s.regs) (hcfg : s.regs.cfgOk = true) : 1 ≤ s.channels ∧ s.channels ≤ 8 :=
  (configError_none (h.locked hcfg).1).1

/-- A frame in progress has a configuration. -/
theorem cfgOk_of_regsInv (h : RegsInv s.regs) (hfsm : s.regs.fsm ≠ .idle) : s.regs.cfgOk = true := by
  by_contra hok
  exact hfsm (h.unlocked (Bool.eq_false_iff.2 hok)).1

theorem regsInv_results (h : RegsInv s.regs) (v4 v5 : Word64) {mode : BitVec 2}
    (hmode : mode = s.regs.chMode ∨ mode = 0 ∨ (s.regs.cfgOk = true ∧ s.channels = 2)) :
    RegsInv (withResults s v4 v5 mode).regs :=
  { h with
    unlocked := fun hok => by
      obtain ⟨hidle, hbw, hframe, hzero, hcount⟩ := h.unlocked hok
      refine ⟨hidle, hbw, hframe, ?_, hcount⟩
      rcases hmode with hm | hm | hm
      · exact hm.trans hzero
      · exact hm
      · exact absurd (hm.1.symm.trans hok) (by decide)
    mode := fun hne => by
      rcases hmode with hm | hm | hm
      · exact h.mode (hm ▸ hne)
      · exact absurd hm hne
      · exact hm.2 }

/-- `CFG_INIT` with a configuration that every check accepts. -/
theorem regsInv_locks (h : RegsInv s.regs) (hvalid : validate s.regs.cfg = none) :
    RegsInv { (clearStream s).regs with
      maxFramesize := BitVec.ofNat 24 (maxFramesizeOf s.channels s.regs.cfg.blocksize.toNat)
      srCode := (srCodeOf s.regs.cfg.sampleRate.toNat).getD 0
      cfgOk := true } where
  footer := by simp
  locked _ := by
    have hnone := (validate_eq_configError s.regs.cfg).symm.trans hvalid
    obtain ⟨⟨-, hch⟩, hblock, hrate⟩ := configError_none hnone
    refine ⟨hnone, ?_, ?_⟩
    · exact (BitVec.toNat_ofNat _ _).trans (Nat.mod_eq_of_lt (budget_lt hch hblock))
    · obtain ⟨code, hcode⟩ := Option.ne_none_iff_exists'.1 hrate
      simp [hcode]
  unlocked hok := absurd hok (by simp)
  mode hne := absurd rfl hne
  acc := Nat.one_pos
  cap := Nat.zero_le _
  count := by simp
  owner := by simp
  complete := by simp
  retry := by simp
  sticky := h.sticky

/-- `BW_INIT` and `WR_STREAMINFO`, which need that no frame is in progress. -/
theorem regsInv_opened (h : RegsInv s.regs) (hcfg : s.regs.cfgOk = true) (hfree : frameInProgress s.regs.fsm = false)
    (hcap : s.regs.outCap.toNat ≤ Config.outSize) (hw : WriterOnly (writerInit s s.regs.outCap) u) (len : Word32) :
    RegsInv { u.regs with outLen := len } := by
  have hacc := hw.acc Nat.one_pos
  rw [hw.regs]
  exact { h with
    unlocked := fun hok => absurd (hcfg.symm.trans hok) (by decide)
    acc := hacc
    cap := hcap
    owner := by
      show s.regs.fsm = _ ∨ s.regs.fsm = _ ∨ s.regs.fsm = _ → _
      rintro (hf | hf | hf) <;> rw [hf] at hfree <;> exact absurd hfree (by decide)
    complete := fun hf => absurd hf (by simp [withWriter]) }

theorem regsInv_frameInit (h : RegsInv s.regs) (hcfg : s.regs.cfgOk = true) (hlen : 1 ≤ s.blockLen)
    (hblock : s.blockLen ≤ s.regs.cfg.blocksize.toNat) (hcap : s.regs.outCap.toNat ≤ Config.outSize) (retry : Bool) :
    RegsInv (frameInitEffect retry s).regs :=
  { h with
    footer := by simp [frameInitEffect]
    unlocked := fun hok => absurd (hcfg.symm.trans hok) (by decide)
    acc := Nat.one_pos
    cap := hcap
    count := by simp [frameInitEffect]
    owner := fun _ => ⟨rfl, s.blockLen,
      bsCodeOf_of_le hlen (hblock.trans (configError_none (h.locked hcfg).1).2.1)⟩
    complete := by simp [frameInitEffect]
    retry := by simp [frameInitEffect] }

theorem regsInv_header (h : RegsInv s.regs) (hfsm : s.regs.fsm = .init) (hw : WriterOnly s u) :
    RegsInv { u.regs with subcnt := 0, fsm := .headerWritten } := by
  have hcfg := cfgOk_of_regsInv h (by rw [hfsm]; decide)
  have hacc := hw.acc h.acc
  rw [hw.regs]
  exact { h with
    footer := by simp
    unlocked := fun hok => absurd (hcfg.symm.trans hok) (by decide)
    acc := hacc
    count := ⟨Nat.zero_le _, by simp, fun _ => (channels_of_regsInv h hcfg).1, by simp⟩
    owner := fun _ => h.owner (.inl hfsm)
    complete := fun hf => absurd ((h.complete hf).1.symm.trans hfsm) (by decide)
    retry := by simp }

theorem regsInv_subframe (h : RegsInv s.regs) (hfsm : s.regs.fsm = .headerWritten)
    (hch : s.regs.subcnt.toNat < s.channels) (hw : WriterOnly s u) :
    RegsInv { u.regs with
      subcnt := s.regs.subcnt + 1
      fsm := if (s.regs.subcnt + 1).toNat = s.channels then .subframesWritten else s.regs.fsm } := by
  have hcfg := cfgOk_of_regsInv h (by rw [hfsm]; decide)
  have hle := (channels_of_regsInv h hcfg).2
  have hcnt : (s.regs.subcnt + 1).toNat = s.regs.subcnt.toNat + 1 := by
    rw [BitVec.toNat_add, show (1 : BitVec 4).toNat = 1 from rfl]; omega
  have hacc := hw.acc h.acc
  have hnew : ∀ f, (if (s.regs.subcnt + 1).toNat = s.channels then Fsm.subframesWritten else s.regs.fsm) = f →
      (s.regs.subcnt.toNat + 1 = s.channels ∧ f = .subframesWritten)
        ∨ (s.regs.subcnt.toNat + 1 < s.channels ∧ f = .headerWritten) := by
    rintro _ rfl
    rw [hcnt, hfsm]
    split
    · exact .inl ⟨‹_›, rfl⟩
    · exact .inr ⟨by omega, rfl⟩
  rw [hw.regs]
  exact { h with
    footer := fun hf => by simpa using hnew _ hf
    unlocked := fun hok => absurd (hcfg.symm.trans hok) (by decide)
    acc := hacc
    count := by
      refine ⟨by show (s.regs.subcnt + 1).toNat ≤ 8; omega, fun hf => ?_, fun hf => ?_, fun hf => ?_⟩
      · simpa using hnew _ hf
      · show (s.regs.subcnt + 1).toNat < s.channels
        rw [hcnt]; simpa using hnew _ hf
      · show (s.regs.subcnt + 1).toNat = s.channels
        rw [hcnt]; simpa using hnew _ hf
    owner := fun _ => h.owner (.inr (.inl hfsm))
    complete := fun hf => absurd ((h.complete hf).1.symm.trans hfsm) (by decide)
    retry := fun hf => by simpa using hnew _ hf }

/-- `WR_FOOTER` with no room for the frame: the retry is still to come, or the frame has failed. -/
theorem regsInv_overflow (h : RegsInv s.regs) (hfsm : s.regs.fsm = .subframesWritten) (hw : WriterOnly s u) {f : Fsm}
    (hf : f = .overflowRetry ∧ u.regs.retried = false ∨ f = .failed) : RegsInv (u.setFsm f).regs := by
  have hcfg := cfgOk_of_regsInv h (by rw [hfsm]; decide)
  have hacc := hw.acc h.acc
  have hne : f ≠ .footerWritten ∧ f ≠ .init ∧ f ≠ .headerWritten ∧ f ≠ .subframesWritten := by
    rcases hf with ⟨rfl, -⟩ | rfl <;> decide
  obtain ⟨hfooter, hinit, hheader, hsub⟩ := hne
  have hretry : f = .overflowRetry → s.regs.retried = false := by
    rw [← hw.kept Regs.retried fun _ _ => rfl]
    rintro rfl
    exact hf.elim (·.2) (fun hno => absurd hno (by decide))
  rw [State.setFsm, hw.regs]
  exact { h with
    footer := hfooter
    unlocked := fun hok => absurd (hcfg.symm.trans hok) (by decide)
    acc := hacc
    count := ⟨h.count.1, fun he => absurd he hinit, fun he => absurd he hheader, fun he => absurd he hsub⟩
    owner := fun he => absurd he (by simp [hinit, hheader, hsub])
    complete := fun hok => absurd ((h.complete hok).1.symm.trans hfsm) (by decide)
    retry := hretry }

/-- The parts of the invariant that do not depend on STATUS.FSM hold after the steps of a frame. -/
theorem frameRun_keeps (h : RegsInv s.regs) (hcfg : s.regs.cfgOk = true)
    (hcap : s.regs.outCap.toNat ≤ Config.outSize ∨ u.regs.bwCap = s.regs.bwCap) (hu : FrameRun s u) :
    (configError u.regs.cfg = none ∧ u.regs.maxFramesize.toNat = budget u.regs.cfg
        ∧ some u.regs.srCode = srCodeOf u.regs.cfg.sampleRate.toNat)
      ∧ u.regs.cfgOk = true ∧ (u.regs.chMode ≠ 0 → u.regs.cfg.channels.toNat = 2) ∧ u.regs.bwCap.toNat ≤ 2097152
      ∧ u.regs.subcnt.toNat ≤ 8 ∧ (u.regs.err ≠ .noError → u.regs.errSticky = true) := by
  have hlocked := h.locked hcfg
  refine ⟨?_, ?_, fun hne => ?_, ?_, ?_, ?_⟩
  · rw [hu.cfg, hu.kept Regs.maxFramesize fun _ _ => rfl, hu.kept Regs.srCode fun _ _ => rfl]
    exact hlocked
  · exact (hu.kept Regs.cfgOk fun _ _ => rfl).trans hcfg
  · rw [hu.cfg]
    rcases hu.mode with hm | hm | hm
    · exact h.mode (hm ▸ hne)
    · exact absurd hm hne
    · exact hm
  · rcases hu.cap with hc | hc
    · rw [hc]; exact h.cap
    · rcases hcap with hle | hc'
      · rw [hc]; exact hle
      · rw [hc']; exact h.cap
  · rcases hu.subcnt with hc | hc
    · rw [hc]; exact h.count.1
    · have hle := (channels_of_regsInv h hcfg).2
      rw [hc, BitVec.toNat_ofNat]
      exact (Nat.mod_le _ _).trans hle
  · rw [hu.kept Regs.err fun _ _ => rfl, hu.kept Regs.errSticky fun _ _ => rfl]
    exact h.sticky

/-- DONE: the frame fits its budget and the capacity. -/
theorem regsInv_done (h : RegsInv s.regs) (hcfg : s.regs.cfgOk = true)
    (hcap : s.regs.outCap.toNat ≤ Config.outSize ∨ u.regs.bwCap = s.regs.bwCap) (hu : FrameRun s u) {len : Nat}
    (hfit : len ≤ u.regs.maxFramesize.toNat) (hlen : len ≤ u.regs.bwCap.toNat) : RegsInv (frameDone u len).regs := by
  obtain ⟨hlocked, hok, hmode, hbw, hcnt, hsticky⟩ := frameRun_keeps h hcfg hcap hu
  have hout : (BitVec.ofNat 32 len).toNat = len := by
    have := u.regs.bwCap.isLt
    exact (BitVec.toNat_ofNat _ _).trans (Nat.mod_eq_of_lt (by omega))
  exact {
    footer := by simp
    locked := fun _ => hlocked
    unlocked := fun hno => absurd (hok.symm.trans hno) (by decide)
    mode := hmode
    acc := hu.acc h.acc
    cap := hbw
    count := ⟨hcnt, by simp⟩
    owner := by simp
    complete := fun _ => ⟨rfl, hout.trans_le hfit, hout.trans_le hlen⟩
    retry := by simp
    sticky := hsticky }

/-- An `ENCODE_FRAME` that fails during execution. -/
theorem regsInv_encodeFailed (h : RegsInv s.regs) (hcfg : s.regs.cfgOk = true)
    (hcap : s.regs.outCap.toNat ≤ Config.outSize) (hu : FrameRun s u) : RegsInv (encodeFailed u).regs := by
  obtain ⟨hlocked, hok, hmode, hbw, hcnt, hsticky⟩ := frameRun_keeps h hcfg (.inl hcap) hu
  rw [encodeFailed_regs]
  exact {
    footer := by simp
    locked := fun _ => hlocked
    unlocked := fun hno => absurd (hok.symm.trans hno) (by decide)
    mode := hmode
    acc := by
      rw [BitVec.toNat_ofNat]
      exact (Nat.mod_le _ _).trans_lt (Nat.mod_lt _ (Nat.two_pow_pos _))
    cap := hbw
    count := ⟨hcnt, by simp⟩
    owner := by simp
    complete := by simp
    retry := by simp
    sticky := hsticky }

/-- `CFG_INIT` with a configuration that is rejected. -/
theorem regsInv_rejects (h : RegsInv s.regs) :
    RegsInv { (clearStream s).regs with cfgOk := false, maxFramesize := 0, srCode := 0 } where
  footer := by simp
  locked := by simp
  unlocked := by simp
  mode hne := absurd rfl hne
  acc := Nat.one_pos
  cap := Nat.zero_le _
  count := by simp
  owner := by simp
  complete := by simp
  retry := by simp
  sticky := h.sticky

/-- A command that completes keeps the invariant. -/
theorem regsInv_of_completes (h : RegsInv s.regs) (hc : Completes i s t) : RegsInv t.regs := by
  cases hc with
  | results v4 v5 mode _ _ hmode regs => rw [regs]; exact regsInv_results h v4 v5 hmode
  | reset _ regs => rw [regs]; exact regsInv_reset
  | locked _ hvalid regs => rw [regs]; exact regsInv_locks h hvalid
  | wrote hw => exact regsInv_wrote h hw
  | opened u len hcfg hfree hcap hw regs => rw [regs]; exact regsInv_opened h hcfg hfree hcap hw len
  | frameInit retry hcfg hlen hblock hcap regs => rw [regs]; exact regsInv_frameInit h hcfg hlen hblock hcap retry
  | header u hfsm hw regs => rw [regs]; exact regsInv_header h hfsm hw
  | subframe u hfsm hch hw regs => rw [regs]; exact regsInv_subframe h hfsm hch hw
  | done u len _ hcfg hcap hu hfit hlen regs => rw [regs]; exact regsInv_done h hcfg hcap hu hfit hlen
  | overflow u hfsm hw hfirst regs => rw [regs]; exact regsInv_overflow h hfsm hw (.inl ⟨rfl, hfirst⟩)

/-- A command that fails keeps the invariant. -/
theorem regsInv_of_aborts (h : RegsInv s.regs) (ha : Aborts i s t) : RegsInv t.regs := by
  cases ha with
  | unchanged regs => rw [regs]; exact h
  | rejected _ regs => rw [regs]; exact regsInv_rejects h
  | overflow u hfsm hw regs => rw [regs]; exact regsInv_overflow h hfsm hw (.inr rfl)
  | failed u hcfg hcap hu regs => rw [regs]; exact regsInv_encodeFailed h hcfg hcap hu

theorem exec_keeps_regsInv (h : RegsInv s.regs) (hexec : exec i s = .next t) : RegsInv t.regs := by
  obtain ⟨-, -, ⟨u, hc, regs⟩ | ⟨u, e, ha, regs⟩⟩ := exec_cases hexec <;> rw [regs]
  · exact regsInv_ended (regsInv_of_completes h hc) (fun hne => absurd rfl hne)
  · exact regsInv_ended (regsInv_of_aborts h ha) (fun _ => rfl)

end

/-! ## Port accesses -/

theorem writeRegister_keeps_regsInv {r : Regs} (h : RegsInv r) (number : Nat) (v : Word64) :
    RegsInv (writeRegister r number v) := by
  rcases writeRegister_cases r number v with ⟨-, he⟩ | ⟨-, he⟩ | ⟨-, hok, he⟩ | ⟨-, he⟩ | ⟨-, -, -, -, he⟩ <;> rw [he]
  · exact regsInv_host_written h r.ops _ r.outCap fun _ => rfl
  · exact regsInv_host_written h r.ops r.n _ fun _ => rfl
  · exact regsInv_host_written h r.ops r.n r.outCap fun hl => absurd (hok.symm.trans hl) (by decide)
  · exact regsInv_host_written h _ r.n r.outCap fun _ => rfl
  · exact h

theorem portWrite_regs (s : State) (space index : Nat) (data : Word64) : (portWrite s space index data).regs = s.regs := by
  unfold portWrite
  split
  · split <;> rfl
  · rfl

theorem portAccess_keeps_regsInv {s : State} (h : RegsInv s.regs) (a : HostAction) : RegsInv (portAccess s a).regs := by
  cases a with
  | rreg number => exact h
  | wreg number data => exact writeRegister_keeps_regsInv h number data
  | rmem space index => exact h
  | wmem space index data =>
    show RegsInv (portWrite s space index data).regs
    rw [portWrite_regs]
    exact h
  | resetInput => exact regsInv_reset

theorem runWord_keeps_regsInv {w : Word32} {s t : State} (h : RegsInv s.regs) (hrun : runWord w s = .next t) :
    RegsInv t.regs := by
  unfold runWord at hrun
  split at hrun
  · exact exec_keeps_regsInv h hrun
  · rw [illegalCommand_eq] at hrun
    obtain rfl := Host.Outcome.next.inj hrun
    exact regsInv_ended h (fun _ => rfl)

theorem runAccess_keeps_regsInv {a : HostAction} {s t : State} (h : RegsInv s.regs) (hrun : runAccess a s = .next t) :
    RegsInv t.regs := by
  unfold runAccess at hrun
  split at hrun
  · exact runWord_keeps_regsInv h hrun
  · obtain rfl := Host.Outcome.next.inj hrun
    exact portAccess_keeps_regsInv h a

/-- Settles O59: a step is an access, an access is a command, a word that is no command, or a port access, and each keeps
the invariant. -/
theorem step_keeps_registers : Obligations.step_keeps_registers := by
  intro s t h hstep
  cases hhost : s.host with
  | nil =>
    simp only [step, hhost] at hstep
    obtain rfl := Host.Outcome.next.inj hstep
    exact h
  | cons a rest => exact runAccess_keeps_regsInv (s := { s with host := rest }) h ((step_cons hhost).symm.trans hstep)

end Sys2Proof.Proofs
end

section
/-!
What no command writes: the host's registers, a4 and a5 but where the opcode map names them, FRAME_COUNT but where a frame is
complete.
-/
namespace Sys2Proof.Proofs
open Sys2Proof.Machine

/-- From `r` to `q`, N, OUT_CAP and the CFG_* registers stay, and of a0 to a7 at most the results of command `i` change. -/
structure KeepsInputs (i : Instr) (r q : Regs) : Prop where
  ops : q.ops = { r.ops with a4 := q.ops.a4, a5 := q.ops.a5 }
  a4 : answersA4 i = false → q.ops.a4 = r.ops.a4
  a5 : answersA5 i = false → q.ops.a5 = r.ops.a5
  n : q.n = r.n
  outCap : q.outCap = r.outCap
  cfg : q.cfg = r.cfg

/-- What a command leaves of FRAME_COUNT, `10_state.md` R31. -/
def CountStep (i : Instr) (r q : Regs) : Prop :=
  q.frameCount = r.frameCount ∨ ((i = .reset ∨ i = .cfgInit) ∧ q.frameCount = 0)

section
variable {i : Instr} {s t : State}

theorem keepsInputs_of_eq {r q : Regs} (hops : q.ops = r.ops) (hn : q.n = r.n) (hcap : q.outCap = r.outCap)
    (hcfg : q.cfg = r.cfg) : KeepsInputs i r q :=
  ⟨by rw [hops], fun _ => by rw [hops], fun _ => by rw [hops], hn, hcap, hcfg⟩

theorem WriterOnly.keepsInputs (h : WriterOnly s t) : KeepsInputs i s.regs t.regs := by
  rw [h.regs]; exact keepsInputs_of_eq rfl rfl rfl rfl

theorem FrameStep.keepsInputs (h : FrameStep s t) : KeepsInputs i s.regs t.regs := by
  rw [h.regs]; exact keepsInputs_of_eq rfl rfl rfl rfl

theorem keepsInputs_withResults {v4 v5 : Word64} {mode : BitVec 2} (h4 : v4 = s.regs.ops.a4 ∨ answersA4 i = true)
    (h5 : v5 = s.regs.ops.a5 ∨ answersA5 i = true) : KeepsInputs i s.regs (withResults s v4 v5 mode).regs where
  ops := rfl
  a4 hno := h4.resolve_right (by rw [hno]; decide)
  a5 hno := h5.resolve_right (by rw [hno]; decide)
  n := rfl
  outCap := rfl
  cfg := rfl

theorem keepsInputs_of_completes (hc : Completes i s t) (hi : i ≠ .reset) : KeepsInputs i s.regs t.regs := by
  cases hc with
  | results v4 v5 mode h4 h5 _ regs => rw [regs]; exact keepsInputs_withResults h4 h5
  | reset hi' _ => exact absurd hi' hi
  | locked _ _ regs => rw [regs]; exact keepsInputs_of_eq rfl rfl rfl rfl
  | wrote hw => exact hw.keepsInputs
  | opened u _ _ _ _ hw regs => rw [regs]; exact { hw.keepsInputs with }
  | frameInit _ _ _ _ _ regs => rw [regs]; exact keepsInputs_of_eq rfl rfl rfl rfl
  | header u _ hw regs => rw [regs]; exact { hw.keepsInputs with }
  | subframe u _ _ hw regs => rw [regs]; exact { hw.keepsInputs with }
  | done u _ _ _ _ hu _ _ regs => rw [regs]; exact { hu.keepsInputs with }
  | overflow u _ hw _ regs => rw [regs]; exact { hw.keepsInputs with }

theorem keepsInputs_of_aborts (ha : Aborts i s t) : KeepsInputs i s.regs t.regs := by
  cases ha with
  | unchanged regs => rw [regs]; exact keepsInputs_of_eq rfl rfl rfl rfl
  | rejected _ regs => rw [regs]; exact keepsInputs_of_eq rfl rfl rfl rfl
  | overflow u _ hw regs => rw [regs]; exact { hw.keepsInputs with }
  | failed u _ _ hu regs => rw [regs, encodeFailed_regs]; exact { hu.keepsInputs with }

theorem WriterOnly.frameCount (h : WriterOnly s t) : t.regs.frameCount = s.regs.frameCount :=
  h.kept Regs.frameCount fun _ _ => rfl

theorem FrameStep.frameCount (h : FrameStep s t) : t.regs.frameCount = s.regs.frameCount :=
  h.kept Regs.frameCount fun _ _ => rfl

/-- A command that completes returns FRAME_COUNT to 0, leaves it, or counts a frame that has reached DONE. -/
theorem countStep_of_completes (hc : Completes i s t) : CountStep i s.regs t.regs
    ∨ ((i = .wrFooter ∨ i = .encodeFrame) ∧ t.regs.fsm = .done ∧ t.regs.frameCount = s.regs.frameCount + 1) := by
  cases hc with
  | results _ _ _ _ _ _ regs => rw [regs]; exact .inl (.inl rfl)
  | reset hi regs => rw [regs]; exact .inl (.inr ⟨.inl hi, rfl⟩)
  | locked hi _ regs => rw [regs]; exact .inl (.inr ⟨.inr hi, rfl⟩)
  | wrote hw => exact .inl (.inl hw.frameCount)
  | opened u _ _ _ _ hw regs => rw [regs]; exact .inl (.inl hw.frameCount)
  | frameInit _ _ _ _ _ regs => rw [regs]; exact .inl (.inl rfl)
  | header u _ hw regs => rw [regs]; exact .inl (.inl hw.frameCount)
  | subframe u _ _ hw regs => rw [regs]; exact .inl (.inl hw.frameCount)
  | done u len hi _ _ hu _ _ regs =>
    rw [regs, frameDone_frameCount, hu.frameCount]
    exact .inr ⟨hi, rfl, rfl⟩
  | overflow u _ hw _ regs => rw [regs]; exact .inl (.inl hw.frameCount)

theorem countStep_of_aborts (ha : Aborts i s t) : CountStep i s.regs t.regs := by
  cases ha with
  | unchanged regs => rw [regs]; exact .inl rfl
  | rejected hi regs => rw [regs]; exact .inr ⟨.inr hi, rfl⟩
  | overflow u _ hw regs => rw [regs]; exact .inl hw.frameCount
  | failed u _ _ hu regs => rw [regs, encodeFailed_regs]; exact .inl hu.frameCount

theorem exec_keepsInputs (h : exec i s = .next t) (hi : i ≠ .reset) : KeepsInputs i s.regs t.regs := by
  obtain ⟨-, -, ⟨u, hc, regs⟩ | ⟨u, e, ha, regs⟩⟩ := exec_cases h <;> rw [regs]
  · exact { keepsInputs_of_completes hc hi with }
  · exact { keepsInputs_of_aborts ha with }

theorem exec_frameCount (h : exec i s = .next t) : CountStep i s.regs t.regs
    ∨ ((i = .wrFooter ∨ i = .encodeFrame) ∧ t.regs.fsm = .done ∧ t.regs.err = .noError
      ∧ t.regs.frameCount = s.regs.frameCount + 1) := by
  obtain ⟨-, -, ⟨u, hc, regs⟩ | ⟨u, e, ha, regs⟩⟩ := exec_cases h <;> rw [regs]
  · exact (countStep_of_completes hc).imp id fun ⟨hi, hfsm, hcount⟩ => ⟨hi, hfsm, rfl, hcount⟩
  · exact .inl (countStep_of_aborts ha)

end

/-- Settles O55: the two tables of results are those of `answersA4` and `answersA5`. -/
theorem registers_commands_leave : Obligations.registers_commands_leave := by
  intro i s t h
  obtain ⟨hhost, hread, -⟩ := exec_cases h
  have hin := exec_keepsInputs h
  refine ⟨hhost, hread, fun hi => ?_, ?_, ?_, ?_⟩
  · obtain ⟨hops, -, -, hn, hcap, hcfg⟩ := hin hi
    rw [hops]
    exact ⟨rfl, rfl, rfl, rfl, rfl, rfl, hn, hcap, hcfg⟩
  · have h4 : i ≠ .reset → answersA4 i = false → t.regs.ops.a4 = s.regs.ops.a4 := fun hi => (hin hi).a4
    cases i <;> first | exact trivial | exact h4 nofun rfl
  · have h5 : i ≠ .reset → answersA5 i = false → t.regs.ops.a5 = s.regs.ops.a5 := fun hi => (hin hi).a5
    cases i <;> first | exact trivial | exact h5 nofun rfl
  · exact or_assoc.1 (exec_frameCount h)

end Sys2Proof.Proofs
end

section
/-!
The other accesses of the host, and the state after reset.
-/
namespace Sys2Proof.Proofs
open Sys2Proof.Machine

theorem runAccess_of_commandWord_none {a : HostAction} (h : commandWord a = none) (s : State) :
    runAccess a s = .next (portAccess s a) := by
  rw [runAccess, h]

/-- Settles O7: none of these accesses writes CMD. -/
theorem step_other_accesses : Obligations.step_other_accesses := by
  intro s rest
  have hport : ∀ a, commandWord a = none → s.host = a :: rest →
      step s = .next (portAccess { s with host := rest } a) := fun a ha hhost =>
    (step_cons hhost).trans (runAccess_of_commandWord_none ha _)
  refine ⟨fun hhost => ?_, fun number => hport _ rfl, fun number data hne => hport _ (if_neg hne),
    fun space index => hport _ rfl, fun space index data => hport _ rfl,
    fun hhost => ⟨_, hport _ rfl hhost, rfl, rfl, rfl⟩⟩
  simp only [step, hhost]

/-- No element is known after reset (`10_state.md` R54). -/
theorem memGet?_unspecified (sp : Space) (i : Nat) : memGet? Mems.unspecified sp i = none := by
  cases sp <;> rfl

/-- Every register at its reset value, as the port reads it: ID and STATUS are not 0 (`10_state.md` R54). -/
theorem readRegister_reset (number : Nat) : readRegister Regs.reset number
    = if number = 0x00 then 0x4C504231 else if number = 0x01 then 0x00000070 else 0 := by
  by_cases h0 : number = 0x00
  · subst h0; rfl
  by_cases h1 : number = 0x01
  · subst h1; rfl
  rw [if_neg h0, if_neg h1]
  unfold readRegister
  split <;> first | exact absurd rfl h0 | exact absurd rfl h1 | rfl

/-- Settles O11. -/
theorem reset_values : Obligations.reset_values := by
  refine ⟨readRegister_reset, rfl, rfl, memGet?_unspecified, fun s rest hhost => ?_, fun s => rfl⟩
  obtain ⟨-, -, -, -, -, hreset⟩ := step_other_accesses s rest
  obtain ⟨t, hstep, hregs, hmem, -⟩ := hreset hhost
  exact ⟨t, hstep, hregs, fun sp i => hmem ▸ memGet?_unspecified sp i⟩

/-- Settles O58: the registers by `regsInv_reset`, and no element is listed. -/
theorem reset_has_invariant : Obligations.reset_has_invariant := by
  refine ⟨regsInv_reset, wf_reset, fun sp i hsome => ?_⟩
  have hnone : memGet? State.reset.mem sp i = none := memGet?_unspecified sp i
  rw [hnone] at hsome
  exact absurd hsome (by decide)

end Sys2Proof.Proofs
end

section
/-!
What a store does to the memories: `MemStep`, and the runs of indices that `20_memory.md` R60 calls valid.
-/
namespace Sys2Proof.Proofs
open Sys2Proof.Machine

/-- What becomes of the memories when a command computes only valid indices (`20_memory.md` R79), which is known under `ok`,
and does not touch OUT at or above `cap` (R65). -/
structure MemStep (ok : Prop) (cap : Nat) (m m' : Mems) : Prop where
  wf : Memory.wf m = true → Memory.wf m' = true
  above : ∀ j, cap ≤ j → memGet? m' .out j = memGet? m .out j
  listed : ok → ∀ sp i, (memGet? m' sp i).isSome = true → (memGet? m sp i).isSome = true ∨ sp.valid i = true

/-- The `n` indices of a space from `lo` are valid. -/
def ValidRun (sp : Space) (lo n : Nat) : Prop := ∀ i, lo ≤ i → i < lo + n → sp.valid i = true

/-! ## One store after another -/

section
variable {ok : Prop} {cap : Nat} {m m' m'' : Mems}

theorem MemStep.refl (ok : Prop) (cap : Nat) (m : Mems) : MemStep ok cap m m := ⟨id, fun _ _ => rfl, fun _ _ _ => .inl⟩

theorem MemStep.trans (h : MemStep ok cap m m') (h' : MemStep ok cap m' m'') : MemStep ok cap m m'' where
  wf := h'.wf ∘ h.wf
  above j hj := (h'.above j hj).trans (h.above j hj)
  listed hok sp i hi := (h'.listed hok sp i hi).elim (h.listed hok sp i) .inr

theorem MemStep.imp {ok' : Prop} (h : MemStep ok cap m m') (himp : ok' → ok) : MemStep ok' cap m m' :=
  ⟨h.wf, h.above, h.listed ∘ himp⟩

/-- Memories that had the invariant keep it. -/
theorem MemStep.memInv (h : MemStep ok cap m m') (hok : ok) (hm : MemInv m) : MemInv m' := by
  obtain ⟨hwf, hvalid⟩ := hm
  refine ⟨h.wf hwf, fun sp i hi => ?_⟩
  rcases h.listed hok sp i hi with hold | hnew
  · exact hvalid sp i hold
  · exact (spaceRow_valid sp i).2 hnew

theorem memStep_memPut (m : Mems) {sp : Space} {lo : Nat} {vals : List Int}
    (hout : sp = .out → lo + vals.length ≤ cap) (hrun : ok → ValidRun sp lo vals.length) :
    MemStep ok cap m (memPut m sp lo vals) where
  wf := wf_memPut sp lo vals
  above j hj := by
    rw [memGet?_memPut, if_neg]
    rintro ⟨hsp, -, hlt⟩
    have := hout hsp.symm
    omega
  listed hok sp' i hi := by
    rw [memGet?_memPut] at hi
    split at hi
    next h => obtain ⟨rfl, hlo, hlt⟩ := h; exact .inr (hrun hok i hlo hlt)
    next => exact .inl hi

theorem memStep_erase (m : Mems) {rs : List Range} (hout : ∀ r ∈ rs, r.1 = .out → r.2.1 + r.2.2 ≤ cap) :
    MemStep ok cap m (rs.foldl (fun m r => memErase m r.1 r.2.1 r.2.2) m) where
  wf := wf_foldl_memErase rs
  above j hj := by
    rw [memGet?_foldl_memErase, if_neg]
    simp only [List.any_eq_true, Bool.and_eq_true, decide_eq_true_eq]
    rintro ⟨r, hr, ⟨hsp, -⟩, hlt⟩
    have := hout r hr hsp
    omega
  listed _ sp i hi := by
    rw [memGet?_foldl_memErase] at hi
    split at hi
    · exact absurd hi (by simp)
    · exact .inl hi

/-- A loop over stores. -/
theorem memStep_foldl {α : Type} {f : State → α → State} {l : List α} (s : State)
    (h : ∀ s, ∀ x ∈ l, MemStep ok cap s.mem (f s x).mem) : MemStep ok cap s.mem (l.foldl f s).mem := by
  induction l generalizing s with
  | nil => exact .refl ..
  | cons x t ih => exact (h s x (.head _)).trans (ih _ fun s y hy => h s y (.tail _ hy))

theorem memStep_foldr {α : Type} {f : α → State → State} {l : List α} (s : State)
    (h : ∀ s, ∀ x ∈ l, MemStep ok cap s.mem (f x s).mem) : MemStep ok cap s.mem (l.foldr f s).mem := by
  rw [← List.foldl_reverse]
  exact memStep_foldl s fun s x hx => h s x (List.mem_reverse.1 hx)

end

/-! ## Valid runs -/

theorem ValidRun.mono {sp : Space} {lo n k : Nat} (h : ValidRun sp lo n) (hk : k ≤ n) : ValidRun sp lo k :=
  fun i hlo hlt => h i hlo (by omega)

theorem validRun_start {sp : Space} {n len : Nat} (h : ∀ i, i < len → sp.valid i = true) (hn : n ≤ len) :
    ValidRun sp 0 n := fun i _ hlt => h i (by omega)

theorem validRun_win {n : Nat} (hn : n ≤ 65535) : ValidRun .win 0 n :=
  validRun_start (fun _ hi => decide_eq_true hi) hn

theorem validRun_autoc {n : Nat} (hn : n ≤ 33) : ValidRun .autoc 0 n :=
  validRun_start (fun _ hi => decide_eq_true hi) hn

theorem validRun_stsum : ValidRun .stsum 0 4 := validRun_start (fun _ hi => decide_eq_true hi) le_rfl

theorem validRun_score : ValidRun .score 0 4 := validRun_start (fun _ hi => decide_eq_true hi) le_rfl

/-- The bytes of OUT below its size. -/
theorem validRun_out {j : Nat} (hj : j < Config.outSize) : ValidRun .out j 1 := fun i _ hlt =>
  decide_eq_true (by omega)

/-- A row of SMP. -/
theorem validRun_smp {ch n : Nat} (hch : ch < 8) (hn : n ≤ 65535) : ValidRun .smp (chIndex ch 0) n := fun i hlo hlt => by
  simp only [chIndex] at hlo hlt
  simp only [Space.valid, Bool.and_eq_true, decide_eq_true_eq]
  omega

/-- A row of RES. -/
theorem validRun_res {ch n : Nat} (hch : ch < 8) (hn : n ≤ 65535) : ValidRun .res (chIndex ch 0) n := validRun_smp hch hn

/-- Coefficients of an order in QC. -/
theorem validRun_qc {o n : Nat} (ho : o ≤ 32) (hn : n ≤ o) : ValidRun .qc (coefIndex o 1) n := fun i hlo hlt => by
  simp only [coefIndex] at hlo hlt
  simp only [Space.valid, Bool.and_eq_true, decide_eq_true_eq]
  omega

/-- Coefficients of an order in LPCF. -/
theorem validRun_lpcf {o n : Nat} (ho : o ≤ 32) (hn : n ≤ o) : ValidRun .lpcf (coefIndex o 1) n := validRun_qc ho hn

theorem validRun_refl {o : Nat} (ho : o ≤ 32) : ValidRun .refl (o - 1) 1 := fun i _ hlt => decide_eq_true (by omega)

theorem validRun_qsh {o : Nat} (ho : o ≤ 32) : ValidRun .qsh (o - 1) 1 := fun i _ hlt => decide_eq_true (by omega)

/-- The sums of a partition order. -/
theorem validRun_sums {p : Nat} (hp : p ≤ 8) : ValidRun .sums (sumsIndex p 0) (2 ^ p) := fun i hlo hlt => by
  simp only [sumsIndex] at hlo hlt
  have hle : 2 ^ p ≤ 2 ^ 8 := Nat.pow_le_pow_right (by decide) hp
  have hpos : i / 256 = p := by omega
  simp only [Space.valid, Bool.and_eq_true, decide_eq_true_eq, hpos]
  omega

/-- Fields of a record that are not reserved (`20_memory.md` R68). -/
theorem validRun_subrec {ch f n : Nat} (hch : ch < 8)
    (hf : f + n ≤ 7 ∨ (32 ≤ f ∧ f + n ≤ 64) ∨ (256 ≤ f ∧ f + n ≤ 512)) : ValidRun .subrec (recIndex ch f) n :=
  fun i hlo hlt => by
    simp only [recIndex] at hlo hlt
    simp only [Space.valid, Bool.and_eq_true, Bool.or_eq_true, decide_eq_true_eq]
    omega

end Sys2Proof.Proofs
end

section
/-!
How long the lists are that commands compute and store.
-/
namespace Sys2Proof.Proofs
open Sys2Proof.Machine

theorem mem_upto {lo hi x : Nat} : x ∈ upto lo hi ↔ lo ≤ x ∧ x ≤ hi := by
  rw [upto, List.mem_range'_1]; omega

theorem upto_length (lo hi : Nat) : (upto lo hi).length = hi + 1 - lo := List.length_range'

/-! ## Residuals and coefficients -/

theorem residualsFrom_length (q : List Int) (sh : Nat) (hist l : List Int) :
    (residualsFrom q sh hist l).length = l.length := by
  induction l generalizing hist with
  | nil => rfl
  | cons x t ih => rw [residualsFrom, List.length_cons, List.length_cons, ih]

/-- A residual sequence is as long as its block (`42_linear_predictor.md` R190). -/
theorem predictRes_length (order : Nat) (q : List Int) (sh : Nat) (smp : List Int) :
    (predictRes order q sh smp).length = smp.length := by
  rw [predictRes, List.length_append, residualsFrom_length, ← List.length_append, List.take_append_drop]

theorem samples_length (s : State) (ch n : Nat) : (s.samples ch n).length = n := readRun_length ..

theorem welchOf_length (n : Nat) (smp : List Int) : (welchOf n smp).length = smp.length := by simp [welchOf]

theorem autocorrOf_length (win : List Flt) (maxorder : Nat) : (autocorrOf win maxorder).length = maxorder + 1 := by
  rw [autocorrOf, List.length_map, upto_length, Nat.sub_zero]

theorem quantRound_length (sh : Nat) (qmin qmax : Int) (e : Flt) (c : List Flt) :
    (quantRound sh qmin qmax e c).length = c.length := by
  induction c generalizing e with
  | nil => rfl
  | cons x t ih => rw [quantRound, List.length_cons, List.length_cons, ih]

theorem quantizeOf_length (c : List Flt) (prec : Nat) : (quantizeOf c prec).1.length = c.length := by
  simp only [quantizeOf]
  split
  · split
    · exact quantRound_length ..
    · rw [quantRound_length, List.length_map]
  · exact List.length_map _

theorem coefRow_length (s : State) (o : Nat) : (coefRow s o).length = o := by
  rw [coefRow, State.readReals, List.length_map, readRun_length]

/-- Order by order, a row has as many coefficients as its order, and the last row is the one in progress. -/
structure LevRows (st : LevState) : Prop where
  row : st.row.length = st.rows.length
  rows : ∀ r i, st.rows[i]? = some r → r.1.length = i + 1

theorem levRows_step (ac : List Flt) {st : LevState} (h : LevRows st) (i : Nat) : LevRows (levinsonStep ac st i) where
  row := by simp [levinsonStep, h.row]
  rows r j hj := by
    simp only [levinsonStep, List.getElem?_append] at hj
    split at hj
    · exact h.rows r j hj
    · obtain ⟨hlt, rfl⟩ := List.getElem?_eq_some_iff.1 hj
      simp only [List.length_singleton] at hlt
      simp [h.row]
      omega

/-- The rows of `LEVINSON`: one for each order, and order o has o coefficients (`42_linear_predictor.md` R195). -/
theorem levinsonOf_rows (ac : List Flt) (maxorder : Nat) : (levinsonOf ac maxorder).length = maxorder
    ∧ ∀ r i, (levinsonOf ac maxorder)[i]? = some r → r.1.length = i + 1 := by
  have hfold : ∀ (l : List Nat) (st : LevState), LevRows st → LevRows (l.foldl (levinsonStep ac) st)
      ∧ (l.foldl (levinsonStep ac) st).rows.length = st.rows.length + l.length := by
    intro l
    induction l with
    | nil => exact fun st h => ⟨h, rfl⟩
    | cons i t ih =>
      intro st h
      obtain ⟨hrows, hlen⟩ := ih _ (levRows_step ac h i)
      refine ⟨hrows, hlen.trans ?_⟩
      simp only [levinsonStep, List.length_append, List.length_cons, List.length_nil]
      omega
  obtain ⟨hrows, hlen⟩ := hfold (upto 1 maxorder) ⟨ac.getD 0 (Flt.zero false), [], []⟩ ⟨rfl, by simp⟩
  exact ⟨hlen.trans (by simp [upto_length]), hrows.rows⟩

/-! ## Rice plans -/

theorem pairSums_length (l : List Nat) : (pairSums l).length = (l.length + 1) / 2 := by
  induction l using pairSums.induct with
  | case1 a b t ih => simp only [pairSums, List.length_cons, ih]; omega
  | case2 l h =>
    match l, h with
    | [], _ => rfl
    | [_], _ => simp [pairSums]
    | a :: b :: t, h => exact absurd rfl (h a b t)

/-- Summing neighbours `j` times leaves 2^k of 2^(k + j) sums. -/
theorem repeat_pairSums_length (j k : Nat) (l : List Nat) (h : l.length = 2 ^ (k + j)) :
    (Nat.repeat pairSums j l).length = 2 ^ k := by
  induction j generalizing k with
  | zero => exact h
  | succ j ih =>
    rw [Nat.repeat, pairSums_length, ih (k + 1) (by rw [h]; congr 1; omega), Nat.pow_succ]
    omega

/-- SUMS[p] has 2^p sums (`41_rice_coder.md` R175); `p` beyond `pmax` is taken as `pmax`. -/
theorem partSumsAt_length (r : List Int) (n order pmax p : Nat) :
    (partSumsAt r n order pmax p).length = 2 ^ min p pmax := by
  refine repeat_pairSums_length _ _ _ ?_
  rw [List.length_map, List.length_range]
  congr 1
  omega

theorem planAt_params_length (r : List Int) (n order pmax p : Nat) :
    (planAt r n order pmax p).params.length = 2 ^ min p pmax := by
  simp only [planAt, List.length_map, List.length_zipIdx, partSumsAt_length]

theorem maxPorderOf_le (pmax n order : Nat) : maxPorderOf pmax n order ≤ pmax := by
  simp only [maxPorderOf]
  split <;> omega

/-- A plan has at most 256 parameters where partition orders are at most 8. -/
theorem calcRiceOf_params_length (r : List Int) (n order pmin : Nat) {pmax : Nat} (h : pmax ≤ 8) :
    (calcRiceOf r n order pmin pmax).params.length ≤ 256 := by
  have hplan : ∀ p, (planAt r n order (maxPorderOf pmax n order) p).params.length ≤ 256 := fun p => by
    have hle := maxPorderOf_le pmax n order
    rw [planAt_params_length, show 256 = 2 ^ 8 from rfl]
    exact Nat.pow_le_pow_right (by decide) (by omega)
  simp only [calcRiceOf]
  refine List.foldlRecOn (motive := fun best : Plan => best.params.length ≤ 256) _ _ (hplan _) fun best hbest p _ => ?_
  split
  · exact hplan p
  · exact hbest

/-! ## Prediction orders -/

/-- What a candidate of an order in lo .. hi stores, for a block of `n`: a residual for each sample, at most 256 parameters, and
at most as many coefficients as its order. -/
structure CandidateFits (n lo hi : Nat) (c : Candidate) : Prop where
  res : c.res.length = n
  params : c.plan.params.length ≤ 256
  coefs : c.q.length ≤ c.order
  order : lo ≤ c.order ∧ c.order ≤ hi

theorem fixedCandidate_fits {s : State} {ch o lo hi : Nat} {c : Candidate} (hp : s.regs.cfg.maxPorder.toNat ≤ 8)
    (h : fixedCandidate s ch o = .ok c) (ho : lo ≤ o ∧ o ≤ hi) : CandidateFits s.blockLen lo hi c := by
  simp only [fixedCandidate] at h
  split at h
  · cases h
    exact ⟨(predictRes_length ..).trans (samples_length ..), calcRiceOf_params_length _ _ _ _ hp, Nat.zero_le _, ho⟩
  · cases h

theorem lpcCandidate_fits {s : State} {ch o lo hi : Nat} {c : Candidate} (hp : s.regs.cfg.maxPorder.toNat ≤ 8)
    (h : lpcCandidate s ch o = .ok c) (ho : lo ≤ o ∧ o ≤ hi) : CandidateFits s.blockLen lo hi c := by
  simp only [lpcCandidate] at h
  split at h
  · cases h
    refine ⟨(predictRes_length ..).trans (samples_length ..), calcRiceOf_params_length _ _ _ _ hp, ?_, ho⟩
    exact ((quantizeOf_length ..).trans (coefRow_length ..)).le
  · cases h

/-- Every candidate of a search has the property. -/
def SearchAll (P : Candidate → Prop) (a : Search) : Prop := (∀ d ∈ a.done, P d) ∧ ∀ d, a.best = some d → P d

theorem searchAll_start (P : Candidate → Prop) : SearchAll P { done := [], best := none } := by simp [SearchAll]

theorem betterOf_or (best : Option Candidate) (c : Candidate) : betterOf best c = c ∨ best = some (betterOf best c) := by
  unfold betterOf
  split
  · exact .inl rfl
  · split
    · exact .inl rfl
    · exact .inr rfl

section
variable {P : Candidate → Prop} {eval : Nat → Except ErrCode Candidate} {lo hi : Nat}

theorem searchAll_visit {a b : Search} {o : Nat} (heval : ∀ c, eval o = .ok c → P c) (ha : SearchAll P a)
    (h : visit eval a o = .ok b) : SearchAll P b := by
  rcases visit_cases h with ⟨rfl, -⟩ | ⟨c, hc, -, rfl⟩
  · exact ha
  · refine ⟨fun d hd => ?_, fun d hd => ?_⟩
    · rcases List.mem_cons.1 hd with rfl | hd
      · exact heval _ hc
      · exact ha.1 d hd
    · obtain rfl := Option.some.inj hd
      rcases betterOf_or a.best c with hb | hb
      · rw [hb]; exact heval c hc
      · exact ha.2 _ hb

/-- `heval` says what the candidates of the orders lo .. hi are like; the lemmas on searches below ask only that the orders
they visit lie there. -/
theorem searchAll_visitAll {orders : List Nat} {a b : Search} (heval : ∀ o c, lo ≤ o ∧ o ≤ hi → eval o = .ok c → P c)
    (horders : ∀ o ∈ orders, lo ≤ o ∧ o ≤ hi) (ha : SearchAll P a) (h : visitAll eval a orders = .ok b) :
    SearchAll P b := by
  induction orders generalizing a with
  | nil => cases h; exact ha
  | cons o t ih =>
    rw [visitAll, List.foldlM_cons] at h
    cases hv : visit eval a o with
    | error e => rw [hv] at h; cases h
    | ok a' =>
      rw [hv] at h
      exact ih (fun o ho => horders o (.tail _ ho)) (searchAll_visit (heval o · (horders o (.head _))) ha hv) h

theorem gridOrders_mem {levels o : Nat} (hle : lo ≤ hi) (ho : o ∈ gridOrders lo hi levels) : lo ≤ o ∧ o ≤ hi := by
  simp only [gridOrders, List.mem_map, List.mem_range] at ho
  obtain ⟨i, hi', rfl⟩ := ho
  have hdiv : (hi - lo + 1) * (i + 1) / levels ≤ hi - lo + 1 := by
    refine Nat.div_le_of_le_mul ?_
    rw [Nat.mul_comm levels]
    exact Nat.mul_le_mul_left _ hi'
  omega

theorem searchAll_logVisit {al bl : Search × Nat} {step : Nat}
    (heval : ∀ o c, lo ≤ o ∧ o ≤ hi → eval o = .ok c → P c) (ha : SearchAll P al.1)
    (h : logVisit eval lo hi al step = .ok bl) : SearchAll P bl.1 := by
  simp only [logVisit] at h
  split at h
  next b hv =>
    cases h
    refine searchAll_visitAll heval (fun o ho => ?_) ha hv
    simp only [List.mem_map, List.mem_filter, withinInt, Bool.and_eq_true, decide_eq_true_eq] at ho
    obtain ⟨v, ⟨-, hlo, hhi⟩, rfl⟩ := ho
    omega
  next => cases h

theorem searchAll_logSearch {b : Search} (heval : ∀ o c, lo ≤ o ∧ o ≤ hi → eval o = .ok c → P c)
    (h : logSearch eval lo hi = .ok b) : SearchAll P b := by
  have hfold : ∀ (steps : List Nat) (al bl : Search × Nat), SearchAll P al.1 →
      steps.foldlM (logVisit eval lo hi) al = .ok bl → SearchAll P bl.1 := by
    intro steps
    induction steps with
    | nil => rintro al bl ha ⟨⟩; exact ha
    | cons step t ih =>
      intro al bl ha hf
      rw [List.foldlM_cons] at hf
      cases hv : logVisit eval lo hi al step with
      | error e => rw [hv] at hf; cases hf
      | ok al' => rw [hv] at hf; exact ih al' bl (searchAll_logVisit heval ha hv) hf
  simp only [logSearch] at h
  split at h
  next al hal => cases h; exact hfold _ _ _ (searchAll_start P) hal
  next => cases h

/-- Every method evaluates orders in lo .. hi alone, `42_linear_predictor.md` R199 to R203. -/
theorem searchAll_searchOrders {method est : Nat} {b : Search} (hle : lo ≤ hi) (hest : lo ≤ est ∧ est ≤ hi)
    (heval : ∀ o c, lo ≤ o ∧ o ≤ hi → eval o = .ok c → P c)
    (h : searchOrders method est eval lo hi = .ok b) : SearchAll P b := by
  have hvisit : ∀ orders, (∀ o ∈ orders, lo ≤ o ∧ o ≤ hi) →
      visitAll eval { done := [], best := none } orders = .ok b → SearchAll P b := fun orders horders =>
    searchAll_visitAll heval horders (searchAll_start P)
  unfold searchOrders at h
  split at h
  · exact hvisit _ (fun o ho => List.mem_singleton.1 ho ▸ hest) h
  · exact hvisit _ (fun o ho => gridOrders_mem hle ho) h
  · exact hvisit _ (fun o ho => gridOrders_mem hle ho) h
  · exact hvisit _ (fun o ho => gridOrders_mem hle ho) h
  · exact hvisit _ (fun o ho => mem_upto.1 ho) h
  · exact searchAll_logSearch heval h

end

theorem orderEstOf_mem {refl : Nat → Flt} {lo hi : Nat} (hle : lo ≤ hi) :
    lo ≤ orderEstOf refl lo hi ∧ orderEstOf refl lo hi ≤ hi := by
  unfold orderEstOf
  cases hf : (upto lo hi).reverse.find? fun i => flt (fltOfBits Config.reflThreshold) (fabs (refl i)) with
  | none => exact ⟨le_rfl, hle⟩
  | some o => exact mem_upto.1 (List.mem_reverse.1 (List.mem_of_find?_eq_some hf))

end Sys2Proof.Proofs
end

section
/-!
Effects on memory alone compute only valid indices, and none of OUT.
-/
namespace Sys2Proof.Proofs
open Sys2Proof.Machine

/-! ## Storing -/

/-- Naturals stored as integers, written as the model writes them: `map` stands over the list that is coerced first. -/
theorem castList_length (l : List Nat) : (l.map fun v => (v : Int)).length = l.length := by simp

section
variable {ok : Prop} {cap : Nat} {m : Mems} {t : State} (h : MemStep ok cap m t.mem)
include h

theorem MemStep.memWrite {sp : Space} {lo : Nat} {vals : List Int} (hsp : sp ≠ .out)
    (hrun : ok → ValidRun sp lo vals.length) : MemStep ok cap m (t.memWrite sp lo vals).mem :=
  h.trans (memStep_memPut _ (fun ho => absurd ho hsp) hrun)

theorem MemStep.storeReals {sp : Space} {lo : Nat} {vals : List Flt} (hsp : sp ≠ .out)
    (hrun : ok → ValidRun sp lo vals.length) : MemStep ok cap m (t.storeReals sp lo vals).mem :=
  h.memWrite hsp (by rwa [realPatterns_length])

theorem MemStep.setSub {ch f : Nat} {vals : List Int} (hch : ok → ch < 8)
    (hf : ok → f + vals.length ≤ 7 ∨ (32 ≤ f ∧ f + vals.length ≤ 64) ∨ (256 ≤ f ∧ f + vals.length ≤ 512)) :
    MemStep ok cap m (t.setSub ch f vals).mem :=
  h.memWrite (by decide) fun hok => validRun_subrec (hch hok) (hf hok)

/-- One of the fields 0 to 6 of a record. -/
theorem MemStep.setField {ch f : Nat} {v : Int} (hch : ok → ch < 8) (hf : f ≤ 6) :
    MemStep ok cap m (t.setSub ch f [v]).mem := h.setSub hch fun _ => .inl (Nat.succ_le_succ hf)

theorem MemStep.setResiduals {ch : Nat} {vals : List Int} (hch : ok → ch < 8) (hlen : ok → vals.length ≤ 65535) :
    MemStep ok cap m (t.setResiduals ch vals).mem :=
  h.memWrite (by decide) fun hok => validRun_res (hch hok) (hlen hok)

theorem MemStep.storeOrder {o : Nat} {row : List Flt} {k : Flt} (ho : ok → row.length ≤ o ∧ o ≤ 32) :
    MemStep ok cap m (storeOrder t o row k).mem :=
  (h.storeReals (by decide) fun hok => validRun_lpcf (ho hok).2 (ho hok).1).storeReals (by decide) fun hok =>
    validRun_refl (ho hok).2

theorem MemStep.storeQuant {o : Nat} {q : List Int} {sh : Nat} (ho : ok → q.length ≤ o ∧ o ≤ 32) :
    MemStep ok cap m (storeQuant t o q sh).mem :=
  (h.memWrite (by decide) fun hok => validRun_qc (ho hok).2 (ho hok).1).memWrite (by decide) fun hok =>
    validRun_qsh (ho hok).2

theorem MemStep.forget {rs : List Range} (hrs : ∀ r ∈ rs, r.1 = .out → r.2.1 + r.2.2 ≤ cap) :
    MemStep ok cap m (t.forget rs).mem := h.trans (memStep_erase _ hrs)

theorem MemStep.forgetSums : MemStep ok cap m (forgetSums t).mem := h.forget (by simp)

theorem MemStep.storeHead {ch : Nat} (type : Int) (order : Nat) (bits : Int) (hch : ok → ch < 8) :
    MemStep ok cap m (storeHead t ch type order bits).mem :=
  ((h.setField hch (by decide)).setField hch (by decide)).setField hch (by decide)

theorem MemStep.storePlan {ch : Nat} {p : Plan} (hch : ok → ch < 8) (hp : ok → p.params.length ≤ 256) :
    MemStep ok cap m (storePlan t ch p).mem :=
  (h.setField hch (by decide)).setSub hch fun hok => .inr (.inr ⟨le_rfl, by
    have := hp hok
    rw [castList_length]; omega⟩)

end

section
variable {ok : Prop} {cap : Nat}

theorem memStep_storeSums (s : State) (r : List Int) (n order lo : Nat) {hi : Nat} (hhi : ok → hi ≤ 8) :
    MemStep ok cap s.mem (storeSums s r n order lo hi).mem :=
  memStep_foldl s fun _ p hp => (MemStep.refl ..).memWrite (by decide) fun hok => by
    have hle := (mem_upto.1 hp).2
    rw [castList_length, partSumsAt_length, Nat.min_eq_left hle]
    exact validRun_sums (hle.trans (hhi hok))

/-! ## The coefficient fit -/

theorem memStep_welchEffect (s : State) (ch : Nat) (hn : ok → s.blockLen ≤ 65535) :
    MemStep ok cap s.mem (welchEffect s ch).mem :=
  (MemStep.refl ..).storeReals (by decide) fun hok => by
    rw [welchOf_length, samples_length]; exact validRun_win (hn hok)

theorem memStep_autocorrEffect (s : State) {maxorder : Nat} (ho : ok → maxorder ≤ 32) :
    MemStep ok cap s.mem (autocorrEffect s maxorder).mem :=
  (MemStep.refl ..).storeReals (by decide) fun hok => by
    rw [autocorrOf_length]; exact validRun_autoc (Nat.succ_le_succ (ho hok))

theorem memStep_levinsonEffect (s : State) {maxorder : Nat} (ho : ok → maxorder ≤ 32) :
    MemStep ok cap s.mem (levinsonEffect s maxorder).mem := by
  obtain ⟨hlen, hrows⟩ := levinsonOf_rows (s.readReals .autoc 0 (maxorder + 1)) maxorder
  refine memStep_foldl s fun _ r hr => (MemStep.refl ..).storeOrder fun hok => ?_
  have hget := List.mem_zipIdx_iff_getElem?.1 hr
  have hlt := (List.getElem?_eq_some_iff.1 hget).1
  have := ho hok
  exact ⟨(hrows r.1 r.2 hget).le, by omega⟩

theorem memStep_lsqEffect (f : Config.LsqFit) (s : State) (ch : Nat) {maxorder : Nat} (ho : ok → maxorder ≤ 32) :
    MemStep ok cap s.mem (lsqEffect f s ch maxorder).mem :=
  memStep_foldl s fun _ o hmem => by
    have hle := (mem_upto.1 hmem).2
    refine ((MemStep.refl ..).memWrite (by decide) fun hok => ?_).memWrite (by decide) fun hok =>
      validRun_refl (hle.trans (ho hok))
    rw [List.length_map, upto_length]
    exact validRun_lpcf (hle.trans (ho hok)) (Nat.add_sub_cancel ..).le

/-! ## The subframe encoder -/

/-- The bounds that a valid configuration and a block length of at most CFG_BLOCKSIZE give (`46_context_commands.md` R304,
`10_state.md` R27). -/
structure InLimits (r : Regs) : Prop where
  channels : r.cfg.channels.toNat ≤ 8
  block : r.n.toNat ≤ 65535
  porder : r.cfg.maxPorder.toNat ≤ 8
  order : r.cfg.lpcType.toNat ≠ 0 →
    r.cfg.minOrder.toNat ≤ r.cfg.maxOrder.toNat ∧ 1 ≤ r.cfg.maxOrder.toNat ∧ r.cfg.maxOrder.toNat ≤ 32

/-- `ch` is a channel of a block in limits. -/
structure ChannelIn (s : State) (ch : Nat) : Prop where
  limits : InLimits s.regs
  lt : ch < s.channels

theorem ChannelIn.lt_eight {s : State} {ch : Nat} (h : ChannelIn s ch) : ch < 8 := h.lt.trans_le h.limits.channels

theorem MemOnly.channelIn {s t : State} {ch : Nat} (h : MemOnly s t) (hs : ChannelIn s ch) : ChannelIn t ch :=
  ⟨h.regs ▸ hs.limits, by rw [State.channels, h.regs]; exact hs.lt⟩

theorem memStep_subVerbatimEffect {s : State} {ch : Nat} (h : ok → ChannelIn s ch) :
    MemStep ok cap s.mem (subVerbatimEffect ch s).mem :=
  have hch : ok → ch < 8 := fun hok => (h hok).lt_eight
  ((MemStep.refl ..).storeHead _ _ _ hch).setResiduals hch fun hok => by
    rw [samples_length]; exact (h hok).limits.block

theorem memStep_constantEffect {s : State} {ch : Nat} (h : ok → ChannelIn s ch) :
    MemStep ok cap s.mem (constantEffect ch s).mem :=
  have hch : ok → ch < 8 := fun hok => (h hok).lt_eight
  (((MemStep.refl ..).storeHead _ _ _ hch).setResiduals hch fun _ => by
    rw [samples_length]; decide).forget (by simp)

theorem memStep_rangeError {s : State} {ch : Nat} {stores : List Range} (hs : ∀ r ∈ stores, r.1 ≠ .out) :
    MemStep ok cap s.mem (s.forget (rangeErrorScratch ch ++ stores)).mem := by
  refine (MemStep.refl ..).forget fun r hr hout => absurd hout ?_
  rcases List.mem_append.1 hr with hr | hr
  · simp only [rangeErrorScratch, List.mem_cons, List.not_mem_nil, or_false] at hr
    rcases hr with rfl | rfl | rfl <;> exact nofun
  · exact hs r hr

theorem memStep_fixedPath {s : State} {ch : Nat} (h : ok → ChannelIn s ch) :
    MemStep ok cap s.mem (leftBy (fixedPath ch s)).mem := by
  simp only [fixedPath]
  split
  next c hc =>
    have hfits : ok → ∃ lo hi, CandidateFits s.blockLen lo hi c := fun hok => by
      have heval : ∀ lo hi o c, lo ≤ o ∧ o ≤ hi → fixedCandidate s ch o = .ok c → CandidateFits s.blockLen lo hi c :=
        fun _ _ _ _ ho hcand => fixedCandidate_fits (h hok).limits.porder hcand ho
      cases ha : visitAll (fixedCandidate s ch) { done := [], best := none }
          (upto (min s.regs.cfg.minOrder.toNat Config.maxFixedOrder) (min s.regs.cfg.maxOrder.toNat Config.maxFixedOrder)) with
      | error e => simp [ha, bind, Except.bind] at hc
      | ok a =>
        simp only [ha, bind, Except.bind] at hc
        split at hc
        next d hd =>
          cases hc
          exact ⟨_, _, (searchAll_visitAll (heval _ _) (fun _ => mem_upto.1) (searchAll_start _) ha).2 _ hd⟩
        next => exact ⟨_, _, heval _ _ _ _ ⟨le_rfl, le_rfl⟩ hc⟩
    have hch : ok → ch < 8 := fun hok => (h hok).lt_eight
    refine ((((MemStep.refl ..).storeHead _ _ _ hch).storePlan hch fun hok => ?_).setResiduals hch fun hok => ?_).forgetSums
    · obtain ⟨_, _, hf⟩ := hfits hok
      exact hf.params
    · obtain ⟨_, _, hf⟩ := hfits hok
      rw [hf.res]
      exact (h hok).limits.block
  next => exact memStep_rangeError (by simp)

theorem memStep_storeLpc {s : State} {ch : Nat} {a : Search} {c : Candidate} (h : ok → ChannelIn s ch)
    (hdone : ok → ∀ d ∈ a.done, CandidateFits s.blockLen 1 32 d) (hc : ok → CandidateFits s.blockLen 1 32 c) :
    MemStep ok cap s.mem (storeLpc ch s a c).mem := by
  have hch : ok → ch < 8 := fun hok => (h hok).lt_eight
  have hquant : MemStep ok cap s.mem (a.done.foldr (fun d s => storeQuant s d.order d.q d.shift) s).mem :=
    memStep_foldr s fun _ d hd => (MemStep.refl ..).storeQuant fun hok =>
      ⟨(hdone hok d hd).coefs, (hdone hok d hd).order.2⟩
  refine (((((hquant.storeHead _ _ _ hch).setSub hch fun _ => .inl ?_).setSub hch fun hok => .inr (.inl ⟨le_rfl, ?_⟩)).storePlan
    hch fun hok => (hc hok).params).setResiduals hch fun hok => ?_).forgetSums
  · exact (by decide : 3 + 2 ≤ 7)
  · have hq := (hc hok).coefs
    have ho := (hc hok).order.2
    omega
  · rw [(hc hok).res]
    exact (h hok).limits.block

/-- The orders of a search on the LPC path lie in lo .. hi, which is in 1 .. 32. -/
theorem memStep_lpcSelect {s : State} {ch lo hi : Nat} (h : ok → ChannelIn s ch) (hlo : 1 ≤ lo)
    (hhi : ok → lo ≤ hi ∧ hi ≤ 32) : MemStep ok cap s.mem (leftBy (lpcSelect ch lo hi s)).mem := by
  simp only [lpcSelect]
  split
  next a c hac =>
    have hfits : ok → (∀ d ∈ a.done, CandidateFits s.blockLen 1 32 d) ∧ CandidateFits s.blockLen 1 32 c := fun hok => by
      obtain ⟨hle, h32⟩ := hhi hok
      have heval : ∀ o c, lo ≤ o ∧ o ≤ hi → lpcCandidate s ch o = .ok c → CandidateFits s.blockLen 1 32 c :=
        fun o c ho hcand => lpcCandidate_fits (h hok).limits.porder hcand ⟨hlo.trans ho.1, ho.2.trans h32⟩
      cases hsel : selectOrder s ch lo hi with
      | error e => simp [hsel, bind, Except.bind] at hac
      | ok b =>
        have hall := searchAll_searchOrders hle (orderEstOf_mem hle) heval hsel
        simp only [hsel, bind, Except.bind] at hac
        split at hac
        next hd => cases hac; exact ⟨hall.1, hall.2 _ hd⟩
        next =>
          cases hcand : lpcCandidate s ch lo with
          | error e => simp [hcand] at hac
          | ok d =>
            simp only [hcand] at hac
            cases hac
            have hd := heval lo _ ⟨le_rfl, hle⟩ hcand
            exact ⟨fun x hx => List.mem_singleton.1 hx ▸ hd, hd⟩
    exact memStep_storeLpc h (fun hok => (hfits hok).1) fun hok => (hfits hok).2
  next => exact memStep_rangeError (by simp [lpcStores])

theorem memStep_lpcPath {s : State} {ch : Nat} (h : ok → ChannelIn s ch) (htype : s.regs.cfg.lpcType.toNat ≠ 0) :
    MemStep ok cap s.mem (leftBy (lpcPath ch s)).mem := by
  obtain ⟨hi, hhi⟩ : ∃ hi, s.regs.cfg.maxOrder.toNat = hi := ⟨_, rfl⟩
  have horder : ok → max s.regs.cfg.minOrder.toNat 1 ≤ hi ∧ hi ≤ 32 := fun hok => by
    have := (h hok).limits.order htype
    omega
  have hmax : ok → hi ≤ 32 := fun hok => (horder hok).2
  have hwin : MemOnly s (autocorrEffect (welchEffect s ch) hi) :=
    (memOnly_welchEffect s ch).trans (memOnly_autocorrEffect _ hi)
  have hwin' : MemStep ok cap s.mem (autocorrEffect (welchEffect s ch) hi).mem :=
    (memStep_welchEffect s ch fun hok => (h hok).limits.block).trans (memStep_autocorrEffect _ hmax)
  have hselect : ∀ t, MemOnly s t → MemStep ok cap s.mem t.mem →
      MemStep ok cap s.mem (leftBy (lpcSelect ch (max s.regs.cfg.minOrder.toNat 1) hi t)).mem := fun t hregs ht =>
    ht.trans (memStep_lpcSelect (fun hok => hregs.channelIn (h hok)) (le_max_right ..) horder)
  simp only [lpcPath, hhi]
  split
  · exact hselect _ (hwin.trans (memOnly_levinsonEffect _ hi)) (hwin'.trans (memStep_levinsonEffect _ hmax))
  · split
    next f _ => exact hselect _ (hwin.trans (memOnly_lsqEffect f _ ch hi)) (hwin'.trans (memStep_lsqEffect f _ ch hmax))
    next => exact .refl ..

theorem memStep_subEncodeEffect {s : State} {ch : Nat} (h : ok → ChannelIn s ch) :
    MemStep ok cap s.mem (leftBy (subEncodeEffect ch s)).mem := by
  simp only [subEncodeEffect]
  split
  · exact (memStep_constantEffect h).forgetSums
  split
  · exact (memStep_subVerbatimEffect h).forgetSums
  split
  · exact memStep_fixedPath h
  next htype => exact memStep_lpcPath h fun h0 => htype (.inl h0)

end

end Sys2Proof.Proofs
end

section
/-!
Appending bits stores bytes of OUT below BW.cap alone, and so the steps of a frame.
-/
namespace Sys2Proof.Proofs
open Sys2Proof.Machine

/-- Bits are appended: BW.cap stays, and bytes of OUT below it are all that is written (`40_bit_writer.md` R141, R155). -/
structure Appends (s t : State) : Prop where
  cap : t.regs.bwCap = s.regs.bwCap
  mem : MemStep (s.regs.bwCap.toNat ≤ Config.outSize) s.regs.bwCap.toNat s.mem t.mem

theorem Appends.refl (s : State) : Appends s s := ⟨rfl, .refl ..⟩

theorem Appends.trans {s t u : State} (h : Appends s t) (h' : Appends t u) : Appends s u where
  cap := h'.cap.trans h.cap
  mem := h.mem.trans (h.cap ▸ h'.mem)

/-- What is appended is inside the capacity that is left latched. -/
theorem Appends.memStep {ok : Prop} {s t : State} (h : Appends s t) (hcap : ok → s.regs.bwCap.toNat ≤ Config.outSize) :
    MemStep ok t.regs.bwCap.toNat s.mem t.mem := by
  rw [h.cap]; exact h.mem.imp hcap

theorem appends_putBit (s : State) (b : Bool) : Appends s (putBit s b) where
  cap := putBits_bwCap s [b]
  mem := {
    wf := wf_putBit b
    above := memGet?_putBits_above s [b]
    listed := fun hcap sp i hi => by
      rw [memGet?_putBit] at hi
      split at hi
      next h =>
        obtain ⟨rfl, -, -, hlt⟩ := h
        exact .inr (validRun_out (hlt.trans_le hcap) i le_rfl (Nat.lt_succ_self i))
      next => exact .inl hi }

theorem appends_putBits (s : State) (l : List Bool) : Appends s (putBits s l) := by
  induction l generalizing s with
  | nil => exact .refl s
  | cons b t ih => exact (appends_putBit s b).trans (ih (putBit s b))

/-- SUBCNT and STATUS.FSM are free. -/
theorem Appends.count {s t : State} (h : Appends s t) (c : BitVec 4) (f : Fsm) :
    Appends s { t with regs := { t.regs with subcnt := c, fsm := f } } := ⟨h.cap, h.mem⟩

theorem appends_putU (s : State) (w : Nat) (v : Int) : Appends s (putU s w v) := appends_putBits s _

theorem appends_flush (s : State) : Appends s (flush s) := appends_putBits s _

theorem appends_wrHeaderEffect (s : State) : Appends s (wrHeaderEffect s) :=
  .count (.trans (appends_putBits s _) (appends_putU _ 8 _)) 0 .headerWritten

theorem appends_wrSubframeEffect (ch : Nat) (s : State) : Appends s (wrSubframeEffect ch s) :=
  (appends_putBits s _).count ..

theorem appends_forChannels {eff : Nat → State → State} (h : ∀ ch s, Appends s (eff ch s)) (c : Nat) (s : State) :
    Appends s (forChannels c eff s) := by
  unfold forChannels
  generalize List.range c = chs
  induction chs generalizing s with
  | nil => exact .refl s
  | cons ch t ih => exact (h ch s).trans (ih _)

theorem appends_wrFooterEffect (s : State) : Appends s (leftBy (wrFooterEffect s)) := by
  have h := (appends_flush s).trans (appends_putU (flush s) 16 (flush s).regs.crc16Run.toNat)
  simp only [wrFooterEffect]
  generalize putU (flush s) 16 (flush s).regs.crc16Run.toNat = u at h ⊢
  split
  · exact ⟨h.cap, h.mem⟩
  · split <;> exact ⟨h.cap, h.mem⟩

/-- An attempt appends to a writer that `FRAME_INIT` has initialised with OUT_CAP. -/
theorem appends_frameAttempt (retry : Bool) (s : State) :
    Appends (frameInitEffect retry s) (leftBy (frameAttempt retry s)) := by
  unfold frameAttempt
  exact ((appends_wrHeaderEffect _).trans (appends_forChannels appends_wrSubframeEffect _ _)).trans
    (appends_wrFooterEffect _)

/-! ## The stereo selector and the channels of a frame -/

section
variable {ok : Prop} {cap : Nat}

theorem FrameStep.inLimits {s t : State} (h : FrameStep s t) (hs : InLimits s.regs) : InLimits t.regs := by
  have hn : t.regs.n = s.regs.n := h.kept Regs.n fun _ _ => rfl
  obtain ⟨hch, hblock, hporder, horder⟩ := hs
  constructor <;> simp only [h.cfg, hn]
  · exact hch
  · exact hblock
  · exact hporder
  · exact horder

/-- An effect for each of the first channels of a list. -/
theorem memStep_channels {eff : Nat → State → State} (hregs : ∀ ch s, MemOnly s (eff ch s))
    (h : ∀ ch s, (ok → ChannelIn s ch) → MemStep ok cap s.mem (eff ch s).mem) {chs : List Nat} {s : State}
    (hs : ok → ∀ ch ∈ chs, ChannelIn s ch) : MemStep ok cap s.mem (chs.foldl (fun s ch => eff ch s) s).mem := by
  induction chs generalizing s with
  | nil => exact .refl ..
  | cons ch t ih =>
    exact (h ch s fun hok => hs hok ch (.head _)).trans
      (ih fun hok c hc => (hregs ch s).channelIn (hs hok c (.tail _ hc)))

theorem channelIn_range {s : State} (h : ok → InLimits s.regs) : ok → ∀ ch ∈ List.range s.channels, ChannelIn s ch :=
  fun hok _ hch => ⟨h hok, List.mem_range.1 hch⟩

theorem memStep_subVerbatims {s : State} (h : ok → InLimits s.regs) :
    MemStep ok cap s.mem (forChannels s.channels subVerbatimEffect s).mem :=
  memStep_channels memOnly_subVerbatimEffect (fun _ _ => memStep_subVerbatimEffect) (channelIn_range h)

theorem memStep_subEncodeAll {s : State} (h : ok → InLimits s.regs) :
    MemStep ok cap s.mem (leftBy (subEncodeAll s)).mem := by
  have hs := channelIn_range h
  unfold subEncodeAll
  generalize List.range s.channels = chs at hs
  clear h
  induction chs generalizing s with
  | nil => exact .refl ..
  | cons ch t ih =>
    have hmem := memOnly_subEncodeEffect ch s
    have hch : MemStep ok cap s.mem (leftBy (subEncodeEffect ch s)).mem :=
      memStep_subEncodeEffect fun hok => hs hok ch (.head _)
    rw [List.foldlM_cons]
    cases he : subEncodeEffect ch s with
    | error p => rw [he] at hch; exact hch
    | ok u =>
      rw [he] at hch hmem
      exact hch.trans (ih fun hok c hc => hmem.channelIn (hs hok c (.tail _ hc)))

theorem memStep_deinterleaveEffect {s : State} (h : ok → InLimits s.regs) :
    MemStep ok cap s.mem (deinterleaveEffect s).mem :=
  memStep_channels (eff := fun ch s => deinterleaveChannel s ch)
    (fun _ s => ((MemOnly.refl s).memWrite ..).setSub ..)
    (fun _ _ hch => ((MemStep.refl ..).memWrite (by decide) fun hok => by
      rw [List.length_map, List.length_range]
      exact validRun_smp (hch hok).lt_eight (hch hok).limits.block).setField (fun hok => (hch hok).lt_eight) (by decide))
    (channelIn_range h)

theorem memStep_stEstimateEffect (s : State) : MemStep ok cap s.mem (stEstimateEffect s).mem := by
  simp only [stEstimateEffect]
  split
  · refine ((MemStep.refl ..).memWrite (sp := .stsum) (by decide) fun _ => ?_).memWrite (sp := .score) (by decide)
      fun _ => validRun_score
    rw [castList_length]
    exact validRun_stsum
  · exact .refl ..

theorem midOf_length (l r : List Int) : (midOf l r).length ≤ l.length := by
  rw [midOf, List.length_zipWith]; exact Nat.min_le_left ..

theorem sideOf_length (l r : List Int) : (sideOf l r).length ≤ l.length := by
  rw [sideOf, List.length_zipWith]; exact Nat.min_le_left ..

theorem memStep_stApplyEffect {s : State} (mode : Nat) (h : ok → s.blockLen ≤ 65535) :
    MemStep ok cap s.mem (stApplyEffect mode s).mem := by
  have hmid : ∀ ch r, ch < 8 → ok → ValidRun .smp (chIndex ch 0) (midOf (s.samples 0 s.blockLen) r).length :=
    fun _ _ hch hok => validRun_smp hch ((midOf_length ..).trans (by rw [samples_length]; exact h hok))
  have hside : ∀ ch r, ch < 8 → ok → ValidRun .smp (chIndex ch 0) (sideOf (s.samples 0 s.blockLen) r).length :=
    fun _ _ hch hok => validRun_smp hch ((sideOf_length ..).trans (by rw [samples_length]; exact h hok))
  have hstart : MemStep ok cap s.mem (s.setChMode mode).mem := .refl ..
  simp only [stApplyEffect]
  split
  · exact (hstart.memWrite (by decide) (hside 1 _ (by decide))).setField (fun _ => by decide) (by decide)
  · exact (hstart.memWrite (by decide) (hside 0 _ (by decide))).setField (fun _ => by decide) (by decide)
  · exact ((hstart.memWrite (by decide) (hmid 0 _ (by decide))).memWrite (by decide) (hside 1 _ (by decide))).setField
      (fun _ => by decide) (by decide)
  · exact hstart

theorem memStep_prepareSamples {s : State} (h : ok → InLimits s.regs) : MemStep ok cap s.mem (prepareSamples s).mem := by
  have hsplit : FrameStep s (deinterleaveEffect s) :=
    (frameStep_setChMode (.inl rfl)).trans (memOnly_deinterleaveEffect s).frameStep
  simp only [prepareSamples]
  split
  next hc =>
    obtain ⟨v, hv, -⟩ := memOnly_stEstimateEffect (deinterleaveEffect s)
    have hest := hsplit.trans ((frameStep_setChMode (.inr hc)).trans hv.frameStep)
    exact ((memStep_deinterleaveEffect h).trans (memStep_stEstimateEffect _)).trans
      (memStep_stApplyEffect _ fun hok => (hest.inLimits (h hok)).block)
  next => exact memStep_deinterleaveEffect h

/-! ## The composite command -/

/-- An attempt at the frame after steps that write nothing of OUT at or above OUT_CAP, which it leaves latched. -/
theorem memStep_frameAttempt {s t : State} (retry : Bool) (ht : FrameStep s t)
    (hmem : MemStep ok s.regs.outCap.toNat s.mem t.mem) (hcap : ok → s.regs.outCap.toNat ≤ Config.outSize) :
    (leftBy (frameAttempt retry t)).regs.bwCap = s.regs.outCap
      ∧ MemStep ok s.regs.outCap.toNat s.mem (leftBy (frameAttempt retry t)).mem := by
  have hout : t.regs.outCap = s.regs.outCap := ht.kept Regs.outCap fun _ _ => rfl
  have happ := appends_frameAttempt retry t
  have hinit : (frameInitEffect retry t).regs.bwCap = s.regs.outCap := hout
  refine ⟨happ.cap.trans hinit, hmem.trans ?_⟩
  rw [← hinit] at hcap ⊢
  exact happ.mem.imp hcap

theorem encodeSteps_of_ok {s t : State} (h : subEncodeAll (prepareSamples s) = .ok t) :
    encodeSteps s = frameAttempt false t >>= retryIfOverflow := by
  unfold encodeSteps; rw [h]; rfl

theorem encodeSteps_of_error {s : State} {p : ErrCode × State} (h : subEncodeAll (prepareSamples s) = .error p) :
    encodeSteps s = .error p := by
  unfold encodeSteps; rw [h]; rfl

/-- Before the first attempt nothing of OUT is written, and from then on nothing at or above OUT_CAP. -/
theorem memStep_encodeSteps {s : State} (h : ok → InLimits s.regs)
    (hcap : ok → s.regs.outCap.toNat ≤ Config.outSize) :
    MemStep ok (leftBy (encodeSteps s)).regs.bwCap.toNat s.mem (leftBy (encodeSteps s)).mem := by
  have hprep := (frameRun_prepareSamples s).toFrameStep
  have hsub := memOnly_subEncodeAll (prepareSamples s)
  have hready : ∀ cap, MemStep ok cap s.mem (leftBy (subEncodeAll (prepareSamples s))).mem := fun _ =>
    (memStep_prepareSamples h).trans (memStep_subEncodeAll fun hok => hprep.inLimits (h hok))
  cases hall : subEncodeAll (prepareSamples s) with
  | error p => rw [encodeSteps_of_error hall]; rw [hall] at hready; exact hready _
  | ok t =>
    rw [hall] at hsub hready
    have ht : FrameStep s t := hprep.trans hsub.frameStep
    obtain ⟨hlatched, hfirst⟩ := memStep_frameAttempt false ht (hready _) hcap
    rw [encodeSteps_of_ok hall]
    obtain ⟨u, hu, ⟨len, -, -, he⟩ | ⟨e, he⟩ | ⟨-, hfsm, he⟩⟩ := frameAttempt_cases false t <;>
      rw [he] at hlatched hfirst ⊢
    · rw [← hlatched] at hfirst; exact hfirst
    · rw [← hlatched] at hfirst; exact hfirst
    · have hretry : (Except.ok u >>= retryIfOverflow : Effect)
          = frameAttempt true (forChannels u.channels subVerbatimEffect u) := if_pos hfsm
      have hu' : FrameStep s u := ht.trans hu.toFrameStep
      have hverb := (memOnly_forChannels memOnly_subVerbatimEffect u.channels u).frameStep
      obtain ⟨hlatched', hsecond⟩ := memStep_frameAttempt true (hu'.trans hverb)
        (hfirst.trans (memStep_subVerbatims fun hok => hu'.inLimits (h hok))) hcap
      rw [hretry, hlatched']
      exact hsecond

/-- `ENCODE_FRAME`'s effect; a failure leaves OUT unspecified below the capacity latched by then. -/
theorem memStep_encodeFrameEffect {s : State} (h : ok → InLimits s.regs)
    (hcap : ok → s.regs.outCap.toNat ≤ Config.outSize) :
    MemStep ok (leftBy (encodeFrameEffect s)).regs.bwCap.toNat s.mem (leftBy (encodeFrameEffect s)).mem := by
  have hsteps := memStep_encodeSteps h hcap
  unfold encodeFrameEffect
  split
  next t he => rw [he] at hsteps; exact hsteps
  next e t he =>
    rw [he] at hsteps
    exact MemStep.forget (t := t) hsteps (by simp [encodeScratch, leftBy])

end

end Sys2Proof.Proofs
end

section
/-!
What every command does to the memories, said once in `exec_memory`, and the statements on memory that follow.
-/
namespace Sys2Proof.Proofs
open Sys2Proof.Machine

/-- The answer of a command in state `s`: in a state that has the invariant it computes only valid indices, and it writes
nothing of OUT at or above the capacity that it leaves latched. -/
def MemAnswers (s : State) (out : Result) : Prop :=
  ∃ t, out = .next t ∧ MemStep (RegsInv s.regs) t.regs.bwCap.toNat s.mem t.mem

section
variable {s t : State}

theorem memAnswers_succeed (h : MemStep (RegsInv s.regs) t.regs.bwCap.toNat s.mem t.mem) : MemAnswers s (succeed t) :=
  ⟨_, rfl, h⟩

theorem memAnswers_fail {e : ErrCode} (h : MemStep (RegsInv s.regs) t.regs.bwCap.toNat s.mem t.mem) :
    MemAnswers s (fail e t) := ⟨_, rfl, h⟩

theorem memAnswers_finish {e : Effect}
    (h : MemStep (RegsInv s.regs) (leftBy e).regs.bwCap.toNat s.mem (leftBy e).mem) : MemAnswers s (finish e) := by
  rcases finish_cases e with ⟨t, rfl, he⟩ | ⟨c, t, rfl, he⟩ <;> rw [he]
  · exact memAnswers_succeed h
  · exact memAnswers_fail h

/-- Memory stays as it is. -/
theorem memAnswers_same (h : t.mem = s.mem) : MemAnswers s (succeed t) :=
  memAnswers_succeed (by rw [h]; exact .refl ..)

/-- A check that fails changes nothing (`60_exceptions.md` R324(a)). -/
theorem memAnswers_command {checks : List (Bool × ErrCode)} {effect : State → Result}
    (h : (∀ c ∈ checks, c.1 = true) → MemAnswers s (effect s)) : MemAnswers s (command s checks effect) := by
  rcases command_cases s checks effect with ⟨e, -, hfail⟩ | ⟨hnone, heff⟩
  · rw [hfail]; exact memAnswers_fail (.refl ..)
  · rw [heff]; exact h ((firstError_eq_none checks).1 hnone)

/-- A command that only computes a4 and a5. -/
theorem memAnswers_query {checks : List (Bool × ErrCode)} {effect : State → State} (h : (effect s).mem = s.mem) :
    MemAnswers s (command s checks fun s => succeed (effect s)) := memAnswers_command fun _ => memAnswers_same h

/-- The writing commands, whose capacity is in bounds by the invariant. -/
theorem Appends.memAnswers (h : Appends s t) : MemAnswers s (succeed t) :=
  memAnswers_succeed (h.memStep RegsInv.cap)

/-! ## What the checks give -/

/-- A configuration that `Validate ()` accepts is in bounds (`46_context_commands.md` R304). -/
theorem inLimits_of_checks (hinv : RegsInv s.regs) {checks : List (Bool × ErrCode)} {lo : Nat}
    (h : ∀ c ∈ checks, c.1 = true) (hcfg : cfgCheck s ∈ checks) (hblock : blockCheck s lo ∈ checks) :
    InLimits s.regs := by
  have hnone := (hinv.locked (h _ hcfg)).1
  obtain ⟨⟨-, hch⟩, hsize, -⟩ := configError_none hnone
  have hlen := ((within_eq_true ..).1 (h _ hblock)).2
  rw [← validate_eq_configError] at hnone
  have hvalid := (firstError_eq_none _).1 hnone
  have horder : orderBoundsOk s.regs.cfg = true := hvalid (orderBoundsOk s.regs.cfg, .cfgOrder) (by simp [configChecks])
  have hporder := hvalid (decide (s.regs.cfg.minPorder.toNat ≤ s.regs.cfg.maxPorder.toNat)
    && decide (s.regs.cfg.maxPorder.toNat ≤ Config.maxPartitionOrder), .cfgPorder) (by simp [configChecks])
  simp only [Bool.and_eq_true, decide_eq_true_eq] at hporder
  refine ⟨hch, hlen.trans hsize, hporder.2, fun htype => ?_⟩
  rw [orderBoundsOk, if_neg htype, Bool.and_eq_true, decide_eq_true_eq, within_eq_true] at horder
  exact horder

/-- The channel that a command names is one of a block in bounds. -/
theorem channelIn_of_checks (hinv : RegsInv s.regs) {checks : List (Bool × ErrCode)} {ch lo : Nat}
    (h : ∀ c ∈ checks, c.1 = true) (hcfg : cfgCheck s ∈ checks) (hblock : blockCheck s lo ∈ checks)
    (hch : chCheck s ch ∈ checks) : ChannelIn s ch :=
  ⟨inLimits_of_checks hinv h hcfg hblock, of_decide_eq_true (h _ hch)⟩

theorem le_of_fieldCheck {lo v hi : Nat} (h : (fieldCheck lo v hi).1 = true) : v ≤ hi := ((within_eq_true ..).1 h).2

/-! ## Every command -/

theorem memAnswers_residuals {ch : Nat} {r : List Int} {fits : Bool} (h : RegsInv s.regs → ChannelIn s ch)
    (hlen : r.length = s.blockLen) : MemAnswers s
      (if fits then succeed (s.setResiduals ch r) else fail .residualRange (s.forget (rangeErrorScratch ch))) := by
  split
  · exact memAnswers_succeed ((MemStep.refl ..).setResiduals (fun hok => (h hok).lt_eight) fun hok =>
      hlen.trans_le (h hok).limits.block)
  · have hscratch := memStep_rangeError (s := s) (ch := ch) (stores := []) (ok := RegsInv s.regs)
      (cap := s.regs.bwCap.toNat) nofun
    rw [List.append_nil] at hscratch
    exact memAnswers_fail hscratch

theorem memAnswers_cfgInit (s : State) : MemAnswers s (execCfgInit s) := by
  refine memAnswers_finish ?_
  unfold cfgInitEffect
  split <;> exact .refl ..

theorem memAnswers_wrStreaminfo (s : State) : MemAnswers s (execWrStreaminfo s) :=
  memAnswers_command fun h => by
    have hcap := outCap_le_of_check (h (capacityCheck s Config.streaminfoBytes) (by simp))
    have happ := appends_putBits (writerInit s s.regs.outCap) (streaminfoBits s.regs)
    simp only [streaminfoEffect]
    generalize putBits (writerInit s s.regs.outCap) (streaminfoBits s.regs) = u at happ ⊢
    exact memAnswers_succeed (happ.memStep fun _ => hcap)

theorem memAnswers_bwRice (k : Nat) (s : State) : MemAnswers s (execBwRice k s) :=
  memAnswers_command fun _ => by
    split
    · exact memAnswers_fail (.refl ..)
    · exact (appends_putBits s _).memAnswers

theorem memAnswers_partSums (ch order pmin pmax : Nat) (s : State) : MemAnswers s (execPartSums ch order pmin pmax s) :=
  memAnswers_command fun h =>
    have hmax := le_of_fieldCheck (h (fieldCheck 0 pmax 8) (by simp [partitionChecks]))
    memAnswers_succeed (memStep_storeSums s _ _ _ _ fun _ => (maxPorderOf_le ..).trans hmax)

theorem memAnswers_calcRice (ch order pmin pmax : Nat) (s : State) : MemAnswers s (execCalcRice ch order pmin pmax s) :=
  memAnswers_command fun h => by
    have hmax := le_of_fieldCheck (h (fieldCheck 0 pmax 8) (by simp [partitionChecks]))
    have hch : RegsInv s.regs → ChannelIn s ch := fun hinv =>
      channelIn_of_checks (lo := 1) hinv h (by simp [partitionChecks]) (by simp [partitionChecks])
        (by simp [partitionChecks])
    exact memAnswers_succeed ((memStep_storeSums s _ _ _ _ fun _ => (maxPorderOf_le ..).trans hmax).storePlan
      (fun hinv => (hch hinv).lt_eight) fun _ => calcRiceOf_params_length _ _ _ _ hmax)

theorem memAnswers_fixedRes (ch order : Nat) (s : State) : MemAnswers s (execFixedRes ch order s) :=
  memAnswers_command fun h => memAnswers_residuals
    (fun hinv => channelIn_of_checks (lo := 1) hinv h (by simp) (by simp) (by simp))
    ((predictRes_length ..).trans (samples_length ..))

theorem memAnswers_lpcRes (ch order : Nat) (s : State) : MemAnswers s (execLpcRes ch order s) :=
  memAnswers_command fun h => memAnswers_residuals
    (fun hinv => channelIn_of_checks (lo := 1) hinv h (by simp) (by simp) (by simp))
    ((predictRes_length ..).trans (samples_length ..))

theorem memAnswers_welch (ch : Nat) (s : State) : MemAnswers s (execWelch ch s) :=
  memAnswers_command fun h => memAnswers_succeed (memStep_welchEffect s ch fun hinv =>
    (inLimits_of_checks (lo := 2) hinv h (by simp) (by simp)).block)

theorem memAnswers_autocorr (maxorder : Nat) (s : State) : MemAnswers s (execAutocorr maxorder s) :=
  memAnswers_command fun h => memAnswers_succeed (memStep_autocorrEffect s fun _ =>
    le_of_fieldCheck (h (fieldCheck 1 maxorder 32) (by simp)))

theorem memAnswers_levinson (maxorder : Nat) (s : State) : MemAnswers s (execLevinson maxorder s) :=
  memAnswers_command fun h => memAnswers_succeed (memStep_levinsonEffect s fun _ =>
    le_of_fieldCheck (h (fieldCheck 1 maxorder 32) (by simp)))

theorem memAnswers_lsqFit (ch maxorder : Nat) (s : State) : MemAnswers s (execLsqFit ch maxorder s) :=
  memAnswers_command fun h => by
    have ho := le_of_fieldCheck (h (fieldCheck 1 maxorder 32) (by simp))
    split
    · exact memAnswers_succeed (memStep_lsqEffect _ s ch fun _ => ho)
    · exact memAnswers_fail (.refl ..)

theorem memAnswers_quant (order precision : Nat) (s : State) : MemAnswers s (execQuant order precision s) :=
  memAnswers_command fun h => memAnswers_succeed ((MemStep.refl ..).storeQuant fun _ =>
    ⟨((quantizeOf_length ..).trans (coefRow_length ..)).le, le_of_fieldCheck (h (fieldCheck 1 order 32) (by simp))⟩)

theorem memAnswers_subEncode (ch : Nat) (s : State) : MemAnswers s (execSubEncode ch s) :=
  memAnswers_command fun h => by
    have heff : ∀ cap, MemStep (RegsInv s.regs) cap s.mem (leftBy (subEncodeEffect ch s)).mem := fun _ =>
      memStep_subEncodeEffect fun hinv => channelIn_of_checks (lo := 1) hinv h (by simp) (by simp) (by simp)
    refine memAnswers_finish ?_
    cases he : subEncodeEffect ch s <;> rw [he] at heff <;> exact heff _

theorem memAnswers_subVerbatim (ch : Nat) (s : State) : MemAnswers s (execSubVerbatim ch s) :=
  memAnswers_command fun h => memAnswers_succeed (memStep_subVerbatimEffect fun hinv =>
    channelIn_of_checks (lo := 1) hinv h (by simp) (by simp) (by simp))

theorem memAnswers_deinterleave (s : State) : MemAnswers s (execDeinterleave s) :=
  memAnswers_command fun h => memAnswers_succeed (memStep_deinterleaveEffect fun hinv =>
    inLimits_of_checks (lo := 1) hinv h (by simp) (by simp))

theorem memAnswers_stApply (mode : Nat) (s : State) : MemAnswers s (execStApply mode s) :=
  memAnswers_command fun h => memAnswers_succeed (memStep_stApplyEffect mode fun hinv =>
    (inLimits_of_checks (lo := 1) hinv h (by simp) (by simp)).block)

theorem memAnswers_encodeFrame (s : State) : MemAnswers s (execEncodeFrame s) :=
  memAnswers_command fun h => memAnswers_finish (memStep_encodeFrameEffect
    (fun hinv => inLimits_of_checks (lo := 1) hinv h (by simp) (by simp))
    fun _ => outCap_le_of_check (h (capacityCheck s 0) (by simp)))

/-- Every command keeps to these bounds. -/
theorem exec_memory (i : Instr) (s : State) : MemAnswers s (exec i s) := by
  unfold exec
  cases i with
  | nop => exact memAnswers_same rfl
  | reset => exact memAnswers_same rfl
  | cfgInit => exact memAnswers_cfgInit s
  | wrStreaminfo => exact memAnswers_wrStreaminfo s
  | bwInit => exact memAnswers_query rfl
  | bwPutu bits => exact memAnswers_command fun _ => (appends_putU s bits _).memAnswers
  | bwPuts bits => exact memAnswers_command fun _ => (appends_putU s bits _).memAnswers
  | bwFlush => exact memAnswers_command fun _ => (appends_flush s).memAnswers
  | bwPos => exact memAnswers_query rfl
  | bwUtf8 => exact memAnswers_command fun _ => (appends_putBits s _).memAnswers
  | bwRice k => exact memAnswers_bwRice k s
  | crc8 => exact memAnswers_query rfl
  | crc16 => exact memAnswers_query rfl
  | zigzag => exact memAnswers_query rfl
  | riceCount k => exact memAnswers_query rfl
  | findParam => exact memAnswers_query rfl
  | maxPorder order pmax => exact memAnswers_query rfl
  | partSums ch order pmin pmax => exact memAnswers_partSums ch order pmin pmax s
  | calcRice ch order pmin pmax => exact memAnswers_calcRice ch order pmin pmax s
  | fixedRes ch order => exact memAnswers_fixedRes ch order s
  | welch ch => exact memAnswers_welch ch s
  | autocorr maxorder => exact memAnswers_autocorr maxorder s
  | levinson maxorder => exact memAnswers_levinson maxorder s
  | lsqFit ch maxorder => exact memAnswers_lsqFit ch maxorder s
  | quant order precision => exact memAnswers_quant order precision s
  | lpcRes ch order => exact memAnswers_lpcRes ch order s
  | orderEst lo hi => exact memAnswers_query rfl
  | subEncode ch => exact memAnswers_subEncode ch s
  | subVerbatim ch => exact memAnswers_subVerbatim ch s
  | deinterleave => exact memAnswers_deinterleave s
  | stEstimate => exact memAnswers_command fun _ => memAnswers_succeed (memStep_stEstimateEffect s)
  | stApply mode => exact memAnswers_stApply mode s
  | frameInit retry => exact memAnswers_query rfl
  | wrHeader => exact memAnswers_command fun _ => (appends_wrHeaderEffect s).memAnswers
  | wrSubframe ch => exact memAnswers_command fun _ => (appends_wrSubframeEffect ch s).memAnswers
  | wrFooter => exact memAnswers_command fun _ => memAnswers_finish ((appends_wrFooterEffect s).memStep RegsInv.cap)
  | encodeFrame => exact memAnswers_encodeFrame s

theorem exec_memStep {i : Instr} (h : exec i s = .next t) :
    MemStep (RegsInv s.regs) t.regs.bwCap.toNat s.mem t.mem := by
  obtain ⟨u, hu, hmem⟩ := exec_memory i s
  obtain rfl := Host.Outcome.next.inj (h.symm.trans hu)
  exact hmem

end

/-! ## Port accesses -/

/-- No element is listed. -/
theorem memInv_unspecified : MemInv Mems.unspecified := reset_has_invariant.2

theorem portAccess_keeps_memInv {s : State} (h : MemInv s.mem) (a : HostAction) : MemInv (portAccess s a).mem := by
  cases a with
  | rreg number => exact h
  | wreg number data => exact h
  | rmem space index => exact h
  | wmem space index data =>
    show MemInv (portWrite s space index data).mem
    unfold portWrite
    split
    next sp _ =>
      split
      next hvalid =>
        have hrun : ValidRun sp index [data.toInt].length := fun i hlo hlt => by
          obtain rfl : i = index := by simp only [List.length_singleton] at hlt; omega
          exact hvalid
        exact (memStep_memPut (ok := True) (cap := index + 1) s.mem (fun _ => le_rfl) fun _ => hrun).memInv trivial h
      next => exact h
    next => exact h
  | resetInput => exact memInv_unspecified

theorem runWord_keeps_memInv {w : Word32} {s t : State} (hinv : RegsInv s.regs) (h : MemInv s.mem)
    (hrun : runWord w s = .next t) : MemInv t.mem := by
  unfold runWord at hrun
  split at hrun
  · exact (exec_memStep hrun).memInv hinv h
  · rw [illegalCommand_eq] at hrun
    obtain rfl := Host.Outcome.next.inj hrun
    exact h

theorem runAccess_keeps_memInv {a : HostAction} {s t : State} (hinv : RegsInv s.regs) (h : MemInv s.mem)
    (hrun : runAccess a s = .next t) : MemInv t.mem := by
  unfold runAccess at hrun
  split at hrun
  · exact runWord_keeps_memInv hinv h hrun
  · obtain rfl := Host.Outcome.next.inj hrun
    exact portAccess_keeps_memInv h a

/-- Settles O60: commands compute valid indices only (`exec_memory`), and the memory port checks the index. -/
theorem step_keeps_memory : Obligations.step_keeps_memory := by
  intro s t hinv h hstep
  cases hhost : s.host with
  | nil =>
    simp only [step, hhost] at hstep
    obtain rfl := Host.Outcome.next.inj hstep
    exact h
  | cons a rest =>
    exact runAccess_keeps_memInv (s := { s with host := rest }) hinv h ((step_cons hhost).symm.trans hstep)

/-- Settles O23, by `exec_memory`. -/
theorem bytes_above_capacity_stay : Obligations.bytes_above_capacity_stay :=
  fun _ _ _ h j hj => (exec_memStep h).above j hj

end Sys2Proof.Proofs
end

section
/-!
The memory port, `20_memory.md` R61.
-/
namespace Sys2Proof.Proofs
open Sys2Proof.Machine

/-- The space of an assigned id (`20_memory.md` R60). -/
theorem ofId_id (sp : Space) : Space.ofId sp.id = some sp := by cases sp <;> rfl

theorem ofId_of_unassigned {n : Nat} (h : 14 ≤ n) : Space.ofId n = none := List.getElem?_eq_none h

theorem portRead_id (s : State) (sp : Space) (index : Nat) :
    portRead s sp.id index = if sp.valid index then BitVec.ofInt 64 (s.memRead sp index) else 0 := by
  rw [portRead, ofId_id]

theorem portWrite_id (s : State) (sp : Space) (index : Nat) (data : Word64) :
    portWrite s sp.id index data = if sp.valid index then s.memWrite sp index [data.toInt] else s := by
  rw [portWrite, ofId_id]

/-- An element as the port moves it: its low bits, extended as its type says. -/
theorem ofInt_elem {sp : Space} {w : Nat} (hw : w = sp.width) (data : Word64) : BitVec.ofInt 64 (sp.elem data)
    = if sp.signed then (data.setWidth w).signExtend 64 else (data.setWidth w).setWidth 64 := by
  subst hw
  unfold Space.elem
  split
  · rfl
  · rw [BitVec.ofInt_natCast, BitVec.ofNat_toNat]

/-- The element that the port has written. -/
theorem memRead_memWrite_self (s : State) (sp : Space) (index : Nat) (data : Word64) :
    (s.memWrite sp index [data.toInt]).memRead sp index = sp.elem data := by
  refine memRead_of_some ?_
  rw [memGet?_memWrite, if_pos ⟨rfl, le_rfl, Nat.lt_succ_self index⟩, Nat.sub_self]
  simp [Space.stored]

/-- A write of one element leaves every other one. -/
theorem keptOutside_memWrite (s : State) (sp : Space) (index : Nat) (v : Int) :
    keptOutside [(sp, index, 1)] s (s.memWrite sp index [v]) := by
  refine ⟨fun sp' i hout => ?_, rfl, rfl⟩
  rw [memGet?_memWrite, if_neg]
  rintro ⟨rfl, hlo, hlt⟩
  rw [List.length_singleton] at hlt
  simp [covered, hlo, hlt] at hout

/-- Settles O10: at a valid index the port is `memWrite` and `memRead` of one element. -/
theorem memory_port_round_trip : Obligations.memory_port_round_trip := by
  refine ⟨fun s sp index data hvalid => ?_, fun s space index data hbad => ?_⟩
  · have hindex := (spaceRow_valid sp index).1 hvalid
    simp only [spaceRow_id, spaceRow_signed, portWrite_id, portRead_id, if_pos hindex,
      memRead_memWrite_self]
    exact ⟨ofInt_elem (spaceRow_width sp) data, keptOutside_memWrite s sp index _, rfl⟩
  · rcases hbad with hspace | ⟨sp, hid, hindex⟩
    · rw [portRead, portWrite, ofId_of_unassigned hspace]
      exact ⟨rfl, rfl⟩
    · rw [spaceRow_valid] at hindex
      rw [← hid, spaceRow_id, portRead_id, portWrite_id, if_neg hindex, if_neg hindex]
      exact ⟨rfl, rfl⟩

end Sys2Proof.Proofs
end

section
/-!
Commands and their words (`30_encoding.md` R90 to R95): a command is its fields, and its fields are those of its word.
-/
namespace Sys2Proof.Proofs
open Sys2Proof.Machine Sys2Proof.Laws

/-- The five fields of a command's row (`30_encoding.md` R92); a field that the row does not use is 0. -/
def fieldsOf (i : Instr) : CmdFields :=
  match i with
  | .bwPutu x | .bwPuts x | .bwRice x | .riceCount x | .autocorr x | .levinson x | .stApply x => ⟨opcode i, 0, x, 0, 0⟩
  | .maxPorder x y | .quant x y | .orderEst x y => ⟨opcode i, 0, x, y, 0⟩
  | .partSums ch x y z | .calcRice ch x y z => ⟨opcode i, ch, x, y, z⟩
  | .fixedRes ch x | .lsqFit ch x | .lpcRes ch x => ⟨opcode i, ch, x, 0, 0⟩
  | .welch ch | .subEncode ch | .subVerbatim ch | .wrSubframe ch => ⟨opcode i, ch, 0, 0, 0⟩
  | .frameInit z => ⟨opcode i, 0, 0, 0, z⟩
  | _ => ⟨opcode i, 0, 0, 0, 0⟩

/-- Every field fits the bits of R90. -/
def FieldsFit (f : CmdFields) : Prop := f.op < 2 ^ 8 ∧ f.ch < 2 ^ 4 ∧ f.x < 2 ^ 6 ∧ f.y < 2 ^ 6 ∧ f.z < 2 ^ 8

/-! ## Words and fields -/

theorem fieldsFit_cmdFields (w : Word32) : FieldsFit (cmdFields w) :=
  have field_lt (n k : Nat) : n % 2 ^ k < 2 ^ k := Nat.mod_lt n (Nat.two_pow_pos k)
  ⟨field_lt _ 8, field_lt _ 4, field_lt _ 6, field_lt _ 6, field_lt _ 8⟩

/-- R90: no bit of a word is outside its fields. -/
theorem cmdWord_cmdFields (w : Word32) :
    cmdWord (cmdFields w).op (cmdFields w).ch (cmdFields w).x (cmdFields w).y (cmdFields w).z = w := by
  have hw := w.isLt
  refine BitVec.eq_of_toNat_eq ?_
  simp only [cmdWord, cmdFields, BitVec.toNat_ofNat]
  omega

/-- R90: the fields of an assembled word do not overlap. -/
theorem cmdFields_cmdWord {f : CmdFields} (h : FieldsFit f) : cmdFields (cmdWord f.op f.ch f.x f.y f.z) = f := by
  obtain ⟨op, ch, x, y, z⟩ := f
  obtain ⟨hop, hch, hx, hy, hz⟩ := h
  simp only [cmdFields, cmdWord, BitVec.toNat_ofNat, CmdFields.mk.injEq] at hop hch hx hy hz ⊢
  refine ⟨?_, ?_, ?_, ?_, ?_⟩ <;> omega

/-! ## Commands and fields -/

theorem encode_eq_cmdWord (i : Instr) : encode i
    = cmdWord (fieldsOf i).op (fieldsOf i).ch (fieldsOf i).x (fieldsOf i).y (fieldsOf i).z := by
  cases i <;> rfl

theorem fieldsOf_op (i : Instr) : (fieldsOf i).op = opcode i := by cases i <;> rfl

theorem assigned_opcode (i : Instr) : assigned (opcode i) = true := by cases i <;> rfl

/-- A command is well-formed exactly when its fields fit, since its opcode and the fields it does not use do. -/
theorem wellFormed_iff (i : Instr) : WellFormed i = true ↔ FieldsFit (fieldsOf i) := by
  cases i <;> simp [WellFormed, FieldsFit, fieldsOf, opcode, fitsCh, fitsX, fitsY, fitsZ, and_assoc]

theorem withUnused_eq_ok {mnemonic : String} {unused : List Nat} {i j : Instr} :
    withUnused mnemonic unused i = .ok j ↔ (∀ v ∈ unused, v = 0) ∧ i = j := by
  have hall : (unused.all (· == 0)) = true ↔ ∀ v ∈ unused, v = 0 := by simp
  by_cases h : ∀ v ∈ unused, v = 0
  · rw [withUnused, if_pos (hall.2 h), Except.ok.injEq, and_iff_right h]
  · rw [withUnused, if_neg (mt hall.1 h)]
    exact ⟨nofun, fun hok => absurd hok.1 h⟩

/-- R92: every row decodes from its own fields. -/
theorem decodeFields_fieldsOf (i : Instr) : decodeFields (fieldsOf i) = .ok i := by cases i <;> rfl

/-- R91: fields that decode are those of the command they decode to. -/
theorem fieldsOf_of_decodeFields {f : CmdFields} {i : Instr} (h : decodeFields f = .ok i) : fieldsOf i = f := by
  obtain ⟨op, ch, x, y, z⟩ := f
  unfold decodeFields at h
  split at h
  case h_38 => exact nomatch h
  all_goals
    rename_i hop
    obtain rfl : op = _ := hop
    obtain ⟨hunused, rfl⟩ := withUnused_eq_ok.1 h
    simp_all [fieldsOf, opcode]

/-! ## The decoder -/

/-- A word decodes to the command of its fields, and to no other. -/
theorem decode_eq_ok_iff (w : Word32) (i : Instr) : decode w = .ok i ↔ fieldsOf i = cmdFields w :=
  ⟨fieldsOf_of_decodeFields, fun h => by rw [decode, ← h, decodeFields_fieldsOf]⟩

/-- Settles O1: the fields of the command's word are the command's. -/
theorem decode_of_encode : Obligations.decode_of_encode := fun i hwf => by
  rw [decode_eq_ok_iff, encode_eq_cmdWord, cmdFields_cmdWord ((wellFormed_iff i).1 hwf)]

/-- Settles O2: the command has the word's fields, and these make up the word. -/
theorem encode_of_decode : Obligations.encode_of_decode := fun w i hdec => by
  have hfields := (decode_eq_ok_iff w i).1 hdec
  rw [wellFormed_iff, encode_eq_cmdWord, hfields]
  exact ⟨fieldsFit_cmdFields w, cmdWord_cmdFields w⟩

/-- A word that is no command's word is refused. -/
theorem runWord_illegal {w : Word32} (h : ∀ i, decode w ≠ .ok i) (s : State) :
    runWord w s = .next { s with regs := { s.regs with err := .illegalCmd, errSticky := true } } :=
  (runWord_of_decode_ne_ok h s).trans (illegalCommand_eq s)

/-- Settles O5: a word that decoded would be the word of its command (`encode_of_decode`). -/
theorem unused_fields_are_illegal : Obligations.unused_fields_are_illegal := fun w s hno =>
  runWord_illegal (fun i hdec => have ⟨hwf, hword⟩ := encode_of_decode w i hdec; hno i hwf hword) s

/-- Settles O4: a word that decodes has the opcode of a row, and the opcodes of R93 are no row's. -/
theorem reserved_opcodes_are_illegal : Obligations.reserved_opcodes_are_illegal := by
  refine ⟨rfl, fun w s => ?_⟩
  intro op hreserved
  refine runWord_illegal (fun i hdec => ?_) s
  have hop : opcode i = op := by
    have hlt := w.isLt
    rw [← fieldsOf_op, (decode_eq_ok_iff w i).1 hdec]
    exact Nat.mod_eq_of_lt (by omega)
  have hassigned := assigned_opcode i
  rw [hop] at hassigned
  simp only [assigned, Bool.or_eq_true, Bool.and_eq_true, decide_eq_true_eq] at hassigned
  omega

theorem decode_of_encode_eq {i : Instr} {w : Word32} (hwf : WellFormed i = true) (hword : encode i = w) :
    decode w = .ok i :=
  hword ▸ decode_of_encode i hwf

/-- Settles O3: each word is the one that R95 assembles for its command. -/
theorem sample_words_decode : Obligations.sample_words_decode := by
  refine ⟨⟨?_, ?_, ?_, ?_⟩, ⟨?_, ?_, ?_, ?_, ?_, ?_, ?_, ?_, ?_⟩, ⟨?_, ?_, ?_, ?_, ?_, ?_⟩,
    ⟨?_, ?_, ?_, ?_, ?_, ?_, ?_, ?_⟩, ⟨?_, ?_⟩, ⟨?_, ?_, ?_⟩, ⟨?_, ?_, ?_, ?_, ?_⟩⟩ <;> exact decode_of_encode_eq rfl rfl

end Sys2Proof.Proofs
end

section
/-!
The block-size code (`30_encoding.md` R104).
-/
namespace Sys2Proof.Proofs
open Sys2Proof.Machine

theorem bsCodeOf_of_mem {n code : Nat} (h : (n, code) ∈ blockSizeTable) : bsCodeOf n = some (BitVec.ofNat 20 code) := by
  have hall : ∀ p ∈ blockSizeTable, bsCodeOf p.1 = some (BitVec.ofNat 20 p.2) := by decide
  exact hall _ h

theorem lookup_eq_none_of_not_mem {n : Nat} {l : List (Nat × Nat)} (h : ∀ code, (n, code) ∉ l) : l.lookup n = none :=
  List.lookup_eq_none_iff.2 fun (size, code) hp => bne_iff_ne.2 fun (hn : n = size) => h code (hn ▸ hp)

/-- A size that is not in the table has an escape code with n − 1 (`30_encoding.md` R104). -/
theorem bsCodeOf_of_not_mem {n : Nat} (h : ∀ code, (n, code) ∉ blockSizeTable) : bsCodeOf n =
    if 1 ≤ n ∧ n ≤ 256 then some (BitVec.ofNat 20 ((n - 1) * 16 + 6))
    else if 257 ≤ n ∧ n ≤ 65535 then some (BitVec.ofNat 20 ((n - 1) * 16 + 7))
    else none := by
  rw [bsCodeOf, lookup_eq_none_of_not_mem h]
  by_cases hsmall : 1 ≤ n ∧ n ≤ 256
  · rw [if_pos hsmall, if_pos ((within_eq_true ..).2 (by omega))]
    exact congrArg some (if_pos hsmall.2)
  rw [if_neg hsmall]
  by_cases hlarge : 257 ≤ n ∧ n ≤ 65535
  · rw [if_pos hlarge, if_pos ((within_eq_true ..).2 (by omega))]
    exact congrArg some (if_neg (by omega))
  · rw [if_neg hlarge, if_neg (mt (within_eq_true ..).1 (by omega))]

/-- A reader of the code of a table size recovers it. -/
theorem blockOf_of_mem {n code : Nat} (h : (n, code) ∈ blockSizeTable) : blockOf (BitVec.ofNat 20 code) = some n := by
  have hall : ∀ p ∈ blockSizeTable, blockOf (BitVec.ofNat 20 p.2) = some p.1 := by decide
  exact hall _ h

/-- A reader of an escape code adds 1 to the escape value. -/
theorem blockOf_escape {escape code : Nat} (hescape : escape < 2 ^ 16) (hcode : code = 6 ∨ code = 7) :
    blockOf (BitVec.ofNat 20 (escape * 16 + code)) = some (escape + 1) := by
  have hval : (BitVec.ofNat 20 (escape * 16 + code)).toNat = escape * 16 + code := by
    rw [BitVec.toNat_ofNat, Nat.mod_eq_of_lt (by omega)]
  have hlow : (escape * 16 + code) % 16 = code := by omega
  have hhigh : (escape * 16 + code) / 16 = escape := by omega
  rw [blockOf, hval, hlow, hhigh]
  rcases hcode with rfl | rfl <;> rfl

/-- A reader of a block-size code recovers the size. -/
theorem blockOf_bsCodeOf {n : Nat} {v : BitVec 20} (h : bsCodeOf n = some v) : blockOf v = some n := by
  by_cases htable : ∃ code, (n, code) ∈ blockSizeTable
  · obtain ⟨code, hmem⟩ := htable
    rw [bsCodeOf_of_mem hmem, Option.some_inj] at h
    exact h ▸ blockOf_of_mem hmem
  rw [bsCodeOf_of_not_mem (not_exists.1 htable)] at h
  split at h
  · rw [← Option.some_inj.1 h, blockOf_escape (by omega) (.inl rfl), Nat.sub_add_cancel (by omega)]
  split at h
  · rw [← Option.some_inj.1 h, blockOf_escape (by omega) (.inr rfl), Nat.sub_add_cancel (by omega)]
  · exact nomatch h

/-- Settles O15: no two sizes share a code, since the reader recovers the size (`blockOf_bsCodeOf`). -/
theorem block_size_code : Obligations.block_size_code := by
  intro n
  refine ⟨fun code => bsCodeOf_of_mem, bsCodeOf_of_not_mem, fun v => blockOf_bsCodeOf, fun m v hn hm => ?_⟩
  exact Option.some_inj.1 ((blockOf_bsCodeOf hn).symm.trans (blockOf_bsCodeOf hm))

end Sys2Proof.Proofs
end

section
/-!
The variable-length codes (`30_encoding.md` R108, R118): the bits that the model writes are those of the tables, and a
reader gets the value back (R121).
-/
namespace Sys2Proof.Proofs
open Sys2Proof.Machine

/-! ## Fields of fixed width -/

/-- The last bit of a field is the value's lowest. -/
theorem msbBits_succ (w : Nat) (v : Int) : msbBits (w + 1) v = msbBits w (v / 2) ++ [decide (v % 2 = 1)] := by
  rw [msbBits, List.range_succ, List.map_append, List.map_singleton]
  congr 1
  · refine List.map_congr_left fun i hi => ?_
    have hexp : w + 1 - 1 - i = (w - 1 - i) + 1 := by have := List.mem_range.1 hi; omega
    rw [hexp, Nat.pow_succ', Nat.cast_mul, ← Int.ediv_ediv_of_nonneg (by decide)]
    rfl
  · simp

theorem bitsToNat_msbBits (w v : Nat) : bitsToNat (msbBits w v) = v % 2 ^ w := by
  induction w generalizing v with
  | zero => rw [Nat.pow_zero, Nat.mod_one]; rfl
  | succ w ih =>
    have hlow : (decide ((v : Int) % 2 = 1)).toNat = v % 2 := by
      rcases Nat.mod_two_eq_zero_or_one v with h | h <;> simp [h] <;> omega
    have hhalf : (v : Int) / 2 = ((v / 2 : Nat) : Int) := rfl
    rw [msbBits_succ, bitsToNat_append_singleton, hlow, hhalf, ih, Nat.pow_succ', Nat.mod_mul, Nat.add_comm]

/-- A reader of a field gets the value back. -/
theorem readNat_msbBits {w v : Nat} (h : v < 2 ^ w) (rest : List Bool) :
    readNat w (msbBits w v ++ rest) = some (v, rest) := by
  have hlen := msbBits_length w v
  rw [readNat, if_neg (by rw [List.length_append, hlen]; omega), List.take_left' hlen, List.drop_left' hlen,
    bitsToNat_msbBits, Nat.mod_eq_of_lt h]

/-! ## Frame numbers -/

/-- The following bytes of a frame number: the 6·n low bits of `v`, six to a byte (`30_encoding.md` R108). -/
def followingBytes (n v : Nat) : List Nat := (List.range n).map fun i => 0x80 + v / 2 ^ (6 * (n - 1 - i)) % 2 ^ 6

theorem followingBytes_length (n v : Nat) : (followingBytes n v).length = n := by simp [followingBytes]

theorem followingBytes_mem {n v b : Nat} (h : b ∈ followingBytes n v) : b / 64 = 2 := by
  obtain ⟨i, -, rfl⟩ := List.mem_map.1 h
  omega

/-- The last following byte carries the lowest six bits. -/
theorem followingBytes_succ (n v : Nat) :
    followingBytes (n + 1) v = followingBytes n (v / 2 ^ 6) ++ [0x80 + v % 2 ^ 6] := by
  rw [followingBytes, List.range_succ, List.map_append, List.map_singleton]
  congr 1
  · refine List.map_congr_left fun i hi => ?_
    have hexp : 6 * (n + 1 - 1 - i) = 6 + 6 * (n - 1 - i) := by have := List.mem_range.1 hi; omega
    rw [hexp, Nat.pow_add, Nat.div_div_eq_div_mul]
  · simp

/-- The bits that the following bytes carry, put behind those of the first byte. -/
theorem foldl_followingBytes (n v lead : Nat) :
    (followingBytes n v).foldl (fun v b => v * 64 + b % 64) lead = lead * 2 ^ (6 * n) + v % 2 ^ (6 * n) := by
  induction n generalizing v with
  | zero => simp [followingBytes, Nat.mod_one]
  | succ n ih =>
    have hmod : v % 2 ^ (6 * (n + 1)) = v % 2 ^ 6 + 2 ^ 6 * (v / 2 ^ 6 % 2 ^ (6 * n)) := by
      rw [← Nat.mod_mul, ← Nat.pow_add, Nat.mul_succ, Nat.add_comm]
    have hlead : lead * 2 ^ (6 * (n + 1)) = lead * 2 ^ (6 * n) * 64 := by
      rw [Nat.mul_succ, Nat.pow_add, ← Nat.mul_assoc]
    rw [followingBytes_succ, List.foldl_append, ih, List.foldl_cons, List.foldl_nil, hmod, hlead]
    omega

/-- A frame number as its bytes. -/
theorem frameNumberBits_eq_flatMap (v : Nat) :
    frameNumberBits v = (frameNumberBytes v).flatMap fun b : Nat => msbBits 8 b := by
  simp [frameNumberBits, List.flatMap_assoc]

/-- `v` is in the row of R108 with n following bytes. -/
structure InRow (n v : Nat) : Prop where
  pos : 1 ≤ n
  le_six : n ≤ 6
  ge : 2 ^ 7 ≤ v
  lt : v < 2 ^ (5 * n + 6)
  least : n ≠ 1 → 2 ^ (5 * n + 1) ≤ v

theorem exists_inRow {v : Nat} (hlo : 2 ^ 7 ≤ v) (hhi : v < 2 ^ 36) : ∃ n, InRow n v := by
  by_cases h1 : v < 2 ^ 11
  · exact ⟨1, by decide, by decide, hlo, h1, fun h => absurd rfl h⟩
  by_cases h2 : v < 2 ^ 16
  · exact ⟨2, by decide, by decide, hlo, h2, fun _ => not_lt.1 h1⟩
  by_cases h3 : v < 2 ^ 21
  · exact ⟨3, by decide, by decide, hlo, h3, fun _ => not_lt.1 h2⟩
  by_cases h4 : v < 2 ^ 26
  · exact ⟨4, by decide, by decide, hlo, h4, fun _ => not_lt.1 h3⟩
  by_cases h5 : v < 2 ^ 31
  · exact ⟨5, by decide, by decide, hlo, h5, fun _ => not_lt.1 h4⟩
  · exact ⟨6, by decide, by decide, hlo, hhi, fun _ => not_lt.1 h5⟩

section
variable {n v : Nat} (h : InRow n v)
include h

/-- The lengths that R147 tries hold the number from n + 1 on. -/
theorem InRow.lt_pow_iff {m : Nat} (hm : 2 ≤ m) : v < 2 ^ (5 * m + 1) ↔ n + 1 ≤ m := by
  constructor
  · intro hlt
    by_contra hle
    have hpow : 2 ^ (5 * m + 1) ≤ 2 ^ (5 * n + 1) := Nat.pow_le_pow_right (by decide) (by omega)
    have := h.least (by omega)
    omega
  · exact fun hle => lt_of_lt_of_le h.lt (Nat.pow_le_pow_right (by decide) (by omega))

theorem InRow.utf8Len : utf8Len v = n + 1 := by
  have hfind : [2, 3, 4, 5, 6].find? (fun m => decide (v < 2 ^ (5 * m + 1)))
      = [2, 3, 4, 5, 6].find? (fun m => decide (n + 1 ≤ m)) := by
    simp only [List.find?_nil, List.find?_cons, h.lt_pow_iff (by decide : 2 ≤ 2), h.lt_pow_iff (by decide : 2 ≤ 3),
      h.lt_pow_iff (by decide : 2 ≤ 4), h.lt_pow_iff (by decide : 2 ≤ 5), h.lt_pow_iff (by decide : 2 ≤ 6)]
  obtain ⟨h1, h6, hge, -, -⟩ := h
  rw [Machine.utf8Len, if_neg (by omega), hfind]
  interval_cases n <;> rfl

/-- The first byte of the row, and the following ones. -/
theorem InRow.frameNumberBytes :
    frameNumberBytes v = (256 - 2 ^ (7 - n) + v / 2 ^ (6 * n)) :: followingBytes n v := by
  obtain ⟨h1, h6, hge, hlt, hleast⟩ := h
  have h36 : v < 2 ^ 36 := lt_of_lt_of_le hlt (Nat.pow_le_pow_right (by decide) (by omega))
  rw [Machine.frameNumberBytes, if_neg (by omega)]
  interval_cases n <;> norm_num at hlt hleast h36 <;> simp (disch := omega) only [if_pos, if_neg] <;>
    simp [followingBytes, List.range_succ, h36]

/-- The bits of the number above those of the following bytes fit the first byte. -/
theorem InRow.top_lt : v / 2 ^ (6 * n) < 2 ^ (6 - n) := by
  rw [Nat.div_lt_iff_lt_mul (Nat.two_pow_pos _), ← Nat.pow_add]
  exact lt_of_lt_of_eq h.lt (by have := h.le_six; congr 1; omega)

end

theorem readMany_bytes {bytes : List Nat} (h : ∀ b ∈ bytes, b < 2 ^ 8) (rest : List Bool) :
    readMany (readNat 8) bytes.length (bytes.flatMap (fun b : Nat => msbBits 8 b) ++ rest) = some (bytes, rest) := by
  induction bytes with
  | nil => rfl
  | cons b bytes ih =>
    obtain ⟨hb, hbytes⟩ := List.forall_mem_cons.1 h
    simp [readMany, readNat_msbBits hb, ih hbytes]

/-- A reader of following bytes gets the six bits that each carries. -/
theorem readFollowing_bytes {bytes : List Nat} (h : ∀ b ∈ bytes, b / 64 = 2) (lead : Nat) (rest : List Bool) :
    readFollowing bytes.length lead (bytes.flatMap (fun b : Nat => msbBits 8 b) ++ rest)
      = some (bytes.foldl (fun v b => v * 64 + b % 64) lead, rest) := by
  have hlt : ∀ b ∈ bytes, b < 2 ^ 8 := fun b hb => by have := h b hb; omega
  simpa [readFollowing, readMany_bytes hlt] using h

/-- A first byte below 0x80 is the number. -/
theorem readFrameNumber_single {b : Nat} (h : b < 2 ^ 7) (l : List Bool) :
    readFrameNumber (msbBits 8 b ++ l) = some (b, l) := by
  have hread : readFollowing 0 b l = some (b, l) := rfl
  simp [readFrameNumber, readNat_msbBits (show b < 2 ^ 8 by omega), show b < 128 by omega, hread]

/-- A first byte of n + 1 ones and a zero, or of seven ones for n = 6, tells that n bytes follow. -/
theorem readFrameNumber_first {b n : Nat} (h1 : 1 ≤ n) (h6 : n ≤ 6) (hlo : 256 - 2 ^ (7 - n) ≤ b)
    (hhi : b < 256 - 2 ^ (6 - n)) (l : List Bool) :
    readFrameNumber (msbBits 8 b ++ l) = readFollowing n (b - (256 - 2 ^ (7 - n))) l := by
  have hb : b < 2 ^ 8 := lt_of_lt_of_le hhi (Nat.sub_le ..)
  simp only [readFrameNumber, readNat_msbBits hb, Option.bind_eq_bind, Option.bind_some]
  interval_cases n <;> norm_num at hlo hhi ⊢ <;> simp (disch := omega) only [if_pos, if_neg]
  rw [show b - 254 = 0 by omega]

/-- A reader gets the number back from the bytes of the table (`30_encoding.md` R108). -/
theorem readFrameNumber_frameNumberBits {v : Nat} (h : v < 2 ^ 36) (rest : List Bool) :
    readFrameNumber (frameNumberBits v ++ rest) = some (v, rest) := by
  rw [frameNumberBits_eq_flatMap]
  by_cases h7 : v < 2 ^ 7
  · rw [frameNumberBytes, if_pos h7, List.flatMap_singleton, readFrameNumber_single h7]
  obtain ⟨n, hrow⟩ := exists_inRow (not_lt.1 h7) h
  have hpow : 2 ^ (7 - n) = 2 * 2 ^ (6 - n) := by have := hrow.le_six; rw [← Nat.pow_succ']; congr 1; omega
  have hle : 2 ^ (7 - n) ≤ 2 ^ 6 := Nat.pow_le_pow_right (by decide) (by have := hrow.pos; omega)
  have htop := hrow.top_lt
  have hread := readFollowing_bytes (fun b => followingBytes_mem (n := n) (v := v)) (v / 2 ^ (6 * n)) rest
  rw [followingBytes_length, foldl_followingBytes, Nat.div_add_mod'] at hread
  rw [hrow.frameNumberBytes, List.flatMap_cons, List.append_assoc,
    readFrameNumber_first hrow.pos hrow.le_six (Nat.le_add_right ..) (by omega), Nat.add_sub_cancel_left, hread]

/-- The marks of a byte stand above the bits it carries. -/
theorem or_eq_add {mark b k : Nat} (hmark : 2 ^ k ∣ mark) (hb : b < 2 ^ k) : mark ||| b = mark + b := by
  obtain ⟨m, rfl⟩ := hmark
  exact (Nat.two_pow_add_eq_or_of_lt hb m).symm

/-- The model's bytes are those of the table (`30_encoding.md` R108). -/
theorem utf8Bytes_eq {v : Nat} (h : v < 2 ^ 36) : utf8Bytes v = frameNumberBytes v := by
  by_cases h7 : v < 2 ^ 7
  · have hlen : utf8Len v = 1 := if_pos h7
    rw [frameNumberBytes, if_pos h7, utf8Bytes, hlen]
    rfl
  obtain ⟨n, hrow⟩ := exists_inRow (not_lt.1 h7) h
  have hn := hrow.pos
  rw [utf8Bytes, hrow.utf8Len, hrow.frameNumberBytes]
  simp only [if_neg (show ¬n + 1 = 1 by omega)]
  congr 1
  · have hmark : 255 <<< (8 - (n + 1)) % 256 = 256 - 2 ^ (7 - n) ∧ 2 ^ (6 - n) ∣ 256 - 2 ^ (7 - n) := by
      have h6 := hrow.le_six
      interval_cases n <;> decide
    rw [hmark.1, Nat.add_sub_cancel, Nat.shiftRight_eq_div_pow, or_eq_add hmark.2 hrow.top_lt]
  · rw [followingBytes, Nat.add_sub_cancel]
    refine List.map_congr_left fun i hi => ?_
    rw [or_eq_add (k := 7) (by decide) (by omega), Nat.shiftRight_eq_div_pow]
    rfl

theorem utf8Bits_eq {v : Nat} (h : v < 2 ^ 36) : utf8Bits v = frameNumberBits v := by
  simp only [utf8Bits, frameNumberBits, utf8Bytes_eq h, fieldBits_eq_msbBits]

/-! ## Rice codewords -/

theorem readZeros_replicate (q : Nat) (rest : List Bool) :
    readZeros (List.replicate q false ++ true :: rest) = some (q, rest) := by
  induction q with
  | zero => rfl
  | succ q ih => rw [List.replicate_succ, List.cons_append, readZeros, ih]; rfl

theorem unzigzag_zigzagOf (v : Int) : unzigzag (zigzagOf v) = v := by
  unfold unzigzag zigzagOf
  split <;> split <;> omega

/-- A reader gets the value back from its codeword (`30_encoding.md` R118). -/
theorem readRice_riceBits (v : Int) (k : Nat) (rest : List Bool) :
    readRice k (riceBits v k ++ rest) = some (v, rest) := by
  have hlow : zigzagOf v % 2 ^ k < 2 ^ k := Nat.mod_lt _ (Nat.two_pow_pos k)
  have hval : (zigzagOf v >>> k) * 2 ^ k + zigzagOf v % 2 ^ k = zigzagOf v := by
    rw [Nat.shiftRight_eq_div_pow, Nat.div_add_mod']
  rw [riceBits, List.append_assoc, List.cons_append, fieldBits_eq_msbBits, readRice, readZeros_replicate]
  simp only [Option.bind_eq_bind, Option.bind_some, readNat_msbBits hlow, hval, unzigzag_zigzagOf, Option.pure_def]

/-- Settles O20: the bits of a frame number are those of the table, and both readers get the value back. -/
theorem codes_read_back : Obligations.codes_read_back :=
  ⟨fun _ rest hv => by rw [utf8Bits_eq hv, readFrameNumber_frameNumberBits hv], readRice_riceBits⟩

end Sys2Proof.Proofs
end

section
/-!
What the serializing commands append: the stream header block and the frame header (`30_encoding.md` R98, R100).
-/
namespace Sys2Proof.Proofs
open Sys2Proof.Machine

/-! ## Commands that are not refused -/

/-- What a command meets that no check of classes 3 to 8 refuses (`60_exceptions.md` R323). -/
theorem ready_of_earlyError_eq_none {i : Instr} {s : State} (h : earlyError i s = none) :
    configReady i s = true ∧ stateReady i s = true ∧ fieldsReady i s = true ∧ blockReady i s = true
      ∧ capacityReady i s = true ∧ operandsReady i s = true := by
  have hready {ok : Bool} {e : ErrCode} {rest : Option ErrCode} (hnone : (if !ok then some e else rest) = none) :
      ok = true ∧ rest = none := by
    cases ok with
    | true => exact ⟨rfl, hnone⟩
    | false => exact nomatch hnone
  rw [earlyError] at h
  obtain ⟨hconfig, h⟩ := hready h
  obtain ⟨hstate, h⟩ := hready h
  obtain ⟨hfields, h⟩ := hready h
  obtain ⟨hblock, h⟩ := hready h
  obtain ⟨hcapacity, h⟩ := hready h
  exact ⟨hconfig, hstate, hfields, hblock, hcapacity, (hready h).1⟩

theorem inFrame_eq (s : State) : inFrame s = frameInProgress s.regs.fsm := by
  unfold inFrame
  cases s.regs.fsm <;> rfl

theorem exec_wrStreaminfo {s : State} (h : earlyError .wrStreaminfo s = none) :
    exec .wrStreaminfo s = succeed (streaminfoEffect s) := by
  obtain ⟨hcfg, hstate, -, -, hcap, -⟩ := ready_of_earlyError_eq_none h
  have hexec : exec .wrStreaminfo s = execWrStreaminfo s := rfl
  rw [hexec, execWrStreaminfo, command_of_checks]
  rw [List.forall_mem_cons, List.forall_mem_cons, List.forall_mem_singleton, noFrameCheck, ← inFrame_eq]
  exact ⟨hcfg, hstate, hcap⟩

theorem exec_wrHeader {s : State} (h : earlyError .wrHeader s = none) :
    exec .wrHeader s = succeed (wrHeaderEffect s) := by
  obtain ⟨hcfg, hstate, -⟩ := ready_of_earlyError_eq_none h
  have hexec : exec .wrHeader s = execWrHeader s := rfl
  rw [hexec, execWrHeader, command_of_checks]
  rw [List.forall_mem_cons, List.forall_mem_singleton]
  exact ⟨hcfg, hstate⟩

/-! ## A stream from its start -/

/-- The logical stream is a matter of the writer's registers and of OUT. -/
theorem streamIs_of_writer {s t : State} {l : List Bool} (h : StreamIs s l) (hregs : withWriter t.regs s.regs = t.regs)
    (hcap : t.regs.bwCap = s.regs.bwCap) (hmem : t.mem = s.mem) : StreamIs t l := by
  obtain ⟨hpos, hacc, hcrc8, hcrc16, hout⟩ := h
  rw [← hcap, ← hmem] at hout
  have hbitpos : s.regs.bitpos = t.regs.bitpos := (congrArg Regs.bitpos hregs :)
  have hbwAcc : s.regs.bwAcc = t.regs.bwAcc := (congrArg Regs.bwAcc hregs :)
  have hcrc8Run : s.regs.crc8Run = t.regs.crc8Run := (congrArg Regs.crc8Run hregs :)
  have hcrc16Run : s.regs.crc16Run = t.regs.crc16Run := (congrArg Regs.crc16Run hregs :)
  exact ⟨hbitpos ▸ hpos, hbwAcc ▸ hacc, hcrc8Run ▸ hcrc8, hcrc16Run ▸ hcrc16, hout⟩

/-- Bits appended to the empty stream change the bytes of OUT that they complete below BW.cap, and no more. -/
theorem keptOutside_of_appended {s t : State} {bits : List Bool} {n : Nat} (h : Appended s t bits)
    (hpos : s.regs.bitpos.toNat = 0) (hn : min (bits.length / 8) s.regs.bwCap.toNat ≤ n) :
    keptOutside [(.out, 0, n)] s t := by
  refine ⟨fun sp i hout => ?_, h.host⟩
  by_cases hsp : sp = .out
  · subst hsp
    have hi : n ≤ i := by simpa [covered] using hout
    refine h.outside i ?_
    rw [hpos]
    omega
  · exact h.kept sp i hsp

/-! ## The stream header block -/

theorem streaminfoBits_eq (r : Regs) : streaminfoBits r =
    msbBits 16 r.cfg.blocksize.toNat ++ msbBits 16 r.cfg.blocksize.toNat ++ msbBits 24 0
      ++ msbBits 24 r.maxFramesize.toNat ++ msbBits 20 r.cfg.sampleRate.toNat
      ++ msbBits 3 ((r.cfg.channels.toNat : Int) - 1) ++ msbBits 5 15 ++ List.replicate 36 false
      ++ List.replicate 128 false := by
  have hsum : List.replicate 164 false = List.replicate 36 false ++ List.replicate 128 false := rfl
  simp only [streaminfoBits, fieldBits_eq_msbBits, hsum, List.append_assoc]

theorem streaminfoBits_length (r : Regs) : (streaminfoBits r).length = 272 := by
  simp only [streaminfoBits, List.length_append, fieldBits_length, List.length_replicate]

/-- Settles O16: a writer that has just been initialised holds the empty stream, and the 272 bits are appended to it. -/
theorem streaminfo_block_layout : Obligations.streaminfo_block_layout := by
  intro s hs
  have hpos : (writerInit s s.regs.outCap).regs.bitpos.toNat = 0 := rfl
  have happ : Appended (writerInit s s.regs.outCap) _ (streaminfoBits s.regs) :=
    putBits_appended (by rw [hpos, streaminfoBits_length]; decide)
  have hregs := putBits_regs (writerInit s s.regs.outCap) (streaminfoBits s.regs)
  have hstream := happ.stream [] (writerInit_stream ..)
  obtain ⟨hkept, hport⟩ := keptOutside_of_appended (n := 34) happ hpos
    (by rw [streaminfoBits_length]; exact min_le_left ..)
  rw [exec_wrStreaminfo hs, streaminfoEffect]
  generalize putBits (writerInit s s.regs.outCap) (streaminfoBits s.regs) = t at hregs hstream hkept hport
  rw [List.nil_append, streaminfoBits_eq] at hstream
  exact ⟨_, rfl, streamIs_of_writer hstream rfl rfl rfl,
    congrArg (fun r : Regs => { r with outLen := 34, err := .noError }) hregs, hkept, hport⟩

/-! ## The frame header -/

theorem chMode_eq_zero_iff (r : Regs) : r.chMode = 0 ↔ r.chMode.toNat = 0 := BitVec.toNat_inj.symm

theorem headerBits_eq (r : Regs) : headerBits r = headerLayout r := by
  have hcount : r.frameCount.toNat < 2 ^ 36 := lt_trans r.frameCount.isLt (by decide)
  have hzero : msbBits 1 0 = [false] := rfl
  simp only [headerBits, headerLayout, bsEscapeBits, srEscapeBits, channelCode, codeOf, escapeOf, fieldBits_eq_msbBits,
    utf8Bits_eq hcount, hzero, chMode_eq_zero_iff]

theorem frameNumberBits_length (v : Nat) : ∃ k, (frameNumberBits v).length = 8 * k ∧ k ≤ 7 := by
  refine ⟨(frameNumberBytes v).length, ?_, ?_⟩
  · simp [frameNumberBits_eq_flatMap, List.length_flatMap, msbBits_length, Nat.mul_comm]
  · unfold frameNumberBytes
    split_ifs <;> simp

/-- The header is a whole number of bytes, and at most 15 of them. -/
theorem headerLayout_length (r : Regs) : ∃ k, (headerLayout r).length = 8 * k ∧ k ≤ 15 := by
  obtain ⟨k, hk, hk7⟩ := frameNumberBits_length r.frameCount.toNat
  have hescape (p q : Prop) [Decidable p] [Decidable q] (v : Int) :
      ∃ j, (if p then msbBits 8 v else if q then msbBits 16 v else []).length = 8 * j ∧ j ≤ 2 := by
    by_cases hp : p
    · exact ⟨1, by rw [if_pos hp, msbBits_length], by decide⟩
    by_cases hq : q
    · exact ⟨2, by rw [if_neg hp, if_pos hq, msbBits_length], by decide⟩
    · exact ⟨0, by rw [if_neg hp, if_neg hq]; rfl, by decide⟩
  obtain ⟨i, hi, hi2⟩ := hescape (r.bsCode.toNat % 16 = 6) (r.bsCode.toNat % 16 = 7) (r.bsCode.toNat / 16 : Nat)
  obtain ⟨j, hj, hj2⟩ := hescape (r.srCode.toNat % 16 = 12) (r.srCode.toNat % 16 = 13 ∨ r.srCode.toNat % 16 = 14)
    (r.srCode.toNat / 16 : Nat)
  refine ⟨4 + k + i + j, ?_, by omega⟩
  simp only [headerLayout, List.length_append, msbBits_length, List.length_singleton, hk, hi, hj]
  omega

/-- The header's effect: its bits and their checksum, and two registers (`45_frame_encoder.md` R268). -/
theorem wrHeaderEffect_eq {s t : State} (hs : StreamIs s [])
    (ht : putBits s (headerLayout s.regs ++ msbBits 8 (streamCrc8 (headerLayout s.regs)).toNat) = t) :
    wrHeaderEffect s = { t with regs := { t.regs with subcnt := 0, fsm := .headerWritten } } := by
  obtain ⟨k, hk, hk15⟩ := headerLayout_length s.regs
  have hstream := putBits_stream (headerLayout s.regs) hs (by rw [List.length_nil, hk]; omega)
  have hcrc : (putBits s (headerLayout s.regs)).regs.crc8Run = streamCrc8 (headerLayout s.regs) := hstream.crc8
  rw [wrHeaderEffect, headerBits_eq, hcrc, putU, fieldBits_eq_msbBits, ← putBits_append, ht]

/-- Settles O48: the header and its checksum are appended to the empty stream. -/
theorem wr_header_appends_header : Obligations.wr_header_appends_header := by
  intro s hs hempty h
  obtain ⟨k, hk, hk15⟩ : ∃ k, h.length = 8 * k ∧ k ≤ 15 := headerLayout_length s.regs
  obtain ⟨bits, hbits⟩ : ∃ bits, h ++ msbBits 8 (streamCrc8 h).toNat = bits := ⟨_, rfl⟩
  have hlen : bits.length = h.length + 8 := by rw [← hbits, List.length_append, msbBits_length]
  have hpos : s.regs.bitpos.toNat = 0 := hempty.pos
  have happ : Appended s _ bits := putBits_appended (by omega)
  have hregs := putBits_regs s bits
  obtain ⟨hkept, hport⟩ :=
    keptOutside_of_appended (n := min (h.length / 8 + 1) s.regs.bwCap.toNat) happ hpos (by omega)
  have hstream := happ.stream [] hempty
  rw [exec_wrHeader hs, wrHeaderEffect_eq hempty (congrArg (putBits s) hbits), hbits]
  generalize putBits s bits = t at hregs hstream hkept hport
  exact ⟨by omega, _, rfl, streamIs_of_writer hstream rfl rfl rfl,
    congrArg (fun r : Regs => { r with subcnt := 0, fsm := .headerWritten, err := .noError }) hregs, hkept, hport⟩

end Sys2Proof.Proofs
end

section
/-!
The commands of the bit writer (`40_bit_writer.md` R142 to R151): the writing commands append their bits, and the queries
answer in a4.
-/
namespace Sys2Proof.Proofs
open Sys2Proof.Machine

/-! ## Commands that append bits -/

/-- The answer of a command that completes and appends bits: of the registers it changes the writer's running ones and
STATUS.ERR alone. -/
def AnswersAppended (s : State) (out : Result) (bits : List Bool) : Prop :=
  ∃ t, out = .next t ∧ Appended s t bits ∧ t.regs = { withWriter s.regs t.regs with err := .noError }

/-- STATUS.ERR is not part of the logical stream. -/
theorem appended_succeed {s t : State} {bits : List Bool} (h : Appended s t bits)
    (hregs : t.regs = withWriter s.regs t.regs) : AnswersAppended s (succeed t) bits :=
  ⟨_, rfl,
    { h with stream := fun l hl => streamIs_of_writer (h.stream l hl) rfl rfl rfl },
    congrArg (fun r : Regs => { r with err := .noError }) hregs⟩

theorem answersAppended_putBits {s : State} {bits : List Bool} (h : s.regs.bitpos.toNat + bits.length < 2 ^ 64) :
    AnswersAppended s (succeed (putBits s bits)) bits :=
  appended_succeed (putBits_appended h) (putBits_regs s bits)

/-- The checks of the writing commands are the classes 3 and 4 of R323 (`40_bit_writer.md` R154). -/
theorem writingChecks_hold {s : State} (hcfg : s.regs.cfgOk = true) (hstate : (s.regs.bwOk && !inFrame s) = true) :
    ∀ c ∈ writingChecks s, c.1 = true := by
  obtain ⟨hwriter, hframe⟩ := Bool.and_eq_true_iff.1 hstate
  rw [inFrame_eq] at hframe
  rw [writingChecks, List.forall_mem_cons, List.forall_mem_cons, List.forall_mem_singleton]
  exact ⟨hcfg, hwriter, hframe⟩

/-- A writing command runs when its own checks hold too. -/
theorem command_writing {s : State} {own : List (Bool × ErrCode)} {effect : State → Result} (hcfg : s.regs.cfgOk = true)
    (hstate : (s.regs.bwOk && !inFrame s) = true) (hown : ∀ c ∈ own, c.1 = true) :
    command s (writingChecks s ++ own) effect = effect s :=
  command_of_checks (List.forall_mem_append.2 ⟨writingChecks_hold hcfg hstate, hown⟩)

theorem firstError_append {checks : List (Bool × ErrCode)} (h : ∀ c ∈ checks, c.1 = true)
    (rest : List (Bool × ErrCode)) : firstError (checks ++ rest) = firstError rest := by
  induction checks with
  | nil => rfl
  | cons c checks ih =>
    obtain ⟨hc, hchecks⟩ := List.forall_mem_cons.1 h
    rw [List.cons_append, firstError_cons, if_pos hc, ih hchecks]

theorem fieldCheck_zero {v hi : Nat} (h : decide (v ≤ hi) = true) : (fieldCheck 0 v hi).1 = true :=
  (within_eq_true ..).2 ⟨Nat.zero_le v, of_decide_eq_true h⟩

theorem inRange_eq_true (lo v hi : Int) : inRange lo v hi = true ↔ lo ≤ v ∧ v ≤ hi := by
  simp only [inRange, Bool.and_eq_true, decide_eq_true_eq]

/-! ## Single commands -/

/-- An operand register that is not negative is the same number signed and unsigned. -/
theorem toNat_toInt_of_nonneg {x : Word64} (h : 0 ≤ x.toInt) : x.toInt.toNat = x.toNat := by
  have hx := x.isLt
  rw [BitVec.toInt_eq_toNat_cond] at h ⊢
  split at h <;> omega

theorem exec_bwPutu {s : State} {x : Nat} (h : earlyError (.bwPutu x) s = none) :
    exec (.bwPutu x) s = succeed (putBits s (msbBits x s.a0)) := by
  obtain ⟨hcfg, hstate, hfield, -, -, hoperand⟩ := ready_of_earlyError_eq_none h
  have hexec : exec (.bwPutu x) s = execBwPutu x s := rfl
  rw [hexec, execBwPutu, command_writing hcfg hstate, putU, fieldBits_eq_msbBits]
  rw [List.forall_mem_cons, List.forall_mem_singleton]
  exact ⟨fieldCheck_zero hfield, hoperand⟩

/-- `BW_PUTU` of a value that its field does not hold (`47_common_semantics.md` R310). -/
theorem exec_bwPutu_too_wide {s : State} {x : Nat} (hcfg : s.regs.cfgOk = true)
    (hstate : (s.regs.bwOk && !inFrame s) = true) (hfield : decide (x ≤ 32) = true)
    (hwide : ¬(0 ≤ s.a0 ∧ s.a0 ≤ 2 ^ x - 1)) : exec (.bwPutu x) s = fail .operand s := by
  have hexec : exec (.bwPutu x) s = execBwPutu x s := rfl
  have hoperand : ¬(operandCheck 0 s.a0 (2 ^ x - 1)).1 = true := mt (inRange_eq_true ..).1 hwide
  rw [hexec, execBwPutu, command, firstError_append (writingChecks_hold hcfg hstate), firstError_cons,
    if_pos (fieldCheck_zero hfield), firstError_cons, if_neg hoperand]
  rfl

theorem exec_bwPuts {s : State} {x : Nat} (h : earlyError (.bwPuts x) s = none) :
    exec (.bwPuts x) s = succeed (putBits s (msbBits x s.a0)) := by
  obtain ⟨hcfg, hstate, hfield, -⟩ := ready_of_earlyError_eq_none h
  have hexec : exec (.bwPuts x) s = execBwPuts x s := rfl
  rw [hexec, execBwPuts, command_writing hcfg hstate, putS, putU, fieldBits_eq_msbBits]
  rw [List.forall_mem_singleton]
  exact fieldCheck_zero hfield

theorem exec_bwFlush {s : State} (h : earlyError .bwFlush s = none) : exec .bwFlush s = succeed (flush s) := by
  obtain ⟨hcfg, hstate, -⟩ := ready_of_earlyError_eq_none h
  have hexec : exec .bwFlush s = execBwFlush s := rfl
  rw [hexec, execBwFlush, command_of_checks (writingChecks_hold hcfg hstate)]

theorem exec_bwUtf8 {s : State} (h : earlyError .bwUtf8 s = none) :
    exec .bwUtf8 s = succeed (putBits s (frameNumberBits s.regs.ops.a0.toNat)) := by
  obtain ⟨hcfg, hstate, -, -, -, hoperand⟩ := ready_of_earlyError_eq_none h
  obtain ⟨hlo, hhi⟩ : 0 ≤ s.a0 ∧ s.a0 ≤ 2 ^ 36 - 1 := (inRange_eq_true ..).1 hoperand
  have hexec : exec .bwUtf8 s = execBwUtf8 s := rfl
  rw [hexec, execBwUtf8, command_writing hcfg hstate, utf8Bits_eq (by omega), State.a0, toNat_toInt_of_nonneg hlo]
  rw [List.forall_mem_singleton]
  exact (inRange_eq_true ..).2 ⟨hlo, by omega⟩

/-! ## The writing commands -/

/-- Settles O18: each of the four commands is `putBits` of its bits, and a value too wide is refused by the last check. -/
theorem append_commands_extend_stream : Obligations.append_commands_extend_stream := by
  intro s
  refine ⟨fun x hs hpos => ?putu, fun x hcfg hstate hfield => ?range, fun x hs hpos => ?puts, fun hs hpos => ?flush,
    fun hs hpos => ?utf8⟩
  case putu =>
    rw [exec_bwPutu hs]
    exact answersAppended_putBits (by rwa [msbBits_length])
  case range =>
    have hfits : operandsReady (.bwPutu x) s = true ↔ 0 ≤ s.a0 ∧ s.a0 < 2 ^ x := by
      rw [← Int.le_sub_one_iff]
      exact inRange_eq_true ..
    refine ⟨fun hin => ?_, fun hout => ?_⟩
    · have hblock : blockReady (.bwPutu x) s = true := rfl
      have hcap : capacityReady (.bwPutu x) s = true := rfl
      rw [earlyError, hcfg, hstate, hfield, hblock, hcap, hfits.2 hin]
      rfl
    · exact exec_bwPutu_too_wide hcfg hstate hfield (by rwa [Int.le_sub_one_iff])
  case puts =>
    rw [exec_bwPuts hs]
    exact answersAppended_putBits (by rwa [msbBits_length])
  case flush =>
    have hlen := List.length_replicate (n := (8 - s.regs.bitpos.toNat % 8) % 8) (a := false)
    obtain ⟨t, ht, happ, hregs⟩ : AnswersAppended s (succeed (flush s)) _ := answersAppended_putBits (by omega)
    exact ⟨t, _, (exec_bwFlush hs).trans ht, by omega, by omega, happ, hregs⟩
  case utf8 =>
    obtain ⟨k, hk, hk7⟩ := frameNumberBits_length s.regs.ops.a0.toNat
    rw [exec_bwUtf8 hs]
    refine answersAppended_putBits ?_
    omega

/-! ## The Rice codeword -/

theorem zigzagOf_cast (v : Int) : (zigzagOf v : Int) = zigzagValue v := by
  unfold zigzagOf zigzagValue
  split <;> omega

/-- The quotient of `30_encoding.md` R118. -/
theorem zigzagOf_shift_cast (v : Int) (k : Nat) :
    ((zigzagOf v >>> k : Nat) : Int) = zigzagValue v / ((2 ^ k : Nat) : Int) := by
  rw [Nat.shiftRight_eq_div_pow, Int.natCast_ediv, zigzagOf_cast]

/-- The model's codeword is that of `30_encoding.md` R118. -/
theorem riceBits_eq (v : Int) (k : Nat) : riceBits v k = riceCode k v := by
  rw [riceBits, riceCode, ← zigzagOf_shift_cast, Int.toNat_natCast, ← zigzagOf_cast, ← Int.natCast_emod,
    fieldBits_eq_msbBits, List.append_assoc, List.singleton_append]

/-- The codeword of a 32-bit residual: a quotient of at most 2^32 − 1, a one and at most 14 bits. -/
theorem riceBits_length_lt {v : Int} {k : Nat} (hlo : -2 ^ 31 ≤ v) (hhi : v ≤ 2 ^ 31 - 1) (hk : k ≤ 14) :
    (riceBits v k).length < 2 ^ 33 := by
  have hzigzag : zigzagOf v < 2 ^ 32 := by unfold zigzagOf; split <;> omega
  have hquotient : zigzagOf v >>> k ≤ zigzagOf v := Nat.shiftRight_le ..
  rw [riceBits, List.length_append, List.length_replicate, List.length_cons, fieldBits_length]
  omega

/-- `BW_RICE` with its checks behind it (`40_bit_writer.md` R148). -/
theorem exec_bwRice {s : State} {k : Nat} (h : earlyError (.bwRice k) s = none) : exec (.bwRice k) s =
    if s.a1 ≠ 0 ∧ s.a1 ≤ zigzagValue s.a0 / ((2 ^ k : Nat) : Int) then fail .riceEscape s
    else succeed (putBits s (riceBits s.a0 k)) := by
  obtain ⟨hcfg, hstate, hfield, -, -, hoperands⟩ := ready_of_earlyError_eq_none h
  obtain ⟨hvalue, hthreshold⟩ := Bool.and_eq_true_iff.1 hoperands
  have hexec : exec (.bwRice k) s = execBwRice k s := rfl
  rw [hexec, execBwRice, command_writing hcfg hstate]
  · rw [zigzagOf_shift_cast]
  · rw [List.forall_mem_cons, List.forall_mem_cons, List.forall_mem_singleton]
    exact ⟨fieldCheck_zero hfield, (fitsSigned_eq ..).trans hvalue, hthreshold⟩

/-- Settles O19: the threshold decides between the codeword and the refusal. -/
theorem bw_rice_appends_codeword : Obligations.bw_rice_appends_codeword := by
  intro s k hs hpos v threshold
  obtain ⟨-, -, hfield, -, -, hoperands⟩ := ready_of_earlyError_eq_none hs
  obtain ⟨hlo, hhi⟩ := (inRange_eq_true ..).1 (Bool.and_eq_true_iff.1 hoperands).1
  have hlen : (riceBits s.a0 k).length < 2 ^ 33 := riceBits_length_lt hlo hhi (of_decide_eq_true hfield)
  have hexec := exec_bwRice hs
  refine ⟨fun hbelow => ?_, fun hreached => hexec.trans (if_pos hreached)⟩
  rw [if_neg fun hreached => hbelow.elim hreached.1 (not_lt.2 hreached.2)] at hexec
  rw [hexec, ← riceBits_eq]
  refine answersAppended_putBits ?_
  omega

/-! ## Init -/

/-- Settles O17: the command is `Init (OUT_CAP)`. -/
theorem bw_init_starts_writer : Obligations.bw_init_starts_writer := by
  intro s hs
  obtain ⟨hcfg, hstate, -, -, hcap, -⟩ := ready_of_earlyError_eq_none hs
  have hexec : exec .bwInit s = execBwInit s := rfl
  rw [hexec, execBwInit, command_of_checks]
  · rfl
  · rw [List.forall_mem_cons, List.forall_mem_cons, List.forall_mem_singleton, noFrameCheck, ← inFrame_eq]
    exact ⟨hcfg, hstate, (within_eq_true ..).2 ⟨Nat.zero_le _, of_decide_eq_true hcap⟩⟩

/-! ## The queries -/

theorem exec_bwPos {s : State} (h : earlyError .bwPos s = none) :
    exec .bwPos s = succeed (s.setA4 (s.regs.bitpos.toNat : Int)) := by
  obtain ⟨hcfg, hstate, -⟩ := ready_of_earlyError_eq_none h
  have hexec : exec .bwPos s = execBwPos s := rfl
  rw [hexec, execBwPos, command_of_checks]
  rw [List.forall_mem_cons, List.forall_mem_singleton]
  exact ⟨hcfg, hstate⟩

/-- The range of `CRC8` and `CRC16`, `40_bit_writer.md` R149. -/
def RangeWritten (s : State) : Prop :=
  0 ≤ s.a0 ∧ s.a0 ≤ s.a1 ∧ s.a1 ≤ (s.regs.bitpos.toNat / 8 : Nat) ∧ s.a1 ≤ s.regs.bwCap.toNat

theorem operandsReady_crc8 (s : State) : operandsReady .crc8 s = true ↔ RangeWritten s := by
  simp only [operandsReady, Bool.and_eq_true, decide_eq_true_eq, and_assoc]
  rfl

theorem crcChecks_hold {s : State} (hcfg : s.regs.cfgOk = true) (hwriter : s.regs.bwOk = true) (hrange : RangeWritten s) :
    ∀ c ∈ crcChecks s, c.1 = true := by
  obtain ⟨hlo, hle, hpos, hcap⟩ := hrange
  rw [crcChecks, List.forall_mem_cons, List.forall_mem_cons, List.forall_mem_singleton]
  refine ⟨hcfg, hwriter, ?_⟩
  simp only [Bool.and_eq_true, decide_eq_true_eq]
  omega

/-- OUT[a0 .. a1 − 1] as the two commands read it. -/
def rangeBytes (s : State) : List Byte :=
  (List.range' s.regs.ops.a0.toNat (s.regs.ops.a1.toNat - s.regs.ops.a0.toNat)).map fun j =>
    BitVec.ofInt 8 (s.memRead .out j)

theorem outBytes_eq_rangeBytes {s : State} (h0 : 0 ≤ s.a0) (h1 : 0 ≤ s.a1) :
    outBytes s s.a0.toNat s.a1.toNat = rangeBytes s := by
  have ha0 : s.a0.toNat = s.regs.ops.a0.toNat := toNat_toInt_of_nonneg h0
  have ha1 : s.a1.toNat = s.regs.ops.a1.toNat := toNat_toInt_of_nonneg h1
  rw [outBytes, State.readRun, rangeBytes, ha0, ha1, List.range'_eq_map_range, List.map_map, List.map_map]
  rfl

/-- The checks of a checksum command, and the bytes of its range. -/
theorem crc_ready {s : State} (h : earlyError .crc8 s = none) :
    (∀ c ∈ crcChecks s, c.1 = true) ∧ outBytes s s.a0.toNat s.a1.toNat = rangeBytes s := by
  obtain ⟨hcfg, hwriter, -, -, -, hoperands⟩ := ready_of_earlyError_eq_none h
  have hrange := (operandsReady_crc8 s).1 hoperands
  have ⟨hlo, hle, _, _⟩ := hrange
  exact ⟨crcChecks_hold hcfg hwriter hrange, outBytes_eq_rangeBytes hlo (hlo.trans hle)⟩

/-- Both checksum commands meet the same errors. -/
theorem earlyError_crc16 (s : State) : earlyError .crc16 s = earlyError .crc8 s := rfl

theorem exec_crc8 {s : State} (h : earlyError .crc8 s = none) :
    exec .crc8 s = succeed (s.setA4 (checksum8 (rangeBytes s) : Int)) := by
  obtain ⟨hchecks, hbytes⟩ := crc_ready h
  have hexec : exec .crc8 s = execCrc8 s := rfl
  rw [hexec, execCrc8, command_of_checks hchecks, hbytes, foldl_crc8Step]

theorem exec_crc16 {s : State} (h : earlyError .crc16 s = none) :
    exec .crc16 s = succeed (s.setA4 (checksum16 (rangeBytes s) : Int)) := by
  obtain ⟨hchecks, hbytes⟩ := crc_ready ((earlyError_crc16 s).symm.trans h)
  have hexec : exec .crc16 s = execCrc16 s := rfl
  rw [hexec, execCrc16, command_of_checks hchecks, hbytes, foldl_crc16Step]

/-- A query that completes writes a4 and STATUS.ERR. -/
theorem succeed_setA4 (s : State) (v : Nat) : succeed (s.setA4 (v : Int)) = .next { s with regs := { s.regs with
    err := .noError, ops := { s.regs.ops with a4 := BitVec.ofNat 64 v } } } := by
  rw [State.setA4, BitVec.ofInt_natCast]
  rfl

/-- Settles O21: the model's checksums are the written-out ones, and a4 is the query's answer. -/
theorem writer_queries_answer_a4 : Obligations.writer_queries_answer_a4 := by
  refine ⟨by decide +kernel, by decide +kernel, by decide +kernel, crc8Step_toNat, crc16Step_toNat, fun s => ?_⟩
  intro bytes
  refine ⟨fun hs => ?pos, fun hs => ?crc8, fun hs => ?crc16⟩
  case pos => rw [exec_bwPos hs, succeed_setA4, BitVec.ofNat_toNat, BitVec.setWidth_eq]
  case crc8 => exact (exec_crc8 hs).trans (succeed_setA4 ..)
  case crc16 => exact (exec_crc16 hs).trans (succeed_setA4 ..)

/-! ## Range checksums and running checksums -/

theorem streamCrc8_toNat (l : List Bool) : (streamCrc8 l).toNat = checksum8 (streamBytes l) := by
  rw [streamCrc8_eq, foldl_crc8Step]

theorem streamCrc16_toNat (l : List Bool) : (streamCrc16 l).toNat = checksum16 (streamBytes l) := by
  rw [streamCrc16_eq, foldl_crc16Step]

/-- Where OUT holds the whole stream, the range from 0 on is the stream's bytes. -/
theorem rangeBytes_of_stream {s : State} {l : List Bool} {m : Nat} (hstream : StreamIs s l)
    (hpos : s.regs.bitpos.toNat = 8 * m) (hcap : m ≤ s.regs.bwCap.toNat) (h0 : s.regs.ops.a0.toNat = 0)
    (h1 : s.regs.ops.a1.toNat = m) : rangeBytes s = streamBytes l := by
  have hlen : l.length / 8 = m := by rw [← hstream.pos, hpos]; omega
  rw [rangeBytes, h0, h1, Nat.sub_zero, ← List.range_eq_range', streamBytes, hlen]
  refine List.map_congr_left fun j hj => ?_
  have hj : j < m := List.mem_range.1 hj
  rw [memRead_of_some (hstream.out j (hlen ▸ hj) (hj.trans_le hcap)), BitVec.ofInt_natCast]

/-- Settles O22: the range is the stream's bytes, of which the running checksums are. -/
theorem range_checksum_is_running : Obligations.range_checksum_is_running := by
  intro s l m hstream hpos hcap ha0 ha1 hs
  have h0 : s.regs.ops.a0.toNat = 0 := by rw [← toNat_toInt_of_nonneg (by omega), ha0]; rfl
  have h1 : s.regs.ops.a1.toNat = m := by rw [← toNat_toInt_of_nonneg (by omega), ha1, Int.toNat_natCast]
  have hbytes := rangeBytes_of_stream hstream hpos hcap h0 h1
  refine ⟨?_, ?_⟩
  · rw [exec_crc8 hs, succeed_setA4, hbytes, ← streamCrc8_toNat, ← hstream.crc8, BitVec.ofNat_toNat]
  · rw [exec_crc16 ((earlyError_crc16 s).trans hs), succeed_setA4, hbytes, ← streamCrc16_toNat, ← hstream.crc16,
      BitVec.ofNat_toNat]

end Sys2Proof.Proofs
end

section
/-!
The zigzag map and the search for a Rice parameter (`41_rice_coder.md` R171 to R173).
-/
namespace Sys2Proof.Proofs
open Sys2Proof.Machine

/-! ## The zigzag map -/

/-- On 32-bit numbers the mask v >> 31 is all zeros or all ones (`41_rice_coder.md` R171). -/
theorem zigzagValue_toInt (v : BitVec 32) : zigzagValue v.toInt = (((v <<< 1) ^^^ v.sshiftRight 31).toNat : Int) := by
  have hlt := v.isLt
  have hshift : (v <<< 1).toNat = 2 * v.toNat % 2 ^ 32 := by
    rw [BitVec.toNat_shiftLeft, Nat.shiftLeft_eq, Nat.mul_comm]
  have hmsb := BitVec.msb_eq_decide v
  unfold zigzagValue
  rw [BitVec.toInt_eq_toNat_cond]
  cases hv : v.msb with
  | false =>
    have hsmall : v.toNat < 2 ^ 31 := by simpa [hv] using hmsb
    have hmask : v.sshiftRight 31 = 0#32 := by
      rw [BitVec.sshiftRight_eq_of_msb_false hv]
      apply BitVec.eq_of_toNat_eq
      rw [BitVec.toNat_ushiftRight, Nat.shiftRight_eq_div_pow, Nat.div_eq_of_lt hsmall]
      rfl
    rw [hmask, BitVec.xor_zero, hshift]
    omega
  | true =>
    have hlarge : 2 ^ 31 ≤ v.toNat := by simpa [hv] using hmsb
    have hmask : v.sshiftRight 31 = BitVec.allOnes 32 := by
      rw [BitVec.sshiftRight_eq_of_msb_true hv, ← BitVec.not_zero]
      congr 1
      apply BitVec.eq_of_toNat_eq
      rw [BitVec.toNat_ushiftRight, Nat.shiftRight_eq_div_pow, BitVec.toNat_not, Nat.div_eq_of_lt (by omega)]
      rfl
    rw [hmask, BitVec.xor_allOnes, BitVec.toNat_not, hshift]
    omega

theorem zigzagValue_unzigzag (u : Nat) : zigzagValue (unzigzag u) = u := by
  unfold zigzagValue unzigzag
  split <;> split <;> omega

theorem unzigzag_of_zigzagValue {v : Int} {u : Nat} (h : zigzagValue v = u) : v = unzigzag u := by
  rw [← zigzagOf_cast, Int.natCast_inj] at h
  rw [← h, unzigzag_zigzagOf]

theorem exec_zigzag {s : State} (h : earlyError .zigzag s = none) :
    exec .zigzag s = succeed (s.setA4 (zigzagValue s.a0)) := by
  obtain ⟨hcfg, -, -, -, -, hoperand⟩ := ready_of_earlyError_eq_none h
  have hexec : exec .zigzag s = execZigzag s := rfl
  rw [hexec, execZigzag, command_of_checks, zigzagOf_cast]
  rw [List.forall_mem_cons, List.forall_mem_singleton]
  exact ⟨hcfg, (fitsSigned_eq ..).trans hoperand⟩

/-- Settles O24: the inverse of the map is the reader's `unzigzag`. -/
theorem zigzag_value_and_bijection : Obligations.zigzag_value_and_bijection :=
  ⟨fun _ hs => exec_zigzag hs, zigzagValue_toInt,
    fun u => ⟨unzigzag u, zigzagValue_unzigzag u, fun _ hv => unzigzag_of_zigzagValue hv⟩⟩

/-! ## The scan for a least cost -/

/-- `m` has the least cost of lo .. hi, and is the smallest index that has it: the tie-break of `41_rice_coder.md` R173
and R176. -/
structure LeastOf (cost : Nat → Int) (lo hi m : Nat) : Prop where
  lo_le : lo ≤ m
  le_hi : m ≤ hi
  le : ∀ q, lo ≤ q → q ≤ hi → cost m ≤ cost q
  lt : ∀ q, lo ≤ q → q < m → cost m < cost q

theorem LeastOf.unique {cost : Nat → Int} {lo hi m m' : Nat} (h : LeastOf cost lo hi m) (h' : LeastOf cost lo hi m') :
    m = m' := by
  refine le_antisymm (not_lt.1 fun hlt => ?_) (not_lt.1 fun hlt => ?_)
  · exact (h.lt m' h'.lo_le hlt).not_ge (h'.le m h.lo_le h.le_hi)
  · exact (h'.lt m h.lo_le hlt).not_ge (h.le m' h'.lo_le h'.le_hi)

theorem leastOf_self (cost : Nat → Int) (lo : Nat) : LeastOf cost lo lo lo where
  lo_le := le_rfl
  le_hi := le_rfl
  le q h h' := by rw [le_antisymm h h']
  lt q h h' := absurd h' h.not_gt

/-- One more candidate at the end: it wins only when it is strictly better. -/
theorem LeastOf.succ {cost : Nat → Int} {lo hi m : Nat} (h : LeastOf cost lo hi m) :
    LeastOf cost lo (hi + 1) (if cost (hi + 1) < cost m then hi + 1 else m) := by
  have hlo := h.lo_le
  have hhi := h.le_hi
  split
  · next hlt =>
    have hbest : ∀ q, lo ≤ q → q ≤ hi → cost (hi + 1) < cost q := fun q hq hq' => hlt.trans_le (h.le q hq hq')
    refine ⟨by omega, le_rfl, fun q hq hq' => ?_, fun q hq hq' => hbest q hq (Nat.le_of_lt_succ hq')⟩
    rcases Nat.of_le_succ hq' with hle | rfl
    · exact (hbest q hq hle).le
    · exact le_rfl
  · next hge =>
    refine ⟨hlo, by omega, fun q hq hq' => ?_, h.lt⟩
    rcases Nat.of_le_succ hq' with hle | rfl
    · exact h.le q hq hle
    · exact not_lt.1 hge

/-- An ascending scan that replaces its candidate on a strictly smaller cost alone ends at the least one. -/
theorem foldl_least {α : Type} (cost : α → Int) (item : Nat → α) {lo hi : Nat} (h : lo ≤ hi) :
    ∃ m, LeastOf (fun q => cost (item q)) lo hi m
      ∧ (upto (lo + 1) hi).foldl (fun best q => if cost (item q) < cost best then item q else best) (item lo)
        = item m := by
  induction hi, h using Nat.le_induction with
  | base => exact ⟨lo, leastOf_self _ lo, by rw [upto, Nat.sub_self]; rfl⟩
  | succ hi hle ih =>
    obtain ⟨m, hleast, hfold⟩ := ih
    have hscan : upto (lo + 1) (hi + 1) = upto (lo + 1) hi ++ [hi + 1] := by
      have hlen : hi + 1 + 1 - (lo + 1) = hi + 1 - (lo + 1) + 1 := by omega
      rw [upto, hlen, List.range'_1_concat, upto]
      congr 2
      omega
    refine ⟨_, hleast.succ, ?_⟩
    rw [hscan, List.foldl_append, hfold, List.foldl_cons, List.foldl_nil]
    split <;> rfl

/-! ## One partition -/

theorem riceCountOf_eq (sum n k : Nat) : riceCountOf sum n k = riceCost sum n k := by
  rw [riceCountOf, riceCost, asr]
  push_cast
  rfl

theorem bestParam_iff (sum : Int) (n k : Nat) : BestParam sum n k ↔ LeastOf (riceCost sum n) 0 14 k := by
  constructor
  · rintro ⟨hk, hbest⟩
    exact ⟨Nat.zero_le k, hk, fun j _ hj => (hbest j hj).1, fun j _ hj => (hbest j (hj.le.trans hk)).2 hj⟩
  · intro h
    exact ⟨h.le_hi, fun j hj => ⟨h.le j j.zero_le hj, h.lt j j.zero_le⟩⟩

theorem bestParam_unique {sum : Int} {n k k' : Nat} (h : BestParam sum n k) (h' : BestParam sum n k') : k = k' :=
  ((bestParam_iff ..).1 h).unique ((bestParam_iff ..).1 h')

/-- `FindParam` answers the parameter of least estimate with that estimate (`41_rice_coder.md` R173). -/
theorem findParamOf_spec (sum n : Nat) : ∃ k, BestParam sum n k ∧ findParamOf sum n = (k, riceCost sum n k) := by
  obtain ⟨k, hleast, hfold⟩ := foldl_least Prod.snd (fun k => (k, riceCountOf sum n k)) (Nat.zero_le 14)
  have hfind : findParamOf sum n = (k, riceCountOf sum n k) := hfold
  simp only [riceCountOf_eq] at hleast hfind
  exact ⟨k, (bestParam_iff ..).2 hleast, hfind⟩

/-! ## The commands on one partition -/

/-- The operands of `RICE_COUNT` and `FIND_PARAM` as the numbers that they are (`41_rice_coder.md` R172). -/
theorem sum_operands {s : State} (h : (inRange 0 s.a0 (2 ^ 49) && inRange 0 s.a1 65535) = true) :
    (∀ c ∈ sumChecks s, c.1 = true) ∧ (s.a0.toNat : Int) = s.a0 ∧ s.a1.toNat = s.regs.ops.a1.toNat := by
  obtain ⟨hsum, hcount⟩ := Bool.and_eq_true_iff.1 h
  obtain ⟨hsum0, -⟩ := (inRange_eq_true ..).1 hsum
  obtain ⟨hcount0, -⟩ := (inRange_eq_true ..).1 hcount
  refine ⟨?_, Int.toNat_of_nonneg hsum0, toNat_toInt_of_nonneg hcount0⟩
  rw [sumChecks, List.forall_mem_cons, List.forall_mem_singleton]
  exact ⟨hsum, hcount⟩

theorem exec_riceCount {s : State} {k : Nat} (h : earlyError (.riceCount k) s = none) :
    exec (.riceCount k) s = succeed (s.setA4 (riceCost s.a0 s.regs.ops.a1.toNat k)) := by
  obtain ⟨hcfg, -, hfield, -, -, hoperands⟩ := ready_of_earlyError_eq_none h
  obtain ⟨hchecks, hsum, hcount⟩ := sum_operands hoperands
  have hexec : exec (.riceCount k) s = execRiceCount k s := rfl
  rw [hexec, execRiceCount, command_of_checks, riceCountOf_eq, hsum, hcount]
  rw [List.forall_mem_append, List.forall_mem_cons, List.forall_mem_singleton]
  exact ⟨⟨hcfg, fieldCheck_zero hfield⟩, hchecks⟩

theorem exec_findParam {s : State} (h : earlyError .findParam s = none) :
    ∃ k, BestParam s.a0 s.regs.ops.a1.toNat k
      ∧ exec .findParam s = succeed ((s.setA4 k).setA5 (riceCost s.a0 s.regs.ops.a1.toNat k)) := by
  obtain ⟨hcfg, -, -, -, -, hoperands⟩ := ready_of_earlyError_eq_none h
  obtain ⟨hchecks, hsum, hcount⟩ := sum_operands hoperands
  obtain ⟨k, hbest, hfind⟩ := findParamOf_spec s.a0.toNat s.a1.toNat
  rw [hsum, hcount] at hbest hfind
  have hexec : exec .findParam s = execFindParam s := rfl
  refine ⟨k, hbest, ?_⟩
  rw [hexec, execFindParam, command_of_checks, hcount, hfind]
  rw [List.forall_mem_append, List.forall_mem_singleton]
  exact ⟨hcfg, hchecks⟩

/-- A command that completes with two answers writes a4, a5 and STATUS.ERR. -/
theorem succeed_setA4_setA5 (s : State) (v w : Int) : succeed ((s.setA4 v).setA5 w) = .next { s with regs := { s.regs with
    err := .noError, ops := { s.regs.ops with a4 := BitVec.ofInt 64 v, a5 := BitVec.ofInt 64 w } } } :=
  rfl

/-- Settles O25: both commands are the exact estimate, and the ascending scan finds the least one. -/
theorem rice_estimates_and_best_param : Obligations.rice_estimates_and_best_param := by
  intro s sum n
  refine ⟨fun k hs => exec_riceCount hs, fun hs => ?_⟩
  obtain ⟨k, hbest, hexec⟩ := exec_findParam hs
  exact ⟨k, hbest, by rw [hexec, succeed_setA4_setA5, BitVec.ofInt_natCast]; rfl⟩

end Sys2Proof.Proofs
end

section
/-!
The partition-order bound (`41_rice_coder.md` R174).
-/
namespace Sys2Proof.Proofs
open Sys2Proof.Machine

/-- n and n − 1 have the same quotient by d unless d divides n. -/
theorem div_ne_pred_div_iff {n d : Nat} (hn : 1 ≤ n) : n / d ≠ (n - 1) / d ↔ d ∣ n := by
  obtain ⟨m, rfl⟩ : ∃ m, n = m + 1 := ⟨n - 1, by omega⟩
  rw [Nat.succ_div, Nat.add_sub_cancel]
  split <;> simp [*]

/-- The logarithm of R174's XOR counts the factors 2 of n. -/
theorem le_flog2_xor_pred {n : Nat} (hn : 1 ≤ n) (q : Nat) : q ≤ flog2 (n ^^^ (n - 1)) ↔ 2 ^ q ∣ n := by
  have hxor : n ^^^ (n - 1) ≠ 0 := by
    rw [Ne, Nat.xor_eq_zero_iff]
    omega
  calc q ≤ flog2 (n ^^^ (n - 1))
    _ ↔ 2 ^ q ≤ n ^^^ (n - 1) := Nat.le_log2 hxor
    _ ↔ (n ^^^ (n - 1)) >>> q ≠ 0 := by
      rw [Nat.shiftRight_eq_div_pow, Ne, Nat.div_eq_zero_iff_lt (Nat.two_pow_pos q), not_lt]
    _ ↔ n / 2 ^ q ≠ (n - 1) / 2 ^ q := by
      rw [Nat.shiftRight_xor_distrib, Ne, Nat.xor_eq_zero_iff, Nat.shiftRight_eq_div_pow, Nat.shiftRight_eq_div_pow]
    _ ↔ 2 ^ q ∣ n := div_ne_pred_div_iff hn

/-- The second logarithm of R174 keeps the spans at least as long as the prediction order. -/
theorem le_flog2_div {n order : Nat} (horder : 1 ≤ order) (hle : order ≤ n) (q : Nat) :
    q ≤ flog2 (n / order) ↔ order ≤ n / 2 ^ q := by
  have hquotient : n / order ≠ 0 := (Nat.div_pos hle horder).ne'
  rw [flog2, Nat.le_log2 hquotient, Nat.le_div_iff_mul_le horder, Nat.le_div_iff_mul_le (Nat.two_pow_pos q), Nat.mul_comm]

/-- The partition orders up to `MaxPorder` are those that R174 admits: the admitted ones have no gap. -/
theorem le_maxPorderOf_iff {n order : Nat} (hn : 1 ≤ n) (hle : order ≤ n) (pmax q : Nat) :
    q ≤ maxPorderOf pmax n order ↔ q ≤ pmax ∧ 2 ^ q ∣ n ∧ order ≤ n / 2 ^ q := by
  rw [maxPorderOf]
  split
  · next hzero => rw [Nat.le_min, le_flog2_xor_pred hn, hzero]; simp
  · next hpos =>
    rw [Nat.le_min, Nat.le_min, le_flog2_xor_pred hn, le_flog2_div (Nat.pos_of_ne_zero hpos) hle, and_assoc]

theorem isMaxPorder_maxPorderOf {n order : Nat} (hn : 1 ≤ n) (hle : order ≤ n) (pmax : Nat) :
    IsMaxPorder pmax n order (maxPorderOf pmax n order) :=
  ⟨(le_maxPorderOf_iff hn hle ..).1 le_rfl, fun _ hq hdvd hspan => (le_maxPorderOf_iff hn hle ..).2 ⟨hq, hdvd, hspan⟩⟩

/-- A higher bound does not give a lower partition order (`41_rice_coder.md` R175). -/
theorem maxPorderOf_mono {n order pmin pmax : Nat} (hn : 1 ≤ n) (hle : order ≤ n) (h : pmin ≤ pmax) :
    maxPorderOf pmin n order ≤ maxPorderOf pmax n order := by
  obtain ⟨hpmin, hadmitted⟩ := (le_maxPorderOf_iff hn hle pmin _).1 le_rfl
  exact (le_maxPorderOf_iff hn hle ..).2 ⟨hpmin.trans h, hadmitted⟩

theorem exec_maxPorder {s : State} {order pmax : Nat} (h : earlyError (.maxPorder order pmax) s = none) :
    exec (.maxPorder order pmax) s = succeed (s.setA4 (maxPorderOf pmax s.blockLen order : Nat)) := by
  obtain ⟨hcfg, -, hfields, hblock, -, horder⟩ := ready_of_earlyError_eq_none h
  obtain ⟨hx, hy⟩ := Bool.and_eq_true_iff.1 hfields
  have hexec : exec (.maxPorder order pmax) s = execMaxPorder order pmax s := rfl
  rw [hexec, execMaxPorder, command_of_checks]
  rw [List.forall_mem_cons, List.forall_mem_cons, List.forall_mem_cons, List.forall_mem_cons, List.forall_mem_singleton]
  exact ⟨hcfg, fieldCheck_zero hx, fieldCheck_zero hy, hblock, horder⟩

/-- Settles O26: the two logarithms are the divisibility and the span condition of R174. -/
theorem max_porder_is_greatest : Obligations.max_porder_is_greatest := by
  intro s order pmax hs
  obtain ⟨-, -, -, hblock, -, horder⟩ := ready_of_earlyError_eq_none hs
  have hlen : 1 ≤ s.blockLen := of_decide_eq_true (Bool.and_eq_true_iff.1 hblock).1
  exact ⟨_, isMaxPorder_maxPorderOf hlen (of_decide_eq_true horder) pmax, (exec_maxPorder hs).trans (succeed_setA4 ..)⟩

end Sys2Proof.Proofs
end

section
/-!
The partition sums and the plans (`41_rice_coder.md` R175 to R177), for the residuals f 0 .. f (n − 1).
-/
namespace Sys2Proof.Proofs
open Sys2Proof.Machine

section
variable (f : Nat → Int) (n order : Nat)

/-! ## Partitions -/

/-- The natural number that `partTotal` is (`partSum_cast`), as SUMS holds it. -/
def partSum (p j : Nat) : Nat :=
  ((List.range' (partStart n order p j) ((j + 1) * (n / 2 ^ p) - partStart n order p j)).map fun i => zigzagOf (f i)).sum

theorem partSum_cast (p j : Nat) : (partSum f n order p j : Int) = partTotal f n order p j := by
  rw [partSum, partTotal, Nat.cast_list_sum, List.map_map]
  exact congrArg List.sum (List.map_congr_left fun i _ => zigzagOf_cast (f i))

variable {f n order}

/-- The residuals of a partition are those of the indices of R177. -/
theorem partition_map_range {p j : Nat} (hj : j < 2 ^ p) : partition ((List.range n).map f) (n / 2 ^ p) order j
    = (List.range' (partStart n order p j) ((j + 1) * (n / 2 ^ p) - partStart n order p j)).map f := by
  have hend : (j + 1) * (n / 2 ^ p) ≤ n := (Nat.mul_le_mul_right _ hj).trans (Nat.mul_div_le ..)
  rw [partition, ← List.map_take, ← List.map_drop, List.take_range, min_eq_left hend, List.range_eq_range',
    List.drop_range', Nat.mul_one, Nat.zero_add, partStart]

/-- The two halves of a partition are neighbours one order up (`41_rice_coder.md` R175): the warm-up lies in the first
partition of the finer order too. -/
theorem partSum_eq_add {p : Nat} (j : Nat) (hdvd : 2 ^ (p + 1) ∣ n) (horder : order ≤ n / 2 ^ (p + 1)) :
    partSum f n order p j = partSum f n order (p + 1) (2 * j) + partSum f n order (p + 1) (2 * j + 1) := by
  obtain ⟨len, hn⟩ := hdvd
  have hfine : n / 2 ^ (p + 1) = len := by rw [hn, Nat.mul_div_cancel_left _ (Nat.two_pow_pos _)]
  have hcoarse : n / 2 ^ p = 2 * len := by
    rw [hn, Nat.pow_succ, Nat.mul_assoc, Nat.mul_div_cancel_left _ (Nat.two_pow_pos _)]
  rw [hfine] at horder
  have hsecond : order ≤ (2 * j + 1) * len := horder.trans (Nat.le_mul_of_pos_left len (Nat.succ_pos _))
  have hstart : j * (2 * len) = 2 * j * len := by ring
  have hmiddle : (2 * j + 1) * len = 2 * j * len + len := by ring
  have hend : (2 * j + 1 + 1) * len = 2 * j * len + len + len := by ring
  have hend' : (j + 1) * (2 * len) = 2 * j * len + len + len := by ring
  rw [partSum, partSum, partSum, partStart, partStart, partStart, hfine, hcoarse, max_eq_left hsecond, hstart, hend, hend',
    hmiddle, ← List.sum_append, ← List.map_append]
  congr 2
  have happend := List.range'_append (s := max (2 * j * len) order) (m := 2 * j * len + len - max (2 * j * len) order)
    (n := len) (step := 1)
  have hjoin : max (2 * j * len) order + 1 * (2 * j * len + len - max (2 * j * len) order) = 2 * j * len + len := by omega
  rw [hjoin] at happend
  rw [Nat.add_sub_cancel_left, happend]
  congr 1
  omega

theorem pairSums_map_range (g : Nat → Nat) (m : Nat) :
    pairSums ((List.range (2 * m)).map g) = (List.range m).map fun j => g (2 * j) + g (2 * j + 1) := by
  induction m generalizing g with
  | zero => rfl
  | succ m ih =>
    have hcons (k : Nat) (h : Nat → Nat) : (List.range (k + 1)).map h = h 0 :: (List.range k).map fun j => h (j + 1) := by
      rw [List.range_succ_eq_map, List.map_cons, List.map_map]
      rfl
    rw [Nat.mul_succ, hcons, hcons, hcons, pairSums, ih]
    rfl

/-- SUMS[p] of `PartSums` for every partition order up to the greatest admissible one. -/
theorem partSumsAt_map_range {hi p : Nat} (hp : p ≤ hi) (hdvd : 2 ^ hi ∣ n) (horder : order ≤ n / 2 ^ hi) :
    partSumsAt ((List.range n).map f) n order hi p = (List.range (2 ^ p)).map (partSum f n order p) := by
  obtain ⟨d, rfl⟩ := Nat.exists_eq_add_of_le hp
  rw [partSumsAt, Nat.add_sub_cancel_left]
  have hfinest : ((List.range (2 ^ (p + d))).map fun j =>
      sumNat ((partition ((List.range n).map f) (n / 2 ^ (p + d)) order j).map zigzagOf))
        = (List.range (2 ^ (p + d))).map (partSum f n order (p + d)) := by
    refine List.map_congr_left fun j hj => ?_
    rw [partition_map_range (List.mem_range.1 hj), sumNat, ← List.sum_eq_foldl_nat, List.map_map]
    rfl
  rw [hfinest]
  clear hfinest hp
  induction d generalizing p with
  | zero => rfl
  | succ d ih =>
    have hle : 2 ^ (p + 1) ∣ 2 ^ (p + (d + 1)) := Nat.pow_dvd_pow 2 (by omega)
    have hspan : order ≤ n / 2 ^ (p + 1) :=
      horder.trans (Nat.div_le_div_left (Nat.le_of_dvd (Nat.two_pow_pos _) hle) (Nat.two_pow_pos _))
    have hfiner : p + (d + 1) = p + 1 + d := by omega
    rw [hfiner] at hdvd horder
    rw [Nat.repeat, hfiner, ih hdvd horder, Nat.pow_succ, Nat.mul_comm, pairSums_map_range]
    refine List.map_congr_left fun j _ => ?_
    rw [partSum_eq_add j (hle.trans ?_) hspan]
    rwa [hfiner]

/-! ## Plans -/

variable (f n order)

/-- What `FindParam` answers for partition j at partition order p. -/
def partParam (p j : Nat) : Nat := (findParamOf (partSum f n order p j) (partCount n order p j)).1

/-- The cost of partition order p with the parameters that `FindParam` picks (`41_rice_coder.md` R176). -/
def planCost (p : Nat) : Int :=
  4 * ((2 ^ p : Nat) : Int) + ((List.range (2 ^ p)).map fun j =>
    riceCost (partTotal f n order p j) (partCount n order p j) (partParam f n order p j)).sum

theorem findParamOf_partSum (p j : Nat) :
    BestParam (partTotal f n order p j) (partCount n order p j) (partParam f n order p j)
      ∧ findParamOf (partSum f n order p j) (partCount n order p j) = (partParam f n order p j,
        riceCost (partTotal f n order p j) (partCount n order p j) (partParam f n order p j)) := by
  obtain ⟨k, hbest, hfind⟩ := findParamOf_spec (partSum f n order p j) (partCount n order p j)
  rw [partSum_cast] at hbest hfind
  rw [partParam, hfind]
  exact ⟨hbest, rfl⟩

variable {f n order}

/-- A plan of partition order p has the parameters of `FindParam` and their cost, and no other. -/
theorem isPlanAt_planCost (p : Nat) : IsPlanAt f n order p (partParam f n order p) (planCost f n order p) :=
  ⟨fun j _ => (findParamOf_partSum f n order p j).1, rfl⟩

theorem bits_eq_of_isPlanAt {p : Nat} {param : Nat → Nat} {bits : Int} (h : IsPlanAt f n order p param bits) :
    bits = planCost f n order p := by
  obtain ⟨hparam, hbits⟩ := h
  rw [hbits, planCost]
  congr 2
  refine List.map_congr_left fun j hj => ?_
  rw [bestParam_unique (hparam j (List.mem_range.1 hj)) (findParamOf_partSum f n order p j).1]

theorem zipIdx_map_range {α : Type} (g : Nat → α) (m : Nat) :
    ((List.range m).map g).zipIdx = (List.range m).map fun j => (g j, j) := by
  refine List.ext_getElem (by simp) fun j _ _ => ?_
  simp

theorem foldl_add_snd (l : List (Nat × Int)) (start : Int) :
    l.foldl (fun acc kc => acc + kc.2) start = start + (l.map Prod.snd).sum := by
  induction l generalizing start with
  | nil => simp
  | cons kc l ih => rw [List.foldl_cons, ih, List.map_cons, List.sum_cons, Int.add_assoc]

/-- The candidate of `CalcRice` at a partition order up to the greatest admissible one. -/
theorem planAt_map_range {hi p : Nat} (hp : p ≤ hi) (hdvd : 2 ^ hi ∣ n) (horder : order ≤ n / 2 ^ hi) :
    planAt ((List.range n).map f) n order hi p
      = ⟨planCost f n order p, p, (List.range (2 ^ p)).map (partParam f n order p)⟩ := by
  have hfound : ((partSumsAt ((List.range n).map f) n order hi p).zipIdx.map fun sj =>
      findParamOf sj.1 (n / 2 ^ p - if sj.2 = 0 then order else 0)) = (List.range (2 ^ p)).map fun j =>
        (partParam f n order p j,
          riceCost (partTotal f n order p j) (partCount n order p j) (partParam f n order p j)) := by
    rw [partSumsAt_map_range hp hdvd horder, zipIdx_map_range, List.map_map]
    refine List.map_congr_left fun j _ => ?_
    have hcount : (n / 2 ^ p - if j = 0 then order else 0) = partCount n order p j := rfl
    rw [Function.comp_apply, hcount, (findParamOf_partSum f n order p j).2]
  rw [planAt, hfound, foldl_add_snd, List.map_map, List.map_map, planCost]
  push_cast
  rfl

/-- `CalcRice` answers the plan of least cost, the smallest partition order among equals (`41_rice_coder.md` R176). -/
theorem calcRiceOf_map_range {pmin pmax : Nat} (hn : 1 ≤ n) (hle : order ≤ n) (hbounds : pmin ≤ pmax) :
    ∃ p, LeastOf (planCost f n order) (maxPorderOf pmin n order) (maxPorderOf pmax n order) p
      ∧ calcRiceOf ((List.range n).map f) n order pmin pmax
        = ⟨planCost f n order p, p, (List.range (2 ^ p)).map (partParam f n order p)⟩ := by
  obtain ⟨-, hdvd, horder⟩ := (le_maxPorderOf_iff hn hle pmax _).1 le_rfl
  have hplan {p : Nat} (hp : p ≤ maxPorderOf pmax n order) := planAt_map_range (f := f) hp hdvd horder
  obtain ⟨p, hleast, hfold⟩ := foldl_least Plan.bits
    (planAt ((List.range n).map f) n order (maxPorderOf pmax n order)) (maxPorderOf_mono hn hle hbounds)
  have hcost {q : Nat} (hq : q ≤ maxPorderOf pmax n order) := congrArg Plan.bits (hplan hq)
  refine ⟨p, ⟨hleast.lo_le, hleast.le_hi, fun q hq hq' => ?_, fun q hq hq' => ?_⟩, hfold.trans (hplan hleast.le_hi)⟩
  · have hle := hleast.le q hq hq'
    rwa [hcost hleast.le_hi, hcost hq'] at hle
  · have hlt := hleast.lt q hq hq'
    rwa [hcost hleast.le_hi, hcost (hq'.le.trans hleast.le_hi)] at hlt

theorem isBestPlan_of_leastOf {pmin pmax p : Nat} (hn : 1 ≤ n) (hle : order ≤ n)
    (h : LeastOf (planCost f n order) (maxPorderOf pmin n order) (maxPorderOf pmax n order) p) :
    IsBestPlan f n order pmin pmax p (partParam f n order p) (planCost f n order p) := by
  refine ⟨_, _, isMaxPorder_maxPorderOf hn hle pmin, isMaxPorder_maxPorderOf hn hle pmax, h.lo_le, h.le_hi,
    isPlanAt_planCost p, fun q param bits hq hq' hplan => ?_⟩
  rw [bits_eq_of_isPlanAt hplan]
  exact ⟨h.le q hq hq', h.lt q hq⟩

end

end Sys2Proof.Proofs
end

section
/-!
Runs of elements: what a write leaves alone and what is read back, and the values that fit their element.
-/
namespace Sys2Proof.Proofs
open Sys2Proof.Machine

/-! ## Runs of elements -/

theorem covered_append (a b : List Range) (sp : Space) (i : Nat) :
    covered (a ++ b) sp i = (covered a sp i || covered b sp i) := List.any_append

theorem covered_singleton (sp sp' : Space) (lo len i : Nat) :
    covered [(sp, lo, len)] sp' i = true ↔ sp' = sp ∧ lo ≤ i ∧ i < lo + len := by
  simp only [covered, List.any_cons, List.any_nil, Bool.or_false, Bool.and_eq_true, decide_eq_true_eq, and_assoc,
    eq_comm (a := sp)]

theorem covered_map {α : Type} (range : α → Range) (l : List α) (sp : Space) (i : Nat) :
    covered (l.map range) sp i = true ↔ ∃ x ∈ l, covered [range x] sp i = true := by
  simp only [covered, List.any_map, List.any_eq_true, Function.comp_apply, List.mem_singleton, exists_eq_left]

theorem keptOutside_refl (s : State) : keptOutside [] s s := ⟨fun _ _ _ => rfl, rfl, rfl⟩

theorem keptOutside_append {a b : List Range} {s t u : State} (h : keptOutside a s t) (h' : keptOutside b t u) :
    keptOutside (a ++ b) s u := by
  obtain ⟨hmem, hhost, hread⟩ := h
  obtain ⟨hmem', hhost', hread'⟩ := h'
  refine ⟨fun sp i hout => ?_, hhost'.trans hhost, hread'.trans hread⟩
  rw [covered_append, Bool.or_eq_false_iff] at hout
  exact (hmem' sp i hout.2).trans (hmem sp i hout.1)

theorem keptOutside_comm {a b : List Range} {s t : State} (h : keptOutside (a ++ b) s t) : keptOutside (b ++ a) s t :=
  ⟨fun sp i hout => h.1 sp i (by rwa [covered_append, Bool.or_comm, ← covered_append]), h.2⟩

theorem keptOutside_foldl {α : Type} {f : State → α → State} {range : α → Range}
    (h : ∀ s x, keptOutside [range x] s (f s x)) (l : List α) (s : State) :
    keptOutside (l.map range) s (l.foldl f s) := by
  induction l generalizing s with
  | nil => exact keptOutside_refl s
  | cons x l ih => exact keptOutside_append (h s x) (ih _)

theorem keptOutside_memWrite_run (s : State) (sp : Space) (lo : Nat) (vals : List Int) :
    keptOutside [(sp, lo, vals.length)] s (s.memWrite sp lo vals) := by
  refine ⟨fun sp' i hout => ?_, rfl, rfl⟩
  rw [memGet?_memWrite, if_neg]
  rw [← covered_singleton, hout]
  exact Bool.false_ne_true

theorem memGet?_memWrite_run (s : State) (sp : Space) (lo : Nat) {vals : List Int} {j : Nat} {v : Int}
    (h : vals[j]? = some v) : memGet? (s.memWrite sp lo vals).mem sp (lo + j) = some (sp.stored v) := by
  obtain ⟨hj, -⟩ := List.getElem?_eq_some_iff.1 h
  rw [memGet?_memWrite, if_pos ⟨rfl, by omega, by omega⟩, Nat.add_sub_cancel_left, h]
  rfl

/-! ## Values that fit their element -/

theorem stored_sums {v : Nat} (h : v < 2 ^ 64) : Space.sums.stored v = v := by
  change (((BitVec.ofInt 64 (v : Int)).setWidth 64).toNat : Int) = v
  rw [BitVec.setWidth_eq, BitVec.ofInt_natCast, BitVec.toNat_ofNat, Nat.mod_eq_of_lt h]

theorem stored_subrec {v : Nat} (h : v < 2 ^ 63) : Space.subrec.stored v = v := by
  change ((BitVec.ofInt 64 (v : Int)).setWidth 64).toInt = v
  rw [BitVec.setWidth_eq, BitVec.toInt_ofInt_eq_self (by decide) (by omega) (by omega)]

/-- RES holds 32-bit numbers, unspecified ones included (`20_memory.md` R60, R75). -/
theorem memRead_res_range (s : State) (i : Nat) : -2 ^ 31 ≤ s.memRead .res i ∧ s.memRead .res i < 2 ^ 31 := by
  have hget : memGet? s.mem .res i = (cellGet s.mem.res i).map BitVec.toInt := rfl
  rw [State.memRead, hget]
  cases cellGet s.mem.res i with
  | none => exact elem_range .res _
  | some b => exact ⟨b.le_toInt, b.toInt_lt⟩

theorem residualAt_range (s : State) (ch i : Nat) : -2 ^ 31 ≤ residualAt s ch i ∧ residualAt s ch i < 2 ^ 31 :=
  memRead_res_range s _

end Sys2Proof.Proofs
end

section
/-!
What `PART_SUMS` and `CALC_RICE` store and answer (`41_rice_coder.md` R175, R176).
-/
namespace Sys2Proof.Proofs
open Sys2Proof.Machine

/-! ## Rows of SUMS -/

/-- `storeSums` and `storePlan` coerce a list of naturals in one piece, not element by element. -/
theorem castList_eq (l : List Nat) : (l.map fun v => (v : Int)) = l.map Nat.cast := by
  induction l with
  | nil => rfl
  | cons v l ih => exact congrArg ((v : Int) :: ·) ih

theorem castList_getElem? {l : List Nat} {j v : Nat} (h : l[j]? = some v) :
    (l.map fun v => (v : Int))[j]? = some (v : Int) := by
  rw [castList_eq, List.getElem?_map, h]
  rfl

/-- The row that `PartSums` writes at partition order p. -/
def sumsRow (r : List Int) (n order hi p : Nat) : List Int := (partSumsAt r n order hi p).map fun v => (v : Int)

theorem sumsRow_length (r : List Int) (n order hi p : Nat) : (sumsRow r n order hi p).length = 2 ^ min p hi := by
  rw [sumsRow, castList_length, partSumsAt_length]

section
variable {row : Nat → List Int}

theorem keptOutside_rows (row : Nat → List Int) (l : List Nat) (s : State) :
    keptOutside (l.map fun p => (Space.sums, sumsIndex p 0, (row p).length)) s
      (l.foldl (fun s p => s.memWrite .sums (sumsIndex p 0) (row p)) s) :=
  keptOutside_foldl (fun s p => keptOutside_memWrite_run s .sums (sumsIndex p 0) (row p)) l s

/-- Rows do not overlap, so that each holds what was written to it, whatever rows came after. -/
theorem memGet?_rows (hrow : ∀ p, (row p).length ≤ 256) {l : List Nat} {q j : Nat} {v : Int} (hq : q ∈ l)
    (hv : (row q)[j]? = some v) (s : State) :
    memGet? (l.foldl (fun s p => s.memWrite .sums (sumsIndex p 0) (row p)) s).mem .sums (sumsIndex q 0 + j)
      = some (Space.sums.stored v) := by
  obtain ⟨hj, -⟩ := List.getElem?_eq_some_iff.1 hv
  have hj256 := hj.trans_le (hrow q)
  induction l generalizing s with
  | nil => exact absurd hq List.not_mem_nil
  | cons p l ih =>
    by_cases hlater : q ∈ l
    · exact ih hlater _
    · obtain rfl : q = p := (List.mem_cons.1 hq).resolve_right hlater
      have hkept := keptOutside_rows row l (s.memWrite .sums (sumsIndex q 0) (row q))
      refine (hkept.1 .sums _ ?_).trans (memGet?_memWrite_run s .sums (sumsIndex q 0) hv)
      rw [Bool.eq_false_iff, Ne, covered_map]
      rintro ⟨p, hp, hin⟩
      obtain ⟨-, hlo, hlt⟩ := (covered_singleton ..).1 hin
      have hne : p ≠ q := fun he => hlater (he ▸ hp)
      have hlen := hrow p
      rw [sumsIndex, sumsIndex] at hlo hlt
      omega

end

/-! ## What `PartSums` stores -/

theorem residuals_eq (s : State) (ch n : Nat) : s.residuals ch n = (List.range n).map (residualAt s ch) := by
  rw [State.residuals, State.readRun, chIndex, Nat.add_zero]
  rfl

/-- A partition sum of 32-bit residuals is below 2^48 (`41_rice_coder.md` R175). -/
theorem partSum_lt {f : Nat → Int} {n p j : Nat} (order : Nat) (hf : ∀ i, -2 ^ 31 ≤ f i ∧ f i < 2 ^ 31)
    (hn : n ≤ 65535) (hj : j < 2 ^ p) : partSum f n order p j < 2 ^ 48 := by
  have hzigzag : ∀ i, zigzagOf (f i) ≤ 2 ^ 32 := fun i => by
    have hrange := hf i
    unfold zigzagOf
    split <;> omega
  have hend : (j + 1) * (n / 2 ^ p) ≤ n := (Nat.mul_le_mul_right _ hj).trans (Nat.mul_div_le ..)
  have hsum := List.sum_le_card_nsmul ((List.range' (partStart n order p j)
    ((j + 1) * (n / 2 ^ p) - partStart n order p j)).map fun i => zigzagOf (f i)) (2 ^ 32)
    (List.forall_mem_map.2 fun i _ => hzigzag i)
  rw [List.length_map, List.length_range', smul_eq_mul] at hsum
  rw [partSum]
  omega

theorem storeSums_eq (s : State) (r : List Int) (n order lo hi : Nat) : storeSums s r n order lo hi
    = (upto lo hi).foldl (fun s p => s.memWrite .sums (sumsIndex p 0) (sumsRow r n order hi p)) s := rfl

theorem memGet?_storeSums {s : State} {ch n order lo hi q j : Nat} (hn : n ≤ 65535) (hhi : hi ≤ 8) (hdvd : 2 ^ hi ∣ n)
    (horder : order ≤ n / 2 ^ hi) (hlo : lo ≤ q) (hq : q ≤ hi) (hj : j < 2 ^ q) :
    memGet? (storeSums s (s.residuals ch n) n order lo hi).mem .sums (q * 256 + j)
      = some (partTotal (residualAt s ch) n order q j) := by
  have hlen : ∀ p, (sumsRow (s.residuals ch n) n order hi p).length ≤ 2 ^ 8 := fun p => by
    rw [sumsRow_length]
    exact Nat.pow_le_pow_right (by decide) (by omega)
  have hsum : partSum (residualAt s ch) n order q j < 2 ^ 48 := partSum_lt order (residualAt_range s ch) hn hj
  have hrow : (sumsRow (s.residuals ch n) n order hi q)[j]? = some (partSum (residualAt s ch) n order q j : Int) := by
    refine castList_getElem? ?_
    rw [residuals_eq, partSumsAt_map_range hq hdvd horder, List.getElem?_map, List.getElem?_range hj]
    rfl
  have hindex : q * 256 + j = sumsIndex q 0 + j := by rw [sumsIndex, Nat.add_zero]
  rw [hindex, storeSums_eq, memGet?_rows hlen (mem_upto.2 ⟨hlo, hq⟩) hrow, stored_sums (by omega), partSum_cast]

theorem keptOutside_storeSums (s : State) (r : List Int) (n order lo hi : Nat) :
    keptOutside ((List.range' lo (hi + 1 - lo)).map fun p => (Space.sums, p * 256, 2 ^ p)) s
      (storeSums s r n order lo hi) := by
  have hranges : ((upto lo hi).map fun p => (Space.sums, sumsIndex p 0, (sumsRow r n order hi p).length))
      = (List.range' lo (hi + 1 - lo)).map fun p => (Space.sums, p * 256, 2 ^ p) := by
    refine List.map_congr_left fun p hp => ?_
    rw [sumsRow_length, min_eq_left (mem_upto.1 hp).2, sumsIndex, Nat.add_zero]
  rw [← hranges, storeSums_eq]
  exact keptOutside_rows ..

/-! ## What `CalcRice` stores besides -/

/-- Of the record the plan's fields alone change (`20_memory.md` R68). -/
theorem keptOutside_storePlan (s : State) (ch : Nat) (p : Plan) :
    keptOutside [(.subrec, ch * 512 + 5, 1), (.subrec, ch * 512 + 256, p.params.length)] s (storePlan s ch p) := by
  have hparams := keptOutside_memWrite_run (s.setSub ch 5 [(p.porder : Int)]) .subrec (recIndex ch 256)
    (p.params.map fun k => (k : Int))
  rw [castList_length] at hparams
  exact keptOutside_append (keptOutside_memWrite_run s .subrec (recIndex ch 5) [(p.porder : Int)]) hparams

theorem memGet?_storePlan_porder {s : State} {ch : Nat} {p : Plan} (h : p.porder < 2 ^ 63) :
    memGet? (storePlan s ch p).mem .subrec (ch * 512 + 5) = some (p.porder : Int) := by
  have hkept := keptOutside_memWrite_run (s.setSub ch 5 [(p.porder : Int)]) .subrec (recIndex ch 256)
    (p.params.map fun k => (k : Int))
  have hget := memGet?_memWrite_run s .subrec (recIndex ch 5) (vals := [(p.porder : Int)]) (j := 0) rfl
  rw [stored_subrec h] at hget
  refine (hkept.1 .subrec (ch * 512 + 5) ?_).trans hget
  rw [Bool.eq_false_iff, Ne, covered_singleton, recIndex]
  omega

theorem memGet?_storePlan_param {s : State} {ch : Nat} {p : Plan} {j k : Nat} (hk : p.params[j]? = some k)
    (h : k < 2 ^ 63) : memGet? (storePlan s ch p).mem .subrec (ch * 512 + 256 + j) = some (k : Int) := by
  rw [← stored_subrec h]
  exact memGet?_memWrite_run _ .subrec (recIndex ch 256) (castList_getElem? hk)

/-! ## The commands -/

/-- What `PART_SUMS` and `CALC_RICE` meet that are not refused (`41_rice_coder.md` R175). -/
structure PartitionReady (s : State) (order pmin pmax : Nat) : Prop where
  nonempty : 1 ≤ s.blockLen
  block : s.blockLen ≤ 65535
  order_le : order ≤ s.blockLen
  bounds : pmin ≤ pmax
  pmax_le : pmax ≤ 8

theorem partition_ready {s : State} {ch order pmin pmax : Nat} (hcfg : configError s.regs.cfg = none)
    (h : earlyError (.partSums ch order pmin pmax) s = none) :
    (∀ c ∈ partitionChecks s ch order pmin pmax, c.1 = true) ∧ PartitionReady s order pmin pmax := by
  obtain ⟨hlocked, -, hfields, hblock, -, horder⟩ := ready_of_earlyError_eq_none h
  obtain ⟨-, hsize, -⟩ := configError_none hcfg
  obtain ⟨hfields, hbounds⟩ := Bool.and_eq_true_iff.1 hfields
  obtain ⟨hfields, hpmax⟩ := Bool.and_eq_true_iff.1 hfields
  obtain ⟨hfields, hpmin⟩ := Bool.and_eq_true_iff.1 hfields
  obtain ⟨hch, hx⟩ := Bool.and_eq_true_iff.1 hfields
  obtain ⟨hlen, hlen'⟩ := (within_eq_true ..).1 hblock
  refine ⟨?_, hlen, hlen'.trans hsize, of_decide_eq_true horder, of_decide_eq_true hbounds, of_decide_eq_true hpmax⟩
  simp only [partitionChecks, List.forall_mem_cons]
  exact ⟨hlocked, hch, fieldCheck_zero hx, fieldCheck_zero hpmin, fieldCheck_zero hpmax, hbounds, hblock, horder,
    List.forall_mem_nil _⟩

/-- Both commands meet the same errors. -/
theorem earlyError_calcRice (ch order pmin pmax : Nat) (s : State) :
    earlyError (.calcRice ch order pmin pmax) s = earlyError (.partSums ch order pmin pmax) s := rfl

section
variable {s : State} {ch order pmin pmax : Nat}

theorem exec_partSums (h : ∀ c ∈ partitionChecks s ch order pmin pmax, c.1 = true) :
    exec (.partSums ch order pmin pmax) s = succeed (((storeSums s (s.residuals ch s.blockLen) s.blockLen order
      (maxPorderOf pmin s.blockLen order) (maxPorderOf pmax s.blockLen order)).setA4
        (maxPorderOf pmin s.blockLen order)).setA5 (maxPorderOf pmax s.blockLen order)) := by
  have hexec : exec (.partSums ch order pmin pmax) s = execPartSums ch order pmin pmax s := rfl
  rw [hexec, execPartSums, command_of_checks h]

theorem exec_calcRice (h : ∀ c ∈ partitionChecks s ch order pmin pmax, c.1 = true) {plan : Plan}
    (hplan : calcRiceOf (s.residuals ch s.blockLen) s.blockLen order pmin pmax = plan) :
    exec (.calcRice ch order pmin pmax) s = succeed (((storePlan (storeSums s (s.residuals ch s.blockLen) s.blockLen
      order (maxPorderOf pmin s.blockLen order) (maxPorderOf pmax s.blockLen order)) ch plan).setA4
        plan.bits).setA5 plan.porder) := by
  have hexec : exec (.calcRice ch order pmin pmax) s = execCalcRice ch order pmin pmax s := rfl
  subst hplan
  rw [hexec, execCalcRice, command_of_checks h]

/-- The sums of every admissible partition order are in SUMS. -/
theorem PartitionReady.sums_stored (h : PartitionReady s order pmin pmax) {q j : Nat}
    (hlo : maxPorderOf pmin s.blockLen order ≤ q) (hq : q ≤ maxPorderOf pmax s.blockLen order) (hj : j < 2 ^ q) :
    memGet? (storeSums s (s.residuals ch s.blockLen) s.blockLen order (maxPorderOf pmin s.blockLen order)
      (maxPorderOf pmax s.blockLen order)).mem .sums (q * 256 + j)
        = some (partTotal (residualAt s ch) s.blockLen order q j) := by
  obtain ⟨hhi, hdvd, hspan⟩ := (le_maxPorderOf_iff h.nonempty h.order_le pmax _).1 le_rfl
  exact memGet?_storeSums h.block (hhi.trans h.pmax_le) hdvd hspan hlo hq hj

end

/-- The registers of a command that stores in memory and completes with two answers. -/
theorem MemOnly.regs_a4_a5 {s t : State} (h : MemOnly s t) (v w : Word64) :
    ({ t.regs with err := .noError, ops := { t.regs.ops with a4 := v, a5 := w } } : Regs)
      = { s.regs with err := .noError, ops := { s.regs.ops with a4 := v, a5 := w } } := by rw [h.regs]

/-- Settles O27: the rows of SUMS are the partition sums of every admissible order. -/
theorem part_sums_fill_sums : Obligations.part_sums_fill_sums := by
  intro s ch order pmin pmax hcfg hs n
  obtain ⟨hchecks, hready⟩ := partition_ready hcfg hs
  refine ⟨_, _, _, isMaxPorder_maxPorderOf hready.nonempty hready.order_le pmin,
    isMaxPorder_maxPorderOf hready.nonempty hready.order_le pmax,
    (exec_partSums hchecks).trans (succeed_setA4_setA5 ..), ?regs, fun p j hlo hp hj => ?sums, ?kept⟩
  case regs =>
    rw [BitVec.ofInt_natCast, BitVec.ofInt_natCast]
    exact (memOnly_storeSums ..).regs_a4_a5 _ _
  case sums => exact hready.sums_stored hlo hp hj
  case kept => exact keptOutside_storeSums ..

/-- Settles O28: the scan over the admissible orders ends at the least plan, and the record takes it. -/
theorem calc_rice_finds_best_plan : Obligations.calc_rice_finds_best_plan := by
  intro s ch order pmin pmax hcfg hs n
  rw [earlyError_calcRice] at hs
  obtain ⟨hchecks, hready⟩ := partition_ready hcfg hs
  obtain ⟨p, hleast, hplan⟩ :=
    calcRiceOf_map_range (f := residualAt s ch) hready.nonempty hready.order_le hready.bounds
  rw [← residuals_eq] at hplan
  have hp8 : p ≤ 8 := (hleast.le_hi.trans (maxPorderOf_le ..)).trans hready.pmax_le
  have hbest := isBestPlan_of_leastOf hready.nonempty hready.order_le hleast
  have hkept := keptOutside_storePlan (storeSums s (s.residuals ch n) n order (maxPorderOf pmin n order)
    (maxPorderOf pmax n order)) ch ⟨planCost (residualAt s ch) n order p, p,
      (List.range (2 ^ p)).map (partParam (residualAt s ch) n order p)⟩
  rw [List.length_map, List.length_range] at hkept
  refine ⟨_, _, p, _, _, _, isMaxPorder_maxPorderOf hready.nonempty hready.order_le pmin,
    isMaxPorder_maxPorderOf hready.nonempty hready.order_le pmax, hbest,
    (exec_calcRice hchecks hplan).trans (succeed_setA4_setA5 ..), ?regs, ?porder, fun j hj => ?param,
    fun q j hlo hq hj => ?sums, ?kept⟩
  case regs =>
    rw [BitVec.ofInt_natCast]
    exact ((memOnly_storeSums ..).storePlan ..).regs_a4_a5 _ _
  case porder => exact memGet?_storePlan_porder (p := ⟨_, p, _⟩) (by simp only; omega)
  case param =>
    have hk : partParam (residualAt s ch) s.blockLen order p j ≤ 14 := (findParamOf_partSum ..).1.1
    refine memGet?_storePlan_param ?_ (by omega)
    rw [List.getElem?_map, List.getElem?_range hj]
    rfl
  case sums =>
    refine (hkept.1 .sums (q * 256 + j) ?_).trans (hready.sums_stored hlo hq hj)
    simp [covered]
  case kept => exact keptOutside_comm (keptOutside_append (keptOutside_storeSums ..) hkept)

end Sys2Proof.Proofs
end


section
/-!
Stores into runs of elements, and how a command that makes them ends: the layer under the linear predictor
(`42_linear_predictor.md`).
-/
namespace Sys2Proof.Proofs
open Sys2Proof.Machine

/-! ## Ranges -/

theorem covered_flatMap {α : Type} (ranges : α → List Range) (l : List α) (sp : Space) (i : Nat) :
    covered (l.flatMap ranges) sp i = true ↔ ∃ x ∈ l, covered (ranges x) sp i = true := by
  simp only [covered, List.any_flatMap, List.any_eq_true]

theorem covered_nil (sp : Space) (i : Nat) : covered [] sp i = false := rfl

theorem covered_cons_iff (sp' : Space) (lo len : Nat) (rs : List Range) (sp : Space) (i : Nat) :
    covered ((sp', lo, len) :: rs) sp i = true ↔ (sp = sp' ∧ lo ≤ i ∧ i < lo + len) ∨ covered rs sp i = true := by
  have hcons : covered ((sp', lo, len) :: rs) sp i = (covered [(sp', lo, len)] sp i || covered rs sp i) :=
    covered_append [(sp', lo, len)] rs sp i
  rw [hcons, Bool.or_eq_true, covered_singleton]

theorem keptOutside_mono {a b : List Range} {s t : State} (h : keptOutside a s t)
    (hsub : ∀ sp i, covered a sp i = true → covered b sp i = true) : keptOutside b s t := by
  obtain ⟨hmem, hrest⟩ := h
  refine ⟨fun sp i hout => hmem sp i ?_, hrest⟩
  rw [Bool.eq_false_iff] at hout ⊢
  exact fun hin => hout (hsub sp i hin)

theorem keptOutside_forget (rs : List Range) (s : State) : keptOutside rs s (s.forget rs) := by
  refine ⟨fun sp i hout => ?_, rfl, rfl⟩
  rw [memGet?_forget, if_neg]
  rw [← covered, hout]
  exact Bool.false_ne_true

/-! ## Effects that store -/

/-- Known elements were stored in the ranges, and nothing else happened: what an unlisted element reads as is the same
too, since nothing was left unspecified. -/
structure StoresIn (rs : List Range) (s t : State) : Prop where
  regs : t.regs = s.regs
  forgets : t.forgets = s.forgets
  kept : keptOutside rs s t

theorem storesIn_refl (s : State) : StoresIn [] s s := ⟨rfl, rfl, keptOutside_refl s⟩

theorem StoresIn.append {a b : List Range} {s t u : State} (h : StoresIn a s t) (h' : StoresIn b t u) :
    StoresIn (a ++ b) s u :=
  ⟨h'.regs.trans h.regs, h'.forgets.trans h.forgets, keptOutside_append h.kept h'.kept⟩

theorem StoresIn.mono {a b : List Range} {s t : State} (h : StoresIn a s t)
    (hsub : ∀ sp i, covered a sp i = true → covered b sp i = true) : StoresIn b s t :=
  ⟨h.regs, h.forgets, keptOutside_mono h.kept hsub⟩

theorem StoresIn.blockLen {rs : List Range} {s t : State} (h : StoresIn rs s t) : t.blockLen = s.blockLen := by
  rw [State.blockLen, h.regs, ← State.blockLen]

/-- An element outside the ranges reads as before. -/
theorem StoresIn.memRead {rs : List Range} {s t : State} (h : StoresIn rs s t) {sp : Space} {i : Nat}
    (hout : covered rs sp i = false) : t.memRead sp i = s.memRead sp i := memRead_congr (h.kept.1 sp i hout) h.forgets

theorem storesIn_memWrite (s : State) (sp : Space) (lo : Nat) (vals : List Int) :
    StoresIn [(sp, lo, vals.length)] s (s.memWrite sp lo vals) := ⟨rfl, rfl, keptOutside_memWrite_run ..⟩

theorem storesIn_storeReals (s : State) (sp : Space) (lo : Nat) (vals : List Flt) :
    StoresIn [(sp, lo, vals.length)] s (s.storeReals sp lo vals) := by
  obtain ⟨-, -, hkept⟩ := storesIn_memWrite s sp lo (realPatterns s.nans sp lo vals)
  rw [realPatterns_length] at hkept
  exact ⟨rfl, rfl, hkept⟩

section
variable {α : Type} {f : State → α → State} {ranges : α → List Range}
  (hf : ∀ s x, StoresIn (ranges x) s (f s x))
include hf

theorem storesIn_foldl (l : List α) (s : State) : StoresIn (l.flatMap ranges) s (l.foldl f s) := by
  induction l generalizing s with
  | nil => exact storesIn_refl s
  | cons x l ih => exact (hf s x).append (ih _)

/-- An element that one turn of a loop stores, and no other turn reaches, is as that turn leaves it. -/
theorem element_of_foldl {l : List α} {x : α} {sp : Space} {i : Nat} {p : Option Int → Prop} (hx : x ∈ l)
    (hp : ∀ s, p (memGet? (f s x).mem sp i)) (hother : ∀ y ∈ l, y = x ∨ covered (ranges y) sp i = false) (s : State) :
    p (memGet? (l.foldl f s).mem sp i) := by
  classical
  induction l generalizing s with
  | nil => exact absurd hx List.not_mem_nil
  | cons y l ih =>
    have htail : ∀ z ∈ l, z = x ∨ covered (ranges z) sp i = false := fun z hz => hother z (.tail _ hz)
    by_cases hlater : x ∈ l
    · exact ih hlater htail _
    · obtain rfl : x = y := (List.mem_cons.1 hx).resolve_right hlater
      have hout : covered (l.flatMap ranges) sp i = false := by
        rw [Bool.eq_false_iff, Ne, covered_flatMap]
        rintro ⟨z, hz, hin⟩
        rcases htail z hz with rfl | hfree
        · exact hlater hz
        · exact Bool.false_ne_true (hfree.symm.trans hin)
      rw [List.foldl_cons, (storesIn_foldl hf l (f s x)).kept.1 sp i hout]
      exact hp s

end

/-! ## A command that completes -/

/-- The state in which a command that completes leaves its effect (`47_common_semantics.md` R317). -/
def cleared (s : State) : State := { s with regs := { s.regs with err := .noError } }

theorem succeed_eq (s : State) : succeed s = .next (cleared s) := rfl

@[simp] theorem cleared_mem (s : State) : (cleared s).mem = s.mem := rfl

/-- The registers of a command that stores in memory and completes. -/
theorem StoresIn.cleared_regs {rs : List Range} {s t : State} (h : StoresIn rs s t) :
    (cleared t).regs = { s.regs with err := .noError } := by rw [cleared, h.regs]

theorem earlyError_eq_none {i : Instr} {s : State} (hconfig : configReady i s = true) (hstate : stateReady i s = true)
    (hfields : fieldsReady i s = true) (hblock : blockReady i s = true) (hcapacity : capacityReady i s = true)
    (hoperands : operandsReady i s = true) : earlyError i s = none := by
  rw [earlyError, hconfig, hstate, hfields, hblock, hcapacity, hoperands]
  rfl

/-- A field that R92 starts at 1. -/
theorem fieldCheck_one {v hi : Nat} (h : (decide (1 ≤ v) && decide (v ≤ hi)) = true) : (fieldCheck 1 v hi).1 = true := h

theorem firstError_ne_of_codes {checks : List (Bool × ErrCode)} {e : ErrCode} (hcodes : ∀ c ∈ checks, c.2 ≠ e) :
    firstError checks ≠ some e := by
  induction checks with
  | nil => exact nofun
  | cons c l ih =>
    rw [firstError_cons]
    split
    · exact ih fun d hd => hcodes d (.tail _ hd)
    · exact fun he => hcodes c (.head _) (Option.some.inj he)

/-- A command that has run without an error has passed its checks. -/
theorem checks_of_noError {s t : State} {checks : List (Bool × ErrCode)} {effect : State → Result}
    (hcodes : ∀ c ∈ checks, c.2 ≠ .noError) (h : command s checks effect = .next t) (hok : t.regs.err = .noError) :
    (∀ c ∈ checks, c.1 = true) ∧ effect s = .next t := by
  rcases command_cases s checks effect with ⟨e, hfirst, hfail⟩ | ⟨hnone, heffect⟩
  · obtain rfl := Host.Outcome.next.inj (hfail.symm.trans h)
    obtain rfl : e = .noError := hok
    exact absurd hfirst (firstError_ne_of_codes hcodes)
  · exact ⟨(firstError_eq_none _).1 hnone, heffect.symm.trans h⟩

end Sys2Proof.Proofs
end


section
/-!
Integer prediction (`42_linear_predictor.md` R190, R191, R198, R205): residual sequences as functions of the sample index, the
reader that undoes them, and the two commands that store them.
-/
namespace Sys2Proof.Proofs
open Sys2Proof.Machine

/-! ## The block -/

theorem chIndex_zero (ch : Nat) : chIndex ch 0 = ch * 65536 := Nat.add_zero _

theorem samples_eq (s : State) (ch n : Nat) : s.samples ch n = (List.range n).map (sampleAt s ch) := by
  rw [State.samples, State.readRun, chIndex_zero]
  rfl

/-- SMP holds 32-bit numbers, unspecified ones included (`20_memory.md` R60, R75). -/
theorem sampleAt_fits32 (s : State) (ch i : Nat) : fits32 (sampleAt s ch i) := by
  have hrange : ∀ b : BitVec 32, fits32 b.toInt := fun b => ⟨b.le_toInt, Int.le_sub_one_of_lt b.toInt_lt⟩
  have hget : memGet? s.mem .smp (ch * 65536 + i) = (cellGet s.mem.smp (ch * 65536 + i)).map BitVec.toInt := rfl
  rw [sampleAt, State.memRead, hget]
  cases cellGet s.mem.smp (ch * 65536 + i) with
  | none => exact hrange _
  | some b => exact hrange b

theorem stored_res {v : Int} (h : fits32 v) : Space.res.stored v = v := by
  obtain ⟨hlo, hhi⟩ := h
  change ((BitVec.ofInt 64 v).setWidth 32).toInt = v
  rw [setWidth_ofInt (by decide), BitVec.toInt_ofInt_eq_self (by decide) (by omega) (by omega)]

/-! ## Residual sequences -/

section
variable (x : Nat → Int)

/-- The samples before index i, the latest first. -/
def history (i : Nat) : List Int := ((List.range i).map x).reverse

theorem history_succ (i : Nat) : history x (i + 1) = x i :: history x i := by
  rw [history, List.range_succ, List.map_append, List.reverse_append]
  rfl

theorem residualsFrom_map_range' (q : List Int) (sh k m : Nat) :
    residualsFrom q sh (history x k) ((List.range' k m).map x)
      = (List.range' k m).map fun i => x i - asr (predictSum q (history x i)) sh := by
  induction m generalizing k with
  | zero => rfl
  | succ m ih => rw [List.range'_succ, List.map_cons, residualsFrom, ← history_succ, ih, List.map_cons]

/-- A residual sequence index by index: warm-up samples, then differences (`42_linear_predictor.md` R190). -/
theorem predictRes_map_range {order n : Nat} (q : List Int) (sh : Nat) (hle : order ≤ n) :
    predictRes order q sh ((List.range n).map x)
      = (List.range n).map fun i => if i < order then x i else x i - asr (predictSum q (history x i)) sh := by
  obtain ⟨m, rfl⟩ := Nat.exists_eq_add_of_le hle
  have hsplit : List.range (order + m) = List.range order ++ List.range' order m := by
    rw [List.range_eq_range', List.range_eq_range', ← List.range'_append, Nat.one_mul, Nat.zero_add]
  have hlen : ((List.range order).map x).length = order := by rw [List.length_map, List.length_range]
  have hfrom : residualsFrom q sh ((List.range order).map x).reverse ((List.range' order m).map x)
      = (List.range' order m).map fun i => x i - asr (predictSum q (history x i)) sh := residualsFrom_map_range' x q sh order m
  rw [predictRes, hsplit, List.map_append, List.map_append, List.take_left' hlen, List.drop_left' hlen, hfrom]
  congr 1
  · exact List.map_congr_left fun i hi => (if_pos (List.mem_range.1 hi)).symm
  · exact List.map_congr_left fun i hi => (if_neg (List.mem_range'_1.1 hi).1.not_gt).symm

theorem predictSum_map_range (q : Nat → Int) {order i : Nat} (hle : order ≤ i) :
    predictSum ((List.range order).map fun j => q (j + 1)) (history x i)
      = ((List.range' 1 order).map fun j => q j * x (i - j)).sum := by
  rw [predictSum]
  congr 1
  refine List.ext_getElem (by simp [history, hle]) fun j hj _ => ?_
  have hearlier : i - 1 - j = i - (1 + j) := by omega
  simp [history, hearlier, Nat.add_comm]

theorem lpcResOf_map_range (q : Nat → Int) {order n : Nat} (shift : Nat) (hle : order ≤ n) :
    lpcResOf ((List.range n).map x) order ((List.range order).map fun j => q (j + 1)) shift
      = (List.range n).map (lpcDiff order q shift x) := by
  rw [lpcResOf, predictRes_map_range x _ _ hle]
  refine List.map_congr_left fun i _ => ?_
  rw [lpcDiff]
  split
  · rfl
  · next hge => rw [predictSum_map_range x q (not_lt.1 hge), asr]

/-- The weights of the fixed predictors are those of the differences (`42_linear_predictor.md` R191). -/
theorem fixedDiff_of_le {order i : Nat} (horder : order ≤ 4) (hle : order ≤ i) :
    fixedDiff order x i = x i - predictSum (fixedCoefs order) (history x i) := by
  obtain ⟨d, rfl⟩ := Nat.exists_eq_add_of_le' hle
  unfold fixedDiff
  rw [if_neg (Nat.le_add_left order d).not_gt]
  obtain rfl | rfl | rfl | rfl | rfl : order = 0 ∨ order = 1 ∨ order = 2 ∨ order = 3 ∨ order = 4 := by omega
  all_goals simp [fixedCoefs, predictSum, history_succ]
  all_goals ring

theorem fixedDiff_of_lt {order i : Nat} (hlt : i < order) : fixedDiff order x i = x i := by
  unfold fixedDiff
  rw [if_pos hlt]

theorem fixedResOf_map_range {order n : Nat} (horder : order ≤ 4) (hle : order ≤ n) :
    fixedResOf ((List.range n).map x) order = (List.range n).map (fixedDiff order x) := by
  rw [fixedResOf, predictRes_map_range x _ _ hle]
  refine List.map_congr_left fun i _ => ?_
  split
  · next hlt => rw [fixedDiff_of_lt x hlt]
  · next hge => rw [fixedDiff_of_le x horder (not_lt.1 hge), asr, pow_zero, Nat.cast_one, Int.ediv_one]

theorem residualsFit_map_range (order n : Nat) (f : Nat → Int) :
    residualsFit order ((List.range n).map f) = true ↔ ∀ i, order ≤ i → i < n → fits32 (f i) := by
  have hfits : ∀ v, fitsSigned 32 v = true ↔ fits32 v := fun v => by
    rw [fitsSigned_eq, inRange_eq_true]
    rfl
  rw [residualsFit, ← List.map_drop, List.range_eq_range', List.drop_range', List.all_map, List.all_eq_true]
  simp only [List.mem_range'_1, Function.comp_apply, hfits]
  exact ⟨fun h i hlo hhi => h i (by omega), fun h i hi => h i (by omega) (by omega)⟩

theorem fixedDiff_fits32 {order n : Nat} (hx : ∀ i, fits32 (x i))
    (hfits : ∀ i, order ≤ i → i < n → fits32 (fixedDiff order x i)) (i : Nat) (hi : i < n) :
    fits32 (fixedDiff order x i) := by
  rcases Nat.lt_or_ge i order with hlt | hge
  · rw [fixedDiff_of_lt x hlt]; exact hx i
  · exact hfits i hge hi

theorem lpcDiff_fits32 {order n : Nat} {q : Nat → Int} {shift : Nat} (hx : ∀ i, fits32 (x i))
    (hfits : ∀ i, order ≤ i → i < n → fits32 (lpcDiff order q shift x i)) (i : Nat) (hi : i < n) :
    fits32 (lpcDiff order q shift x i) := by
  rcases Nat.lt_or_ge i order with hlt | hge
  · rw [lpcDiff, if_pos hlt]; exact hx i
  · exact hfits i hge hi

end

/-! ## The reader -/

theorem weigh_eq_predictSum (q hist : List Int) : weigh q hist = predictSum q hist := by
  induction q generalizing hist with
  | nil => simp [weigh, predictSum]
  | cons c q ih =>
    cases hist with
    | nil => simp [weigh, predictSum]
    | cons v hist => rw [weigh, ih, predictSum, predictSum, List.zipWith_cons_cons, List.sum_cons]

theorem rebuildFrom_residualsFrom (q : List Int) (sh : Nat) (hist l : List Int) :
    rebuildFrom q sh hist (residualsFrom q sh hist l) = l := by
  induction l generalizing hist with
  | nil => rfl
  | cons v l ih =>
    have hback : v - asr (predictSum q hist) sh + predictSum q hist / ((2 ^ sh : Nat) : Int) = v := Int.sub_add_cancel ..
    simp only [residualsFrom, rebuildFrom, weigh_eq_predictSum, hback, ih]

/-- The reader rebuilds the block from its residual sequence (`42_linear_predictor.md` R198, R205). -/
theorem rebuild_predictRes {order : Nat} (q : List Int) (sh : Nat) {l : List Int} (hle : order ≤ l.length) :
    rebuild order q sh (predictRes order q sh l) = l := by
  have hlen : (l.take order).length = order := List.length_take_of_le hle
  rw [rebuild, predictRes, List.take_left' hlen, List.drop_left' hlen, rebuildFrom_residualsFrom, List.take_append_drop]

theorem fixedWeights_eq {order : Nat} (horder : order ≤ 4) : fixedWeights order = fixedCoefs order := by
  obtain rfl | rfl | rfl | rfl | rfl : order = 0 ∨ order = 1 ∨ order = 2 ∨ order = 3 ∨ order = 4 := by omega
  all_goals rfl

/-! ## The commands -/

/-- The checks of `FIXED_RES` and `LPC_RES`, whose orders are lo .. hi. -/
def residualChecks (s : State) (ch lo order hi : Nat) : List (Bool × ErrCode) :=
  [cfgCheck s, chCheck s ch, fieldCheck lo order hi, blockCheck s 1, orderCheck s order]

/-- Both commands store the residual sequence, or report `E_RESIDUAL_RANGE` (`42_linear_predictor.md` R191, R198). -/
def residualAnswer (s : State) (ch order : Nat) (r : List Int) : Result :=
  if residualsFit order r then succeed (s.setResiduals ch r) else fail .residualRange (s.forget (rangeErrorScratch ch))

theorem exec_fixedRes_eq (ch order : Nat) (s : State) : exec (.fixedRes ch order) s
    = command s (residualChecks s ch 0 order 4) fun s =>
      residualAnswer s ch order (fixedResOf (s.samples ch s.blockLen) order) := rfl

theorem exec_lpcRes_eq (ch order : Nat) (s : State) : exec (.lpcRes ch order) s
    = command s (residualChecks s ch 1 order 32) fun s =>
      residualAnswer s ch order (lpcResOf (s.samples ch s.blockLen) order (s.readRun .qc (coefIndex order 1) order)
        (s.memRead .qsh (order - 1)).toNat) := rfl

theorem residualChecks_codes (s : State) (ch lo order hi : Nat) :
    ∀ c ∈ residualChecks s ch lo order hi, c.2 ≠ .noError := by
  simp only [residualChecks, List.forall_mem_cons]
  exact ⟨nofun, nofun, nofun, nofun, nofun, List.forall_mem_nil _⟩

theorem order_le_of_residualChecks {s : State} {ch lo order hi : Nat}
    (h : ∀ c ∈ residualChecks s ch lo order hi, c.1 = true) : order ≤ hi ∧ order ≤ s.blockLen := by
  simp only [residualChecks, List.forall_mem_cons] at h
  obtain ⟨-, -, hfield, -, horder, -⟩ := h
  exact ⟨le_of_fieldCheck hfield, of_decide_eq_true horder⟩

theorem checks_of_fixedRes {s : State} {ch order : Nat} (h : earlyError (.fixedRes ch order) s = none) :
    ∀ c ∈ residualChecks s ch 0 order 4, c.1 = true := by
  obtain ⟨hcfg, -, hfields, hblock, -, horder⟩ := ready_of_earlyError_eq_none h
  obtain ⟨hch, hx⟩ := Bool.and_eq_true_iff.1 hfields
  simp only [residualChecks, List.forall_mem_cons]
  exact ⟨hcfg, hch, fieldCheck_zero hx, hblock, horder, List.forall_mem_nil _⟩

theorem checks_of_lpcRes {s : State} {ch order : Nat} (h : earlyError (.lpcRes ch order) s = none) :
    ∀ c ∈ residualChecks s ch 1 order 32, c.1 = true := by
  obtain ⟨hcfg, -, hfields, hblock, -, horder⟩ := ready_of_earlyError_eq_none h
  obtain ⟨hfields, hhi⟩ := Bool.and_eq_true_iff.1 hfields
  obtain ⟨hch, hlo⟩ := Bool.and_eq_true_iff.1 hfields
  simp only [residualChecks, List.forall_mem_cons]
  exact ⟨hcfg, hch, fieldCheck_one (Bool.and_eq_true_iff.2 ⟨hlo, hhi⟩), hblock, horder, List.forall_mem_nil _⟩

/-- The coefficients of an order in QC, index by index. -/
theorem readRun_qc (s : State) (order : Nat) : s.readRun .qc (coefIndex order 1) order
    = (List.range order).map fun j => (fun j => s.memRead .qc ((order - 1) * 32 + (j - 1))) (j + 1) := rfl

theorem memGet?_setResiduals {s : State} {ch n i : Nat} {f : Nat → Int} (hi : i < n) (hf : fits32 (f i)) :
    memGet? (s.setResiduals ch ((List.range n).map f)).mem .res (ch * 65536 + i) = some (f i) := by
  have hget : ((List.range n).map f)[i]? = some (f i) := by rw [List.getElem?_map, List.getElem?_range hi]; rfl
  rw [← stored_res hf, State.setResiduals, chIndex_zero]
  exact memGet?_memWrite_run s .res (ch * 65536) hget

theorem storesIn_setResiduals (s : State) (ch n : Nat) (f : Nat → Int) :
    StoresIn [(.res, ch * 65536, n)] s (s.setResiduals ch ((List.range n).map f)) := by
  have h := storesIn_memWrite s .res (ch * 65536) ((List.range n).map f)
  rw [List.length_map, List.length_range] at h
  rwa [State.setResiduals, chIndex_zero]

/-- `E_RESIDUAL_RANGE` leaves RES[ch] and the record but obits unspecified (`60_exceptions.md` R324(c)). -/
theorem rangeErrorScratch_eq (ch : Nat) : rangeErrorScratch ch = rangeScratch ch := by
  have hrec : recIndex ch 0 = ch * 512 := Nat.add_zero _
  rw [rangeErrorScratch, rangeScratch, chIndex_zero, hrec]
  rfl

/-- The two outcomes of a residual command, for the residuals f 0 .. f (n − 1). -/
theorem residualAnswer_outcomes (s : State) (ch order n : Nat) (f : Nat → Int)
    (hwarm : (∀ i, order ≤ i → i < n → fits32 (f i)) → ∀ i, i < n → fits32 (f i)) :
    ((∀ i, order ≤ i → i < n → fits32 (f i)) →
      ∃ t, residualAnswer s ch order ((List.range n).map f) = .next t ∧ t.regs = { s.regs with err := .noError }
        ∧ (∀ i, i < n → memGet? t.mem .res (ch * 65536 + i) = some (f i)) ∧ keptOutside [(.res, ch * 65536, n)] s t)
    ∧ ((∃ i, order ≤ i ∧ i < n ∧ ¬fits32 (f i)) →
      ∃ t, residualAnswer s ch order ((List.range n).map f) = .next t
        ∧ t.regs = { s.regs with err := .residualRange, errSticky := true } ∧ keptOutside (rangeScratch ch) s t) := by
  have hfit := residualsFit_map_range order n f
  refine ⟨fun hfits => ?_, fun ⟨i, hlo, hhi, hnot⟩ => ?_⟩
  · have hstores := storesIn_setResiduals s ch n f
    rw [residualAnswer, if_pos (hfit.2 hfits), succeed_eq]
    exact ⟨_, rfl, hstores.cleared_regs, fun i hi => memGet?_setResiduals hi (hwarm hfits i hi), hstores.kept⟩
  · rw [residualAnswer, if_neg fun hall => hnot (hfit.1 hall i hlo hhi), rangeErrorScratch_eq]
    exact ⟨_, rfl, rfl, keptOutside_forget (rangeScratch ch) s⟩

/-- Settles O29: RES takes the residual sequence, which is the differences index by index. -/
theorem residual_commands_differences : Obligations.residual_commands_differences := by
  intro s ch order _ n outcome
  refine ⟨fun hs => ?_, fun hs => ?_⟩
  · have hchecks := checks_of_fixedRes hs
    obtain ⟨h4, hle⟩ := order_le_of_residualChecks hchecks
    have hexec : exec (.fixedRes ch order) s
        = residualAnswer s ch order ((List.range n).map (fixedDiff order (sampleAt s ch))) := by
      rw [exec_fixedRes_eq, command_of_checks hchecks, samples_eq, fixedResOf_map_range _ h4 hle, State.blockLen]
    simp only [outcome, hexec]
    exact residualAnswer_outcomes s ch order n _ (fixedDiff_fits32 _ (sampleAt_fits32 s ch))
  · have hchecks := checks_of_lpcRes hs
    obtain ⟨-, hle⟩ := order_le_of_residualChecks hchecks
    have hexec : exec (.lpcRes ch order) s = residualAnswer s ch order ((List.range n).map
        (lpcDiff order (fun j => s.memRead .qc ((order - 1) * 32 + (j - 1))) (s.memRead .qsh (order - 1)).toNat
          (sampleAt s ch))) := by
      rw [exec_lpcRes_eq, command_of_checks hchecks, samples_eq, readRun_qc,
        lpcResOf_map_range (sampleAt s ch) (fun j => s.memRead .qc ((order - 1) * 32 + (j - 1))) _ hle, State.blockLen]
    simp only [outcome, hexec]
    exact residualAnswer_outcomes s ch order n _ (lpcDiff_fits32 _ (sampleAt_fits32 s ch))

/-- A residual sequence that was stored without an error is what RES reads as. -/
theorem residuals_of_answer {s t : State} {ch order n : Nat} {q : List Int} {sh : Nat} (hle : order ≤ n)
    (h : residualAnswer s ch order (predictRes order q sh (s.samples ch n)) = .next t) (hok : t.regs.err = .noError) :
    (List.range n).map (residualAt t ch) = predictRes order q sh ((List.range n).map (sampleAt s ch)) := by
  rw [samples_eq, predictRes_map_range _ _ _ hle] at h
  rw [predictRes_map_range _ _ _ hle]
  unfold residualAnswer at h
  split at h
  · next hfit =>
    have hfits := (residualsFit_map_range ..).1 hfit
    obtain rfl := Host.Outcome.next.inj h
    refine List.map_congr_left fun i hi => memRead_of_some (memGet?_setResiduals (List.mem_range.1 hi) ?_)
    rcases Nat.lt_or_ge i order with hlt | hge
    · rw [if_pos hlt]; exact sampleAt_fits32 s ch i
    · exact hfits i hge (List.mem_range.1 hi)
  · obtain rfl := Host.Outcome.next.inj h
    exact nomatch hok

/-- Settles O30: a command that leaves no error has stored the residual sequence, and the reader undoes it. -/
theorem prediction_is_undone : Obligations.prediction_is_undone := by
  intro s t ch order _ hok n res samples
  have hlen : samples.length = n := by rw [List.length_map, List.length_range]
  refine ⟨fun hexec => ?_, fun hexec => ?_⟩
  · rw [exec_fixedRes_eq] at hexec
    obtain ⟨hchecks, hanswer⟩ := checks_of_noError (residualChecks_codes s ch 0 order 4) hexec hok
    obtain ⟨h4, hle⟩ := order_le_of_residualChecks hchecks
    have hres : res = predictRes order (fixedCoefs order) 0 samples := residuals_of_answer hle hanswer hok
    rw [hres, fixedWeights_eq h4]
    exact rebuild_predictRes _ _ (hle.trans_eq hlen.symm)
  · rw [exec_lpcRes_eq] at hexec
    obtain ⟨hchecks, hanswer⟩ := checks_of_noError (residualChecks_codes s ch 1 order 32) hexec hok
    obtain ⟨-, hle⟩ := order_le_of_residualChecks hchecks
    have hres : res = predictRes order (s.readRun .qc (coefIndex order 1) order) (s.memRead .qsh (order - 1)).toNat samples :=
      residuals_of_answer hle hanswer hok
    rw [hres]
    exact rebuild_predictRes _ _ (hle.trans_eq hlen.symm)

end Sys2Proof.Proofs
end


section
/-!
The window and the autocorrelation (`42_linear_predictor.md` R193, R194).
-/
namespace Sys2Proof.Proofs
open Sys2Proof.Machine

/-! ## Real values in memory -/

theorem readReals_eq (s : State) (sp : Space) (lo n : Nat) :
    s.readReals sp lo n = (List.range n).map fun i => realAt s sp (lo + i) := by
  rw [State.readReals, State.readRun, List.map_map]
  rfl

/-- `readReals_eq` from the start of a space. -/
theorem readReals_zero (s : State) (sp : Space) (n : Nat) : s.readReals sp 0 n = (List.range n).map (realAt s sp) := by
  rw [readReals_eq]
  simp only [Nat.zero_add]

/-- A sum or difference accumulated in binary64 is a binary64 value. -/
theorem canonical_foldl {α : Type} {f : Flt → α → Flt} (hf : ∀ a x, (f a x).Canonical) {a : Flt} (ha : a.Canonical)
    (l : List α) : (l.foldl f a).Canonical :=
  List.foldlRecOn l f ha fun b _ x _ => hf b x

/-! ## The window -/

theorem welchOf_getElem? {x : Nat → Int} {n i : Nat} (hi : i < n) :
    (welchOf n ((List.range n).map x))[i]? = some (welchAt n i (x i)) := by
  rw [welchOf, zipIdx_map_range, List.map_map, List.getElem?_map, List.getElem?_range hi]
  rfl

theorem exec_welch {s : State} {ch : Nat} (h : earlyError (.welch ch) s = none) :
    exec (.welch ch) s = .next (cleared (welchEffect s ch)) := by
  obtain ⟨hcfg, -, hch, hblock, -⟩ := ready_of_earlyError_eq_none h
  have hexec : exec (.welch ch) s = execWelch ch s := rfl
  rw [hexec, execWelch, command_of_checks, succeed_eq]
  simp only [List.forall_mem_cons]
  exact ⟨hcfg, hch, hblock, List.forall_mem_nil _⟩

theorem storesIn_welchEffect (s : State) (ch : Nat) : StoresIn [(.win, 0, s.blockLen)] s (welchEffect s ch) := by
  have h := storesIn_storeReals s .win 0 (welchOf s.blockLen (s.samples ch s.blockLen))
  rwa [welchOf_length, samples_length] at h

/-- WIN[i] holds the windowed sample (`42_linear_predictor.md` R193). -/
theorem holdsReal_welchEffect {s : State} {ch i : Nat} (hi : i < s.blockLen) :
    HoldsReal (welchEffect s ch) .win i (welchAt s.blockLen i (sampleAt s ch i)) := by
  have hholds := holdsReal_storeReals (s := s) (sp := .win) (lo := 0) ⟨rfl, rfl⟩ (welchOf_getElem? (x := sampleAt s ch) hi)
    (canonical_fmul ..)
  rw [welchEffect, samples_eq]
  rwa [Nat.zero_add] at hholds

/-! ## The autocorrelation -/

/-- The products of a lag run over the indices from the lag on (`42_linear_predictor.md` R194). -/
theorem autocorrAt_map_range (w : Nat → Flt) (n j : Nat) : autocorrAt ((List.range n).map w) j
    = (List.range' j (n - j)).foldl (fun a i => fadd a (fmul (w i) (w (i - j)))) (Flt.zero false) := by
  have hpairs : List.zip (((List.range n).map w).drop j) ((List.range n).map w)
      = (List.range' j (n - j)).map fun i => (w i, w (i - j)) := by
    refine List.ext_getElem (by simp) fun i _ _ => ?_
    simp
  rw [autocorrAt, hpairs, List.foldl_map]

theorem exec_autocorr {s : State} {maxorder : Nat} (h : earlyError (.autocorr maxorder) s = none) :
    exec (.autocorr maxorder) s = .next (cleared (autocorrEffect s maxorder)) := by
  obtain ⟨hcfg, -, hfield, hblock, -⟩ := ready_of_earlyError_eq_none h
  have hexec : exec (.autocorr maxorder) s = execAutocorr maxorder s := rfl
  rw [hexec, execAutocorr, command_of_checks, succeed_eq]
  simp only [List.forall_mem_cons]
  exact ⟨hcfg, fieldCheck_one hfield, hblock, List.forall_mem_nil _⟩

theorem storesIn_autocorrEffect (s : State) (maxorder : Nat) :
    StoresIn [(.autoc, 0, maxorder + 1)] s (autocorrEffect s maxorder) := by
  have h := storesIn_storeReals s .autoc 0 (autocorrOf (s.readReals .win 0 s.blockLen) maxorder)
  rwa [autocorrOf_length] at h

/-- AUTOC[j] holds the sum of lag j (`42_linear_predictor.md` R194). -/
theorem holdsReal_autocorrEffect {s : State} {maxorder j : Nat} (hj : j ≤ maxorder) :
    HoldsReal (autocorrEffect s maxorder) .autoc j ((List.range' j (s.blockLen - j)).foldl
      (fun a i => fadd a (fmul (realAt s .win i) (realAt s .win (i - j)))) (Flt.zero false)) := by
  have hget : (autocorrOf (s.readReals .win 0 s.blockLen) maxorder)[j]?
      = some (autocorrAt (s.readReals .win 0 s.blockLen) j) := by
    rw [autocorrOf, upto, List.getElem?_map, List.getElem?_range' (by omega), Nat.zero_add, Nat.one_mul]
    rfl
  rw [readReals_zero, autocorrAt_map_range] at hget
  have hholds := holdsReal_storeReals (s := s) (sp := .autoc) (lo := 0) ⟨rfl, rfl⟩ hget
    (canonical_foldl (fun _ _ => canonical_fadd ..) (canonical_zero false) _)
  rw [autocorrEffect, readReals_zero]
  rwa [Nat.zero_add] at hholds

/-- Settles O32: each command is one store of its list of values. -/
theorem window_and_autocorrelation : Obligations.window_and_autocorrelation := by
  intro s n
  refine ⟨fun ch hs => ?_, fun maxorder hs => ?_⟩
  · have hstores := storesIn_welchEffect s ch
    refine ⟨_, exec_welch hs, hstores.cleared_regs, fun i hi => ?_, hstores.kept⟩
    have hholds := holdsReal_welchEffect (ch := ch) hi
    rw [welchAt] at hholds
    push_cast at hholds
    exact hholds
  · have hstores := storesIn_autocorrEffect s maxorder
    exact ⟨_, exec_autocorr hs, hstores.cleared_regs, fun j hj => holdsReal_autocorrEffect hj, hstores.kept⟩

end Sys2Proof.Proofs
end


section
/-!
The coefficient sets of all orders: `LEVINSON` and `LSQ_FIT` (`42_linear_predictor.md` R195, R196).
-/
namespace Sys2Proof.Proofs
open Sys2Proof.Machine

/-! ## Storing the set of every order -/

/-- The element, if it is known, is the pattern of this real value: `HoldsReal` of the element alone. -/
def IsPattern (v : Flt) (e : Option Int) : Prop := ∃ b : Word64, e = some (b.toNat : Int) ∧ fltOfBits b = v

theorem holdsReal_iff (s : State) (sp : Space) (i : Nat) (v : Flt) : HoldsReal s sp i v ↔ IsPattern v (memGet? s.mem sp i) :=
  Iff.rfl

/-- Where the set of order i + 1 stands: its coefficients in LPCF and its reflection coefficient (`20_memory.md` R60). -/
def orderRanges (i : Nat) : List Range := [(.lpcf, i * 32, i + 1), (.refl, i, 1)]

theorem coefIndex_succ (i : Nat) : coefIndex (i + 1) 1 = i * 32 := Nat.add_zero _

theorem covered_orderRanges (y : Nat) (sp : Space) (i : Nat) : covered (orderRanges y) sp i = true
    ↔ (sp = .lpcf ∧ y * 32 ≤ i ∧ i < y * 32 + (y + 1)) ∨ sp = .refl ∧ y = i := by
  rw [orderRanges, covered_cons_iff, covered_singleton]
  refine or_congr_right (and_congr_right fun _ => ?_)
  omega

/-- The sets of the orders 1 to m as the statements list them. -/
theorem covered_allOrders {m : Nat} (sp : Space) (i : Nat) (h : covered ((List.range m).flatMap orderRanges) sp i = true) :
    covered ((Space.refl, 0, m) :: (List.range m).map fun i => (Space.lpcf, i * 32, i + 1)) sp i = true := by
  obtain ⟨y, hy, hin⟩ := (covered_flatMap ..).1 h
  have hlt := List.mem_range.1 hy
  rw [covered_cons_iff]
  rcases (covered_orderRanges ..).1 hin with hlpcf | ⟨hsp, rfl⟩
  · exact .inr ((covered_map ..).2 ⟨y, hy, (covered_singleton ..).2 hlpcf⟩)
  · exact .inl ⟨hsp, Nat.zero_le _, by omega⟩

section
variable {f : State → Nat → State} (hf : ∀ s i, StoresIn (orderRanges i) s (f s i)) {m : Nat}
include hf

theorem storesIn_allOrders (s : State) :
    StoresIn ((Space.refl, 0, m) :: (List.range m).map fun i => (Space.lpcf, i * 32, i + 1)) s ((List.range m).foldl f s) :=
  (storesIn_foldl hf _ s).mono covered_allOrders

/-- No order's set is overwritten by another's. -/
theorem lpcf_of_allOrders {i j : Nat} {p : Option Int → Prop} (hi : i < m) (hj : j ≤ i) (hm : m ≤ 32)
    (hp : ∀ s, p (memGet? (f s i).mem .lpcf (i * 32 + j))) (s : State) :
    p (memGet? ((List.range m).foldl f s).mem .lpcf (i * 32 + j)) := by
  refine element_of_foldl hf (List.mem_range.2 hi) hp (fun y hy => ?_) s
  rw [Bool.eq_false_iff, Ne, covered_orderRanges, or_iff_not_imp_right, not_not]
  rintro (⟨-, hlo, hhi⟩ | ⟨hsp, -⟩)
  · have := List.mem_range.1 hy
    omega
  · exact nomatch hsp

theorem refl_of_allOrders {i : Nat} {p : Option Int → Prop} (hi : i < m) (hp : ∀ s, p (memGet? (f s i).mem .refl i))
    (s : State) : p (memGet? ((List.range m).foldl f s).mem .refl i) := by
  refine element_of_foldl hf (List.mem_range.2 hi) hp (fun y _ => ?_) s
  rw [Bool.eq_false_iff, Ne, covered_orderRanges, or_iff_not_imp_right, not_not]
  rintro (⟨hsp, -⟩ | ⟨-, hy⟩)
  · exact nomatch hsp
  · exact hy

end

theorem storesIn_storeOrder (s : State) {i : Nat} {row : List Flt} (k : Flt) (hrow : row.length = i + 1) :
    StoresIn (orderRanges i) s (storeOrder s (i + 1) row k) := by
  have h := (storesIn_storeReals s .lpcf (coefIndex (i + 1) 1) row).append (storesIn_storeReals _ .refl i [k])
  rwa [hrow, coefIndex_succ] at h

theorem holdsReal_storeOrder_lpcf {s : State} {i j : Nat} {row : List Flt} {k v : Flt} (hv : row[j]? = some v)
    (hcanonical : v.Canonical) : HoldsReal (storeOrder s (i + 1) row k) .lpcf (i * 32 + j) v := by
  obtain ⟨b, hget, hb⟩ := holdsReal_storeReals (s := s) (sp := .lpcf) (lo := coefIndex (i + 1) 1) ⟨rfl, rfl⟩ hv hcanonical
  rw [coefIndex_succ] at hget
  have hkept := (storesIn_storeReals (s.storeReals .lpcf (coefIndex (i + 1) 1) row) .refl i [k]).kept.1 .lpcf
    (i * 32 + j) rfl
  exact ⟨b, hkept.trans (by rw [coefIndex_succ, hget]), hb⟩

theorem holdsReal_storeOrder_refl {s : State} {i : Nat} {row : List Flt} {k : Flt} (hcanonical : k.Canonical) :
    HoldsReal (storeOrder s (i + 1) row k) .refl i k :=
  holdsReal_storeReals (lo := i) (i := 0) (vals := [k]) ⟨rfl, rfl⟩ rfl hcanonical

/-! ## The recursion -/

section
variable (ac : List Flt)

/-- The recursion after the orders 1 to i (`42_linear_predictor.md` R195). -/
def levAt (i : Nat) : LevState :=
  (upto 1 i).foldl (levinsonStep ac) { err := ac.getD 0 (Flt.zero false), row := [], rows := [] }

/-- The reflection coefficient of order i. -/
def levK (i : Nat) : Flt := levinsonK ac (levAt ac (i - 1)) i

/-- Coefficient j of order i. -/
def levCoef (i j : Nat) : Flt := (levAt ac i).row.getD (j - 1) (Flt.zero false)

theorem levAt_succ (i : Nat) : levAt ac (i + 1) = levinsonStep ac (levAt ac i) (i + 1) := by
  have hupto : upto 1 (i + 1) = upto 1 i ++ [i + 1] := by
    rw [upto, upto, Nat.add_sub_cancel, Nat.add_sub_cancel, List.range'_1_concat, Nat.add_comm 1 i]
  rw [levAt, hupto, List.foldl_append]
  rfl

theorem levAt_row_succ (i : Nat) : (levAt ac (i + 1)).row
    = List.zipWith (fun c r => fsub c (fmul (levK ac (i + 1)) r)) (levAt ac i).row (levAt ac i).row.reverse
      ++ [levK ac (i + 1)] := by
  rw [levAt_succ]
  rfl

theorem levAt_row_length (i : Nat) : (levAt ac i).row.length = i := by
  induction i with
  | zero => rfl
  | succ i ih => simp [levAt_row_succ, ih]

theorem levAt_row_getElem? {i j : Nat} (hj : j < i) : (levAt ac i).row[j]? = some (levCoef ac i (j + 1)) := by
  have hlt : j < (levAt ac i).row.length := hj.trans_eq (levAt_row_length ac i).symm
  rw [levCoef, Nat.add_sub_cancel, List.getElem?_eq_getElem hlt, List.getD_eq_getElem _ _ hlt]

theorem levAt_rows (m : Nat) :
    (levAt ac m).rows = (List.range m).map fun i => ((levAt ac (i + 1)).row, levK ac (i + 1)) := by
  induction m with
  | zero => rfl
  | succ m ih =>
    rw [List.range_succ, List.map_append, ← ih, List.map_singleton, levAt_succ]
    rfl

theorem canonical_levK (i : Nat) : (levK ac i).Canonical := by
  rw [levK, levinsonK]
  split
  · exact canonical_zero false
  · exact canonical_fdiv ..

theorem canonical_levAt_row (i : Nat) : ∀ v ∈ (levAt ac i).row, v.Canonical := by
  cases i with
  | zero => exact fun v hv => absurd hv List.not_mem_nil
  | succ i =>
    rw [levAt_row_succ, List.forall_mem_append, List.forall_mem_singleton]
    refine ⟨fun v hv => ?_, canonical_levK ac _⟩
    obtain ⟨j, _, rfl⟩ := List.mem_iff_getElem.1 hv
    rw [List.getElem_zipWith]
    exact canonical_fsub ..

/-! ### The equations of R195 -/

theorem levCoef_self (i : Nat) : levCoef ac (i + 1) (i + 1) = levK ac (i + 1) := by
  rw [levCoef, levAt_row_succ, List.getD_append_right _ _ _ _ (by simp [levAt_row_length])]
  simp [levAt_row_length]

theorem levCoef_succ {i j : Nat} (hlo : 1 ≤ j) (hj : j < i + 1) : levCoef ac (i + 1) j
    = fsub (levCoef ac i j) (fmul (levK ac (i + 1)) (levCoef ac i (i + 1 - j))) := by
  have hlen := levAt_row_length ac i
  have hback : i - 1 - (j - 1) = i + 1 - j - 1 := by omega
  rw [levCoef, levCoef, levCoef, levAt_row_succ, List.getD_append _ _ _ _ (by simp [hlen]; omega)]
  rw [List.getD_eq_getElem _ _ (by simp [hlen]; omega), List.getD_eq_getElem _ _ (by omega),
    List.getD_eq_getElem _ _ (by omega), List.getElem_zipWith, List.getElem_reverse]
  simp only [hlen, hback]

theorem levErr_succ (i : Nat) : (levAt ac (i + 1)).err
    = fmul (levAt ac i).err (fsub (fltOfInt 1) (fmul (levK ac (i + 1)) (levK ac (i + 1)))) := by
  rw [levAt_succ]
  rfl

end

theorem levK_map_range (a : Nat → Flt) {m i : Nat} (hi : i < m) : levK ((List.range (m + 1)).map a) (i + 1)
    = if feq (levAt ((List.range (m + 1)).map a) i).err (Flt.zero false) then Flt.zero false
      else fdiv ((List.range' 1 i).foldl
        (fun acc j => fsub acc (fmul (levCoef ((List.range (m + 1)).map a) i j) (a (i + 1 - j)))) (a (i + 1)))
        (levAt ((List.range (m + 1)).map a) i).err := by
  obtain ⟨ac, hac⟩ : ∃ ac, (List.range (m + 1)).map a = ac := ⟨_, rfl⟩
  have hlen : ac.length = m + 1 := by rw [← hac, List.length_map, List.length_range]
  have hget : ∀ j (hj : j < ac.length), ac[j] = a j := by simp [← hac]
  have hpairs : List.zip (levAt ac i).row ((ac.take (i + 1)).drop 1).reverse
      = (List.range' 1 i).map fun j => (levCoef ac i j, a (i + 1 - j)) := by
    refine List.ext_getElem ?_ fun j hj hj' => ?_
    · simp [levAt_row_length, hlen]
      omega
    · have hj : j < i := by simpa using hj'
      obtain ⟨hlt, hrow⟩ := List.getElem?_eq_some_iff.1 (levAt_row_getElem? ac hj)
      have hback : min i m - 1 - j + 1 = i + 1 - (1 + j) := by omega
      simp [hrow, hlen, hget, hback, Nat.add_comm j 1]
  have hhead : ac.getD (i + 1) (Flt.zero false) = a (i + 1) := by
    rw [List.getD_eq_getElem _ _ (by omega), hget]
  rw [hac]
  simp only [levK, levinsonK, Nat.add_sub_cancel, hpairs, List.foldl_map, hhead]

/-! ## `LEVINSON` -/

/-- AUTOC[0 .. m] as `LEVINSON` reads it. -/
def lagsOf (s : State) (m : Nat) : List Flt := (List.range (m + 1)).map (realAt s .autoc)

theorem levErr_zero (s : State) (m : Nat) : (levAt (lagsOf s m) 0).err = realAt s .autoc 0 := by
  have hhead : (lagsOf s m).getD 0 (Flt.zero false) = realAt s .autoc 0 := by
    rw [lagsOf, List.getD_eq_getElem _ _ (by simp), List.getElem_map, List.getElem_range]
  exact hhead

theorem levinsonEffect_eq (s : State) (m : Nat) : levinsonEffect s m = (List.range m).foldl
    (fun t i => storeOrder t (i + 1) (levAt (lagsOf s m) (i + 1)).row (levK (lagsOf s m) (i + 1))) s := by
  have hrows : levinsonOf (lagsOf s m) m
      = (List.range m).map fun i => ((levAt (lagsOf s m) (i + 1)).row, levK (lagsOf s m) (i + 1)) := levAt_rows ..
  rw [levinsonEffect, readReals_zero, ← lagsOf, hrows, zipIdx_map_range, List.foldl_map]

theorem storesIn_levStep (ac : List Flt) (t : State) (i : Nat) :
    StoresIn (orderRanges i) t (storeOrder t (i + 1) (levAt ac (i + 1)).row (levK ac (i + 1))) :=
  storesIn_storeOrder t _ (levAt_row_length ac _)

theorem storesIn_levinsonEffect (s : State) (m : Nat) :
    StoresIn ((Space.refl, 0, m) :: (List.range m).map fun i => (Space.lpcf, i * 32, i + 1)) s (levinsonEffect s m) := by
  rw [levinsonEffect_eq]
  exact storesIn_allOrders (storesIn_levStep _) s

theorem holdsReal_levinsonEffect_lpcf {s : State} {m i j : Nat} (hm : m ≤ 32) (hi : i < m) (hj : j ≤ i) :
    HoldsReal (levinsonEffect s m) .lpcf (i * 32 + j) (levCoef (lagsOf s m) (i + 1) (j + 1)) := by
  have hget := levAt_row_getElem? (lagsOf s m) (Nat.lt_succ_of_le hj)
  rw [levinsonEffect_eq, holdsReal_iff]
  exact lpcf_of_allOrders (p := IsPattern _) (storesIn_levStep _) hi hj hm (fun _ => holdsReal_storeOrder_lpcf hget
    (canonical_levAt_row _ _ _ (List.mem_of_getElem? hget))) s

theorem holdsReal_levinsonEffect_refl {s : State} {m i : Nat} (hi : i < m) :
    HoldsReal (levinsonEffect s m) .refl i (levK (lagsOf s m) (i + 1)) := by
  rw [levinsonEffect_eq, holdsReal_iff]
  exact refl_of_allOrders (p := IsPattern _) (storesIn_levStep _) hi (fun _ => holdsReal_storeOrder_refl (canonical_levK _ _)) s

/-- A field that R92 takes from 1 to `hi`. -/
theorem field_bounds {v hi : Nat} (h : (decide (1 ≤ v) && decide (v ≤ hi)) = true) : 1 ≤ v ∧ v ≤ hi := by
  simpa only [Bool.and_eq_true, decide_eq_true_eq] using h

theorem exec_levinson {s : State} {m : Nat} (h : earlyError (.levinson m) s = none) :
    exec (.levinson m) s = .next (cleared (levinsonEffect s m)) := by
  obtain ⟨hcfg, -, hfield, -⟩ := ready_of_earlyError_eq_none h
  have hexec : exec (.levinson m) s = execLevinson m s := rfl
  rw [hexec, execLevinson, command_of_checks, succeed_eq]
  simp only [List.forall_mem_cons]
  exact ⟨hcfg, fieldCheck_one hfield, List.forall_mem_nil _⟩

/-- Settles O33: the running values of the fold are those of the recursion. -/
theorem levinson_recursion_values : Obligations.levinson_recursion_values := by
  intro s m hs
  obtain ⟨-, -, hfield, -⟩ := ready_of_earlyError_eq_none hs
  obtain ⟨-, h32⟩ := field_bounds hfield
  have hstores := storesIn_levinsonEffect s m
  refine ⟨_, levK (lagsOf s m), fun i => (levAt (lagsOf s m) i).err, levCoef (lagsOf s m), exec_levinson hs,
    hstores.cleared_regs, levErr_zero s m, fun i hlo hhi => ?_, hstores.kept⟩
  obtain ⟨i, rfl⟩ := Nat.exists_eq_add_of_le' hlo
  refine ⟨levK_map_range _ hhi, fun j hj hlt => levCoef_succ _ hj hlt, levCoef_self .., levErr_succ ..,
    holdsReal_levinsonEffect_refl hhi, fun j hj hle => ?_⟩
  obtain ⟨j, rfl⟩ := Nat.exists_eq_add_of_le' hj
  exact holdsReal_levinsonEffect_lpcf h32 hhi (Nat.le_of_succ_le_succ hle)

/-! ## `LSQ_FIT` -/

/-- A 64-bit pattern is stored as it stands (`20_memory.md` R66). -/
theorem stored_lpcf (b : Word64) : Space.lpcf.stored (b.toNat : Int) = b.toNat := stored_sums b.isLt

theorem stored_refl (b : Word64) : Space.refl.stored (b.toNat : Int) = b.toNat := stored_sums b.isLt

section
variable (f : Config.LsqFit) (smp : List Int) (m : Nat) (passes : Word32)

/-- The set of order i + 1 as the function `f` returns it (`42_linear_predictor.md` R196). -/
def storeLsq (t : State) (i : Nat) : State :=
  (t.memWrite .lpcf (coefIndex (i + 1) 1)
    ((upto 1 (i + 1)).map fun j => ((f.coef smp m passes (i + 1) j).toNat : Int))).memWrite
      .refl i [((f.refl smp m passes (i + 1)).toNat : Int)]

theorem storesIn_storeLsq (t : State) (i : Nat) : StoresIn (orderRanges i) t (storeLsq f smp m passes t i) := by
  have h := (storesIn_memWrite t .lpcf (coefIndex (i + 1) 1)
    ((upto 1 (i + 1)).map fun j => ((f.coef smp m passes (i + 1) j).toNat : Int))).append
    (storesIn_memWrite _ .refl i [((f.refl smp m passes (i + 1)).toNat : Int)])
  rwa [List.length_map, upto_length, Nat.add_sub_cancel, coefIndex_succ] at h

theorem memGet?_storeLsq_lpcf (t : State) {i j : Nat} (hj : j ≤ i) : memGet? (storeLsq f smp m passes t i).mem .lpcf (i * 32 + j)
    = some ((f.coef smp m passes (i + 1) (j + 1)).toNat : Int) := by
  have hget : ((upto 1 (i + 1)).map fun j => ((f.coef smp m passes (i + 1) j).toNat : Int))[j]?
      = some ((f.coef smp m passes (i + 1) (j + 1)).toNat : Int) := by
    rw [upto, List.getElem?_map, List.getElem?_range' (by omega), Nat.one_mul, Nat.add_comm 1 j]
    rfl
  have hkept := (storesIn_memWrite (t.memWrite .lpcf (coefIndex (i + 1) 1)
    ((upto 1 (i + 1)).map fun j => ((f.coef smp m passes (i + 1) j).toNat : Int))) .refl i
    [((f.refl smp m passes (i + 1)).toNat : Int)]).kept.1 .lpcf (i * 32 + j) rfl
  have hstored := memGet?_memWrite_run t .lpcf (coefIndex (i + 1) 1) hget
  rw [stored_lpcf, coefIndex_succ] at hstored
  rw [coefIndex_succ] at hkept
  exact hkept.trans hstored

theorem memGet?_storeLsq_refl (t : State) (i : Nat) : memGet? (storeLsq f smp m passes t i).mem .refl i
    = some ((f.refl smp m passes (i + 1)).toNat : Int) := by
  rw [← stored_refl]
  exact memGet?_memWrite_run _ .refl i (j := 0) rfl

end

/-- CFG_LPC_PASSES is not written on the way, so every order is fitted with the same pass count. -/
theorem lsqEffect_eq (f : Config.LsqFit) (s : State) (ch m : Nat) : lsqEffect f s ch m
    = (List.range m).foldl (storeLsq f (s.samples ch s.blockLen) m (lsqPasses s.regs.cfg)) s := by
  have hupto : upto 1 m = (List.range m).map (· + 1) := by
    rw [upto, Nat.add_sub_cancel, List.range'_eq_map_range]
    exact List.map_congr_left fun i _ => Nat.add_comm 1 i
  obtain ⟨smp, hsmp⟩ : ∃ smp, s.samples ch s.blockLen = smp := ⟨_, rfl⟩
  obtain ⟨passes, hpasses⟩ : ∃ passes, lsqPasses s.regs.cfg = passes := ⟨_, rfl⟩
  rw [lsqEffect, hupto, hsmp, hpasses, List.foldl_map]
  clear hsmp hupto
  generalize List.range m = l
  induction l generalizing s with
  | nil => rfl
  | cons i l ih =>
    have hstep : storeLsq f smp m (lsqPasses s.regs.cfg) s i = storeLsq f smp m passes s i := by rw [hpasses]
    rw [List.foldl_cons, List.foldl_cons, ← hstep]
    exact ih (storeLsq f smp m (lsqPasses s.regs.cfg) s i) hpasses

theorem storesIn_lsqEffect (f : Config.LsqFit) (s : State) (ch m : Nat) :
    StoresIn ((Space.refl, 0, m) :: (List.range m).map fun i => (Space.lpcf, i * 32, i + 1)) s (lsqEffect f s ch m) := by
  rw [lsqEffect_eq]
  exact storesIn_allOrders (storesIn_storeLsq _ _ _ _) s

theorem checks_of_lsqFit {s : State} {ch m : Nat} (h : earlyError (.lsqFit ch m) s = none) :
    ∀ c ∈ [cfgCheck s, chCheck s ch, fieldCheck 1 m 32, blockCheck s 2], c.1 = true := by
  obtain ⟨hcfg, -, hfields, hblock, -⟩ := ready_of_earlyError_eq_none h
  obtain ⟨hfields, hhi⟩ := Bool.and_eq_true_iff.1 hfields
  obtain ⟨hch, hlo⟩ := Bool.and_eq_true_iff.1 hfields
  simp only [List.forall_mem_cons]
  exact ⟨hcfg, hch, fieldCheck_one (Bool.and_eq_true_iff.2 ⟨hlo, hhi⟩), hblock, List.forall_mem_nil _⟩

theorem exec_lsqFit_of_none {s : State} {ch m : Nat} (hfit : Config.lsqFit = none)
    (h : earlyError (.lsqFit ch m) s = none) : exec (.lsqFit ch m) s = fail .cfgUnsupported s := by
  have hexec : exec (.lsqFit ch m) s = execLsqFit ch m s := rfl
  rw [hexec, execLsqFit, command_of_checks (checks_of_lsqFit h), hfit]

theorem exec_lsqFit_of_some {s : State} {ch m : Nat} {f : Config.LsqFit} (hfit : Config.lsqFit = some f)
    (h : earlyError (.lsqFit ch m) s = none) : exec (.lsqFit ch m) s = .next (cleared (lsqEffect f s ch m)) := by
  have hexec : exec (.lsqFit ch m) s = execLsqFit ch m s := rfl
  rw [hexec, execLsqFit, command_of_checks (checks_of_lsqFit h), hfit]
  rfl

/-- Settles O34: whether there is a function is the one case split; its values are stored order by order. -/
theorem lsq_fit_by_open_parameter : Obligations.lsq_fit_by_open_parameter := by
  intro s ch m hs
  split
  next hfit => exact exec_lsqFit_of_none hfit hs
  next f hfit =>
    intro samples passes
    obtain ⟨-, -, hfields, -⟩ := ready_of_earlyError_eq_none hs
    have h32 : m ≤ 32 := of_decide_eq_true (Bool.and_eq_true_iff.1 hfields).2
    have hstores := storesIn_lsqEffect f s ch m
    have heffect : lsqEffect f s ch m = (List.range m).foldl (storeLsq f samples m passes) s := by
      rw [lsqEffect_eq, samples_eq]
      rfl
    refine ⟨_, exec_lsqFit_of_some hfit hs, hstores.cleared_regs, fun o hlo hhi => ?_, hstores.kept⟩
    obtain ⟨i, rfl⟩ := Nat.exists_eq_add_of_le' hlo
    rw [cleared_mem, heffect]
    refine ⟨refl_of_allOrders (p := (· = some _)) (storesIn_storeLsq _ _ _ _) hhi (memGet?_storeLsq_refl f samples m passes · i) s,
      fun j hj hle => ?_⟩
    obtain ⟨j, rfl⟩ := Nat.exists_eq_add_of_le' hj
    have hj := Nat.le_of_succ_le_succ hle
    exact lpcf_of_allOrders (p := (· = some _)) (storesIn_storeLsq _ _ _ _) hhi hj h32
      (memGet?_storeLsq_lpcf f samples m passes · hj) s

end Sys2Proof.Proofs
end


section
/-!
The order estimate and the quantizer (`42_linear_predictor.md` R197, R199).
-/
namespace Sys2Proof.Proofs
open Sys2Proof.Machine

/-! ## Searching down an ascending list -/

/-- The first hit from the end is the greatest element with the property. -/
theorem find?_reverse_eq_some {p : Nat → Bool} {l : List Nat} (hl : l.Pairwise (· < ·)) {o : Nat}
    (h : l.reverse.find? p = some o) : o ∈ l ∧ p o = true ∧ ∀ i ∈ l, o < i → p i = false := by
  refine ⟨List.mem_reverse.1 (List.mem_of_find?_eq_some h), List.find?_some h, fun i hi hlt => ?_⟩
  obtain ⟨-, before, after, hsplit, hbefore⟩ := List.find?_eq_some_iff_append.1 h
  have hdown := List.pairwise_reverse.2 hl
  rw [hsplit, List.pairwise_append, List.pairwise_cons] at hdown
  obtain ⟨-, ⟨hafter, -⟩, -⟩ := hdown
  have hmem := List.mem_reverse.2 hi
  rw [hsplit, List.mem_append, List.mem_cons] at hmem
  rcases hmem with hin | rfl | hin
  · simpa using hbefore i hin
  · exact absurd hlt (lt_irrefl i)
  · exact absurd hlt (hafter i hin).not_gt

theorem find?_reverse_eq_none {p : Nat → Bool} {l : List Nat} (h : l.reverse.find? p = none) : ∀ i ∈ l, p i = false :=
  fun i hi => by simpa using List.find?_eq_none.1 h i (List.mem_reverse.2 hi)

theorem pairwise_upto (lo hi : Nat) : (upto lo hi).Pairwise (· < ·) := List.pairwise_lt_range'

/-! ## `ORDER_EST` -/

theorem orderEstOf_largest (refl : Nat → Flt) {lo hi o : Nat} (h : orderEstOf refl lo hi = o) :
    (∀ i, lo ≤ i → o < i → i ≤ hi → flt (fltOfBits Config.reflThreshold) (fabs (refl i)) = false)
      ∧ (flt (fltOfBits Config.reflThreshold) (fabs (refl o)) = true ∨ o = lo) := by
  unfold orderEstOf at h
  cases hf : (upto lo hi).reverse.find? fun i => flt (fltOfBits Config.reflThreshold) (fabs (refl i)) with
  | none =>
    rw [hf] at h
    exact ⟨fun i hlo _ hhi => find?_reverse_eq_none hf i (mem_upto.2 ⟨hlo, hhi⟩), .inr h.symm⟩
  | some v =>
    obtain rfl : v = o := by rw [hf] at h; exact h
    obtain ⟨-, habove, hlarger⟩ := find?_reverse_eq_some (pairwise_upto lo hi) hf
    exact ⟨fun i hlo hlt hhi => hlarger i (mem_upto.2 ⟨hlo, hhi⟩) hlt, .inl habove⟩

theorem exec_orderEst {s : State} {lo hi : Nat} (h : earlyError (.orderEst lo hi) s = none) :
    exec (.orderEst lo hi) s = succeed (s.setA4 (orderEstOf (reflAt s) lo hi : Nat)) := by
  obtain ⟨hcfg, -, hfields, -⟩ := ready_of_earlyError_eq_none h
  obtain ⟨hfields, hhi⟩ := Bool.and_eq_true_iff.1 hfields
  obtain ⟨hlo, hle⟩ := Bool.and_eq_true_iff.1 hfields
  have hlo' := of_decide_eq_true hlo
  have hle' := of_decide_eq_true hle
  have hhi' := of_decide_eq_true hhi
  have hexec : exec (.orderEst lo hi) s = execOrderEst lo hi s := rfl
  rw [hexec, execOrderEst, command_of_checks]
  simp only [List.forall_mem_cons]
  exact ⟨hcfg, (within_eq_true ..).2 ⟨hlo', hle'.trans hhi'⟩, (within_eq_true ..).2 ⟨hlo'.trans hle', hhi'⟩, hle,
    List.forall_mem_nil _⟩

/-- Settles O36: the search from the top finds the largest order, and the default is the lower bound. -/
theorem order_est_largest_above : Obligations.order_est_largest_above := by
  intro s lo hi hs above
  obtain ⟨-, -, hfields, -⟩ := ready_of_earlyError_eq_none hs
  have hle : lo ≤ hi := of_decide_eq_true (Bool.and_eq_true_iff.1 (Bool.and_eq_true_iff.1 hfields).1).2
  obtain ⟨hlo, hhi⟩ := orderEstOf_mem (refl := reflAt s) hle
  obtain ⟨hlarger, habove⟩ := orderEstOf_largest (reflAt s) (lo := lo) (hi := hi) rfl
  exact ⟨_, hlo, hhi, fun i hlt => hlarger i (hlo.trans hlt.le) hlt, habove, (exec_orderEst hs).trans (succeed_setA4 ..)⟩

/-! ## The quantizer -/

/-- The least quantized coefficient of a precision, and the greatest (`42_linear_predictor.md` R197). -/
def coefBounds (prec : Nat) : Int × Int := (-2 ^ (prec - 1), 2 ^ (prec - 1) - 1)

theorem coefBounds_around_zero (prec : Nat) : (coefBounds prec).1 ≤ 0 ∧ 0 ≤ (coefBounds prec).2 := by
  have hpow : (0 : Int) < 2 ^ (prec - 1) := by positivity
  simp only [coefBounds]
  omega

theorem clip_eq {v lo hi : Int} (h : lo ≤ hi) : clip v lo hi = max lo (min v hi) := by
  rw [clip]
  omega

theorem clip_mem {v lo hi : Int} (h : lo ≤ hi) : lo ≤ clip v lo hi ∧ clip v lo hi ≤ hi := by
  rw [clip]
  omega

theorem quantRound_mem {sh : Nat} {qmin qmax : Int} (h : qmin ≤ qmax) (e : Flt) (coefs : List Flt) :
    ∀ q ∈ quantRound sh qmin qmax e coefs, qmin ≤ q ∧ q ≤ qmax := by
  induction coefs generalizing e with
  | nil => exact fun q hq => absurd hq List.not_mem_nil
  | cons v coefs ih => exact List.forall_mem_cons.2 ⟨clip_mem h, ih _⟩

/-- The rounding with error feedback: `e j` is the error carried into coefficient j (counted from 0). -/
theorem quantRound_feedback (sh : Nat) (qmin qmax : Int) (e0 : Flt) (coefs : List Flt) :
    ∃ e : Nat → Flt, e 0 = e0 ∧ ∀ (j : Nat) (v : Flt), coefs[j]? = some v →
      ∃ q, (quantRound sh qmin qmax e0 coefs)[j]? = some q
        ∧ q = clip (rne (fadd (fmul v (fltPow2 sh)) (e j))) qmin qmax
        ∧ e (j + 1) = fsub (fadd (fmul v (fltPow2 sh)) (e j)) (fltOfInt q) := by
  induction coefs generalizing e0 with
  | nil => exact ⟨fun _ => e0, rfl, nofun⟩
  | cons v coefs ih =>
    obtain ⟨e, he0, he⟩ := ih (fsub (fadd (fmul v (fltPow2 sh)) e0)
      (fltOfInt (clip (rne (fadd (fmul v (fltPow2 sh)) e0)) qmin qmax)))
    refine ⟨fun j => if j = 0 then e0 else e (j - 1), rfl, fun j w hw => ?_⟩
    cases j with
    | zero =>
      obtain rfl : v = w := Option.some.inj hw
      exact ⟨_, rfl, rfl, he0⟩
    | succ j =>
      obtain ⟨q, hq, hclip, hnext⟩ := he j w hw
      exact ⟨q, hq, hclip, hnext⟩

section
variable {coefs : List Flt} {prec : Nat}

/-- A set with a value that is not finite is all zero. -/
theorem quantizeOf_not_finite (h : coefs.all finite = false) : quantizeOf coefs prec = (coefs.map fun _ => 0, 0) := by
  simp [quantizeOf, h]

theorem quantizeOf_fits (h : coefs.all finite = true) {sh : Nat}
    (hsh : fitShift (coefMax coefs) (coefBounds prec).2 = some sh) : quantizeOf coefs prec
      = (quantRound sh (coefBounds prec).1 (coefBounds prec).2 (Flt.zero false) coefs, sh) := by
  simp only [coefBounds] at hsh
  simp [quantizeOf, h, hsh, coefBounds]

/-- A set that fits at no shift is rescaled. -/
theorem quantizeOf_rescaled (h : coefs.all finite = true) (hsh : fitShift (coefMax coefs) (coefBounds prec).2 = none) :
    quantizeOf coefs prec = (quantRound 0 (coefBounds prec).1 (coefBounds prec).2 (Flt.zero false)
      (coefs.map fun x => fmul x (fdiv (fltOfInt (coefBounds prec).2) (coefMax coefs))), 0) := by
  simp only [coefBounds] at hsh
  simp [quantizeOf, h, hsh, coefBounds]

theorem fitShift_eq_some {cmax : Flt} {qmax : Int} {sh : Nat} (h : fitShift cmax qmax = some sh) :
    sh ≤ 15 ∧ fle (fmul cmax (fltPow2 sh)) (fltOfInt qmax) = true
      ∧ ∀ k, k ≤ 15 → fle (fmul cmax (fltPow2 k)) (fltOfInt qmax) = true → k ≤ sh := by
  obtain ⟨hmem, hfits, hlarger⟩ := find?_reverse_eq_some List.pairwise_lt_range h
  refine ⟨Nat.le_of_lt_succ (List.mem_range.1 hmem), hfits, fun k hk hkfits => not_lt.1 fun hlt => ?_⟩
  exact Bool.false_ne_true ((hlarger k (List.mem_range.2 (Nat.lt_succ_of_le hk)) hlt).symm.trans hkfits)

theorem fitShift_eq_none {cmax : Flt} {qmax : Int} (h : fitShift cmax qmax = none) {k : Nat} (hk : k ≤ 15) :
    fle (fmul cmax (fltPow2 k)) (fltOfInt qmax) = false :=
  find?_reverse_eq_none h k (List.mem_range.2 (Nat.lt_succ_of_le hk))

/-- The quantized coefficients fit the precision, and the shift QSH (`20_memory.md` R60). -/
theorem quantizeOf_mem (coefs : List Flt) (prec : Nat) :
    (∀ q ∈ (quantizeOf coefs prec).1, (coefBounds prec).1 ≤ q ∧ q ≤ (coefBounds prec).2) ∧ (quantizeOf coefs prec).2 ≤ 15 := by
  have hzero := coefBounds_around_zero prec
  have hround := fun sh => quantRound_mem (sh := sh) (hzero.1.trans hzero.2) (Flt.zero false)
  cases hfin : coefs.all finite with
  | false =>
    rw [quantizeOf_not_finite hfin]
    exact ⟨List.forall_mem_map.2 fun _ _ => hzero, Nat.zero_le _⟩
  | true =>
    cases hsh : fitShift (coefMax coefs) (coefBounds prec).2 with
    | some sh =>
      rw [quantizeOf_fits hfin hsh]
      exact ⟨hround sh coefs, (fitShift_eq_some hsh).1⟩
    | none =>
      rw [quantizeOf_rescaled hfin hsh]
      exact ⟨hround 0 _, Nat.zero_le _⟩

end

/-! ### The quantizer on the coefficients c 1 .. c o -/

theorem fltPow2_eq (k : Nat) : fltPow2 k = fltOfInt (2 ^ k) := by
  rw [fltPow2, Nat.cast_pow]
  rfl

section
variable (c : Nat → Flt) (o prec : Nat)

/-- The coefficients of an order as a list. -/
def coefList : List Flt := (List.range o).map fun i => c (i + 1)

/-- The largest magnitude of the coefficients (`42_linear_predictor.md` R197). -/
def maxMagnitude : Flt :=
  (List.range' 1 o).foldl (fun m j => if flt m (fabs (c j)) then fabs (c j) else m) (Flt.zero false)

/-- The largest magnitude fits the precision at shift k. -/
def fitsAt (k : Nat) : Bool := fle (fmul (maxMagnitude c o) (fltOfInt (2 ^ k))) (fltOfInt (coefBounds prec).2)

theorem coefMax_coefList : coefMax (coefList c o) = maxMagnitude c o := by
  have hshift : List.range' 1 o = (List.range o).map (· + 1) := by
    rw [List.range'_eq_map_range]
    exact List.map_congr_left fun i _ => Nat.add_comm 1 i
  rw [coefMax, coefList, maxMagnitude, hshift, List.foldl_map, List.foldl_map]

variable {c o}

theorem coefList_getElem? {j : Nat} (hj : j < o) : (coefList c o)[j]? = some (c (j + 1)) := by
  rw [coefList, List.getElem?_map, List.getElem?_range hj]
  rfl

theorem all_finite_coefList : (coefList c o).all finite = true ↔ ∀ j, 1 ≤ j → j ≤ o → finite (c j) = true := by
  rw [coefList, List.all_map, List.all_eq_true]
  simp only [List.mem_range, Function.comp_apply]
  refine ⟨fun h j hlo hhi => ?_, fun h j hj => h (j + 1) (Nat.succ_pos j) hj⟩
  obtain ⟨i, rfl⟩ := Nat.exists_eq_add_of_le' hlo
  exact h i hhi

theorem quantizeOf_coefList_length : (quantizeOf (coefList c o) prec).1.length = o := by
  rw [quantizeOf_length, coefList, List.length_map, List.length_range]

/-- The quantized coefficient j, for 1 ≤ j ≤ o. -/
def quantAt (c : Nat → Flt) (o prec j : Nat) : Int := (quantizeOf (coefList c o) prec).1.getD (j - 1) 0

/-- The shift of the set. -/
def quantShift (c : Nat → Flt) (o prec : Nat) : Nat := (quantizeOf (coefList c o) prec).2

variable {prec}

theorem quantizeOf_getElem? {j : Nat} (hj : j < o) : (quantizeOf (coefList c o) prec).1[j]? = some (quantAt c o prec (j + 1)) := by
  have hlt : j < (quantizeOf (coefList c o) prec).1.length := hj.trans_eq (quantizeOf_coefList_length ..).symm
  rw [quantAt, Nat.add_sub_cancel, List.getElem?_eq_getElem hlt, List.getD_eq_getElem _ _ hlt]

theorem quantAt_mem {j : Nat} (hlo : 1 ≤ j) (hj : j ≤ o) :
    (coefBounds prec).1 ≤ quantAt c o prec j ∧ quantAt c o prec j ≤ (coefBounds prec).2 := by
  obtain ⟨i, rfl⟩ := Nat.exists_eq_add_of_le' hlo
  exact (quantizeOf_mem _ prec).1 _ (List.mem_of_getElem? (quantizeOf_getElem? hj))

theorem quantShift_le : quantShift c o prec ≤ 15 := (quantizeOf_mem _ prec).2

theorem quantize_not_finite (h : ∃ j, 1 ≤ j ∧ j ≤ o ∧ finite (c j) = false) :
    quantShift c o prec = 0 ∧ ∀ j, 1 ≤ j → j ≤ o → quantAt c o prec j = 0 := by
  obtain ⟨j, hlo, hhi, hj⟩ := h
  have hfin : (coefList c o).all finite = false := by
    rw [Bool.eq_false_iff, Ne, all_finite_coefList]
    exact fun hall => Bool.false_ne_true (hj.symm.trans (hall j hlo hhi))
  have hzero := quantizeOf_not_finite (prec := prec) hfin
  refine ⟨by rw [quantShift, hzero], fun j _ _ => ?_⟩
  rw [quantAt, hzero]
  exact List.getD_map (coefList c o) Flt.nan fun _ => 0

/-- The rounding of R197, from coefficient 1 on, at a shift `sh` of coefficients `c'` that may be rescaled. -/
theorem quantRound_coefList {c' : Nat → Flt} {sh : Nat}
    (h : (quantizeOf (coefList c o) prec).1
      = quantRound sh (coefBounds prec).1 (coefBounds prec).2 (Flt.zero false) (coefList c' o)) :
    ∃ e : Nat → Flt, e 0 = Flt.zero false ∧ ∀ j, 1 ≤ j → j ≤ o →
      quantAt c o prec j = max (coefBounds prec).1
          (min (rne (fadd (fmul (c' j) (fltOfInt (2 ^ sh))) (e (j - 1)))) (coefBounds prec).2)
        ∧ e j = fsub (fadd (fmul (c' j) (fltOfInt (2 ^ sh))) (e (j - 1))) (fltOfInt (quantAt c o prec j)) := by
  obtain ⟨hneg, hpos⟩ := coefBounds_around_zero prec
  obtain ⟨e, he0, he⟩ := quantRound_feedback sh (coefBounds prec).1 (coefBounds prec).2 (Flt.zero false) (coefList c' o)
  refine ⟨e, he0, fun j hlo hj => ?_⟩
  obtain ⟨i, rfl⟩ := Nat.exists_eq_add_of_le' hlo
  obtain ⟨q, hq, hclip, hnext⟩ := he i _ (coefList_getElem? hj)
  obtain rfl : quantAt c o prec (i + 1) = q := Option.some.inj ((quantizeOf_getElem? hj).symm.trans (by rw [h, hq]))
  rw [fltPow2_eq] at hclip hnext
  exact ⟨hclip.trans (clip_eq (hneg.trans hpos)), hnext⟩

/-- A finite set that fits at some shift. -/
theorem quantize_fits (hfin : ∀ j, 1 ≤ j → j ≤ o → finite (c j) = true) {sh : Nat}
    (hsh : fitShift (maxMagnitude c o) (coefBounds prec).2 = some sh) : quantShift c o prec = sh
      ∧ (quantizeOf (coefList c o) prec).1
        = quantRound sh (coefBounds prec).1 (coefBounds prec).2 (Flt.zero false) (coefList c o) := by
  rw [← coefMax_coefList] at hsh
  rw [quantShift, quantizeOf_fits (all_finite_coefList.2 hfin) hsh]
  exact ⟨rfl, rfl⟩

/-- A finite set that fits at no shift. -/
theorem quantize_rescaled (hfin : ∀ j, 1 ≤ j → j ≤ o → finite (c j) = true)
    (hsh : fitShift (maxMagnitude c o) (coefBounds prec).2 = none) : quantShift c o prec = 0
      ∧ (quantizeOf (coefList c o) prec).1
        = quantRound 0 (coefBounds prec).1 (coefBounds prec).2 (Flt.zero false)
          (coefList (fun j => fmul (c j) (fdiv (fltOfInt (coefBounds prec).2) (maxMagnitude c o))) o) := by
  rw [← coefMax_coefList] at hsh
  rw [quantShift, quantizeOf_rescaled (all_finite_coefList.2 hfin) hsh, coefMax_coefList]
  exact ⟨rfl, congrArg _ (List.map_map ..)⟩

theorem fitShift_maxMagnitude_some {sh : Nat} (h : fitShift (maxMagnitude c o) (coefBounds prec).2 = some sh) :
    fitsAt c o prec sh = true ∧ (∀ k, k ≤ 15 → fitsAt c o prec k = true → k ≤ sh)
      ∧ (List.range 16).any (fitsAt c o prec) = true := by
  obtain ⟨h15, hfits, hlarger⟩ := fitShift_eq_some h
  simp only [fltPow2_eq] at hfits hlarger
  exact ⟨hfits, hlarger, List.any_eq_true.2 ⟨sh, List.mem_range.2 (Nat.lt_succ_of_le h15), hfits⟩⟩

theorem fitShift_maxMagnitude_none (h : fitShift (maxMagnitude c o) (coefBounds prec).2 = none) :
    (∀ k, k ≤ 15 → fitsAt c o prec k = false) ∧ (List.range 16).any (fitsAt c o prec) = false := by
  have hnone : ∀ k, k ≤ 15 → fitsAt c o prec k = false := fun k hk => by
    rw [fitsAt, ← fltPow2_eq]
    exact fitShift_eq_none h hk
  exact ⟨hnone, List.any_eq_false.2 fun k hk => Bool.eq_false_iff.1 (hnone k (Nat.le_of_lt_succ (List.mem_range.1 hk)))⟩

/-- The finite case of R197: the largest shift at which the set fits, else 0 with the set rescaled, and the rounding. -/
theorem quantize_finite (hfin : ∀ j, 1 ≤ j → j ≤ o → finite (c j) = true) :
    ((∃ k, k ≤ 15 ∧ fitsAt c o prec k = true) → fitsAt c o prec (quantShift c o prec) = true
      ∧ ∀ k, k ≤ 15 → fitsAt c o prec k = true → k ≤ quantShift c o prec)
    ∧ ((∀ k, k ≤ 15 → fitsAt c o prec k = false) → quantShift c o prec = 0)
    ∧ ∃ e : Nat → Flt, e 0 = Flt.zero false ∧ ∀ j, 1 ≤ j → j ≤ o →
      let cj := if (List.range 16).any (fitsAt c o prec) then c j
        else fmul (c j) (fdiv (fltOfInt (coefBounds prec).2) (maxMagnitude c o))
      let x := fadd (fmul cj (fltOfInt (2 ^ quantShift c o prec))) (e (j - 1))
      quantAt c o prec j = max (coefBounds prec).1 (min (rne x) (coefBounds prec).2)
        ∧ e j = fsub x (fltOfInt (quantAt c o prec j)) := by
  cases hsh : fitShift (maxMagnitude c o) (coefBounds prec).2 with
  | some sh =>
    obtain ⟨hshift, hround⟩ := quantize_fits hfin hsh
    obtain ⟨hfits, hlarger, hany⟩ := fitShift_maxMagnitude_some hsh
    simp only [hshift, hany, if_true]
    refine ⟨fun _ => ⟨hfits, hlarger⟩, fun hnone => ?_, quantRound_coefList hround⟩
    exact absurd ((hnone sh (hshift ▸ quantShift_le)).symm.trans hfits) Bool.false_ne_true
  | none =>
    obtain ⟨hshift, hround⟩ := quantize_rescaled hfin hsh
    obtain ⟨hnone, hany⟩ := fitShift_maxMagnitude_none hsh
    simp only [hshift, hany, Bool.false_eq_true, if_false]
    refine ⟨fun ⟨k, hk, hfits⟩ => ?_, fun _ => trivial, quantRound_coefList hround⟩
    exact absurd ((hnone k hk).symm.trans hfits) Bool.false_ne_true

end

/-! ### `QUANT` -/

/-- LPCF[o][1 .. o] as the commands read it. -/
def coefAt (s : State) (o j : Nat) : Flt := realAt s .lpcf ((o - 1) * 32 + (j - 1))

theorem coefRow_eq (s : State) (o : Nat) : coefRow s o = coefList (coefAt s o) o := readReals_eq ..

theorem stored_qc {v : Int} (h : -2 ^ 15 ≤ v ∧ v < 2 ^ 15) : Space.qc.stored v = v := by
  change ((BitVec.ofInt 64 v).setWidth 16).toInt = v
  rw [setWidth_ofInt (by decide), BitVec.toInt_ofInt_eq_self (by decide) (by omega) (by omega)]

theorem stored_qsh {v : Nat} (h : v < 2 ^ 4) : Space.qsh.stored (v : Int) = v := by
  change (((BitVec.ofInt 64 (v : Int)).setWidth 4).toNat : Int) = v
  rw [setWidth_ofInt (by decide), BitVec.ofInt_natCast, BitVec.toNat_ofNat, Nat.mod_eq_of_lt h]

section
variable {s : State} {o prec : Nat} {c : Nat → Flt}

/-- The set of an order, stored. -/
def storeQuantOf (s : State) (c : Nat → Flt) (o prec : Nat) : State :=
  storeQuant s o (quantizeOf (coefList c o) prec).1 (quantShift c o prec)

theorem storesIn_storeQuantOf (s : State) (c : Nat → Flt) (o prec : Nat) :
    StoresIn [(.qc, (o - 1) * 32, o), (.qsh, o - 1, 1)] s (storeQuantOf s c o prec) := by
  have h := (storesIn_memWrite s .qc (coefIndex o 1) (quantizeOf (coefList c o) prec).1).append
    (storesIn_memWrite _ .qsh (o - 1) [(quantShift c o prec : Int)])
  rwa [quantizeOf_coefList_length, coefIndex, Nat.sub_self, Nat.add_zero] at h

theorem memGet?_storeQuantOf_qc (hprec : prec ≤ 15) {j : Nat} (hlo : 1 ≤ j) (hj : j ≤ o) :
    memGet? (storeQuantOf s c o prec).mem .qc ((o - 1) * 32 + (j - 1)) = some (quantAt c o prec j) := by
  have hpow : (2 : Int) ^ (prec - 1) ≤ 2 ^ 14 := pow_le_pow_right₀ (by decide) (by omega)
  obtain ⟨hmin, hmax⟩ := quantAt_mem (c := c) (prec := prec) hlo hj
  simp only [coefBounds] at hmin hmax
  obtain ⟨i, rfl⟩ := Nat.exists_eq_add_of_le' hlo
  have hkept := (storesIn_memWrite (s.memWrite .qc (coefIndex o 1) (quantizeOf (coefList c o) prec).1) .qsh (o - 1)
    [(quantShift c o prec : Int)]).kept.1 .qc ((o - 1) * 32 + (i + 1 - 1)) rfl
  have hstored := memGet?_memWrite_run s .qc (coefIndex o 1) (quantizeOf_getElem? (c := c) (prec := prec) hj)
  rw [stored_qc (by omega)] at hstored
  exact hkept.trans hstored

theorem memGet?_storeQuantOf_qsh : memGet? (storeQuantOf s c o prec).mem .qsh (o - 1) = some (quantShift c o prec : Int) := by
  rw [← stored_qsh (Nat.lt_succ_of_le quantShift_le)]
  exact memGet?_memWrite_run _ .qsh (o - 1) (j := 0) rfl

theorem exec_quant (h : earlyError (.quant o prec) s = none) : exec (.quant o prec) s
    = succeed ((storeQuantOf s (coefAt s o) o prec).setA4 (quantShift (coefAt s o) o prec : Nat)) := by
  obtain ⟨hcfg, -, hfields, -⟩ := ready_of_earlyError_eq_none h
  obtain ⟨hfields, hhi⟩ := Bool.and_eq_true_iff.1 hfields
  obtain ⟨horder, hlo⟩ := Bool.and_eq_true_iff.1 hfields
  have hexec : exec (.quant o prec) s = execQuant o prec s := rfl
  rw [hexec, execQuant, command_of_checks, coefRow_eq]
  · rfl
  · simp only [List.forall_mem_cons]
    exact ⟨hcfg, fieldCheck_one horder, fieldCheck_one (Bool.and_eq_true_iff.2 ⟨hlo, hhi⟩), List.forall_mem_nil _⟩

end

/-- Settles O35: the command stores the quantized set, and the cases are those of the quantizer. -/
theorem quant_shift_and_rounding : Obligations.quant_shift_and_rounding := by
  intro s o prec hs c qmax qmin cmax fits
  obtain ⟨-, -, hfields, -⟩ := ready_of_earlyError_eq_none hs
  have hprec : prec ≤ 15 := of_decide_eq_true (Bool.and_eq_true_iff.1 hfields).2
  have hstores := storesIn_storeQuantOf s (coefAt s o) o prec
  refine ⟨_, quantAt (coefAt s o) o prec, quantShift (coefAt s o) o prec, (exec_quant hs).trans (succeed_setA4 ..), ?regs,
    fun j hlo hhi => ?coef, quantShift_le, memGet?_storeQuantOf_qsh, hstores.kept, quantize_not_finite, quantize_finite⟩
  case regs => rw [hstores.regs]
  case coef =>
    obtain ⟨hmin, hmax⟩ := quantAt_mem (c := coefAt s o) (prec := prec) hlo hhi
    exact ⟨hmin, hmax, memGet?_storeQuantOf_qc hprec hlo hhi⟩

end Sys2Proof.Proofs
end


section
/-!
The searches for a prediction order (`42_linear_predictor.md` R199 to R203, `43_subframe_encoder.md` R235): a search is the list of
the orders it has evaluated.
-/
namespace Sys2Proof.Proofs
open Sys2Proof.Machine

/-! ## The first of the least -/

section
variable {cost : Nat → Int} {l : List Nat} {o p : Nat}

theorem mem_of_firstLeast (h : FirstLeast cost l o) : o ∈ l := by
  obtain ⟨before, after, rfl, -⟩ := h
  simp

theorem cost_le_of_firstLeast (h : FirstLeast cost l o) (hp : p ∈ l) : cost o ≤ cost p := by
  obtain ⟨before, after, rfl, hbefore, hafter⟩ := h
  rcases List.mem_append.1 hp with hp | hp
  · exact (hbefore p hp).le
  · rcases List.mem_cons.1 hp with rfl | hp
    · exact le_rfl
    · exact hafter p hp

/-- In an ascending list the first of the least is the lowest. -/
theorem cost_lt_of_firstLeast (h : FirstLeast cost l o) (hl : l.Pairwise (· < ·)) (hp : p ∈ l) (hlt : p < o) :
    cost o < cost p := by
  obtain ⟨before, after, rfl, hbefore, hafter⟩ := h
  obtain ⟨-, hrest, -⟩ := List.pairwise_append.1 hl
  obtain ⟨hlater, -⟩ := List.pairwise_cons.1 hrest
  rcases List.mem_append.1 hp with hp | hp
  · exact hbefore p hp
  · rcases List.mem_cons.1 hp with rfl | hp
    · exact absurd hlt (lt_irrefl _)
    · exact absurd hlt (hlater p hp).not_gt

/-- One more order at the end: it wins only when it is strictly better. -/
theorem firstLeast_concat (h : FirstLeast cost l o) (p : Nat) :
    FirstLeast cost (l ++ [p]) (if cost p < cost o then p else o) := by
  split
  · next hlt => exact ⟨l, [], rfl, fun q hq => hlt.trans_le (cost_le_of_firstLeast h hq), by simp⟩
  · next hge =>
    obtain ⟨before, after, rfl, hbefore, hafter⟩ := h
    refine ⟨before, after ++ [p], by simp, hbefore, ?_⟩
    rw [List.forall_mem_append, List.forall_mem_singleton]
    exact ⟨hafter, not_lt.1 hge⟩

theorem firstLeast_unique (h : FirstLeast cost l o) (h' : FirstLeast cost l p) : o = p := by
  have hle := cost_le_of_firstLeast h (mem_of_firstLeast h')
  have hle' := cost_le_of_firstLeast h' (mem_of_firstLeast h)
  obtain ⟨before, after, hl, hbefore, -⟩ := h
  obtain ⟨before', after', hl', hbefore', -⟩ := h'
  have hsplit : before ++ o :: after = before' ++ p :: after' := hl.symm.trans hl'
  rcases List.append_eq_append_iff.1 hsplit with ⟨d, rfl, hd⟩ | ⟨d, rfl, hd⟩
  · cases d with
    | nil => exact (List.cons.inj hd).1
    | cons x d =>
      obtain rfl : o = x := (List.cons.inj hd).1
      exact absurd hle (hbefore' o (by simp)).not_ge
  · cases d with
    | nil => exact (List.cons.inj hd).1.symm
    | cons x d =>
      obtain rfl : p = x := (List.cons.inj hd).1
      exact absurd hle' (hbefore p (by simp)).not_ge

end

/-! ## The orders that a visit adds -/

/-- The orders evaluated once `orders` were asked for: those not evaluated before join at the end. -/
def addOrders (ev orders : List Nat) : List Nat := orders.foldl (fun ev o => if o ∈ ev then ev else ev ++ [o]) ev

theorem addOrders_cons (ev : List Nat) (o : Nat) (orders : List Nat) :
    addOrders ev (o :: orders) = addOrders (addOrders ev [o]) orders := rfl

theorem addOrders_singleton (ev : List Nat) (o : Nat) : addOrders ev [o] = if o ∈ ev then ev else ev ++ [o] := rfl

theorem addOrders_eq_append (ev orders : List Nat) : ∃ new, new.Sublist orders ∧ addOrders ev orders = ev ++ new := by
  induction orders generalizing ev with
  | nil => exact ⟨[], .slnil, (List.append_nil ev).symm⟩
  | cons o orders ih =>
    rw [addOrders_cons, addOrders_singleton]
    split
    · obtain ⟨new, hsub, hnew⟩ := ih ev
      exact ⟨new, hsub.cons o, hnew⟩
    · obtain ⟨new, hsub, hnew⟩ := ih (ev ++ [o])
      exact ⟨o :: new, hsub.cons_cons o, by rw [hnew, List.append_assoc]; rfl⟩

theorem mem_addOrders {ev orders : List Nat} {o : Nat} : o ∈ addOrders ev orders ↔ o ∈ ev ∨ o ∈ orders := by
  induction orders generalizing ev with
  | nil => simp [addOrders]
  | cons p orders ih =>
    have hsingle : o ∈ addOrders ev [p] ↔ o ∈ ev ∨ o = p := by
      rw [addOrders_singleton]
      split
      · next hmem => exact ⟨.inl, fun h => h.elim id fun he => he ▸ hmem⟩
      · simp
    rw [addOrders_cons, ih, hsingle, List.mem_cons, or_assoc]

theorem addOrders_nodup {ev orders : List Nat} (h : ev.Nodup) : (addOrders ev orders).Nodup := by
  induction orders generalizing ev with
  | nil => exact h
  | cons o orders ih =>
    refine ih (ev := addOrders ev [o]) ?_
    rw [addOrders_singleton]
    split
    · exact h
    · next hmem => exact List.nodup_append'.2 ⟨h, List.nodup_singleton o, by simpa using hmem⟩

theorem addOrders_of_nodup {ev orders : List Nat} (h : orders.Nodup) :
    addOrders ev orders = ev ++ orders.filter fun o => decide (o ∉ ev) := by
  induction orders generalizing ev with
  | nil => exact (List.append_nil ev).symm
  | cons o orders ih =>
    obtain ⟨hnot, hnodup⟩ := List.nodup_cons.1 h
    rw [addOrders_cons, addOrders_singleton, List.filter_cons]
    by_cases hmem : o ∈ ev
    · simp [hmem, ih hnodup]
    · have hrest : (orders.filter fun p => decide (p ∉ ev ++ [o])) = orders.filter fun p => decide (p ∉ ev) := by
        refine List.filter_congr fun p hp => ?_
        have hne : p ≠ o := fun he => hnot (he ▸ hp)
        simp [hne]
      rw [if_neg hmem, ih hnodup, hrest, if_pos (decide_eq_true hmem), List.append_assoc]
      rfl

/-- Orders asked for in ascending sequence are evaluated in strictly ascending sequence. -/
theorem addOrders_pairwise {orders : List Nat} (h : orders.Pairwise (· ≤ ·)) : (addOrders [] orders).Pairwise (· < ·) := by
  have hnodup : (addOrders [] orders).Nodup := addOrders_nodup List.nodup_nil
  obtain ⟨new, hsub, hnew⟩ := addOrders_eq_append [] orders
  rw [List.nil_append] at hnew
  rw [hnew] at hnodup ⊢
  exact ((h.sublist hsub).and hnodup).imp fun hlt => lt_of_le_of_ne hlt.1 hlt.2

/-! ## A search and the orders it has evaluated -/

/-- The search that has evaluated these orders, in this sequence. -/
def searchOf (cand : Nat → Candidate) (ev : List Nat) : Search where
  done := (ev.map cand).reverse
  best := ev.foldl (fun best o => some (betterOf best (cand o))) none

/-- The answer of a search over these orders: an order that does not fit ends it with the error. -/
def answerOf (cand : Nat → Candidate) (fits : Nat → Bool) (err : ErrCode) (ev : List Nat) : Except ErrCode Search :=
  if ev.all fits then .ok (searchOf cand ev) else .error err

theorem searchOf_concat (cand : Nat → Candidate) (ev : List Nat) (o : Nat) : searchOf cand (ev ++ [o])
    = { done := cand o :: (searchOf cand ev).done, best := some (betterOf (searchOf cand ev).best (cand o)) } := by
  simp [searchOf]

/-- The best candidate of a search is that of the first of the least orders. -/
theorem firstLeast_searchOf (cand : Nat → Candidate) {ev : List Nat} (hne : ev ≠ []) :
    ∃ o, FirstLeast (fun o => (cand o).cost) ev o ∧ (searchOf cand ev).best = some (cand o) := by
  induction ev using List.reverseRecOn with
  | nil => exact absurd rfl hne
  | append_singleton ev o ih =>
    rw [searchOf_concat]
    rcases eq_or_ne ev [] with rfl | hev
    · exact ⟨o, ⟨[], [], rfl, by simp, by simp⟩, rfl⟩
    · obtain ⟨b, hleast, hbest⟩ := ih hev
      refine ⟨_, firstLeast_concat hleast o, ?_⟩
      simp only [hbest, betterOf]
      split <;> rfl

theorem best_searchOf {cand : Nat → Candidate} {ev : List Nat} {o : Nat}
    (h : FirstLeast (fun o => (cand o).cost) ev o) : (searchOf cand ev).best = some (cand o) := by
  obtain ⟨p, hleast, hbest⟩ := firstLeast_searchOf cand (List.ne_nil_of_mem (mem_of_firstLeast h))
  rw [hbest, firstLeast_unique h hleast]

/-- What one step of the log search asks for (`42_linear_predictor.md` R203). -/
def logAround (lo hi step last : Nat) : List Nat :=
  (([(last : Int) - step, last, last + step].filter fun o => inRange lo o hi).map Int.toNat)

section
variable {lo hi step last o : Nat}

theorem mem_logAround : o ∈ logAround lo hi step last
    ↔ ((o : Int) = last - step ∨ o = last ∨ o = last + step) ∧ lo ≤ o ∧ o ≤ hi := by
  simp only [logAround, List.mem_map, List.mem_filter, List.mem_cons, List.not_mem_nil, or_false, inRange_eq_true]
  constructor
  · rintro ⟨v, ⟨hv, hlo, hhi⟩, rfl⟩
    omega
  · rintro ⟨hv, hlo, hhi⟩
    exact ⟨o, ⟨by omega, by omega, by omega⟩, by omega⟩

theorem logAround_nodup (hstep : 0 < step) : (logAround lo hi step last).Nodup := by
  refine List.Nodup.map_on ?_ (List.Nodup.filter _ ?_)
  · intro a ha b hb hab
    have hlo := ((inRange_eq_true ..).1 (List.mem_filter.1 ha).2).1
    have hlo' := ((inRange_eq_true ..).1 (List.mem_filter.1 hb).2).1
    omega
  · simp only [List.nodup_cons, List.mem_cons, List.not_mem_nil, or_false, not_or, not_false_eq_true, List.nodup_nil]
    exact ⟨⟨by omega, by omega⟩, by omega, trivial, trivial⟩

theorem logRound_eq (hstep : 0 < step) (ev : List Nat) :
    logRound lo hi step last ev = addOrders ev (logAround lo hi step last) := by
  rw [addOrders_of_nodup (logAround_nodup hstep)]
  rfl

theorem mem_logRound_last (hlo : lo ≤ last) (hhi : last ≤ hi) (hstep : 0 < step) (ev : List Nat) :
    last ∈ logRound lo hi step last ev := by
  rw [logRound_eq hstep, mem_addOrders, mem_logAround]
  exact .inr ⟨.inr (.inl rfl), hlo, hhi⟩

theorem mem_logRound_bounds (hstep : 0 < step) {ev : List Nat} (hev : ∀ o ∈ ev, lo ≤ o ∧ o ≤ hi) :
    ∀ o ∈ logRound lo hi step last ev, lo ≤ o ∧ o ≤ hi := by
  intro o ho
  rw [logRound_eq hstep, mem_addOrders, mem_logAround] at ho
  exact ho.elim (hev o) And.right

theorem logRound_length_le (ev : List Nat) : (logRound lo hi step last ev).length ≤ ev.length + 3 := by
  rw [logRound, List.length_append]
  refine Nat.add_le_add_left ((List.length_filter_le ..).trans ?_) _
  rw [List.length_map]
  exact List.length_filter_le ..

/-- The order a step starts from was evaluated before, but for the first step. -/
theorem logRound_length_le_of_mem {ev : List Nat} (hlast : last ∈ ev) :
    (logRound lo hi step last ev).length ≤ ev.length + 2 := by
  rw [logRound, List.length_append]
  refine Nat.add_le_add_left ?_ _
  have hsub : ((([(last : Int) - step, last, last + step].filter fun o => inRange lo o hi).map Int.toNat).filter
      fun o => decide (o ∉ ev)).Sublist ([(last : Int) - step, last, last + step].map Int.toNat |>.filter
        fun o => decide (o ∉ ev)) := (List.filter_sublist.map _).filter _
  refine hsub.length_le.trans ?_
  rw [List.map_cons, List.map_cons, Int.toNat_natCast, List.filter_cons, List.filter_cons]
  simp only [hlast, not_true_eq_false, decide_false, Bool.false_eq_true, if_false]
  split
  · exact Nat.succ_le_succ (List.length_filter_le ..)
  · exact (List.length_filter_le ..).trans (by simp)

end

end Sys2Proof.Proofs
end


section
/-!
The search methods (`42_linear_predictor.md` R199 to R203, `43_subframe_encoder.md` R235): each answers the candidates of the orders
that its rule names, or the error of one that does not fit.
-/
namespace Sys2Proof.Proofs
open Sys2Proof.Machine

/-! ## The log search of R203 -/

section
variable {cost : Nat → Int} {lo hi : Nat} {steps : List Nat} {last opt : Nat} {ev all : List Nat}

theorem logSearch_prefix (h : LogSearch cost lo hi steps last ev all opt) : ∃ new, all = ev ++ new := by
  induction steps generalizing last ev with
  | nil => exact ⟨[], by rw [h.1, List.append_nil]⟩
  | cons step steps ih =>
    obtain ⟨next, -, hrest⟩ := h
    obtain ⟨new, rfl⟩ := ih hrest
    exact ⟨_, List.append_assoc ..⟩

theorem logSearch_nodup (hsteps : ∀ step ∈ steps, 0 < step) (h : LogSearch cost lo hi steps last ev all opt)
    (hev : ev.Nodup) : all.Nodup := by
  induction steps generalizing last ev with
  | nil => rwa [h.1]
  | cons step steps ih =>
    obtain ⟨hstep, hsteps⟩ := List.forall_mem_cons.1 hsteps
    obtain ⟨next, -, hrest⟩ := h
    rw [logRound_eq hstep] at hrest
    exact ih hsteps hrest (addOrders_nodup hev)

theorem logSearch_bounds (hsteps : ∀ step ∈ steps, 0 < step) (h : LogSearch cost lo hi steps last ev all opt)
    (hev : ∀ o ∈ ev, lo ≤ o ∧ o ≤ hi) : ∀ o ∈ all, lo ≤ o ∧ o ≤ hi := by
  induction steps generalizing last ev with
  | nil => rwa [h.1]
  | cons step steps ih =>
    obtain ⟨hstep, hsteps⟩ := List.forall_mem_cons.1 hsteps
    obtain ⟨next, -, hrest⟩ := h
    exact ih hsteps hrest (mem_logRound_bounds hstep hev)

/-- Each step ends at the first of the least orders evaluated, and so does the search. -/
theorem logSearch_firstLeast (h : LogSearch cost lo hi steps last ev all opt) (hlast : FirstLeast cost ev last) :
    FirstLeast cost all opt := by
  induction steps generalizing last ev with
  | nil => obtain ⟨rfl, rfl⟩ := h; exact hlast
  | cons step steps ih =>
    obtain ⟨next, hnext, hrest⟩ := h
    exact ih hrest hnext

theorem logSearch_length_le (h : LogSearch cost lo hi steps last ev all opt) (hlast : last ∈ ev) :
    all.length ≤ ev.length + 2 * steps.length := by
  induction steps generalizing last ev with
  | nil => rw [h.1]; exact Nat.le_add_right ..
  | cons step steps ih =>
    obtain ⟨next, hnext, hrest⟩ := h
    have hround := logRound_length_le_of_mem (lo := lo) (hi := hi) (step := step) hlast
    have hlen := ih hrest (mem_of_firstLeast hnext)
    rw [List.length_cons]
    omega

end

/-! ## The model's searches -/

section
variable {eval : Nat → Except ErrCode Candidate} {cand : Nat → Candidate} {fits : Nat → Bool} {err : ErrCode} {lo hi : Nat}
  (heval : ∀ o, lo ≤ o → o ≤ hi → eval o = if fits o then .ok (cand o) else .error err)
  (horder : ∀ o, (cand o).order = o)

theorem done_any_order (horder : ∀ o, (cand o).order = o) (ev : List Nat) (o : Nat) :
    (searchOf cand ev).done.any (fun c => c.order == o) = decide (o ∈ ev) := by
  rw [Bool.eq_iff_iff]
  simp [searchOf, horder]

theorem answerOf_of_fits {ev : List Nat} (h : ev.all fits = true) : answerOf cand fits err ev = .ok (searchOf cand ev) :=
  if_pos h

theorem answerOf_of_not_fits {ev : List Nat} (h : ev.all fits = false) : answerOf cand fits err ev = .error err :=
  if_neg (Bool.eq_false_iff.1 h)

/-- Once an order does not fit, the answer stays the error, whatever would be evaluated after it. -/
theorem answerOf_append_error {ev new : List Nat} (h : ev.all fits = false) :
    answerOf cand fits err (ev ++ new) = .error err :=
  answerOf_of_not_fits (by rw [List.all_append, h, Bool.false_and])

include heval horder

theorem bind_visit {ev : List Nat} {o : Nat} (hlo : lo ≤ o) (hhi : o ≤ hi) :
    (answerOf cand fits err ev).bind (visit eval · o) = answerOf cand fits err (addOrders ev [o]) := by
  cases hev : ev.all fits with
  | false =>
    obtain ⟨new, -, hnew⟩ := addOrders_eq_append ev [o]
    rw [answerOf_of_not_fits hev, hnew, answerOf_append_error hev]
    rfl
  | true =>
    have hvisit : (answerOf cand fits err ev).bind (visit eval · o) = visit eval (searchOf cand ev) o := by
      rw [answerOf_of_fits hev]
      rfl
    rw [hvisit, visit, done_any_order horder, addOrders_singleton, heval o hlo hhi]
    by_cases hmem : o ∈ ev
    · rw [if_pos (decide_eq_true hmem), if_pos hmem, answerOf_of_fits hev]
    · rw [if_neg (by simpa using hmem), if_neg hmem, answerOf, List.all_append, hev, searchOf_concat]
      cases hfit : fits o <;> simp [hfit]

theorem bind_visitAll {ev orders : List Nat} (horders : ∀ o ∈ orders, lo ≤ o ∧ o ≤ hi) :
    (answerOf cand fits err ev).bind (visitAll eval · orders) = answerOf cand fits err (addOrders ev orders) := by
  induction orders generalizing ev with
  | nil => cases h : answerOf cand fits err ev <;> simp [Except.bind, visitAll, addOrders, h, pure, Except.pure]
  | cons o orders ih =>
    obtain ⟨⟨hlo, hhi⟩, hrest⟩ := List.forall_mem_cons.1 horders
    rw [addOrders_cons, ← ih hrest, ← bind_visit heval horder hlo hhi]
    cases answerOf cand fits err ev <;> rfl

theorem visitAll_start {orders : List Nat} (horders : ∀ o ∈ orders, lo ≤ o ∧ o ≤ hi) :
    visitAll eval { done := [], best := none } orders = answerOf cand fits err (addOrders [] orders) :=
  bind_visitAll heval horder (ev := []) horders

/-- One step of the log search: the round's orders are evaluated, and the next step starts from the first of the least. -/
theorem logVisit_eq {ev : List Nat} {last step next : Nat} (hev : ev.all fits = true) (hstep : 0 < step)
    (hnext : FirstLeast (fun o => (cand o).cost) (logRound lo hi step last ev) next) :
    logVisit eval lo hi (searchOf cand ev, last) step
      = if (logRound lo hi step last ev).all fits then .ok (searchOf cand (logRound lo hi step last ev), next)
        else .error err := by
  have hvisit := bind_visitAll heval horder (ev := ev) (orders := logAround lo hi step last)
    fun o ho => (mem_logAround.1 ho).2
  rw [answerOf_of_fits hev, ← logRound_eq hstep, answerOf] at hvisit
  have hvisit : visitAll eval (searchOf cand ev) (logAround lo hi step last)
      = if (logRound lo hi step last ev).all fits then .ok (searchOf cand (logRound lo hi step last ev)) else .error err :=
    hvisit
  have hbest := best_searchOf hnext
  have haround : (([(last : Int) - step, last, last + step].filter fun o => withinInt lo o hi).map Int.toNat)
      = logAround lo hi step last := rfl
  simp only [logVisit, haround, hvisit]
  cases (logRound lo hi step last ev).all fits with
  | true => simp [hbest, horder]
  | false => simp

theorem foldlM_logVisit {steps : List Nat} (hsteps : ∀ step ∈ steps, 0 < step) {last : Nat} (hlo : lo ≤ last)
    (hhi : last ≤ hi) {ev : List Nat} (hev : ∀ o ∈ ev, lo ≤ o ∧ o ≤ hi) :
    ∃ all opt, LogSearch (fun o => (cand o).cost) lo hi steps last ev all opt
      ∧ (ev.all fits = true → steps.foldlM (logVisit eval lo hi) (searchOf cand ev, last)
        = if all.all fits then .ok (searchOf cand all, opt) else .error err) := by
  induction steps generalizing last ev with
  | nil =>
    refine ⟨ev, last, ⟨rfl, rfl⟩, fun hfit => ?_⟩
    rw [if_pos hfit]
    rfl
  | cons step steps ih =>
    obtain ⟨hstep, hsteps⟩ := List.forall_mem_cons.1 hsteps
    have hmem := mem_logRound_last hlo hhi hstep ev
    obtain ⟨next, hnext, -⟩ := firstLeast_searchOf cand (List.ne_nil_of_mem hmem)
    have hround := mem_logRound_bounds (last := last) hstep hev
    obtain ⟨hlo', hhi'⟩ := hround next (mem_of_firstLeast hnext)
    obtain ⟨all, opt, hsearch, hfold⟩ := ih hsteps hlo' hhi' hround
    refine ⟨all, opt, ⟨next, hnext, hsearch⟩, fun hfit => ?_⟩
    rw [List.foldlM_cons, logVisit_eq heval horder hfit hstep hnext]
    cases hfits : (logRound lo hi step last ev).all fits with
    | true => exact hfold hfits
    | false =>
      obtain ⟨new, rfl⟩ := logSearch_prefix hsearch
      rw [List.all_append, hfits, Bool.false_and]
      rfl

theorem logSearch_eq (hle : lo ≤ hi) :
    ∃ all opt, LogSearch (fun o => (cand o).cost) lo hi [16, 8, 4, 2, 1] (lo + (hi - lo) / 3) [] all opt
      ∧ logSearch eval lo hi = answerOf cand fits err all := by
  obtain ⟨all, opt, hsearch, hfold⟩ := foldlM_logVisit heval horder (steps := [16, 8, 4, 2, 1]) (by decide)
    (last := lo + (hi - lo) / 3) (by omega) (by omega) (ev := []) (by simp)
  have hfold := hfold rfl
  refine ⟨all, opt, hsearch, ?_⟩
  have hstart : searchOf cand [] = { done := [], best := none } := rfl
  rw [hstart] at hfold
  rw [logSearch, hfold, answerOf]
  cases all.all fits <;> rfl

end

/-! ## The methods -/

/-- What every method gives: the orders of its rule, none twice and all in lo .. hi, of which it selects the first of the
least. -/
structure Selected (cost : Nat → Int) (method est lo hi : Nat) (all : List Nat) (opt : Nat) : Prop where
  selects : Selects method est cost lo hi all opt
  least : FirstLeast cost all opt
  nodup : all.Nodup
  bounds : ∀ o ∈ all, lo ≤ o ∧ o ≤ hi

section
variable {lo hi : Nat}

theorem gridOrders_pairwise (lo hi levels : Nat) : (gridOrders lo hi levels).Pairwise (· ≤ ·) := by
  rw [gridOrders, List.pairwise_map]
  refine List.pairwise_lt_range.imp fun {i j} hij => ?_
  have hmul : (hi - lo + 1) * (i + 1) / levels ≤ (hi - lo + 1) * (j + 1) / levels :=
    Nat.div_le_div_right (Nat.mul_le_mul_left _ (by omega))
  omega

theorem mem_gridOrders {levels o : Nat} :
    o ∈ gridOrders lo hi levels ↔ ∃ i, i < levels ∧ o = max (lo + (hi - lo + 1) * (i + 1) / levels - 1) lo := by
  simp only [gridOrders, List.mem_map, List.mem_range, eq_comm]

theorem firstLeast_singleton (cost : Nat → Int) (o : Nat) : FirstLeast cost [o] o :=
  ⟨[], [], rfl, List.forall_mem_nil _, List.forall_mem_nil _⟩

theorem selected_estimate (cost : Nat → Int) {est : Nat} (hlo : lo ≤ est) (hhi : est ≤ hi) :
    Selected cost 0 est lo hi [est] est where
  selects := ⟨rfl, rfl⟩
  least := firstLeast_singleton cost est
  nodup := List.nodup_singleton est
  bounds := List.forall_mem_singleton.2 ⟨hlo, hhi⟩

/-- The grid of R201, evaluated in ascending sequence. -/
theorem selected_grid (cost : Nat → Int) {method : Nat} (hmethod : method = 1 ∨ method = 2 ∨ method = 3) (est : Nat)
    (hle : lo ≤ hi) {opt : Nat} (hopt : FirstLeast cost (addOrders [] (gridOrders lo hi (2 ^ method))) opt) :
    Selected cost method est lo hi (addOrders [] (gridOrders lo hi (2 ^ method))) opt := by
  have hmem : ∀ o, o ∈ addOrders [] (gridOrders lo hi (2 ^ method))
      ↔ ∃ i, i < 2 ^ method ∧ o = max (lo + (hi - lo + 1) * (i + 1) / 2 ^ method - 1) lo := fun o => by
    rw [mem_addOrders, ← mem_gridOrders]
    simp
  have hall := addOrders_pairwise (gridOrders_pairwise lo hi (2 ^ method))
  refine ⟨?_, hopt, addOrders_nodup List.nodup_nil, fun o ho => gridOrders_mem hle (mem_gridOrders.2 ((hmem o).1 ho))⟩
  obtain rfl | rfl | rfl := hmethod
  all_goals exact ⟨hall, hopt, hmem⟩

theorem addOrders_upto (lo hi : Nat) : addOrders [] (upto lo hi) = upto lo hi := by
  rw [addOrders_of_nodup ((pairwise_upto lo hi).imp ne_of_lt)]
  simp

theorem selected_all {cost : Nat → Int} (est : Nat) {opt : Nat} (hopt : FirstLeast cost (upto lo hi) opt) :
    Selected cost 4 est lo hi (upto lo hi) opt where
  selects := ⟨rfl, hopt⟩
  least := hopt
  nodup := (pairwise_upto lo hi).imp ne_of_lt
  bounds _ := mem_upto.1

theorem selected_log {cost : Nat → Int} (est : Nat) {all : List Nat} {opt : Nat}
    (h : LogSearch cost lo hi [16, 8, 4, 2, 1] (lo + (hi - lo) / 3) [] all opt) : Selected cost 5 est lo hi all opt where
  selects := h
  least := by
    obtain ⟨next, hnext, hrest⟩ := h
    exact logSearch_firstLeast hrest hnext
  nodup := logSearch_nodup (by decide) h List.nodup_nil
  bounds := logSearch_bounds (by decide) h (List.forall_mem_nil _)

end

section
variable {eval : Nat → Except ErrCode Candidate} {cand : Nat → Candidate} {fits : Nat → Bool} {err : ErrCode} {lo hi : Nat}
  (heval : ∀ o, lo ≤ o → o ≤ hi → eval o = if fits o then .ok (cand o) else .error err)
  (horder : ∀ o, (cand o).order = o)
include heval horder

/-- Every method answers for the orders of its rule: their candidates with the one selected, or the error of one that does
not fit. -/
theorem searchOrders_eq {method est : Nat} (hmethod : method ≤ 5) (hle : lo ≤ hi) (hlo : lo ≤ est) (hhi : est ≤ hi) :
    ∃ all opt, Selected (fun o => (cand o).cost) method est lo hi all opt
      ∧ searchOrders method est eval lo hi = answerOf cand fits err all := by
  have hgrid : ∀ m, m = 1 ∨ m = 2 ∨ m = 3 → ∃ all opt, Selected (fun o => (cand o).cost) m est lo hi all opt
      ∧ visitAll eval { done := [], best := none } (gridOrders lo hi (2 ^ m)) = answerOf cand fits err all := fun m hm => by
    have hlast : hi ∈ addOrders [] (gridOrders lo hi (2 ^ m)) := by
      refine mem_addOrders.2 (.inr (mem_gridOrders.2 ⟨2 ^ m - 1, Nat.sub_lt (Nat.two_pow_pos m) Nat.one_pos, ?_⟩))
      rw [Nat.sub_add_cancel (Nat.two_pow_pos m), Nat.mul_div_cancel _ (Nat.two_pow_pos m)]
      omega
    obtain ⟨opt, hopt, -⟩ := firstLeast_searchOf cand (List.ne_nil_of_mem hlast)
    exact ⟨_, opt, selected_grid _ hm est hle hopt, visitAll_start heval horder fun o => gridOrders_mem hle⟩
  match method, hmethod with
  | 0, _ =>
    exact ⟨_, _, selected_estimate _ hlo hhi, visitAll_start heval horder (List.forall_mem_singleton.2 ⟨hlo, hhi⟩)⟩
  | 1, _ => exact hgrid 1 (.inl rfl)
  | 2, _ => exact hgrid 2 (.inr (.inl rfl))
  | 3, _ => exact hgrid 3 (.inr (.inr rfl))
  | 4, _ =>
    obtain ⟨opt, hopt, -⟩ := firstLeast_searchOf cand (List.ne_nil_of_mem (mem_upto.2 ⟨hlo, hhi⟩))
    refine ⟨_, opt, selected_all est hopt, ?_⟩
    rw [← addOrders_upto lo hi]
    exact visitAll_start heval horder fun o => mem_upto.1
  | 5, _ =>
    obtain ⟨all, opt, hsearch, hanswer⟩ := logSearch_eq heval horder hle
    exact ⟨all, opt, selected_log est hsearch, hanswer⟩

end

/-! ## What the rules give besides -/

section
variable {cost : Nat → Int} {method est lo hi : Nat} {all : List Nat} {opt : Nat}

/-- The grid and the exhaustive search go up, and end at `hi`. -/
theorem Selected.ascending (h : Selected cost method est lo hi all opt) (hle : lo ≤ hi) (h1 : 1 ≤ method) (h4 : method ≤ 4) :
    all.Pairwise (· < ·) ∧ hi ∈ all := by
  have hselects := h.selects
  have hgrid : all.Pairwise (· < ·) ∧ FirstLeast cost all opt ∧ (∀ o, o ∈ all ↔ ∃ i, i < 2 ^ method
      ∧ o = max (lo + (hi - lo + 1) * (i + 1) / 2 ^ method - 1) lo) → all.Pairwise (· < ·) ∧ hi ∈ all := by
    rintro ⟨hup, -, hmem⟩
    refine ⟨hup, (hmem hi).2 ⟨2 ^ method - 1, Nat.sub_lt (Nat.two_pow_pos _) Nat.one_pos, ?_⟩⟩
    rw [Nat.sub_add_cancel (Nat.two_pow_pos _), Nat.mul_div_cancel _ (Nat.two_pow_pos _)]
    omega
  obtain rfl | rfl | rfl | rfl : method = 1 ∨ method = 2 ∨ method = 3 ∨ method = 4 := by omega
  case inr.inr.inr =>
    obtain ⟨rfl, -⟩ := hselects
    exact ⟨pairwise_upto lo hi, mem_upto.2 ⟨hle, le_rfl⟩⟩
  all_goals exact hgrid hselects

theorem Selected.exhaustive (h : Selected cost 4 est lo hi all opt) {o : Nat} (hlo : lo ≤ o) (hhi : o ≤ hi) : o ∈ all := by
  obtain ⟨rfl, -⟩ := h.selects
  exact mem_upto.2 ⟨hlo, hhi⟩

/-- The log search evaluates its seed in its first step, and in each later step at most two more orders. -/
theorem Selected.log_orders (h : Selected cost 5 est lo hi all opt) (hle : lo ≤ hi) :
    all.length ≤ 11 ∧ lo + (hi - lo) / 3 ∈ all := by
  obtain ⟨next, hnext, hrest⟩ := h.selects
  have hfirst : (logRound lo hi 16 (lo + (hi - lo) / 3) []).length ≤ 3 := logRound_length_le []
  have hlen := logSearch_length_le hrest (mem_of_firstLeast hnext)
  simp only [List.length_cons, List.length_nil] at hlen
  obtain ⟨new, rfl⟩ := logSearch_prefix hrest
  refine ⟨by omega, List.mem_append_left _ (mem_logRound_last (by omega) (by omega) (by decide) [])⟩

end

/-- Settles O37: the searches, on candidates that always fit, are the orders of the rules. -/
theorem order_searches_find_least : Obligations.order_searches_find_least := by
  intro cost method est lo hi hmethod _ hle _ hlo hhi eval
  obtain ⟨cand, hcand⟩ : ∃ cand : Nat → Candidate, (fun o => ⟨cost o, o, [], 0, [], ⟨0, 0, []⟩⟩) = cand := ⟨_, rfl⟩
  have hcost : (fun o => (cand o).cost) = cost := by rw [← hcand]
  have horder : ∀ o, (cand o).order = o := fun o => by rw [← hcand]
  have heval : ∀ o, lo ≤ o → o ≤ hi → eval o = if (fun _ => true) o then .ok (cand o) else .error ErrCode.noError :=
    fun o _ _ => by rw [← hcand]; rfl
  obtain ⟨all, opt, hselected, hanswer⟩ := searchOrders_eq heval horder hmethod hle hlo hhi
  have hbest := best_searchOf hselected.least
  rw [answerOf_of_fits (List.all_eq_true.2 fun _ _ => rfl)] at hanswer
  rw [hcost] at hselected
  have hall : ((searchOf cand all).done.map fun d => d.order).reverse = all := by
    simp [searchOf, Function.comp_def, horder]
  refine ⟨_, _, hanswer, hbest, by rw [horder]; exact congrFun hcost opt, ?_⟩
  simp only [hall, horder]
  refine ⟨hselected.selects, hselected.nodup, mem_of_firstLeast hselected.least, fun o ho => ?_, fun h1 h4 => ?_,
    fun h4 o hlo hhi => ?_, fun h5 => ?_⟩
  · obtain ⟨hlo, hhi⟩ := hselected.bounds o ho
    exact ⟨hlo, hhi, cost_le_of_firstLeast hselected.least ho⟩
  · obtain ⟨hup, hmem⟩ := hselected.ascending hle h1 h4
    exact ⟨hmem, fun o ho => cost_lt_of_firstLeast hselected.least hup ho⟩
  · subst h4
    obtain ⟨hup, -⟩ := hselected.ascending hle (by decide) (by decide)
    have ho := hselected.exhaustive hlo hhi
    exact ⟨cost_le_of_firstLeast hselected.least ho, cost_lt_of_firstLeast hselected.least hup ho⟩
  · subst h5
    exact hselected.log_orders hle

end Sys2Proof.Proofs
end


section
/-!
Rice plans of residual sequences that fit 32 bits, and what a valid configuration gives the LPC path: the bounds under which
everything `SUB_ENCODE` stores there fits its element (`41_rice_coder.md` R176, `46_context_commands.md` R304).
-/
namespace Sys2Proof.Proofs
open Sys2Proof.Machine

/-! ## The least plan -/

section
variable {f : Nat → Int} {n order : Nat}

/-- The plan of `CalcRice` is the best one, and its parameters are those of its partitions (`41_rice_coder.md` R176). -/
theorem calcRiceOf_best {pmin pmax : Nat} (hn : 1 ≤ n) (hle : order ≤ n) (hbounds : pmin ≤ pmax) {plan : Plan}
    (hplan : calcRiceOf ((List.range n).map f) n order pmin pmax = plan) :
    IsBestPlan f n order pmin pmax plan.porder (partParam f n order plan.porder) plan.bits
      ∧ plan.params = (List.range (2 ^ plan.porder)).map (partParam f n order plan.porder) ∧ plan.porder ≤ pmax
      ∧ plan.bits = planCost f n order plan.porder := by
  obtain ⟨p, hleast, hcalc⟩ := calcRiceOf_map_range (f := f) hn hle hbounds
  rw [hcalc] at hplan
  subst hplan
  exact ⟨isBestPlan_of_leastOf hn hle hleast, rfl, hleast.le_hi.trans (maxPorderOf_le ..), rfl⟩

theorem partParam_le (p j : Nat) : partParam f n order p j ≤ 14 := (findParamOf_partSum ..).1.1

/-- An estimate is not negative: the bits of the quotients outweigh the rounding term (`41_rice_coder.md` R172). -/
theorem riceCost_nonneg (sum count k : Nat) : 0 ≤ riceCost sum count k := by
  have hpow : (0 : Int) < ((2 ^ k : Nat) : Int) := by exact_mod_cast Nat.two_pow_pos k
  have hmul : (count : Int) ≤ count * (k + 1) := by nlinarith
  have hdiv : -((count / 2 : Nat) : Int) ≤ ((sum : Int) - (count / 2 : Nat)) / ((2 ^ k : Nat) : Int) := by
    rw [Int.le_ediv_iff_mul_le hpow]
    nlinarith
  rw [riceCost]
  omega

theorem riceCost_zero_le (sum count : Nat) : riceCost sum count 0 ≤ count + sum := by
  rw [riceCost, pow_zero, Nat.cast_one, Int.ediv_one]
  omega

/-- The cost of a plan for 32-bit residuals (`41_rice_coder.md` R176). -/
theorem planCost_bounds {p : Nat} (hf : ∀ i, -2 ^ 31 ≤ f i ∧ f i < 2 ^ 31) (hn : n ≤ 65535) (hp : p ≤ 8) :
    0 ≤ planCost f n order p ∧ planCost f n order p < 2 ^ 60 := by
  have hparts : 2 ^ p ≤ 2 ^ 8 := Nat.pow_le_pow_right (by decide) hp
  have hterm : ∀ j ∈ List.range (2 ^ p),
      0 ≤ riceCost (partTotal f n order p j) (partCount n order p j) (partParam f n order p j)
        ∧ riceCost (partTotal f n order p j) (partCount n order p j) (partParam f n order p j) ≤ 2 ^ 49 := fun j hj => by
    have hsum := partSum_lt order hf hn (List.mem_range.1 hj)
    have hcount : partCount n order p j ≤ n := (Nat.sub_le ..).trans (Nat.div_le_self ..)
    have hbest := ((findParamOf_partSum f n order p j).1.2 0 (Nat.zero_le _)).1
    rw [← partSum_cast] at hbest ⊢
    have hzero := riceCost_zero_le (partSum f n order p j) (partCount n order p j)
    exact ⟨riceCost_nonneg .., by omega⟩
  have hnonneg := List.sum_nonneg (List.forall_mem_map.2 fun j hj => (hterm j hj).1)
  have hle := List.sum_le_card_nsmul _ _ (List.forall_mem_map.2 fun j hj => (hterm j hj).2)
  rw [List.length_map, List.length_range, nsmul_eq_mul] at hle
  rw [planCost]
  push_cast at hle ⊢
  have hparts' : (2 : Int) ^ p ≤ 2 ^ 8 := by exact_mod_cast hparts
  have hpos : (0 : Int) < 2 ^ p := by positivity
  exact ⟨by omega, by omega⟩

end

/-- The cost of the plan for a residual sequence that fits 32 bits. -/
theorem calcRiceOf_bits_bounds {r : List Int} {n order pmin pmax : Nat} (hlen : r.length = n) (hr : ∀ v ∈ r, fits32 v)
    (hn : 1 ≤ n) (hn' : n ≤ 65535) (hle : order ≤ n) (hbounds : pmin ≤ pmax) (hpmax : pmax ≤ 8) :
    0 ≤ (calcRiceOf r n order pmin pmax).bits ∧ (calcRiceOf r n order pmin pmax).bits < 2 ^ 60 := by
  have hlist : (List.range n).map (fun i => r.getD i 0) = r := by
    refine List.ext_getElem (by simp [hlen]) fun i _ hi => ?_
    simp [hi]
  have hrange : ∀ i, -2 ^ 31 ≤ r.getD i 0 ∧ r.getD i 0 < 2 ^ 31 := fun i => by
    rcases Nat.lt_or_ge i r.length with hi | hi
    · rw [List.getD_eq_getElem _ _ hi]
      obtain ⟨hlo, hhi⟩ := hr _ (List.getElem_mem hi)
      exact ⟨hlo, by omega⟩
    · rw [List.getD_eq_default _ _ hi]
      decide
  obtain ⟨-, -, hporder, hbits⟩ := calcRiceOf_best (f := fun i => r.getD i 0) hn hle hbounds rfl
  rw [hlist] at hporder hbits
  rw [hbits]
  exact planCost_bounds hrange hn' (hporder.trans hpmax)

/-! ## The premises of the LPC path -/

theorem ite_some_eq_none {p : Prop} [Decidable p] {e : ErrCode} {rest : Option ErrCode} :
    (if p then some e else rest) = none ↔ ¬p ∧ rest = none := by
  split <;> simp [*]

/-- What the LPC path of `SUB_ENCODE` runs under (`43_subframe_encoder.md` R231, R235). -/
structure LpcReady (s : State) (ch : Nat) : Prop where
  configured : s.regs.cfgOk = true
  channel : ch < s.channels
  block : 5 ≤ s.blockLen ∧ s.blockLen ≤ s.regs.cfg.blocksize.toNat ∧ s.blockLen ≤ 65535
  obits : recordAt s ch 2 = 16 ∨ recordAt s ch 2 = 17
  orders : s.regs.cfg.minOrder.toNat ≤ s.regs.cfg.maxOrder.toNat ∧ 1 ≤ s.regs.cfg.maxOrder.toNat
    ∧ s.regs.cfg.maxOrder.toNat ≤ 32 ∧ s.regs.cfg.maxOrder.toNat < s.blockLen
  porders : s.regs.cfg.minPorder.toNat ≤ s.regs.cfg.maxPorder.toNat ∧ s.regs.cfg.maxPorder.toNat ≤ 8
  precision : 1 ≤ s.regs.cfg.precision.toNat ∧ s.regs.cfg.precision.toNat ≤ 15
  method : s.regs.cfg.orderMethod.toNat ≤ 5
  fit : s.regs.cfg.lpcType.toNat = 1 ∨ s.regs.cfg.lpcType.toNat = 2 ∧ ∃ f, Config.lsqFit = some f

theorem lpcReady_of_checks {s : State} {ch : Nat} (hcfg : configError s.regs.cfg = none)
    (hs : earlyError (.subEncode ch) s = none) (hlen : 5 ≤ s.regs.n.toNat) (htype : s.regs.cfg.lpcType.toNat ≠ 0)
    (hmax : s.regs.cfg.maxOrder.toNat < s.regs.n.toNat) : LpcReady s ch := by
  obtain ⟨hok, -, hch, hblock, -, hobits⟩ := ready_of_earlyError_eq_none hs
  obtain ⟨-, hblock⟩ := (within_eq_true ..).1 hblock
  have hobits : (decide (recordAt s ch 2 = 16) || decide (recordAt s ch 2 = 17)) = true := hobits
  rw [Bool.or_eq_true, decide_eq_true_eq, decide_eq_true_eq] at hobits
  simp only [configError, ite_some_eq_none] at hcfg
  obtain ⟨-, -, hsize, -, henum, hlsq, horders, hporders, hprec, -⟩ := hcfg
  refine ⟨hok, of_decide_eq_true hch, ⟨hlen, hblock, by rw [State.blockLen]; omega⟩, hobits, ?_, by omega, by omega, by omega, ?_⟩
  · rw [State.blockLen]
    omega
  · rcases eq_or_ne s.regs.cfg.lpcType.toNat 1 with h1 | h1
    · exact .inl h1
    · have htwo : s.regs.cfg.lpcType.toNat = 2 := by omega
      refine .inr ⟨htwo, ?_⟩
      have hsome := not_not.1 fun hne => hlsq ⟨htwo, hne⟩
      obtain ⟨f, hf, -⟩ := Option.map_eq_some_iff.1 hsome
      exact ⟨f, hf⟩

/-! ## The fit -/

/-- What `WELCH`, `AUTOCORR` and the fit of the orders 1 .. hi store. -/
def fitRanges (n hi : Nat) : List Range :=
  [(.win, 0, n)] ++ [(.autoc, 0, hi + 1)] ++ (Space.refl, 0, hi) :: (List.range hi).map fun i => (Space.lpcf, i * 32, i + 1)

/-- STATUS.ERR is read by no effect of the fit. -/
theorem levinsonEffect_cleared (s : State) (m : Nat) : levinsonEffect (cleared s) m = cleared (levinsonEffect s m) :=
  List.foldl_hom cleared fun _ _ => rfl

theorem lsqEffect_cleared (f : Config.LsqFit) (s : State) (ch m : Nat) :
    lsqEffect f (cleared s) ch m = cleared (lsqEffect f s ch m) := by
  rw [lsqEffect_eq, lsqEffect_eq]
  exact List.foldl_hom cleared fun _ _ => rfl

/-- A command that only stores leaves the setup of the block alone. -/
theorem StoresIn.cleared_setup {rs : List Range} {s t : State} (h : StoresIn rs s t) :
    (cleared t).regs.cfgOk = s.regs.cfgOk ∧ (cleared t).regs.n = s.regs.n ∧ (cleared t).regs.cfg = s.regs.cfg := by
  rw [h.cleared_regs]
  exact ⟨rfl, rfl, rfl⟩

section
variable {s t : State} {ch : Nat}

/-- The state after the step commands of the fit, without their STATUS.ERR. -/
theorem LpcReady.exec_fit (h : LpcReady s ch) {hi : Nat} (hhi : s.regs.cfg.maxOrder.toNat = hi) :
    ∃ windowed correlated fit, StoresIn (fitRanges s.blockLen hi) s fit
      ∧ exec (.welch ch) s = .next windowed ∧ exec (.autocorr hi) windowed = .next correlated
      ∧ exec (if s.regs.cfg.lpcType.toNat = 1 then .levinson hi else .lsqFit ch hi) correlated = .next (cleared fit)
      ∧ lpcPath ch s = lpcSelect ch (max s.regs.cfg.minOrder.toNat 1) hi fit := by
  obtain ⟨hlen, hblock, -⟩ := h.block
  obtain ⟨-, horder, h32, -⟩ := h.orders
  rw [hhi] at horder h32
  have hfield : (decide (1 ≤ hi) && decide (hi ≤ 32)) = true := by simp [horder, h32]
  have hin {lo : Nat} (hlo : lo ≤ 5) {r : Regs} (hn : r.n = s.regs.n) (hc : r.cfg = s.regs.cfg) :
      (decide (lo ≤ r.n.toNat) && decide (r.n.toNat ≤ r.cfg.blocksize.toNat)) = true := by
    rw [hn, hc, Bool.and_eq_true, decide_eq_true_eq, decide_eq_true_eq]
    exact ⟨hlo.trans hlen, hblock⟩
  have hwin := storesIn_welchEffect s ch
  have hauto := storesIn_autocorrEffect (welchEffect s ch) hi
  obtain ⟨hok, hn, hc⟩ := hwin.cleared_setup
  obtain ⟨hok', hn', hc'⟩ := (hwin.append hauto).cleared_setup
  have hexecWelch := exec_welch (s := s) (ch := ch)
    (earlyError_eq_none h.configured rfl (decide_eq_true h.channel) (hin (by decide) rfl rfl) rfl rfl)
  have hexecAutocorr : exec (.autocorr hi) (cleared (welchEffect s ch))
      = .next (cleared (autocorrEffect (welchEffect s ch) hi)) :=
    exec_autocorr (earlyError_eq_none (hok.trans h.configured) rfl hfield (hin (by decide) hn hc) rfl rfl)
  rcases h.fit with h1 | ⟨h2, f, hf⟩
  · refine ⟨_, _, levinsonEffect (autocorrEffect (welchEffect s ch) hi) hi,
      (hwin.append hauto).append (storesIn_levinsonEffect _ hi), hexecWelch, hexecAutocorr, ?_, ?_⟩
    · rw [if_pos h1, exec_levinson (earlyError_eq_none (hok'.trans h.configured) rfl hfield rfl rfl rfl),
        levinsonEffect_cleared]
      rfl
    · rw [lpcPath, if_pos h1, hhi]
  · have h1 : s.regs.cfg.lpcType.toNat ≠ 1 := by omega
    refine ⟨_, _, lsqEffect f (autocorrEffect (welchEffect s ch) hi) ch hi,
      (hwin.append hauto).append (storesIn_lsqEffect f _ ch hi), hexecWelch, hexecAutocorr, ?_, ?_⟩
    · have hfields : fieldsReady (.lsqFit ch hi) (cleared (autocorrEffect (welchEffect s ch) hi)) = true := by
        have hch : decide (ch < (cleared (autocorrEffect (welchEffect s ch) hi)).regs.cfg.channels.toNat) = true := by
          rw [hc']
          exact decide_eq_true h.channel
        rw [Bool.and_eq_true] at hfield
        exact Bool.and_eq_true_iff.2 ⟨Bool.and_eq_true_iff.2 ⟨hch, hfield.1⟩, hfield.2⟩
      rw [if_neg h1, exec_lsqFit_of_some hf
        (earlyError_eq_none (hok'.trans h.configured) rfl hfields (hin (by decide) hn' hc') rfl rfl), lsqEffect_cleared]
      rfl
    · rw [lpcPath, if_neg h1, hf, hhi]

end

end Sys2Proof.Proofs
end


section
/-!
The LPC path of `SUB_ENCODE` (`43_subframe_encoder.md` R235 to R237): the candidates of the search, the record of the one
selected, and the command.
-/
namespace Sys2Proof.Proofs
open Sys2Proof.Machine

/-! ## Candidates -/

section
variable (s : State) (ch o : Nat)

/-- The residual of order `o` with its quantized set (`42_linear_predictor.md` R198). -/
def lpcResidual : Nat → Int :=
  lpcDiff o (quantAt (coefAt s o) o s.regs.cfg.precision.toNat) (quantShift (coefAt s o) o s.regs.cfg.precision.toNat)
    (sampleAt s ch)

/-- The plan of order `o`. -/
def lpcPlan : Plan :=
  calcRiceOf ((List.range s.blockLen).map (lpcResidual s ch o)) s.blockLen o s.regs.cfg.minPorder.toNat
    s.regs.cfg.maxPorder.toNat

/-- The candidate of order `o`, as long as its residuals fit 32 bits (`43_subframe_encoder.md` R236). -/
def lpcCand : Candidate where
  cost := o * recordAt s ch 2 + 4 + 5 + o * s.regs.cfg.precision.toNat + 6 + (lpcPlan s ch o).bits
  order := o
  q := (quantizeOf (coefList (coefAt s o) o) s.regs.cfg.precision.toNat).1
  shift := quantShift (coefAt s o) o s.regs.cfg.precision.toNat
  res := (List.range s.blockLen).map (lpcResidual s ch o)
  plan := lpcPlan s ch o

/-- The residuals of order `o` fit 32 bits. -/
def lpcFits : Bool := residualsFit o ((List.range s.blockLen).map (lpcResidual s ch o))

theorem quantizeOf_coefList_eq (c : Nat → Flt) (o prec : Nat) :
    (quantizeOf (coefList c o) prec).1 = (List.range o).map fun j => quantAt c o prec (j + 1) := by
  refine List.ext_getElem? fun j => ?_
  rcases Nat.lt_or_ge j o with hj | hj
  · rw [quantizeOf_getElem? hj, List.getElem?_map, List.getElem?_range hj]
    rfl
  · rw [List.getElem?_eq_none (by rwa [quantizeOf_coefList_length]), List.getElem?_eq_none (by simpa using hj)]

variable {s ch o}

theorem lpcFits_iff : lpcFits s ch o = true ↔ ∀ i, o ≤ i → i < s.blockLen → fits32 (lpcResidual s ch o i) :=
  residualsFit_map_range ..

theorem lpcCandidate_eq (hle : o ≤ s.blockLen) : lpcCandidate s ch o
    = if lpcFits s ch o then .ok (lpcCand s ch o) else .error .residualRange := by
  have hres : lpcResOf (s.samples ch s.blockLen) o (quantizeOf (coefRow s o) s.regs.cfg.precision.toNat).1
      (quantizeOf (coefRow s o) s.regs.cfg.precision.toNat).2 = (List.range s.blockLen).map (lpcResidual s ch o) := by
    rw [samples_eq, coefRow_eq, quantizeOf_coefList_eq, lpcResOf_map_range _ _ _ hle]
    rfl
  simp only [lpcCandidate, hres]
  rw [coefRow_eq]
  rfl

end

/-- The search of the LPC path, once the fit stands in LPCF and REFL: the candidates of the orders of the method, or
`E_RESIDUAL_RANGE`. -/
theorem lpcSelect_eq {s : State} {ch lo hi : Nat} (hmethod : s.regs.cfg.orderMethod.toNat ≤ 5) (hle : lo ≤ hi)
    (hhi : hi ≤ s.blockLen) : ∃ all opt,
      Selected (fun o => (lpcCand s ch o).cost) s.regs.cfg.orderMethod.toNat (orderEstOf (reflAt s) lo hi) lo hi all opt
      ∧ lpcSelect ch lo hi s = if all.all (lpcFits s ch) then .ok (storeLpc ch s (searchOf (lpcCand s ch) all) (lpcCand s ch opt))
        else .error (.residualRange, s.forget (rangeErrorScratch ch ++ lpcStores)) := by
  obtain ⟨hlo, hhi'⟩ := orderEstOf_mem (refl := reflAt s) hle
  obtain ⟨all, opt, hselected, hanswer⟩ := searchOrders_eq (eval := lpcCandidate s ch) (cand := lpcCand s ch)
    (fun o _ ho => lpcCandidate_eq (ho.trans hhi)) (fun _ => rfl) hmethod hle hlo hhi'
  refine ⟨all, opt, hselected, ?_⟩
  have hbest := best_searchOf hselected.least
  rw [lpcSelect, selectOrder, hanswer, answerOf]
  cases all.all (lpcFits s ch) with
  | true => simp [hbest, bind, Except.bind, pure, Except.pure]
  | false => rfl

/-! ## What the path stores -/

/-- The quantized sets of the orders evaluated (`43_subframe_encoder.md` R237). -/
def storeQuants (s : State) (all : List Nat) : State :=
  all.foldl (fun t o => storeQuantOf t (coefAt s o) o s.regs.cfg.precision.toNat) s

/-- Where the quantized set of an order stands. -/
def quantRanges (o : Nat) : List Range := [(.qc, (o - 1) * 32, o), (.qsh, o - 1, 1)]

section
variable {s : State} {all : List Nat}

theorem storesIn_quantStep (s t : State) (o : Nat) :
    StoresIn (quantRanges o) t (storeQuantOf t (coefAt s o) o s.regs.cfg.precision.toNat) := storesIn_storeQuantOf ..

theorem storesIn_storeQuants : StoresIn (all.flatMap quantRanges) s (storeQuants s all) :=
  storesIn_foldl (storesIn_quantStep s) all s

theorem covered_quantRanges (o : Nat) (sp : Space) (i : Nat) : covered (quantRanges o) sp i = true
    ↔ (sp = .qc ∧ (o - 1) * 32 ≤ i ∧ i < (o - 1) * 32 + o) ∨ sp = .qsh ∧ o - 1 = i := by
  rw [quantRanges, covered_cons_iff, covered_singleton]
  refine or_congr_right (and_congr_right fun _ => ?_)
  omega

/-- No order's set is overwritten by another's. -/
theorem memGet?_storeQuants_qc {o j : Nat} (hall : ∀ o ∈ all, 1 ≤ o ∧ o ≤ 32) (hprec : s.regs.cfg.precision.toNat ≤ 15)
    (ho : o ∈ all) (hlo : 1 ≤ j) (hj : j ≤ o) : memGet? (storeQuants s all).mem .qc ((o - 1) * 32 + (j - 1))
      = some (quantAt (coefAt s o) o s.regs.cfg.precision.toNat j) := by
  refine element_of_foldl (p := (· = some _)) (storesIn_quantStep s) ho (fun t => memGet?_storeQuantOf_qc hprec hlo hj)
    (fun y hy => ?_) s
  rw [Bool.eq_false_iff, Ne, covered_quantRanges, or_iff_not_imp_right, not_not]
  rintro (⟨-, hge, hlt⟩ | ⟨hsp, -⟩)
  · have := hall y hy
    have := hall o ho
    omega
  · exact nomatch hsp

theorem memGet?_storeQuants_qsh {o : Nat} (hall : ∀ o ∈ all, 1 ≤ o ∧ o ≤ 32) (ho : o ∈ all) :
    memGet? (storeQuants s all).mem .qsh (o - 1)
      = some (quantShift (coefAt s o) o s.regs.cfg.precision.toNat : Int) := by
  refine element_of_foldl (p := (· = some _)) (storesIn_quantStep s) ho (fun t => memGet?_storeQuantOf_qsh) (fun y hy => ?_) s
  rw [Bool.eq_false_iff, Ne, covered_quantRanges, or_iff_not_imp_right, not_not]
  rintro (⟨hsp, -⟩ | ⟨-, heq⟩)
  · exact nomatch hsp
  · have := hall y hy
    have := hall o ho
    omega

end

/-- The fields of the record and what the LPC path writes to them, in its sequence (`43_subframe_encoder.md` R237). -/
def recordWrites (prec : Nat) (c : Candidate) : List (Nat × List Int) :=
  [(0, [typeLpc]), (1, [(c.order : Int)]), (6, [c.cost]), (3, [(prec : Int), (c.shift : Int)]), (32, c.q),
    (5, [(c.plan.porder : Int)]), (256, c.plan.params.map fun k => (k : Int))]

/-- The record of the LPC path. -/
def storeRecord (s : State) (ch prec : Nat) (c : Candidate) : State :=
  (recordWrites prec c).foldl (fun t w => t.setSub ch w.1 w.2) s

theorem storeLpc_eq (ch : Nat) (s : State) (all : List Nat) (c : Candidate) :
    storeLpc ch s (searchOf (lpcCand s ch) all) c
      = forgetSums ((storeRecord (storeQuants s all) ch s.regs.cfg.precision.toNat c).setResiduals ch c.res) := by
  have hquants : (searchOf (lpcCand s ch) all).done.foldr (fun d t => storeQuant t d.order d.q d.shift) s
      = storeQuants s all := by
    rw [searchOf, List.foldr_reverse, List.foldl_map]
    rfl
  rw [storeLpc, hquants]
  rfl

section
variable {s : State} {ch prec : Nat} {c : Candidate}

theorem stored_subrec_of_range {v : Int} (h : -2 ^ 63 ≤ v ∧ v < 2 ^ 63) : Space.subrec.stored v = v := by
  change ((BitVec.ofInt 64 v).setWidth 64).toInt = v
  rw [BitVec.setWidth_eq, BitVec.toInt_ofInt_eq_self (by decide) (by omega) (by omega)]

/-- Two writes do not overlap. -/
def RunsApart (w w' : Nat × List Int) : Prop := w.1 + w.2.length ≤ w'.1 ∨ w'.1 + w'.2.length ≤ w.1

/-- The fields of a record do not overlap (`20_memory.md` R68). -/
theorem recordWrites_apart (hq : c.q.length ≤ 32) : (recordWrites prec c).Pairwise RunsApart := by
  simp [recordWrites, RunsApart]
  omega

theorem memGet?_storeRecord (hq : c.q.length ≤ 32) {f j : Nat} {vals : List Int} {v : Int}
    (hmem : (f, vals) ∈ recordWrites prec c) (hv : vals[j]? = some v) (hrange : -2 ^ 63 ≤ v ∧ v < 2 ^ 63) :
    memGet? (storeRecord s ch prec c).mem .subrec (ch * 512 + f + j) = some v := by
  obtain ⟨hj, -⟩ := List.getElem?_eq_some_iff.1 hv
  refine element_of_foldl (ranges := fun w => [(.subrec, recIndex ch w.1, w.2.length)]) (p := (· = some v))
    (fun t w => storesIn_memWrite t .subrec (recIndex ch w.1) w.2) hmem (fun t => ?_) (fun w hw => ?_) s
  · rw [← stored_subrec_of_range hrange]
    exact memGet?_memWrite_run t .subrec (recIndex ch f) hv
  · refine or_iff_not_imp_left.2 fun hne => ?_
    have hsymm : Std.Symm RunsApart := ⟨fun _ _ => Or.symm⟩
    have hfree : w.1 + w.2.length ≤ f ∨ f + vals.length ≤ w.1 := (recordWrites_apart hq).forall hw hmem hne
    rw [Bool.eq_false_iff, Ne, covered_singleton, recIndex]
    omega

/-- A field of one element. -/
theorem memGet?_storeRecord_field (hq : c.q.length ≤ 32) {f : Nat} {v : Int} (hmem : (f, [v]) ∈ recordWrites prec c)
    (hrange : -2 ^ 63 ≤ v ∧ v < 2 ^ 63) : memGet? (storeRecord s ch prec c).mem .subrec (ch * 512 + f) = some v := by
  have helem := memGet?_storeRecord (s := s) (ch := ch) hq (j := 0) hmem rfl hrange
  rwa [Nat.add_zero] at helem

theorem storesIn_storeRecord {o p : Nat} (hq : c.q.length = o) (hp : c.plan.params.length = 2 ^ p) :
    StoresIn [(.subrec, ch * 512, 2), (.subrec, ch * 512 + 3, 4), (.subrec, ch * 512 + 32, o),
      (.subrec, ch * 512 + 256, 2 ^ p)] s (storeRecord s ch prec c) := by
  refine (storesIn_foldl (ranges := fun w => [(.subrec, recIndex ch w.1, w.2.length)])
    (fun t w => storesIn_memWrite t .subrec (recIndex ch w.1) w.2) (recordWrites prec c) s).mono fun sp i hin => ?_
  obtain ⟨w, hw, hin⟩ := (covered_flatMap ..).1 hin
  obtain ⟨hsp, hlo, hhi⟩ := (covered_singleton ..).1 hin
  simp only [covered_cons_iff, covered_nil, Bool.false_eq_true, or_false, hsp, true_and]
  simp only [recordWrites, List.mem_cons, List.not_mem_nil, or_false] at hw
  obtain rfl | rfl | rfl | rfl | rfl | rfl | rfl := hw
  all_goals simp only [recIndex, castList_length, hq, hp, List.length_cons, List.length_nil] at hlo hhi
  all_goals omega

end

/-! ## The bounds of a candidate -/

section
variable {s : State} {ch o : Nat}

/-- An order of the search. -/
def OrderIn (s : State) (o : Nat) : Prop := 1 ≤ o ∧ o ≤ s.regs.cfg.maxOrder.toNat

theorem LpcReady.order_le (h : LpcReady s ch) (ho : OrderIn s o) : 1 ≤ o ∧ o ≤ 32 ∧ o ≤ s.blockLen := by
  obtain ⟨-, -, h32, hlt⟩ := h.orders
  obtain ⟨hlo, hhi⟩ := ho
  exact ⟨hlo, hhi.trans h32, hhi.trans hlt.le⟩

/-- The plan of an order of the search is the best one, whether or not its residuals fit. -/
theorem LpcReady.plan_best (h : LpcReady s ch) (ho : OrderIn s o) :
    IsBestPlan (lpcResidual s ch o) s.blockLen o s.regs.cfg.minPorder.toNat s.regs.cfg.maxPorder.toNat
        (lpcPlan s ch o).porder (partParam (lpcResidual s ch o) s.blockLen o (lpcPlan s ch o).porder) (lpcPlan s ch o).bits
      ∧ (lpcPlan s ch o).params = (List.range (2 ^ (lpcPlan s ch o).porder)).map
        (partParam (lpcResidual s ch o) s.blockLen o (lpcPlan s ch o).porder)
      ∧ (lpcPlan s ch o).porder ≤ 8 := by
  obtain ⟨-, -, hle⟩ := h.order_le ho
  obtain ⟨hbest, hparams, hporder, -⟩ := calcRiceOf_best (f := lpcResidual s ch o) ((by decide : 1 ≤ 5).trans h.block.1) hle
    h.porders.1 rfl
  exact ⟨hbest, hparams, hporder.trans h.porders.2⟩

theorem lpcCand_q_length (s : State) (ch o : Nat) : (lpcCand s ch o).q.length = o := quantizeOf_coefList_length _

theorem LpcReady.params_length (h : LpcReady s ch) (ho : OrderIn s o) :
    (lpcCand s ch o).plan.params.length = 2 ^ (lpcPlan s ch o).porder := by
  obtain ⟨-, hparams, -⟩ := h.plan_best ho
  exact (congrArg List.length hparams).trans (by rw [List.length_map, List.length_range])

theorem lpcResidual_fits32 (h : lpcFits s ch o = true) : ∀ i, i < s.blockLen → fits32 (lpcResidual s ch o i) :=
  lpcDiff_fits32 _ (sampleAt_fits32 s ch) (lpcFits_iff.1 h)

/-- The cost of an order that fits (`43_subframe_encoder.md` R236). -/
theorem LpcReady.cost_range (h : LpcReady s ch) (ho : OrderIn s o) (hfits : lpcFits s ch o = true) :
    -2 ^ 63 ≤ (lpcCand s ch o).cost ∧ (lpcCand s ch o).cost < 2 ^ 63 := by
  obtain ⟨-, h32, hle⟩ := h.order_le ho
  have hbits := calcRiceOf_bits_bounds (pmin := s.regs.cfg.minPorder.toNat) (r := (List.range s.blockLen).map (lpcResidual s ch o))
    (by simp) (List.forall_mem_map.2 fun i hi => lpcResidual_fits32 hfits i (List.mem_range.1 hi))
    ((by decide : 1 ≤ 5).trans h.block.1) h.block.2.2 hle h.porders.1 h.porders.2
  rw [← lpcPlan] at hbits
  have hprec : o * s.regs.cfg.precision.toNat ≤ 32 * 15 := Nat.mul_le_mul h32 h.precision.2
  have hcost : (lpcCand s ch o).cost
      = o * recordAt s ch 2 + 4 + 5 + ((o * s.regs.cfg.precision.toNat : Nat) : Int) + 6 + (lpcPlan s ch o).bits := by
    push_cast
    rfl
  rw [hcost]
  rcases h.obits with hb | hb <;> rw [hb] <;> omega

end

/-! ## The state that the path leaves -/

section
variable {s : State} {ch : Nat} {all : List Nat} {opt : Nat}

/-- The state the LPC path leaves when the orders `all` were evaluated and `opt` was selected. -/
def lpcDone (s : State) (ch : Nat) (all : List Nat) (opt : Nat) : State :=
  storeLpc ch s (searchOf (lpcCand s ch) all) (lpcCand s ch opt)

/-- The record as it stands before RES is written. -/
def lpcRecorded (s : State) (ch : Nat) (all : List Nat) (opt : Nat) : State :=
  storeRecord (storeQuants s all) ch s.regs.cfg.precision.toNat (lpcCand s ch opt)

theorem lpcDone_eq (s : State) (ch : Nat) (all : List Nat) (opt : Nat) : lpcDone s ch all opt
    = forgetSums ((lpcRecorded s ch all opt).setResiduals ch ((List.range s.blockLen).map (lpcResidual s ch opt))) :=
  storeLpc_eq ch s all (lpcCand s ch opt)

theorem lpcDone_regs (s : State) (ch : Nat) (all : List Nat) (opt : Nat) : (lpcDone s ch all opt).regs = s.regs :=
  (memOnly_storeLpc ch s _ _).regs

theorem keptOutside_lpcDone_tail : keptOutside [(.res, ch * 65536, s.blockLen), (.sums, 0, 2097152)]
    (lpcRecorded s ch all opt) (lpcDone s ch all opt) := by
  rw [lpcDone_eq]
  exact keptOutside_append (storesIn_setResiduals ..).kept (keptOutside_forget [(.sums, 0, spaceLen)] _)

theorem memGet?_lpcDone_res (hfits : lpcFits s ch opt = true) {i : Nat} (hi : i < s.blockLen) :
    memGet? (lpcDone s ch all opt).mem .res (ch * 65536 + i) = some (lpcResidual s ch opt i) := by
  have hsums := (keptOutside_forget [(.sums, 0, spaceLen)]
    ((lpcRecorded s ch all opt).setResiduals ch ((List.range s.blockLen).map (lpcResidual s ch opt)))).1 .res
    (ch * 65536 + i) rfl
  rw [lpcDone_eq]
  exact hsums.trans (memGet?_setResiduals hi (lpcResidual_fits32 hfits i hi))

theorem memGet?_lpcDone_subrec (i : Nat) :
    memGet? (lpcDone s ch all opt).mem .subrec i = memGet? (lpcRecorded s ch all opt).mem .subrec i :=
  keptOutside_lpcDone_tail.1 .subrec i rfl

variable (h : LpcReady s ch) (hopt : OrderIn s opt)
include h hopt

theorem storesIn_lpcRecorded : StoresIn (all.flatMap quantRanges ++ [(.subrec, ch * 512, 2), (.subrec, ch * 512 + 3, 4),
    (.subrec, ch * 512 + 32, opt), (.subrec, ch * 512 + 256, 2 ^ (lpcPlan s ch opt).porder)]) s
    (lpcRecorded s ch all opt) :=
  storesIn_storeQuants.append (storesIn_storeRecord (lpcCand_q_length ..) (h.params_length hopt))

theorem keptOutside_lpcDone : keptOutside ((all.flatMap quantRanges ++ [(.subrec, ch * 512, 2), (.subrec, ch * 512 + 3, 4),
    (.subrec, ch * 512 + 32, opt), (.subrec, ch * 512 + 256, 2 ^ (lpcPlan s ch opt).porder)])
      ++ [(.res, ch * 65536, s.blockLen), (.sums, 0, 2097152)]) s (lpcDone s ch all opt) :=
  keptOutside_append (storesIn_lpcRecorded h hopt).kept keptOutside_lpcDone_tail

/-- The record's fields (`43_subframe_encoder.md` R237). -/
theorem lpcDone_record (hfits : lpcFits s ch opt = true) :
    memGet? (lpcDone s ch all opt).mem .subrec (ch * 512) = some 3
      ∧ memGet? (lpcDone s ch all opt).mem .subrec (ch * 512 + 1) = some (opt : Int)
      ∧ memGet? (lpcDone s ch all opt).mem .subrec (ch * 512 + 3) = some (s.regs.cfg.precision.toNat : Int)
      ∧ memGet? (lpcDone s ch all opt).mem .subrec (ch * 512 + 4)
        = some (quantShift (coefAt s opt) opt s.regs.cfg.precision.toNat : Int)
      ∧ memGet? (lpcDone s ch all opt).mem .subrec (ch * 512 + 5) = some ((lpcPlan s ch opt).porder : Int)
      ∧ memGet? (lpcDone s ch all opt).mem .subrec (ch * 512 + 6) = some (lpcCand s ch opt).cost
      ∧ (∀ j, 1 ≤ j → j ≤ opt → memGet? (lpcDone s ch all opt).mem .subrec (ch * 512 + 32 + (j - 1))
        = some (quantAt (coefAt s opt) opt s.regs.cfg.precision.toNat j))
      ∧ ∀ j, j < 2 ^ (lpcPlan s ch opt).porder → memGet? (lpcDone s ch all opt).mem .subrec (ch * 512 + 256 + j)
        = some (partParam (lpcResidual s ch opt) s.blockLen opt (lpcPlan s ch opt).porder j : Int) := by
  obtain ⟨-, h32, -⟩ := h.order_le hopt
  obtain ⟨-, hparams, hporder⟩ := h.plan_best hopt
  obtain ⟨-, hprec⟩ := h.precision
  have hshift : quantShift (coefAt s opt) opt s.regs.cfg.precision.toNat ≤ 15 := quantShift_le
  have hq : (lpcCand s ch opt).q.length ≤ 32 := (lpcCand_q_length s ch opt).trans_le h32
  have hfield {f : Nat} {v : Int} (hmem : (f, [v]) ∈ recordWrites s.regs.cfg.precision.toNat (lpcCand s ch opt))
      (hrange : -2 ^ 63 ≤ v ∧ v < 2 ^ 63) : memGet? (lpcDone s ch all opt).mem .subrec (ch * 512 + f) = some v :=
    (memGet?_lpcDone_subrec _).trans (memGet?_storeRecord_field hq hmem hrange)
  have helem {f j : Nat} {vals : List Int} {v : Int}
      (hmem : (f, vals) ∈ recordWrites s.regs.cfg.precision.toNat (lpcCand s ch opt)) (hv : vals[j]? = some v)
      (hrange : -2 ^ 63 ≤ v ∧ v < 2 ^ 63) : memGet? (lpcDone s ch all opt).mem .subrec (ch * 512 + f + j) = some v :=
    (memGet?_lpcDone_subrec _).trans (memGet?_storeRecord hq hmem hv hrange)
  have hpair : (3, [(s.regs.cfg.precision.toNat : Int), ((lpcCand s ch opt).shift : Int)])
      ∈ recordWrites s.regs.cfg.precision.toNat (lpcCand s ch opt) := by simp [recordWrites]
  refine ⟨?type, ?order, ?prec, ?shift, ?porder, ?cost, fun j hlo hj => ?coef, fun j hj => ?param⟩
  case type =>
    have htype := hfield (f := 0) (v := 3) (by simp [recordWrites, typeLpc]) (by decide)
    rwa [Nat.add_zero] at htype
  case order => exact hfield (f := 1) (by simp [recordWrites, lpcCand]) (by omega)
  case prec =>
    have hprec := helem (f := 3) (j := 0) hpair rfl (by omega)
    rwa [Nat.add_zero] at hprec
  case shift => exact helem (f := 3) (j := 1) hpair rfl (by omega)
  case porder => exact hfield (f := 5) (by simp [recordWrites, lpcCand]) (by omega)
  case cost => exact hfield (f := 6) (by simp [recordWrites]) (h.cost_range hopt hfits)
  case coef =>
    obtain ⟨i, rfl⟩ := Nat.exists_eq_add_of_le' hlo
    have hpow : (2 : Int) ^ (s.regs.cfg.precision.toNat - 1) ≤ 2 ^ 14 := pow_le_pow_right₀ (by decide) (by omega)
    obtain ⟨hmin, hmax⟩ := quantAt_mem (c := coefAt s opt) (prec := s.regs.cfg.precision.toNat) hlo hj
    simp only [coefBounds] at hmin hmax
    exact helem (f := 32) (vals := (lpcCand s ch opt).q) (by simp [recordWrites]) (quantizeOf_getElem? hj) (by omega)
  case param =>
    have hle : partParam (lpcResidual s ch opt) s.blockLen opt (lpcPlan s ch opt).porder j ≤ 14 := partParam_le ..
    refine helem (f := 256) (vals := (lpcPlan s ch opt).params.map fun k => (k : Int)) (by simp [recordWrites, lpcCand])
      (castList_getElem? ?_) (by omega)
    rw [hparams, List.getElem?_map, List.getElem?_range hj]
    rfl

/-- QC and QSH of the orders evaluated. -/
theorem lpcDone_quants (hall : ∀ o ∈ all, OrderIn s o) {o : Nat} (ho : o ∈ all) :
    memGet? (lpcDone s ch all opt).mem .qsh (o - 1) = some (quantShift (coefAt s o) o s.regs.cfg.precision.toNat : Int)
      ∧ ∀ j, 1 ≤ j → j ≤ o → memGet? (lpcDone s ch all opt).mem .qc ((o - 1) * 32 + (j - 1))
        = some (quantAt (coefAt s o) o s.regs.cfg.precision.toNat j) := by
  have hbounds : ∀ o ∈ all, 1 ≤ o ∧ o ≤ 32 := fun o ho => by
    obtain ⟨hlo, hhi, -⟩ := h.order_le (hall o ho)
    exact ⟨hlo, hhi⟩
  have hrecord : StoresIn [(.subrec, ch * 512, 2), (.subrec, ch * 512 + 3, 4), (.subrec, ch * 512 + 32, opt),
      (.subrec, ch * 512 + 256, 2 ^ (lpcPlan s ch opt).porder)] (storeQuants s all) (lpcRecorded s ch all opt) :=
    storesIn_storeRecord (lpcCand_q_length ..) (h.params_length hopt)
  have hkept := keptOutside_append hrecord.kept (keptOutside_lpcDone_tail (s := s) (ch := ch) (all := all) (opt := opt))
  exact ⟨(hkept.1 .qsh _ rfl).trans (memGet?_storeQuants_qsh hbounds ho),
    fun j hlo hj => (hkept.1 .qc _ rfl).trans (memGet?_storeQuants_qc hbounds h.precision.2 ho hlo hj)⟩

end

end Sys2Proof.Proofs
end


section
/-!
`SUB_ENCODE` on the LPC path, as the host sees it (`43_subframe_encoder.md` R231, R235 to R237).
-/
namespace Sys2Proof.Proofs
open Sys2Proof.Machine

/-! ## After the fit -/

theorem covered_fitRanges {n hi : Nat} {sp : Space} {i : Nat} (h : covered (fitRanges n hi) sp i = true) :
    (sp = .win ∧ i < n) ∨ (sp = .autoc ∧ i < hi + 1) ∨ (sp = .refl ∧ i < hi)
      ∨ sp = .lpcf ∧ ∃ o, o < hi ∧ i < o * 32 + (o + 1) := by
  simp only [fitRanges, covered_append, Bool.or_eq_true, covered_cons_iff, covered_nil, Bool.false_eq_true, or_false,
    covered_map, List.mem_range] at h
  rcases h with (⟨hsp, -, hlt⟩ | ⟨hsp, -, hlt⟩) | ⟨hsp, -, hlt⟩ | ⟨o, ho, hsp, -, hlt⟩
  · exact .inl ⟨hsp, by omega⟩
  · exact .inr (.inl ⟨hsp, by omega⟩)
  · exact .inr (.inr (.inl ⟨hsp, by omega⟩))
  · exact .inr (.inr (.inr ⟨hsp, o, ho, hlt⟩))

section
variable {s t : State} {ch hi : Nat} (hfit : StoresIn (fitRanges s.blockLen hi) s t)
include hfit

/-- The fit stores neither samples nor the record. -/
theorem memRead_of_fit {sp : Space} (hsp : sp = .smp ∨ sp = .subrec) (i : Nat) : t.memRead sp i = s.memRead sp i := by
  refine hfit.memRead (Bool.eq_false_iff.2 fun hin => ?_)
  rcases covered_fitRanges hin with ⟨rfl, -⟩ | ⟨rfl, -⟩ | ⟨rfl, -⟩ | ⟨rfl, -⟩ <;> simp at hsp

theorem sampleAt_of_fit (ch : Nat) : sampleAt t ch = sampleAt s ch := funext fun _ => memRead_of_fit hfit (.inl rfl) _

theorem recordAt_of_fit (ch f : Nat) : recordAt t ch f = recordAt s ch f := memRead_of_fit hfit (.inr rfl) _

theorem LpcReady.of_fit (h : LpcReady s ch) : LpcReady t ch := by
  obtain ⟨hok, hch, hblock, hobits, horders, hporders, hprec, hmethod, hlsq⟩ := h
  rw [State.channels, ← hfit.regs] at hch
  rw [← recordAt_of_fit hfit] at hobits
  rw [← hfit.blockLen] at hblock horders
  rw [← hfit.regs] at hok hblock horders hporders hprec hmethod hlsq
  exact ⟨hok, hch, hblock, hobits, horders, hporders, hprec, hmethod, hlsq⟩

end

/-! ## The commands on the fit -/

section
variable {s : State} {ch : Nat}

/-- The lowest order of the search. -/
def lowestOrder (s : State) : Nat := max s.regs.cfg.minOrder.toNat 1

/-- The highest order of the search. -/
def highestOrder (s : State) : Nat := s.regs.cfg.maxOrder.toNat

theorem LpcReady.orders_le (h : LpcReady s ch) : lowestOrder s ≤ highestOrder s := max_le h.orders.1 h.orders.2.1

theorem orderIn_of_bounds {o : Nat} (hlo : lowestOrder s ≤ o) (hhi : o ≤ highestOrder s) : OrderIn s o :=
  ⟨(le_max_right ..).trans hlo, hhi⟩

theorem LpcReady.exec_orderEst (h : LpcReady s ch) : ∃ t, exec (.orderEst (lowestOrder s) (highestOrder s)) (cleared s) = .next t
    ∧ t.regs.ops.a4 = BitVec.ofNat 64 (orderEstOf (reflAt s) (lowestOrder s) (highestOrder s)) := by
  obtain ⟨-, -, h32, -⟩ := h.orders
  have hfields : (decide (1 ≤ lowestOrder s) && decide (lowestOrder s ≤ highestOrder s) && decide (highestOrder s ≤ 32)) = true := by
    have hone : 1 ≤ lowestOrder s := le_max_right ..
    have h32 : highestOrder s ≤ 32 := h32
    simp [hone, h.orders_le, h32]
  exact ⟨_, (Proofs.exec_orderEst (earlyError_eq_none h.configured rfl hfields rfl rfl rfl)).trans (succeed_setA4 ..), rfl⟩

theorem LpcReady.exec_quant (h : LpcReady s ch) {o : Nat} (ho : OrderIn s o) :
    ∃ t, exec (.quant o s.regs.cfg.precision.toNat) (cleared s) = .next t
      ∧ memGet? t.mem .qsh (o - 1) = some (quantShift (coefAt s o) o s.regs.cfg.precision.toNat : Int)
      ∧ ∀ j, 1 ≤ j → j ≤ o → memGet? t.mem .qc ((o - 1) * 32 + (j - 1))
        = some (quantAt (coefAt s o) o s.regs.cfg.precision.toNat j) := by
  obtain ⟨hlo, h32, -⟩ := h.order_le ho
  obtain ⟨hprec, hprec'⟩ := h.precision
  have hfields : (decide (1 ≤ o) && decide (o ≤ 32) && decide (1 ≤ s.regs.cfg.precision.toNat)
      && decide (s.regs.cfg.precision.toNat ≤ 15)) = true := by simp [hlo, h32, hprec, hprec']
  exact ⟨_, (Proofs.exec_quant (earlyError_eq_none h.configured rfl hfields rfl rfl rfl)).trans (succeed_setA4 ..),
    memGet?_storeQuantOf_qsh, fun j hj hj' => memGet?_storeQuantOf_qc hprec' hj hj'⟩

end

/-! ## `SUB_ENCODE` -/

/-- A command that completes with an answer in a4 changes registers besides. -/
theorem keptOutside_answer {rs : List Range} {s u : State} (h : keptOutside rs s u) (v : Int) :
    keptOutside rs s (cleared (u.setA4 v)) := ⟨h.1, h.2⟩

/-- A command that fails changes STATUS besides (`60_exceptions.md` R320). -/
theorem fail_kept {rs : List Range} {s u : State} (e : ErrCode) (h : keptOutside rs s u) : ∃ t, fail e u = .next t
    ∧ t.regs = { u.regs with err := e, errSticky := true } ∧ keptOutside rs s t := ⟨_, rfl, rfl, h.1, h.2⟩

theorem allEqual_map_range {x : Nat → Int} {n : Nat} (h : allEqual ((List.range n).map x) = true) :
    ∀ i, i < n → x i = x 0 := by
  cases n with
  | zero => exact fun i hi => absurd hi (Nat.not_lt_zero i)
  | succ n =>
    intro i hi
    rw [List.range_succ_eq_map, List.map_cons, allEqual, List.all_eq_true] at h
    cases i with
    | zero => rfl
    | succ i =>
      have hmem : x (i + 1) ∈ ((List.range n).map Nat.succ).map x :=
        List.mem_map_of_mem (List.mem_map_of_mem (List.mem_range.2 (Nat.lt_of_succ_lt_succ hi)))
      simpa using h _ hmem

section
variable {s : State} {ch : Nat}

/-- Blocks of at least 5 samples, not all equal, take the LPC path (`43_subframe_encoder.md` R231). -/
theorem LpcReady.exec_subEncode (h : LpcReady s ch) (hs : earlyError (.subEncode ch) s = none)
    (hvaries : ∃ i, i < s.blockLen ∧ sampleAt s ch i ≠ sampleAt s ch 0) :
    exec (.subEncode ch) s = finish ((lpcPath ch s).map fun t => t.setA4 (t.sub ch 6)) := by
  obtain ⟨hcfg, -, hch, hblock, -, hobits⟩ := ready_of_earlyError_eq_none hs
  obtain ⟨i, hi, hne⟩ := hvaries
  have hequal : ¬allEqual (s.samples ch s.blockLen) = true := fun hall => by
    rw [samples_eq] at hall
    exact hne (allEqual_map_range hall i hi)
  have hfixed : ¬(s.regs.cfg.lpcType.toNat = 0 ∨ s.blockLen ≤ s.regs.cfg.maxOrder.toNat) := by
    obtain ⟨-, -, -, hlt⟩ := h.orders
    have := h.fit
    omega
  have heffect : subEncodeEffect ch s = lpcPath ch s := by
    simp only [subEncodeEffect]
    rw [if_neg hequal, if_neg h.block.1.not_gt, if_neg hfixed]
  have hexec : exec (.subEncode ch) s = execSubEncode ch s := rfl
  rw [hexec, execSubEncode, command_of_checks, heffect]
  simp only [List.forall_mem_cons]
  exact ⟨hcfg, hch, hblock, hobits, List.forall_mem_nil _⟩

end

section
variable {s t : State} {ch opt : Nat} {all : List Nat}

/-- A search that succeeds leaves the record, and a4 is its cost. -/
theorem LpcReady.finish_done (h : LpcReady t ch) (hopt : OrderIn t opt) (hfits : lpcFits t ch opt = true) :
    finish ((Except.ok (lpcDone t ch all opt) : Effect).map fun u => u.setA4 (u.sub ch 6))
      = .next (cleared ((lpcDone t ch all opt).setA4 (lpcCand t ch opt).cost)) := by
  obtain ⟨-, -, -, -, -, hcost, -⟩ := lpcDone_record (all := all) h hopt hfits
  have hsub : (lpcDone t ch all opt).sub ch 6 = (lpcCand t ch opt).cost := by
    rw [State.sub, recIndex]
    exact memRead_of_some hcost
  rw [← hsub]
  rfl

/-- What the path stores, from the first command of the fit on. -/
theorem LpcReady.kept_done (h : LpcReady t ch) (hopt : OrderIn t opt)
    (hfit : StoresIn (fitRanges t.blockLen (highestOrder t)) s t) :
    keptOutside ([(.subrec, ch * 512, 2), (.subrec, ch * 512 + 3, 4), (.subrec, ch * 512 + 32, opt),
        (.subrec, ch * 512 + 256, 2 ^ (lpcPlan t ch opt).porder), (.res, ch * 65536, t.blockLen), (.win, 0, t.blockLen),
        (.autoc, 0, highestOrder t + 1), (.refl, 0, highestOrder t), (.sums, 0, 2097152)]
      ++ (List.range (highestOrder t)).map (fun i => (Space.lpcf, i * 32, i + 1)) ++ all.flatMap quantRanges)
      s (lpcDone t ch all opt) := by
  refine keptOutside_mono (keptOutside_append hfit.kept (keptOutside_lpcDone h hopt)) fun sp i hin => ?_
  simp only [fitRanges, covered_append, Bool.or_eq_true, covered_cons_iff, covered_nil, Bool.false_eq_true, or_false] at hin ⊢
  rcases hin with ((h | h) | (h | h)) | ((h | h | h | h | h) | h | h)
  all_goals simp only [h, true_or, or_true, and_self]

/-- What `E_RESIDUAL_RANGE` may have changed, from the first command of the fit on. -/
theorem LpcReady.kept_rangeError (h : LpcReady t ch) (hfit : StoresIn (fitRanges t.blockLen (highestOrder t)) s t) :
    keptOutside (lpcScratch ch) s (t.forget (rangeErrorScratch ch ++ lpcStores)) := by
  obtain ⟨-, -, h32, -⟩ := h.orders
  obtain ⟨-, -, hblock⟩ := h.block
  have hscratch : rangeErrorScratch ch ++ lpcStores = lpcScratch ch := by
    rw [rangeErrorScratch_eq]
    rfl
  rw [hscratch]
  refine keptOutside_mono (keptOutside_append hfit.kept (keptOutside_forget (lpcScratch ch) t)) fun sp i hin => ?_
  rw [covered_append, Bool.or_eq_true] at hin
  refine hin.elim (fun hin => ?_) id
  rw [lpcScratch, covered_append, Bool.or_eq_true, covered_map]
  rw [highestOrder] at hin
  refine .inr ?_
  rcases covered_fitRanges hin with ⟨rfl, hlt⟩ | ⟨rfl, hlt⟩ | ⟨rfl, hlt⟩ | ⟨rfl, o, ho, hlt⟩
  · exact ⟨.win, by simp, (covered_singleton ..).2 ⟨rfl, Nat.zero_le _, by omega⟩⟩
  · exact ⟨.autoc, by simp, (covered_singleton ..).2 ⟨rfl, Nat.zero_le _, by omega⟩⟩
  · exact ⟨.refl, by simp, (covered_singleton ..).2 ⟨rfl, Nat.zero_le _, by omega⟩⟩
  · exact ⟨.lpcf, by simp, (covered_singleton ..).2 ⟨rfl, Nat.zero_le _, by omega⟩⟩

/-- The selection leaves the fit in its stores. -/
theorem LpcReady.fit_kept (h : LpcReady t ch) (hopt : OrderIn t opt) :
    ∀ sp ∈ [Space.win, .autoc, .lpcf, .refl], ∀ i, memGet? (lpcDone t ch all opt).mem sp i = memGet? t.mem sp i := by
  intro sp hsp i
  refine (keptOutside_lpcDone h hopt).1 sp i ?_
  rw [Bool.eq_false_iff, Ne, covered_append, covered_append, Bool.or_eq_true, Bool.or_eq_true, covered_flatMap]
  simp only [covered_quantRanges, covered_cons_iff, covered_nil, Bool.false_eq_true, or_false]
  simp only [List.mem_cons, List.not_mem_nil, or_false] at hsp
  rcases hsp with rfl | rfl | rfl | rfl <;> simp

end

/-- Settles O41: the fit is that of the step commands, the search is over their candidates, and the record is that of the
candidate selected. -/
theorem sub_encode_lpc_selected_order : Obligations.sub_encode_lpc_selected_order := by
  intro s ch hcfg hs hlen hvaries htype hmax
  have hready := lpcReady_of_checks hcfg hs hlen htype hmax
  obtain ⟨windowed, correlated, fit, hstores, hwelch, hautocorr, hfit, hpath⟩ := hready.exec_fit rfl
  have hexec := hready.exec_subEncode hs hvaries
  have h := hready.of_fit hstores
  rw [← hstores.regs] at hautocorr hfit hpath
  rw [← sampleAt_of_fit hstores, ← recordAt_of_fit hstores, ← hstores.regs]
  rw [← hstores.blockLen, ← hstores.regs] at hstores
  intro n lo hi prec
  obtain ⟨estimated, hest, ha4⟩ := h.exec_orderEst
  obtain ⟨hlo, hhi⟩ := orderEstOf_mem (refl := reflAt fit) h.orders_le
  refine ⟨windowed, correlated, cleared fit, estimated, _, hwelch, hautocorr, hfit, rfl, hest, ha4, hlo, hhi,
    fun o => quantAt (coefAt fit o) o prec, fun o => quantShift (coefAt fit o) o prec, fun o => (lpcPlan fit ch o).porder,
    fun o => partParam (lpcResidual fit ch o) n o (lpcPlan fit ch o).porder, fun o => (lpcPlan fit ch o).bits, ?_⟩
  intro res cost fits
  refine ⟨fun o ho ho' => ?_, ?_⟩
  · have ho := orderIn_of_bounds ho ho'
    exact ⟨h.exec_quant ho, (h.plan_best ho).1⟩
  obtain ⟨all, opt, hselected, hselect⟩ := lpcSelect_eq (ch := ch) h.method h.orders_le h.orders.2.2.2.le
  have hall : ∀ o ∈ all, OrderIn fit o := fun o ho => by
    obtain ⟨hlo, hhi⟩ := hselected.bounds o ho
    exact orderIn_of_bounds hlo hhi
  have hmem := mem_of_firstLeast hselected.least
  have hfits : all.all (lpcFits fit ch) = true ↔ ∀ o ∈ all, fits o := by
    rw [List.all_eq_true]
    exact forall₂_congr fun o _ => lpcFits_iff
  refine ⟨all, opt, hselected.selects, fun hok => ?_, fun ⟨o, ho, hnot⟩ => ?_⟩
  · have hopt := hall opt hmem
    have hoptFits := lpcFits_iff.2 (hok opt hmem)
    have hdone : lpcPath ch s = .ok (lpcDone fit ch all opt) := hpath.trans (hselect.trans (if_pos (hfits.2 hok)))
    rw [hdone, h.finish_done hopt hoptFits] at hexec
    obtain ⟨htype, horder, hprec, hshift, hporder, hcost, hcoefs, hparams⟩ := lpcDone_record (all := all) h hopt hoptFits
    refine ⟨_, hexec, ?regs, htype, horder, hprec, hshift, hporder, hcost, hcoefs, hparams,
      fun i hi => memGet?_lpcDone_res hoptFits hi, fun o ho => lpcDone_quants h hopt hall ho, h.fit_kept hopt,
      keptOutside_answer (h.kept_done hopt hstores) _⟩
    case regs => rw [cleared, State.setA4, lpcDone_regs]; rfl
  · have herror : lpcPath ch s = .error (.residualRange, fit.forget (rangeErrorScratch ch ++ lpcStores)) :=
      hpath.trans (hselect.trans (if_neg fun hok => hnot (hfits.1 hok o ho)))
    obtain ⟨t, hfail, hregs, hkept⟩ := fail_kept .residualRange (h.kept_rangeError hstores)
    rw [herror] at hexec
    exact ⟨t, hexec.trans hfail, hregs, hkept⟩

end Sys2Proof.Proofs
end


section
/-!
Records and how `SUB_ENCODE` and `SUB_VERBATIM` end (`43_subframe_encoder.md` R231, R238): the fields that a path writes, the
path that a block takes, and the registers of a command that completes.
-/
namespace Sys2Proof.Proofs
open Sys2Proof.Machine

/-! ## The fields of a record -/

/-- Write fields of SUB[ch], each run from its first field on, in sequence. -/
def storeFields (s : State) (ch : Nat) (ws : List (Nat × List Int)) : State :=
  ws.foldl (fun t w => t.setSub ch w.1 w.2) s

/-- Type, order and bits, as every path writes them. -/
def headFields (type : Int) (order : Nat) (bits : Int) : List (Nat × List Int) :=
  [(0, [type]), (1, [(order : Int)]), (6, [bits])]

theorem storeHead_eq (s : State) (ch : Nat) (type : Int) (order : Nat) (bits : Int) :
    storeHead s ch type order bits = storeFields s ch (headFields type order bits) := rfl

section
variable {s : State} {ch : Nat} {ws : List (Nat × List Int)}

theorem storesIn_storeFields (s : State) (ch : Nat) (ws : List (Nat × List Int)) :
    StoresIn (ws.flatMap fun w => [(.subrec, ch * 512 + w.1, w.2.length)]) s (storeFields s ch ws) :=
  storesIn_foldl (fun t w => storesIn_memWrite t .subrec (recIndex ch w.1) w.2) ws s

/-- Fields that do not overlap hold what was written to them. -/
theorem memGet?_storeFields (hapart : ws.Pairwise RunsApart) {f j : Nat} {vals : List Int} {v : Int}
    (hmem : (f, vals) ∈ ws) (hv : vals[j]? = some v) (hrange : -2 ^ 63 ≤ v ∧ v < 2 ^ 63) :
    memGet? (storeFields s ch ws).mem .subrec (ch * 512 + f + j) = some v := by
  obtain ⟨hj, -⟩ := List.getElem?_eq_some_iff.1 hv
  refine element_of_foldl (ranges := fun w => [(.subrec, recIndex ch w.1, w.2.length)]) (p := (· = some v))
    (fun t w => storesIn_memWrite t .subrec (recIndex ch w.1) w.2) hmem (fun t => ?stored) (fun w hw => ?apart) s
  case stored =>
    have hget := memGet?_memWrite_run t .subrec (recIndex ch f) hv
    rwa [stored_subrec_of_range hrange] at hget
  case apart =>
    refine or_iff_not_imp_left.2 fun hne => ?_
    have hsymm : Std.Symm RunsApart := ⟨fun _ _ => Or.symm⟩
    have hfree : w.1 + w.2.length ≤ f ∨ f + vals.length ≤ w.1 := hapart.forall hw hmem hne
    rw [Bool.eq_false_iff, Ne, covered_singleton, recIndex]
    omega

/-- A field of one element. -/
theorem memGet?_storeFields_field (hapart : ws.Pairwise RunsApart) {f : Nat} {v : Int} (hmem : (f, [v]) ∈ ws)
    (hrange : -2 ^ 63 ≤ v ∧ v < 2 ^ 63) : memGet? (storeFields s ch ws).mem .subrec (ch * 512 + f) = some v := by
  have helem := memGet?_storeFields (s := s) (ch := ch) hapart (j := 0) hmem rfl hrange
  rwa [Nat.add_zero] at helem

end

/-- Type, order and bits of SUB[ch]. -/
structure HeadIs (m : Mems) (ch : Nat) (type : Int) (order : Nat) (bits : Int) : Prop where
  type : memGet? m .subrec (ch * 512) = some type
  order : memGet? m .subrec (ch * 512 + 1) = some (order : Int)
  bits : memGet? m .subrec (ch * 512 + 6) = some bits

theorem HeadIs.of_kept {m m' : Mems} {ch order : Nat} {type bits : Int} (h : HeadIs m ch type order bits)
    (hkept : ∀ i, memGet? m' .subrec i = memGet? m .subrec i) : HeadIs m' ch type order bits :=
  ⟨(hkept _).trans h.type, (hkept _).trans h.order, (hkept _).trans h.bits⟩

theorem headIs_storeFields {s : State} {ch : Nat} {ws : List (Nat × List Int)} {type bits : Int} {order : Nat}
    (hapart : ws.Pairwise RunsApart) (hhead : headFields type order bits ⊆ ws) (htype : 0 ≤ type ∧ type ≤ 3)
    (horder : order ≤ 32) (hbits : -2 ^ 63 ≤ bits ∧ bits < 2 ^ 63) : HeadIs (storeFields s ch ws).mem ch type order bits where
  type := by
    have hget := memGet?_storeFields_field (s := s) (ch := ch) hapart (f := 0) (v := type) (hhead (by simp [headFields])) (by omega)
    rwa [Nat.add_zero] at hget
  order := memGet?_storeFields_field hapart (hhead (by simp [headFields])) (by omega)
  bits := memGet?_storeFields_field hapart (hhead (by simp [headFields])) hbits

theorem headFields_apart (type : Int) (order : Nat) (bits : Int) : (headFields type order bits).Pairwise RunsApart := by
  simp [headFields, RunsApart]

theorem storesIn_headFields (s : State) (ch : Nat) (type : Int) (order : Nat) (bits : Int) :
    StoresIn [(.subrec, ch * 512, 2), (.subrec, ch * 512 + 6, 1)] s (storeFields s ch (headFields type order bits)) := by
  refine (storesIn_storeFields s ch _).mono fun sp i hin => ?_
  obtain ⟨w, hw, hin⟩ := (covered_flatMap ..).1 hin
  obtain ⟨rfl, hlo, hhi⟩ := (covered_singleton ..).1 hin
  simp only [headFields, List.mem_cons, List.not_mem_nil, or_false] at hw
  simp only [covered_cons_iff, covered_nil, Bool.false_eq_true, or_false, true_and]
  obtain rfl | rfl | rfl := hw <;> simp only [List.length_singleton] at hlo hhi <;> omega

/-! ## SUMS after `SUB_ENCODE` -/

theorem keptOutside_forgetSums (s : State) : keptOutside [(.sums, 0, 2097152)] s (forgetSums s) :=
  keptOutside_forget [(.sums, 0, spaceLen)] s

theorem memGet?_forgetSums {s : State} {sp : Space} (hsp : sp ≠ .sums) (i : Nat) :
    memGet? (forgetSums s).mem sp i = memGet? s.mem sp i := by
  refine (keptOutside_forgetSums s).1 sp i ?_
  rw [Bool.eq_false_iff, Ne, covered_singleton]
  exact fun hin => hsp hin.1

/-! ## The command -/

/-- What `SUB_ENCODE` and `SUB_VERBATIM` meet that are not refused (`43_subframe_encoder.md` R231, R238). -/
structure SubReady (s : State) (ch : Nat) : Prop where
  nonempty : 1 ≤ s.blockLen
  block : s.blockLen ≤ 65535
  obits : recordAt s ch 2 = 16 ∨ recordAt s ch 2 = 17

/-- The checks that both commands make. -/
def subChecks (s : State) (ch : Nat) : List (Bool × ErrCode) := [cfgCheck s, chCheck s ch, blockCheck s 1, obitsCheck s ch]

/-- Both commands meet the same errors. -/
theorem earlyError_subVerbatim (s : State) (ch : Nat) : earlyError (.subVerbatim ch) s = earlyError (.subEncode ch) s := rfl

section
variable {s : State} {ch : Nat}

theorem subChecks_hold (h : earlyError (.subEncode ch) s = none) : ∀ c ∈ subChecks s ch, c.1 = true := by
  obtain ⟨hok, -, hch, hblock, -, hobits⟩ := ready_of_earlyError_eq_none h
  simp only [subChecks, List.forall_mem_cons]
  exact ⟨hok, hch, hblock, hobits, List.forall_mem_nil _⟩

theorem earlyError_of_subChecks (h : ∀ c ∈ subChecks s ch, c.1 = true) : earlyError (.subEncode ch) s = none := by
  simp only [subChecks, List.forall_mem_cons] at h
  obtain ⟨hok, hch, hblock, hobits, -⟩ := h
  have hok : s.regs.cfgOk = true := hok
  exact earlyError_eq_none (by simp [configReady, hok]) rfl hch hblock rfl hobits

theorem subReady_of_checks (hcfg : configError s.regs.cfg = none) (h : earlyError (.subEncode ch) s = none) : SubReady s ch := by
  obtain ⟨-, -, -, hblock, -, hobits⟩ := ready_of_earlyError_eq_none h
  obtain ⟨-, hsize, -⟩ := configError_none hcfg
  obtain ⟨hlo, hhi⟩ := (within_eq_true ..).1 hblock
  have hobits : (decide (recordAt s ch 2 = 16) || decide (recordAt s ch 2 = 17)) = true := hobits
  rw [Bool.or_eq_true, decide_eq_true_eq, decide_eq_true_eq] at hobits
  exact ⟨hlo, hhi.trans hsize, hobits⟩

theorem exec_subEncode_eq (s : State) (ch : Nat) : exec (.subEncode ch) s
    = command s (subChecks s ch) fun s => finish ((subEncodeEffect ch s).map fun t => t.setA4 (t.sub ch 6)) := rfl

theorem exec_subEncode_of_checks (h : earlyError (.subEncode ch) s = none) :
    exec (.subEncode ch) s = finish ((subEncodeEffect ch s).map fun t => t.setA4 (t.sub ch 6)) := by
  rw [exec_subEncode_eq, command_of_checks (subChecks_hold h)]

/-- A path that succeeds leaves its state, with the record's bits in a4. -/
theorem exec_subEncode_ok (h : earlyError (.subEncode ch) s = none) {u : State} (heffect : subEncodeEffect ch s = .ok u)
    {bits : Int} (hbits : memGet? u.mem .subrec (ch * 512 + 6) = some bits) :
    exec (.subEncode ch) s = .next (cleared (u.setA4 bits)) := by
  have hsub : u.sub ch 6 = bits := memRead_of_some hbits
  rw [exec_subEncode_of_checks h, heffect, ← hsub]
  rfl

theorem exec_subVerbatim (h : earlyError (.subEncode ch) s = none) : exec (.subVerbatim ch) s
    = .next (cleared ((subVerbatimEffect ch s).setA4 (recordAt s ch 2 * s.blockLen))) := by
  have hexec : exec (.subVerbatim ch) s = command s (subChecks s ch) fun s =>
      succeed ((subVerbatimEffect ch s).setA4 (s.sub ch 2 * s.blockLen)) := rfl
  rw [hexec, command_of_checks (subChecks_hold h)]
  rfl

/-- The registers of a command that stores in memory and completes with an answer. -/
theorem MemOnly.cleared_setA4_regs {s t : State} (h : MemOnly s t) (v : Int) : (cleared (t.setA4 v)).regs
    = { s.regs with err := .noError, ops := { s.regs.ops with a4 := BitVec.ofInt 64 v } } := by
  rw [← h.regs]
  rfl

/-! ## The path of a block -/

theorem allEqual_map_range_iff (x : Nat → Int) (n : Nat) :
    allEqual ((List.range n).map x) = true ↔ ∀ i, i < n → x i = x 0 := by
  refine ⟨allEqual_map_range, fun h => ?_⟩
  cases n with
  | zero => rfl
  | succ n =>
    rw [List.range_succ_eq_map, List.map_cons, allEqual, List.map_map, List.all_map, List.all_eq_true]
    exact fun i hi => beq_iff_eq.2 (h (i + 1) (Nat.succ_lt_succ (List.mem_range.1 hi)))

/-- The samples of the block are not all equal. -/
def Varies (s : State) (ch : Nat) : Prop := ∃ i, i < s.blockLen ∧ sampleAt s ch i ≠ sampleAt s ch 0

theorem allEqual_samples_iff : allEqual (s.samples ch s.blockLen) = true ↔ ¬Varies s ch := by
  rw [samples_eq, allEqual_map_range_iff, Varies]
  push Not
  rfl

theorem subEncodeEffect_constant (h : ¬Varies s ch) : subEncodeEffect ch s = .ok (forgetSums (constantEffect ch s)) :=
  if_pos (allEqual_samples_iff.2 h)

theorem subEncodeEffect_short (hvaries : Varies s ch) (hlen : s.blockLen < 5) :
    subEncodeEffect ch s = .ok (forgetSums (subVerbatimEffect ch s)) :=
  (if_neg fun hall => allEqual_samples_iff.1 hall hvaries).trans (if_pos hlen)

theorem subEncodeEffect_fixed (hvaries : Varies s ch) (hlen : 5 ≤ s.blockLen)
    (hfixed : s.regs.cfg.lpcType.toNat = 0 ∨ s.blockLen ≤ s.regs.cfg.maxOrder.toNat) :
    subEncodeEffect ch s = fixedPath ch s :=
  ((if_neg fun hall => allEqual_samples_iff.1 hall hvaries).trans (if_neg hlen.not_gt)).trans (if_pos hfixed)

end

end Sys2Proof.Proofs
end

section
/-!
CONSTANT and VERBATIM subframes (`43_subframe_encoder.md` R231 to R233, R238).
-/
namespace Sys2Proof.Proofs
open Sys2Proof.Machine

/-! ## CONSTANT -/

section
variable {s : State} {ch : Nat}

theorem covered_of_pieces {sp' sp : Space} {lo a b i : Nat} (h : covered ([(sp', lo, a)] ++ [(sp', lo + a, b)]) sp i = true) :
    covered [(sp', lo, a + b)] sp i = true := by
  rw [covered_append, Bool.or_eq_true, covered_singleton, covered_singleton] at h
  rw [covered_singleton]
  obtain ⟨hsp, hlo, hhi⟩ | ⟨hsp, hlo, hhi⟩ := h
  · exact ⟨hsp, by omega, by omega⟩
  · exact ⟨hsp, by omega, by omega⟩

/-- The state before the rest of RES[ch] is left unspecified. -/
def constantStored (s : State) (ch : Nat) : State :=
  (storeFields s ch (headFields 0 0 (recordAt s ch 2))).setResiduals ch ((List.range 1).map (sampleAt s ch))

theorem constantEffect_eq (s : State) (ch : Nat) :
    constantEffect ch s = (constantStored s ch).forget [(.res, ch * 65536 + 1, 65534)] := by
  rw [constantEffect, samples_eq, storeHead_eq]
  rfl

theorem keptOutside_constantEffect : keptOutside [(.subrec, ch * 512, 2), (.subrec, ch * 512 + 6, 1), (.res, ch * 65536, 65535)]
    s (constantEffect ch s) := by
  rw [constantEffect_eq]
  have hrow : keptOutside [(.res, ch * 65536, 65535)] (storeFields s ch (headFields 0 0 (recordAt s ch 2)))
      ((constantStored s ch).forget [(.res, ch * 65536 + 1, 65534)]) := by
    exact keptOutside_mono (keptOutside_append (storesIn_setResiduals ..).kept (keptOutside_forget ..)) fun sp i hin =>
      covered_of_pieces (b := 65534) hin
  exact keptOutside_append (storesIn_headFields ..).kept hrow

theorem headIs_constantEffect (h : SubReady s ch) : HeadIs (constantEffect ch s).mem ch 0 0 (recordAt s ch 2) := by
  have hrange : -2 ^ 63 ≤ recordAt s ch 2 ∧ recordAt s ch 2 < 2 ^ 63 := by rcases h.obits with hb | hb <;> rw [hb] <;> decide
  have hhead := headIs_storeFields (s := s) (ch := ch) (headFields_apart 0 0 (recordAt s ch 2)) (List.Subset.refl _) (by decide)
    (by decide) hrange
  rw [constantEffect_eq]
  exact hhead.of_kept fun i => (keptOutside_append (storesIn_setResiduals ..).kept (keptOutside_forget ..)).1 .subrec i rfl

theorem memGet?_constantEffect_res : memGet? (constantEffect ch s).mem .res (ch * 65536) = some (sampleAt s ch 0) := by
  have hkept := (keptOutside_forget [(.res, ch * 65536 + 1, 65534)] (constantStored s ch)).1 .res (ch * 65536)
  have hget := memGet?_setResiduals (s := storeFields s ch (headFields 0 0 (recordAt s ch 2))) (ch := ch) Nat.one_pos
    (sampleAt_fits32 s ch 0)
  rw [Nat.add_zero] at hget
  rw [constantEffect_eq]
  refine (hkept ?_).trans hget
  rw [Bool.eq_false_iff, Ne, covered_singleton]
  omega

end

/-- Settles O38: the record and RES[ch][0] are stored before the rest is left unspecified. -/
theorem sub_encode_constant_block : Obligations.sub_encode_constant_block := by
  intro s ch hcfg hs hequal obits
  have hready := subReady_of_checks hcfg hs
  have heffect := subEncodeEffect_constant (s := s) (ch := ch) fun ⟨i, hi, hne⟩ => hne (hequal i hi)
  have hhead : HeadIs (forgetSums (constantEffect ch s)).mem ch 0 0 obits :=
    (headIs_constantEffect hready).of_kept (memGet?_forgetSums (by decide))
  refine ⟨_, exec_subEncode_ok hs heffect hhead.bits, ?regs, hhead.type, hhead.order, hhead.bits, ?res, ?kept⟩
  case regs => exact ((memOnly_constantEffect ch s).forget _).cleared_setA4_regs obits
  case res => exact (memGet?_forgetSums (by decide) _).trans memGet?_constantEffect_res
  case kept => exact keptOutside_answer (keptOutside_append keptOutside_constantEffect (keptOutside_forgetSums _)) obits

/-! ## VERBATIM -/

section
variable {s : State} {ch : Nat}

theorem subVerbatimEffect_eq (s : State) (ch : Nat) : subVerbatimEffect ch s
    = (storeFields s ch (headFields 1 0 (recordAt s ch 2 * s.blockLen))).setResiduals ch
      ((List.range s.blockLen).map (sampleAt s ch)) := by
  rw [subVerbatimEffect, samples_eq, storeHead_eq]
  rfl

theorem keptOutside_subVerbatimEffect : keptOutside [(.subrec, ch * 512, 2), (.subrec, ch * 512 + 6, 1),
    (.res, ch * 65536, s.blockLen)] s (subVerbatimEffect ch s) := by
  rw [subVerbatimEffect_eq]
  exact ((storesIn_headFields ..).append (storesIn_setResiduals ..)).kept

theorem headIs_subVerbatimEffect (h : SubReady s ch) :
    HeadIs (subVerbatimEffect ch s).mem ch 1 0 (recordAt s ch 2 * s.blockLen) := by
  have hblock := h.block
  have hrange : -2 ^ 63 ≤ recordAt s ch 2 * s.blockLen ∧ recordAt s ch 2 * s.blockLen < 2 ^ 63 := by
    rcases h.obits with hb | hb <;> rw [hb] <;> omega
  have hhead := headIs_storeFields (s := s) (ch := ch) (headFields_apart 1 0 _) (List.Subset.refl _) (by decide) (by decide) hrange
  rw [subVerbatimEffect_eq]
  exact hhead.of_kept fun i => (storesIn_setResiduals ..).kept.1 .subrec i rfl

theorem memGet?_subVerbatimEffect_res {i : Nat} (hi : i < s.blockLen) :
    memGet? (subVerbatimEffect ch s).mem .res (ch * 65536 + i) = some (sampleAt s ch i) := by
  rw [subVerbatimEffect_eq]
  exact memGet?_setResiduals hi (sampleAt_fits32 s ch i)

end

/-- Settles O39: both commands have the one effect, after which `SUB_ENCODE` leaves SUMS unspecified. -/
theorem verbatim_subframes : Obligations.verbatim_subframes := by
  intro s ch hcfg n bits verbatim written
  refine ⟨fun hs => ?_, fun hs hlen hvaries => ?_⟩
  · rw [earlyError_subVerbatim] at hs
    have hhead := headIs_subVerbatimEffect (subReady_of_checks hcfg hs)
    exact ⟨_, exec_subVerbatim hs, ⟨(memOnly_subVerbatimEffect ch s).cleared_setA4_regs bits, hhead.type, hhead.order,
      hhead.bits, fun i hi => memGet?_subVerbatimEffect_res hi⟩, keptOutside_answer keptOutside_subVerbatimEffect bits⟩
  · have hhead : HeadIs (forgetSums (subVerbatimEffect ch s)).mem ch 1 0 bits :=
      (headIs_subVerbatimEffect (subReady_of_checks hcfg hs)).of_kept (memGet?_forgetSums (by decide))
    exact ⟨_, exec_subEncode_ok hs (subEncodeEffect_short hvaries hlen) hhead.bits,
      ⟨((memOnly_subVerbatimEffect ch s).forget _).cleared_setA4_regs bits, hhead.type, hhead.order, hhead.bits,
        fun i hi => (memGet?_forgetSums (by decide) _).trans (memGet?_subVerbatimEffect_res hi)⟩,
      keptOutside_answer (keptOutside_append keptOutside_subVerbatimEffect (keptOutside_forgetSums _)) bits⟩

end Sys2Proof.Proofs
end

section
/-!
The FIXED path of `SUB_ENCODE` (`43_subframe_encoder.md` R234, R236): its candidates, the search for the least cost, and the
record of the order selected.
-/
namespace Sys2Proof.Proofs
open Sys2Proof.Machine

/-! ## Plans and residuals -/

theorem isMaxPorder_unique {pmax n order p p' : Nat} (h : IsMaxPorder pmax n order p) (h' : IsMaxPorder pmax n order p') :
    p = p' := by
  obtain ⟨⟨hle, hdvd, hspan⟩, hgreatest⟩ := h
  obtain ⟨⟨hle', hdvd', hspan'⟩, hgreatest'⟩ := h'
  exact le_antisymm (hgreatest' p hle hdvd hspan) (hgreatest p' hle' hdvd' hspan')

/-- Two best plans have the same cost. -/
theorem bits_eq_of_isBestPlan {f : Nat → Int} {n order pmin pmax p p' : Nat} {param param' : Nat → Nat} {bits bits' : Int}
    (h : IsBestPlan f n order pmin pmax p param bits) (h' : IsBestPlan f n order pmin pmax p' param' bits') : bits = bits' := by
  obtain ⟨lo, hi, hmin, hmax, hlo, hhi, hplan, hleast⟩ := h
  obtain ⟨lo', hi', hmin', hmax', hlo', hhi', hplan', hleast'⟩ := h'
  obtain rfl := isMaxPorder_unique hmin hmin'
  obtain rfl := isMaxPorder_unique hmax hmax'
  exact le_antisymm (hleast p' param' bits' hlo' hhi' hplan').1 (hleast' p param bits hlo hhi hplan).1

/-- Samples of at most 17 bits have differences that fit 32 bits (`42_linear_predictor.md` R191). -/
theorem fixedDiff_fits32_of_narrow {x : Nat → Int} {i : Nat} (h : ∀ j, j ≤ i → -65536 ≤ x j ∧ x j ≤ 65536) (order : Nat) :
    fits32 (fixedDiff order x i) := by
  have h0 := h i le_rfl
  have h1 := h (i - 1) (Nat.sub_le ..)
  have h2 := h (i - 2) (Nat.sub_le ..)
  have h3 := h (i - 3) (Nat.sub_le ..)
  have h4 := h (i - 4) (Nat.sub_le ..)
  unfold fixedDiff fits32
  split
  · omega
  · split <;> omega

/-! ## Candidates -/

/-- What the FIXED path runs under (`43_subframe_encoder.md` R231, R234). -/
structure FixedReady (s : State) (ch : Nat) : Prop where
  sub : SubReady s ch
  block : 5 ≤ s.blockLen
  orders : s.regs.cfg.minOrder.toNat ≤ s.regs.cfg.maxOrder.toNat
  porders : s.regs.cfg.minPorder.toNat ≤ s.regs.cfg.maxPorder.toNat ∧ s.regs.cfg.maxPorder.toNat ≤ 8

theorem fixedReady_of_checks {s : State} {ch : Nat} (hcfg : configError s.regs.cfg = none)
    (hs : earlyError (.subEncode ch) s = none) (hlen : 5 ≤ s.blockLen) : FixedReady s ch := by
  have hsub := subReady_of_checks hcfg hs
  simp only [configError, ite_some_eq_none] at hcfg
  obtain ⟨-, -, -, -, -, -, horders, hporders, -⟩ := hcfg
  exact ⟨hsub, hlen, by omega, by omega⟩

section
variable (s : State) (ch o : Nat)

/-- The residual of order `o` (`42_linear_predictor.md` R191). -/
def fixedResidual : Nat → Int := fixedDiff o (sampleAt s ch)

/-- The plan of order `o`. -/
def fixedPlan : Plan :=
  calcRiceOf ((List.range s.blockLen).map (fixedResidual s ch o)) s.blockLen o s.regs.cfg.minPorder.toNat
    s.regs.cfg.maxPorder.toNat

/-- The candidate of order `o`, as long as its residuals fit 32 bits (`43_subframe_encoder.md` R236). -/
def fixedCand : Candidate where
  cost := o * recordAt s ch 2 + 6 + (fixedPlan s ch o).bits
  order := o
  q := []
  shift := 0
  res := (List.range s.blockLen).map (fixedResidual s ch o)
  plan := fixedPlan s ch o

/-- The residuals of order `o` fit 32 bits. -/
def fixedFits : Bool := residualsFit o ((List.range s.blockLen).map (fixedResidual s ch o))

/-- The lowest order of the search. -/
def fixedLowest (s : State) : Nat := min s.regs.cfg.minOrder.toNat 4

/-- The highest order of the search. -/
def fixedHighest (s : State) : Nat := min s.regs.cfg.maxOrder.toNat 4

variable {s ch o}

theorem fixedFits_iff : fixedFits s ch o = true ↔ ∀ i, o ≤ i → i < s.blockLen → fits32 (fixedResidual s ch o i) :=
  residualsFit_map_range ..

theorem fixedResidual_fits32 (h : fixedFits s ch o = true) : ∀ i, i < s.blockLen → fits32 (fixedResidual s ch o i) :=
  fixedDiff_fits32 _ (sampleAt_fits32 s ch) (fixedFits_iff.1 h)

variable (h : FixedReady s ch) (ho : o ≤ 4)
include h ho

theorem FixedReady.candidate_eq : fixedCandidate s ch o
    = if fixedFits s ch o then .ok (fixedCand s ch o) else .error .residualRange := by
  have hres : fixedResOf (s.samples ch s.blockLen) o = (List.range s.blockLen).map (fixedResidual s ch o) := by
    rw [samples_eq, fixedResOf_map_range _ ho (by have := h.block; omega)]
    rfl
  simp only [fixedCandidate, hres]
  rfl

/-- The plan of an order is the best one, whether or not its residuals fit. -/
theorem FixedReady.plan_best :
    IsBestPlan (fixedResidual s ch o) s.blockLen o s.regs.cfg.minPorder.toNat s.regs.cfg.maxPorder.toNat
        (fixedPlan s ch o).porder (partParam (fixedResidual s ch o) s.blockLen o (fixedPlan s ch o).porder) (fixedPlan s ch o).bits
      ∧ (fixedPlan s ch o).params = (List.range (2 ^ (fixedPlan s ch o).porder)).map
        (partParam (fixedResidual s ch o) s.blockLen o (fixedPlan s ch o).porder)
      ∧ (fixedPlan s ch o).porder ≤ 8 := by
  obtain ⟨hbest, hparams, hporder, -⟩ := calcRiceOf_best (f := fixedResidual s ch o) h.sub.nonempty (ho.trans (by have := h.block; omega))
    h.porders.1 rfl
  exact ⟨hbest, hparams, hporder.trans h.porders.2⟩

/-- The cost of an order that fits. -/
theorem FixedReady.cost_range (hfits : fixedFits s ch o = true) :
    -2 ^ 63 ≤ (fixedCand s ch o).cost ∧ (fixedCand s ch o).cost < 2 ^ 63 := by
  have hbits := calcRiceOf_bits_bounds (pmin := s.regs.cfg.minPorder.toNat) (order := o)
    (r := (List.range s.blockLen).map (fixedResidual s ch o)) (by simp)
    (List.forall_mem_map.2 fun i hi => fixedResidual_fits32 hfits i (List.mem_range.1 hi))
    h.sub.nonempty h.sub.block (ho.trans (by have := h.block; omega)) h.porders.1 h.porders.2
  rw [← fixedPlan] at hbits
  rw [fixedCand]
  rcases h.sub.obits with hb | hb <;> simp only [hb] <;> omega

end

/-! ## The record -/

/-- The fields that the FIXED path writes (`43_subframe_encoder.md` R237). -/
def fixedFields (c : Candidate) : List (Nat × List Int) :=
  headFields 2 c.order c.cost ++ [(5, [(c.plan.porder : Int)]), (256, c.plan.params.map fun k => (k : Int))]

theorem fixedFields_apart (c : Candidate) : (fixedFields c).Pairwise RunsApart := by
  simp [fixedFields, headFields, RunsApart]

/-- The state that the FIXED path leaves when it selects order `o`. -/
def fixedDone (s : State) (ch o : Nat) : State :=
  forgetSums ((storeFields s ch (fixedFields (fixedCand s ch o))).setResiduals ch
    ((List.range s.blockLen).map (fixedResidual s ch o)))

/-- The search of the FIXED path: the record of the first of the least orders, or `E_RESIDUAL_RANGE`. -/
theorem FixedReady.path_eq {s : State} {ch : Nat} (h : FixedReady s ch) : ∃ opt,
    FirstLeast (fun o => (fixedCand s ch o).cost) (upto (fixedLowest s) (fixedHighest s)) opt
      ∧ fixedPath ch s = if (upto (fixedLowest s) (fixedHighest s)).all (fixedFits s ch) then .ok (fixedDone s ch opt)
        else .error (.residualRange, s.forget (rangeErrorScratch ch ++ [(.sums, 0, spaceLen)])) := by
  have hle : fixedLowest s ≤ fixedHighest s := min_le_min_right _ h.orders
  have hanswer := visitAll_start (eval := fixedCandidate s ch) (cand := fixedCand s ch)
    (fun o _ ho => h.candidate_eq (ho.trans (min_le_right ..))) (fun _ => rfl)
    (fun o : Nat => (mem_upto (lo := fixedLowest s) (hi := fixedHighest s)).1)
  obtain ⟨opt, hopt, hbest⟩ := firstLeast_searchOf (fixedCand s ch) (List.ne_nil_of_mem (mem_upto.2 ⟨hle, le_rfl⟩))
  refine ⟨opt, hopt, ?_⟩
  have hlo : min s.regs.cfg.minOrder.toNat Config.maxFixedOrder = fixedLowest s := rfl
  have hhi : min s.regs.cfg.maxOrder.toNat Config.maxFixedOrder = fixedHighest s := rfl
  simp only [fixedPath, hlo, hhi, hanswer, addOrders_upto, answerOf]
  cases (upto (fixedLowest s) (fixedHighest s)).all (fixedFits s ch) with
  | true => simp [hbest, bind, Except.bind, pure, Except.pure]; rfl
  | false => rfl

section
variable {s : State} {ch o : Nat}

theorem memOnly_fixedDone (s : State) (ch o : Nat) : MemOnly s (fixedDone s ch o) :=
  have hfields : MemOnly s (storeFields s ch (fixedFields (fixedCand s ch o))) :=
    MemOnly.foldl (fun s (w : Nat × List Int) => (MemOnly.refl s).setSub ch w.1 w.2) _ s
  (hfields.setResiduals ..).forget _

theorem memGet?_fixedDone_res (hfits : fixedFits s ch o = true) {i : Nat} (hi : i < s.blockLen) :
    memGet? (fixedDone s ch o).mem .res (ch * 65536 + i) = some (fixedResidual s ch o i) :=
  (memGet?_forgetSums (by decide) _).trans (memGet?_setResiduals hi (fixedResidual_fits32 hfits i hi))

theorem memGet?_fixedDone_subrec (i : Nat) : memGet? (fixedDone s ch o).mem .subrec i
    = memGet? (storeFields s ch (fixedFields (fixedCand s ch o))).mem .subrec i :=
  (memGet?_forgetSums (by decide) _).trans ((storesIn_setResiduals ..).kept.1 .subrec i rfl)

theorem storesIn_fixedFields (s : State) (ch : Nat) (c : Candidate) :
    StoresIn [(.subrec, ch * 512, 2), (.subrec, ch * 512 + 5, 2), (.subrec, ch * 512 + 256, c.plan.params.length)] s
      (storeFields s ch (fixedFields c)) := by
  refine (storesIn_storeFields s ch _).mono fun sp i hin => ?_
  obtain ⟨w, hw, hin⟩ := (covered_flatMap ..).1 hin
  obtain ⟨rfl, hlo, hhi⟩ := (covered_singleton ..).1 hin
  simp only [fixedFields, headFields, List.cons_append, List.nil_append, List.mem_cons, List.not_mem_nil, or_false] at hw
  simp only [covered_cons_iff, covered_nil, Bool.false_eq_true, or_false, true_and]
  obtain rfl | rfl | rfl | rfl | rfl := hw <;> simp only [List.length_singleton, castList_length] at hlo hhi <;> omega

variable (h : FixedReady s ch) (ho : o ≤ 4)
include h ho

theorem FixedReady.kept_done : keptOutside [(.subrec, ch * 512, 2), (.subrec, ch * 512 + 5, 2),
    (.subrec, ch * 512 + 256, 2 ^ (fixedPlan s ch o).porder), (.res, ch * 65536, s.blockLen), (.sums, 0, 2097152)] s
      (fixedDone s ch o) := by
  obtain ⟨-, hparams, -⟩ := h.plan_best ho
  have hlen : (fixedCand s ch o).plan.params.length = 2 ^ (fixedPlan s ch o).porder :=
    (congrArg List.length hparams).trans (by rw [List.length_map, List.length_range])
  have hfields := storesIn_fixedFields s ch (fixedCand s ch o)
  rw [hlen] at hfields
  exact keptOutside_append (hfields.append (storesIn_setResiduals ..)).kept (keptOutside_forgetSums _)

theorem FixedReady.head_done (hfits : fixedFits s ch o = true) :
    HeadIs (fixedDone s ch o).mem ch 2 o (fixedCand s ch o).cost :=
  (headIs_storeFields (fixedFields_apart _) (List.subset_append_left ..) (by decide) (ho.trans (by decide))
    (h.cost_range ho hfits)).of_kept memGet?_fixedDone_subrec

theorem FixedReady.porder_done :
    memGet? (fixedDone s ch o).mem .subrec (ch * 512 + 5) = some ((fixedPlan s ch o).porder : Int) := by
  obtain ⟨-, -, hporder⟩ := h.plan_best ho
  exact (memGet?_fixedDone_subrec _).trans (memGet?_storeFields_field (fixedFields_apart _) (f := 5)
    (by simp [fixedFields, fixedCand]) (by omega))

theorem FixedReady.param_done {j : Nat} (hj : j < 2 ^ (fixedPlan s ch o).porder) :
    memGet? (fixedDone s ch o).mem .subrec (ch * 512 + 256 + j)
      = some (partParam (fixedResidual s ch o) s.blockLen o (fixedPlan s ch o).porder j : Int) := by
  obtain ⟨-, hparams, -⟩ := h.plan_best ho
  have hle : partParam (fixedResidual s ch o) s.blockLen o (fixedPlan s ch o).porder j ≤ 14 := partParam_le ..
  refine (memGet?_fixedDone_subrec _).trans (memGet?_storeFields (fixedFields_apart _) (f := 256)
    (vals := (fixedPlan s ch o).params.map fun k => (k : Int)) (by simp [fixedFields, fixedCand]) (castList_getElem? ?_)
    (by omega))
  rw [hparams, List.getElem?_map, List.getElem?_range hj]
  rfl

end

/-! ## The command -/

theorem exec_subEncode_error {s u : State} {ch : Nat} {e : ErrCode} (h : earlyError (.subEncode ch) s = none)
    (heffect : subEncodeEffect ch s = .error (e, u)) : exec (.subEncode ch) s = fail e u := by
  rw [exec_subEncode_of_checks h, heffect]
  rfl

theorem keptOutside_rangeError (s : State) (ch : Nat) : keptOutside (rangeScratch ch ++ [(.sums, 0, 2097152)]) s
    (s.forget (rangeErrorScratch ch ++ [(.sums, 0, spaceLen)])) := by
  rw [rangeErrorScratch_eq]
  exact keptOutside_forget ..

/-- Settles O40: the search goes up through the orders, and the record is that of the first of the least. -/
theorem sub_encode_fixed_least_cost : Obligations.sub_encode_fixed_least_cost := by
  intro s ch hcfg hs hlen hvaries hfixed n lo hi plan fits
  have h := fixedReady_of_checks hcfg hs hlen
  have heffect := subEncodeEffect_fixed hvaries hlen hfixed
  obtain ⟨opt, hleast, hpath⟩ := h.path_eq
  have hfits : (upto (fixedLowest s) (fixedHighest s)).all (fixedFits s ch) = true ↔ ∀ o, lo ≤ o → o ≤ hi → fits o := by
    rw [List.all_eq_true]
    exact ⟨fun hall o hlo hhi => fixedFits_iff.1 (hall o (mem_upto.2 ⟨hlo, hhi⟩)),
      fun hall o ho => fixedFits_iff.2 (hall o (mem_upto.1 ho).1 (mem_upto.1 ho).2)⟩
  refine ⟨fun hnarrow o _ _ i _ hi => fixedDiff_fits32_of_narrow (fun j hj => hnarrow j (hj.trans_lt hi)) o, fun hall => ?_,
    fun ⟨o, hlo, hhi, hnot⟩ => ?_⟩
  · obtain ⟨hlo, hhi⟩ := mem_upto.1 (mem_of_firstLeast hleast)
    have ho : opt ≤ 4 := hhi.trans (min_le_right ..)
    have hoptFits := fixedFits_iff.2 (hall opt hlo hhi)
    have hhead := h.head_done ho hoptFits
    have hdone := heffect.trans (hpath.trans (if_pos (hfits.2 hall)))
    refine ⟨_, opt, _, _, _, hlo, hhi, (h.plan_best ho).1, fun o' p' param' bits' hlo' hhi' hplan' => ?least,
      exec_subEncode_ok hs hdone hhead.bits, (memOnly_fixedDone s ch opt).cleared_setA4_regs _, hhead.type, hhead.order,
      hhead.bits, h.porder_done ho, fun j hj => h.param_done ho hj,
      fun i hi => memGet?_fixedDone_res hoptFits hi, keptOutside_answer (h.kept_done ho) _⟩
    have hmem := mem_upto.2 ⟨hlo', hhi'⟩
    rw [bits_eq_of_isBestPlan hplan' (h.plan_best (hhi'.trans (min_le_right ..))).1]
    exact ⟨cost_le_of_firstLeast hleast hmem, cost_lt_of_firstLeast hleast (pairwise_upto ..) hmem⟩
  · have herror := heffect.trans (hpath.trans (if_neg fun hall => hnot (hfits.1 hall o hlo hhi)))
    obtain ⟨t, hfail, hregs, hkept⟩ := fail_kept .residualRange (keptOutside_rangeError s ch)
    exact ⟨t, (exec_subEncode_error hs herror).trans hfail, hregs, hkept⟩

end Sys2Proof.Proofs
end

section
/-!
The reader of a subframe (`30_encoding.md` R111 to R118): from the bits of each part it gets back what was written.
-/
namespace Sys2Proof.Proofs
open Sys2Proof.Machine

/-! ## Fields -/

/-- The bits of a field are those of the element that they make. -/
theorem fieldBits_toNat (w : Nat) (v : Int) : fieldBits w ((BitVec.ofInt w v).toNat : Int) = fieldBits w v := by
  rw [fieldBits, BitVec.ofInt_natCast, BitVec.ofNat_toNat, BitVec.setWidth_eq, fieldBits]

theorem readNat_fieldBits {w v : Nat} (h : v < 2 ^ w) (rest : List Bool) :
    readNat w (fieldBits w v ++ rest) = some (v, rest) := by
  rw [fieldBits_eq_msbBits, readNat_msbBits h]

/-- A signed value of w bits. -/
def FitsDepth (w : Nat) (v : Int) : Prop := 0 < w ∧ -2 ^ (w - 1) ≤ v ∧ v < 2 ^ (w - 1)

theorem readInt_fieldBits {w : Nat} {v : Int} (h : FitsDepth w v) (rest : List Bool) :
    readInt w (fieldBits w v ++ rest) = some (v, rest) := by
  obtain ⟨hw, hlo, hhi⟩ := h
  have hback : (BitVec.ofInt w v).toInt = v := BitVec.toInt_ofInt_eq_self hw hlo hhi
  rw [BitVec.toInt_eq_toNat_cond] at hback
  rw [← fieldBits_toNat, readInt, readNat_fieldBits (BitVec.isLt _), Option.map_some, hback]

/-- A reader of one item reads a list of them. -/
theorem readMany_flatMap {α : Type} {item : List Bool → Option (α × List Bool)} {bits : α → List Bool} {l : List α}
    (h : ∀ a ∈ l, ∀ rest, item (bits a ++ rest) = some (a, rest)) (rest : List Bool) :
    readMany item l.length (l.flatMap bits ++ rest) = some (l, rest) := by
  induction l with
  | nil => rfl
  | cons a l ih =>
    obtain ⟨ha, hl⟩ := List.forall_mem_cons.1 h
    simp [readMany, ha, ih hl]

theorem readMany_fieldBits {w : Nat} {l : List Int} (h : ∀ v ∈ l, FitsDepth w v) (rest : List Bool) :
    readMany (readInt w) l.length (l.flatMap (fieldBits w) ++ rest) = some (l, rest) :=
  readMany_flatMap (fun v hv => readInt_fieldBits (h v hv)) rest

/-! ## The residual section -/

/-- What a plan needs so that the reader finds its partitions (`30_encoding.md` R117, `45_frame_encoder.md` R269). -/
structure PlanFits (n order p : Nat) (param : Nat → Nat) : Prop where
  porder : p ≤ 8
  dvd : 2 ^ p ∣ n
  span : order ≤ n / 2 ^ p
  param : ∀ j, j < 2 ^ p → param j ≤ 14

theorem planFits_of_isBestPlan {f : Nat → Int} {n order pmin pmax p : Nat} {param : Nat → Nat} {bits : Int}
    (h : IsBestPlan f n order pmin pmax p param bits) (hpmax : pmax ≤ 8) : PlanFits n order p param := by
  obtain ⟨lo, hi, -, ⟨⟨hle, hdvd, hspan⟩, -⟩, -, hp, ⟨hparam, -⟩, -⟩ := h
  have hpow : 2 ^ p ∣ 2 ^ hi := Nat.pow_dvd_pow 2 hp
  exact ⟨hp.trans (hle.trans hpmax), hpow.trans hdvd,
    hspan.trans (Nat.div_le_div_left (Nat.le_of_dvd (Nat.two_pow_pos _) hpow) (Nat.two_pow_pos _)),
    fun j hj => (hparam j hj).1⟩

/-- The residuals of partition j (`41_rice_coder.md` R177). -/
def partRes (f : Nat → Int) (n order p j : Nat) : List Int :=
  (List.range' (partStart n order p j) ((j + 1) * (n / 2 ^ p) - partStart n order p j)).map f

/-- The bits of partition j. -/
def partBits (f : Nat → Int) (n order p : Nat) (param : Nat → Nat) (j : Nat) : List Bool :=
  fieldBits 4 (param j) ++ (partRes f n order p j).flatMap fun v => riceBits v (param j)

/-- One turn of the reader's loop over the partitions. -/
def readPartition (n order p : Nat) (acc : List Int × List Bool) (j : Nat) : Option (List Int × List Bool) := do
  let (k, l3) ← readNat 4 acc.2
  let (rs, l4) ← readMany (readRice k) (n / 2 ^ p - if j = 0 then order else 0) l3
  pure (acc.1 ++ rs, l4)

section
variable {f : Nat → Int} {n order p : Nat} {param : Nat → Nat}

theorem residualBits_map_range : residualBits ((List.range n).map f) n order p ((List.range (2 ^ p)).map param)
    = fieldBits 2 (0 : Nat) ++ fieldBits 4 p ++ (List.range (2 ^ p)).flatMap (partBits f n order p param) := by
  rw [residualBits, zipIdx_map_range, List.flatMap_map]
  congr 1
  refine List.flatMap_congr fun j hj => ?_
  rw [partitionBits, partition_map_range (List.mem_range.1 hj)]
  rfl

theorem readResiduals_eq (hp : p < 2 ^ 4) (l : List Bool) : readResiduals n order (fieldBits 2 (0 : Nat) ++ fieldBits 4 p ++ l)
    = (List.range (2 ^ p)).foldlM (readPartition n order p) ([], l) := by
  simp only [readResiduals, List.append_assoc, readNat_fieldBits (show 0 < 2 ^ 2 by decide), readNat_fieldBits hp,
    Option.bind_eq_bind, Option.bind_some]
  rfl

variable (h : PlanFits n order p param)
include h

/-- Only the first partition has the warm-up samples before it. -/
theorem PlanFits.partStart_eq (j : Nat) : partStart n order p j = if j = 0 then order else j * (n / 2 ^ p) := by
  rw [partStart]
  split
  · next hj => rw [hj, Nat.zero_mul, Nat.zero_max]
  · next hj => exact max_eq_left (h.span.trans (Nat.le_mul_of_pos_left _ (Nat.pos_of_ne_zero hj)))

theorem PlanFits.partRes_length (j : Nat) :
    (partRes f n order p j).length = n / 2 ^ p - if j = 0 then order else 0 := by
  rw [partRes, List.length_map, List.length_range', h.partStart_eq]
  split
  · next hj => rw [hj, Nat.zero_add, Nat.one_mul]
  · rw [Nat.succ_mul, Nat.add_sub_cancel_left, Nat.sub_zero]

theorem PlanFits.readPartition_partBits {j : Nat} (hj : j < 2 ^ p) (acc : List Int) (rest : List Bool) :
    readPartition n order p (acc, partBits f n order p param j ++ rest) j
      = some (acc ++ partRes f n order p j, rest) := by
  have hparam := h.param j hj
  have hread : readMany (readRice (param j)) (n / 2 ^ p - if j = 0 then order else 0)
      (((partRes f n order p j).flatMap fun v => riceBits v (param j)) ++ rest) = some (partRes f n order p j, rest) := by
    rw [← h.partRes_length (f := f)]
    exact readMany_flatMap (fun v _ => readRice_riceBits v (param j)) rest
  rw [readPartition, partBits, List.append_assoc, readNat_fieldBits (by omega)]
  simp only [Option.bind_eq_bind, Option.bind_some, hread]
  rfl

theorem PlanFits.foldlM_readPartition {l : List Nat} (hl : ∀ j ∈ l, j < 2 ^ p) (acc : List Int) (rest : List Bool) :
    l.foldlM (readPartition n order p) (acc, l.flatMap (partBits f n order p param) ++ rest)
      = some (acc ++ l.flatMap (partRes f n order p), rest) := by
  induction l generalizing acc with
  | nil => simp
  | cons j l ih =>
    obtain ⟨hj, hl⟩ := List.forall_mem_cons.1 hl
    rw [List.foldlM_cons, List.flatMap_cons, List.append_assoc, h.readPartition_partBits hj, Option.bind_eq_bind,
      Option.bind_some, ih hl, List.append_assoc, List.flatMap_cons]

/-- The first partitions, one after the other, are the residuals up to their end. -/
theorem PlanFits.flatMap_partRes (m : Nat) :
    (List.range m).flatMap (partRes f n order p) = (List.range' order (m * (n / 2 ^ p) - order)).map f := by
  have hspan := h.span
  induction m with
  | zero => simp
  | succ m ih =>
    rw [List.range_succ, List.flatMap_append, ih, List.flatMap_singleton, partRes, ← List.map_append, h.partStart_eq]
    rcases Nat.eq_zero_or_pos m with rfl | hm
    · simp
    · have hle : order ≤ m * (n / 2 ^ p) := hspan.trans (Nat.le_mul_of_pos_left _ hm)
      have hjoin := List.range'_append (s := order) (m := m * (n / 2 ^ p) - order) (n := n / 2 ^ p) (step := 1)
      rw [Nat.one_mul, Nat.add_sub_cancel' hle] at hjoin
      rw [if_neg hm.ne', Nat.succ_mul, Nat.add_sub_cancel_left, hjoin]
      congr 2
      omega

/-- The reader gets the residuals after the warm-up samples (`30_encoding.md` R117). -/
theorem PlanFits.readResiduals_residualBits (rest : List Bool) :
    readResiduals n order (residualBits ((List.range n).map f) n order p ((List.range (2 ^ p)).map param) ++ rest)
      = some ((List.range' order (n - order)).map f, rest) := by
  have hp : p < 2 ^ 4 := h.porder.trans_lt (by decide)
  rw [residualBits_map_range, List.append_assoc, readResiduals_eq hp, h.foldlM_readPartition fun j => List.mem_range.1,
    h.flatMap_partRes, Nat.mul_div_cancel' h.dvd, List.nil_append]

end

/-! ## The four types -/

/-- The reader behind the header of a subframe, by its type code (`30_encoding.md` R112). -/
def readBody (n obits code : Nat) (l : List Bool) : Option (List Int × List Bool) :=
  if code = 0 then do
    let (v, l4) ← readInt obits l
    pure (List.replicate n v, l4)
  else if code = 1 then readMany (readInt obits) n l
  else if 8 ≤ code ∧ code ≤ 12 then do
    let (warm, l4) ← readMany (readInt obits) (code - 8) l
    let (res, l5) ← readResiduals n (code - 8) l4
    pure (rebuild (code - 8) (fixedWeights (code - 8)) 0 (warm ++ res), l5)
  else if 32 ≤ code then do
    let (warm, l4) ← readMany (readInt obits) (code - 31) l
    let (prec, l5) ← readNat 4 l4
    let (shift, l6) ← readNat 5 l5
    let (q, l7) ← readMany (readInt (prec + 1)) (code - 31) l6
    let (res, l8) ← readResiduals n (code - 31) l7
    pure (rebuild (code - 31) q shift (warm ++ res), l8)
  else none

section
variable {n obits : Nat}

theorem readSubframe_head {type order : Int} {code : Nat} (hcode : typeCode type order = code) (hlt : code < 2 ^ 6)
    (l : List Bool) : readSubframe n obits (subHeaderBits type order ++ l) = readBody n obits code l := by
  have hzero := readNat_fieldBits (show 0 < 2 ^ 1 by decide)
  have hhead : subHeaderBits type order = fieldBits 1 (0 : Nat) ++ fieldBits 6 code ++ fieldBits 1 (0 : Nat) := by
    rw [subHeaderBits, hcode]
    rfl
  simp only [readSubframe, hhead, List.append_assoc, hzero, readNat_fieldBits hlt, Option.bind_eq_bind, Option.bind_some]
  rfl

theorem readSubframe_constant {v : Int} (hv : FitsDepth obits v) (rest : List Bool) :
    readSubframe n obits (subHeaderBits 0 0 ++ (fieldBits obits v ++ rest)) = some (List.replicate n v, rest) := by
  rw [readSubframe_head (code := 0) rfl (by decide), readBody, if_pos rfl, readInt_fieldBits hv]
  rfl

theorem readSubframe_verbatim {l : List Int} (hl : ∀ v ∈ l, FitsDepth obits v) (rest : List Bool) :
    readSubframe l.length obits (subHeaderBits 1 0 ++ (sampleBits obits l ++ rest)) = some (l, rest) := by
  rw [readSubframe_head (code := 1) rfl (by decide), readBody, if_neg (by decide), if_pos rfl]
  exact readMany_fieldBits hl rest

section
variable {warm res : List Int} {bits rest : List Bool} (hwarm : ∀ v ∈ warm, FitsDepth obits v)
  (hres : readResiduals n warm.length (bits ++ rest) = some (res, rest))
include hwarm hres

theorem readSubframe_fixed (horder : warm.length ≤ 4) :
    readSubframe n obits (subHeaderBits 2 warm.length ++ (sampleBits obits warm ++ (bits ++ rest)))
      = some (rebuild warm.length (fixedWeights warm.length) 0 (warm ++ res), rest) := by
  rw [readSubframe_head (code := 8 + warm.length) rfl (by omega), readBody, if_neg (by omega), if_neg (by omega),
    if_pos (by omega), Nat.add_sub_cancel_left]
  simp only [sampleBits, readMany_fieldBits hwarm, hres, Option.bind_eq_bind, Option.bind_some]
  rfl

theorem readSubframe_lpc (horder : 1 ≤ warm.length ∧ warm.length ≤ 32) {prec shift : Nat} (hprec : 1 ≤ prec ∧ prec ≤ 15)
    (hshift : shift ≤ 15) {q : List Int} (hlen : q.length = warm.length) (hq : ∀ c ∈ q, FitsDepth prec c) :
    readSubframe n obits (subHeaderBits 3 warm.length ++ (sampleBits obits warm ++ (coefBits prec shift q ++ (bits ++ rest))))
      = some (rebuild warm.length q shift (warm ++ res), rest) := by
  have hcode : typeCode 3 warm.length = (31 + warm.length : Nat) := by
    have hbase : typeCode 3 warm.length = 32 + ((warm.length : Int) - 1) := rfl
    rw [hbase]
    omega
  have hprecField : (prec : Int) - 1 = (prec - 1 : Nat) := by omega
  have hcoefs := readMany_fieldBits hq (bits ++ rest)
  rw [hlen] at hcoefs
  rw [readSubframe_head hcode (by omega), readBody, if_neg (by omega), if_neg (by omega), if_neg (by omega), if_pos (by omega),
    Nat.add_sub_cancel_left]
  simp only [sampleBits, readMany_fieldBits hwarm, coefBits, hprecField, List.append_assoc,
    readNat_fieldBits (show prec - 1 < 2 ^ 4 by omega), readNat_fieldBits (show shift < 2 ^ 5 by omega),
    Nat.sub_add_cancel hprec.1, hcoefs, hres, Option.bind_eq_bind, Option.bind_some]
  rfl

end

end

end Sys2Proof.Proofs
end

section
/-!
Losslessness of a subframe (`43_subframe_encoder.md` R239): the record that each path of `SUB_ENCODE` leaves is accepted, and the
reader rebuilds the block from its bits.
-/
namespace Sys2Proof.Proofs
open Sys2Proof.Machine

/-! ## Accepted records -/

/-- `WR_SUBFRAME` accepts the record of channel `ch`, and the reader gets `x 0` .. `x (n − 1)` from its bits, whatever follows
them. -/
def ReadsBack (t : State) (ch : Nat) (x : Nat → Int) : Prop :=
  recordAccepted t ch = true ∧ ∀ rest, readSubframe t.blockLen (recordAt t ch 2).toNat (subframeBits t ch ++ rest)
    = some ((List.range t.blockLen).map x, rest)

/-- A bit depth of `10_state.md` R48. -/
def ObitsOk (t : State) (ch : Nat) : Prop := recordAt t ch 2 = 16 ∨ recordAt t ch 2 = 17

section
variable {t : State} {ch : Nat}

theorem recordAccepted_iff : recordAccepted t ch = true ↔
    (0 ≤ recordAt t ch 0 ∧ recordAt t ch 0 ≤ 3) ∧ ObitsOk t ch
    ∧ (recordAt t ch 0 ≠ 2 ∨ 0 ≤ recordAt t ch 1 ∧ recordAt t ch 1 ≤ 4)
    ∧ (recordAt t ch 0 ≠ 3 ∨ 1 ≤ recordAt t ch 1 ∧ recordAt t ch 1 ≤ 32)
    ∧ (¬(recordAt t ch 0 = 2 ∨ recordAt t ch 0 = 3) ∨ recordAt t ch 1 ≤ t.blockLen)
    ∧ (recordAt t ch 0 ≠ 3 ∨ (1 ≤ recordAt t ch 3 ∧ recordAt t ch 3 ≤ 15) ∧ (0 ≤ recordAt t ch 4 ∧ recordAt t ch 4 ≤ 15)
      ∧ ∀ j, j < (recordAt t ch 1).toNat → -2 ^ ((recordAt t ch 3).toNat - 1) ≤ recordAt t ch (32 + j)
        ∧ recordAt t ch (32 + j) ≤ 2 ^ ((recordAt t ch 3).toNat - 1) - 1)
    ∧ (¬(recordAt t ch 0 = 2 ∨ recordAt t ch 0 = 3) ∨ (0 ≤ recordAt t ch 5 ∧ recordAt t ch 5 ≤ 8)
      ∧ (t.blockLen : Int) % 2 ^ (recordAt t ch 5).toNat = 0
      ∧ recordAt t ch 1 ≤ (t.blockLen : Int) / 2 ^ (recordAt t ch 5).toNat
      ∧ ∀ j, j < 2 ^ (recordAt t ch 5).toNat → 0 ≤ recordAt t ch (256 + j) ∧ recordAt t ch (256 + j) ≤ 14) := by
  simp only [recordAccepted, Bool.and_eq_true, Bool.or_eq_true, Bool.not_eq_true', Bool.or_eq_false_iff, decide_eq_true_eq,
    decide_eq_false_iff_not, inRange_eq_true, List.all_eq_true, List.mem_range, not_or, and_assoc, ObitsOk]
  rfl

theorem subframeBits_eq (t : State) (ch : Nat) :
    subframeBits t ch = subHeaderBits (recordAt t ch 0) (recordAt t ch 1) ++ subBodyBits t ch := rfl

/-! ## Unpredicted subframes -/

theorem readsBack_constant (htype : recordAt t ch 0 = 0) (horder : recordAt t ch 1 = 0) (hobits : ObitsOk t ch) {v : Int}
    (hres : residualAt t ch 0 = v) (hv : FitsDepth (recordAt t ch 2).toNat v) {x : Nat → Int}
    (hx : ∀ i, i < t.blockLen → x i = v) : ReadsBack t ch x := by
  refine ⟨recordAccepted_iff.2 ?_, fun rest => ?_⟩
  · simp [htype, hobits]
  · have hbody : subBodyBits t ch = fieldBits (recordAt t ch 2).toNat v := by
      have hsample : subBodyBits t ch = sampleBits (recordAt t ch 2).toNat (t.residuals ch 1) := if_pos htype
      rw [hsample, residuals_eq, List.range_one, List.map_singleton, hres, sampleBits, List.flatMap_singleton]
    have hblock : (List.range t.blockLen).map x = List.replicate t.blockLen v := by
      refine List.eq_replicate_iff.2 ⟨by simp, List.forall_mem_map.2 fun i hi => hx i (List.mem_range.1 hi)⟩
    rw [subframeBits_eq, htype, horder, hbody, List.append_assoc, readSubframe_constant hv, hblock]

theorem readsBack_verbatim (htype : recordAt t ch 0 = 1) (horder : recordAt t ch 1 = 0) (hobits : ObitsOk t ch) {x : Nat → Int}
    (hres : ∀ i, i < t.blockLen → residualAt t ch i = x i)
    (hx : ∀ i, i < t.blockLen → FitsDepth (recordAt t ch 2).toNat (x i)) : ReadsBack t ch x := by
  refine ⟨recordAccepted_iff.2 ?_, fun rest => ?_⟩
  · simp [htype, hobits]
  · have hbody : subBodyBits t ch = sampleBits (recordAt t ch 2).toNat ((List.range t.blockLen).map x) := by
      have hsample : subBodyBits t ch = sampleBits (recordAt t ch 2).toNat (t.residuals ch t.blockLen) :=
        (if_neg (by rw [State.sub, recIndex]; exact htype.trans_ne (by decide))).trans (if_pos htype)
      rw [hsample, residuals_eq]
      exact congrArg _ (List.map_congr_left fun i hi => hres i (List.mem_range.1 hi))
    have hread := readSubframe_verbatim (l := (List.range t.blockLen).map x)
      (List.forall_mem_map.2 fun i hi => hx i (List.mem_range.1 hi)) rest
    rw [List.length_map, List.length_range] at hread
    rw [subframeBits_eq, htype, horder, hbody, List.append_assoc, hread]

end

/-! ## Predicted subframes -/

/-- SUB[ch] and RES[ch] as `WR_SUBFRAME` reads them, of a subframe with prediction order `order`, a plan of partition order `p`
and the residuals f. -/
structure Predicted (t : State) (ch : Nat) (type : Int) (order p : Nat) (param : Nat → Nat) (f : Nat → Int) : Prop where
  plan : PlanFits t.blockLen order p param
  type : recordAt t ch 0 = type
  order : recordAt t ch 1 = order
  obits : ObitsOk t ch
  porder : recordAt t ch 5 = p
  params : ∀ j, j < 2 ^ p → recordAt t ch (256 + j) = param j
  res : ∀ i, i < t.blockLen → residualAt t ch i = f i

section
variable {t : State} {ch order p : Nat} {type : Int} {param : Nat → Nat} {f x : Nat → Int}
  (h : Predicted t ch type order p param f)
include h

theorem Predicted.order_le : order ≤ t.blockLen := h.plan.span.trans (Nat.div_le_self ..)

theorem Predicted.residuals : t.residuals ch t.blockLen = (List.range t.blockLen).map f := by
  rw [residuals_eq]
  exact List.map_congr_left fun i hi => h.res i (List.mem_range.1 hi)

theorem Predicted.recParams : recParams t ch = (List.range (2 ^ p)).map param := by
  have hporder : t.sub ch 5 = p := h.porder
  rw [Machine.recParams, hporder, Int.toNat_natCast, State.readRun, List.map_map]
  refine List.map_congr_left fun j hj => ?_
  have hparam : t.memRead .subrec (recIndex ch 256 + j) = param j := by
    rw [recIndex, Nat.add_assoc]
    exact h.params j (List.mem_range.1 hj)
  rw [Function.comp_apply, hparam, Int.toNat_natCast]

theorem Predicted.residualBits_eq : residualBits (t.residuals ch t.blockLen) t.blockLen (t.sub ch 1).toNat (t.sub ch 5).toNat
    (Machine.recParams t ch)
      = residualBits ((List.range t.blockLen).map f) t.blockLen order p ((List.range (2 ^ p)).map param) := by
  have horder : t.sub ch 1 = order := h.order
  have hporder : t.sub ch 5 = p := h.porder
  rw [h.residuals, horder, hporder, h.recParams, Int.toNat_natCast, Int.toNat_natCast]

/-- The warm-up samples. -/
theorem Predicted.warm_eq :
    (t.residuals ch t.blockLen).take (t.sub ch 1).toNat = (List.range order).map f := by
  have horder : t.sub ch 1 = order := h.order
  rw [h.residuals, horder, Int.toNat_natCast, ← List.map_take, List.take_range, min_eq_left h.order_le]

/-- What the reader makes of the residual section, put behind the warm-up samples. -/
theorem Predicted.warm_append : (List.range order).map f ++ (List.range' order (t.blockLen - order)).map f
    = (List.range t.blockLen).map f := by
  rw [← List.map_append, List.range_eq_range', List.range_eq_range']
  have hjoin := List.range'_append (s := 0) (m := order) (n := t.blockLen - order) (step := 1)
  rw [Nat.one_mul, Nat.zero_add, Nat.add_sub_cancel' h.order_le] at hjoin
  rw [hjoin]

/-- The checks that FIXED and LPC records share. -/
theorem Predicted.plan_checks : recordAt t ch 1 ≤ t.blockLen ∧ (0 ≤ recordAt t ch 5 ∧ recordAt t ch 5 ≤ 8)
    ∧ (t.blockLen : Int) % 2 ^ (recordAt t ch 5).toNat = 0
    ∧ recordAt t ch 1 ≤ (t.blockLen : Int) / 2 ^ (recordAt t ch 5).toNat
    ∧ ∀ j, j < 2 ^ (recordAt t ch 5).toNat → 0 ≤ recordAt t ch (256 + j) ∧ recordAt t ch (256 + j) ≤ 14 := by
  have hporder := h.plan.porder
  have hle := h.order_le
  rw [h.order, h.porder, Int.toNat_natCast]
  refine ⟨by omega, by omega, ?_, ?_, fun j hj => ?_⟩
  · exact Int.emod_eq_zero_of_dvd (by exact_mod_cast h.plan.dvd)
  · exact_mod_cast h.plan.span
  · have hparam := h.plan.param j hj
    rw [h.params j hj]
    omega

theorem Predicted.readResiduals (rest : List Bool) :
    readResiduals t.blockLen ((List.range order).map f).length (residualBits ((List.range t.blockLen).map f) t.blockLen order p
      ((List.range (2 ^ p)).map param) ++ rest) = some ((List.range' order (t.blockLen - order)).map f, rest) := by
  rw [List.length_map, List.length_range]
  exact h.plan.readResiduals_residualBits rest

end

section
variable {t : State} {ch order p : Nat} {param : Nat → Nat} {x : Nat → Int}

theorem rebuild_fixedDiff {n : Nat} (horder : order ≤ 4) (hle : order ≤ n) :
    rebuild order (fixedWeights order) 0 ((List.range n).map (fixedDiff order x)) = (List.range n).map x := by
  rw [← fixedResOf_map_range x horder hle, fixedWeights_eq horder, fixedResOf, rebuild_predictRes _ _ (by simpa using hle)]

/-- A FIXED subframe (`42_linear_predictor.md` R191, R205). -/
theorem Predicted.readsBack_fixed (h : Predicted t ch 2 order p param (fixedDiff order x)) (horder : order ≤ 4)
    (hx : ∀ i, i < t.blockLen → FitsDepth (recordAt t ch 2).toNat (x i)) : ReadsBack t ch x := by
  refine ⟨recordAccepted_iff.2 ?_, fun rest => ?_⟩
  · obtain ⟨hle, hplan⟩ := h.plan_checks
    refine ⟨?_, h.obits, .inr ?_, .inl ?_, .inr hle, .inl ?_, .inr hplan⟩
    all_goals simp only [h.type, h.order]
    all_goals omega
  · have hbody : subBodyBits t ch = sampleBits (recordAt t ch 2).toNat ((List.range order).map (fixedDiff order x))
        ++ residualBits ((List.range t.blockLen).map (fixedDiff order x)) t.blockLen order p ((List.range (2 ^ p)).map param) := by
      have htype : t.sub ch 0 = 2 := h.type
      rw [subBodyBits, ← h.residualBits_eq, ← h.warm_eq]
      simp [htype, typeConstant, typeVerbatim, typeLpc]
      rfl
    have hwarm : ∀ v ∈ (List.range order).map (fixedDiff order x), FitsDepth (recordAt t ch 2).toNat v :=
      List.forall_mem_map.2 fun i hi => by
        rw [fixedDiff_of_lt x (List.mem_range.1 hi)]
        exact hx i ((List.mem_range.1 hi).trans_le h.order_le)
    have hread := readSubframe_fixed (n := t.blockLen) hwarm (h.readResiduals rest) (by simpa using horder)
    rw [h.warm_append, List.length_map, List.length_range, rebuild_fixedDiff horder h.order_le] at hread
    rw [subframeBits_eq, h.type, h.order, hbody, List.append_assoc, List.append_assoc]
    exact hread

theorem lpcDiff_of_lt {q : Nat → Int} {shift i : Nat} (hlt : i < order) : lpcDiff order q shift x i = x i := by
  rw [lpcDiff, if_pos hlt]

theorem rebuild_lpcDiff {n shift : Nat} (q : Nat → Int) (hle : order ≤ n) :
    rebuild order ((List.range order).map fun j => q (j + 1)) shift ((List.range n).map (lpcDiff order q shift x))
      = (List.range n).map x := by
  rw [← lpcResOf_map_range x q shift hle, lpcResOf, rebuild_predictRes _ _ (by simpa using hle)]

/-- The quantized set in SUB[ch] as `WR_SUBFRAME` reads it: coefficients q 1 .. q order that fit the precision, and the shift. -/
structure LpcSet (t : State) (ch order prec shift : Nat) (q : Nat → Int) : Prop where
  orders : 1 ≤ order ∧ order ≤ 32
  precisions : 1 ≤ prec ∧ prec ≤ 15
  shift_le : shift ≤ 15
  fits : ∀ j, j < order → FitsDepth prec (q (j + 1))
  prec : recordAt t ch 3 = prec
  shift : recordAt t ch 4 = shift
  coefs : ∀ j, j < order → recordAt t ch (32 + j) = q (j + 1)

theorem LpcSet.recCoefs {prec shift : Nat} {q : Nat → Int} (hset : LpcSet t ch order prec shift q)
    (horder : t.sub ch 1 = order) : recCoefs t ch = (List.range order).map fun j => q (j + 1) := by
  rw [Machine.recCoefs, horder, Int.toNat_natCast, State.readRun]
  refine List.map_congr_left fun j hj => ?_
  rw [recIndex, Nat.add_assoc]
  exact hset.coefs j (List.mem_range.1 hj)

/-- An LPC subframe (`42_linear_predictor.md` R198, R205). -/
theorem Predicted.readsBack_lpc {prec shift : Nat} {q : Nat → Int} (h : Predicted t ch 3 order p param (lpcDiff order q shift x))
    (hset : LpcSet t ch order prec shift q) (hx : ∀ i, i < t.blockLen → FitsDepth (recordAt t ch 2).toNat (x i)) :
    ReadsBack t ch x := by
  obtain ⟨hlo, h32⟩ := hset.orders
  obtain ⟨hprec, hprec15⟩ := hset.precisions
  have hshift := hset.shift_le
  refine ⟨recordAccepted_iff.2 ?_, fun rest => ?_⟩
  · obtain ⟨hle, hplan⟩ := h.plan_checks
    refine ⟨?_, h.obits, .inl ?_, .inr ?_, .inr hle, .inr ⟨?_, ?_, fun j hj => ?_⟩, .inr hplan⟩
    case refine_6 =>
      rw [h.order, Int.toNat_natCast] at hj
      obtain ⟨-, hmin, hmax⟩ := hset.fits j hj
      rw [hset.coefs j hj, hset.prec, Int.toNat_natCast]
      omega
    all_goals simp only [h.type, h.order, hset.prec, hset.shift]
    all_goals omega
  · have hbody : subBodyBits t ch = sampleBits (recordAt t ch 2).toNat ((List.range order).map (lpcDiff order q shift x))
        ++ coefBits prec shift ((List.range order).map fun j => q (j + 1))
        ++ residualBits ((List.range t.blockLen).map (lpcDiff order q shift x)) t.blockLen order p
          ((List.range (2 ^ p)).map param) := by
      have htype : t.sub ch 0 = 3 := h.type
      have hprec : t.sub ch 3 = prec := hset.prec
      have hshift : t.sub ch 4 = shift := hset.shift
      rw [subBodyBits, ← h.residualBits_eq, ← h.warm_eq, ← hset.recCoefs h.order]
      simp [htype, hprec, hshift, typeConstant, typeVerbatim, typeLpc]
      rfl
    have hwarm : ∀ v ∈ (List.range order).map (lpcDiff order q shift x), FitsDepth (recordAt t ch 2).toNat v :=
      List.forall_mem_map.2 fun i hi => by
        rw [lpcDiff_of_lt (List.mem_range.1 hi)]
        exact hx i ((List.mem_range.1 hi).trans_le h.order_le)
    have hread := readSubframe_lpc (n := t.blockLen) hwarm (h.readResiduals rest) (by simpa using hset.orders) hset.precisions
      hset.shift_le (q := (List.range order).map fun j => q (j + 1)) (by simp)
      (List.forall_mem_map.2 fun j hj => hset.fits j (List.mem_range.1 hj))
    rw [h.warm_append, List.length_map, List.length_range, rebuild_lpcDiff q h.order_le] at hread
    rw [subframeBits_eq, h.type, h.order, hbody, List.append_assoc, List.append_assoc, List.append_assoc]
    exact hread

end

end Sys2Proof.Proofs
end

section
/-!
`SUB_ENCODE` and the reader, path by path (`43_subframe_encoder.md` R231, R239).
-/
namespace Sys2Proof.Proofs
open Sys2Proof.Machine

/-! ## A command that has succeeded -/

/-- After a `SUB_ENCODE` the block and its bit depth are as before, and the reader gets the samples. -/
structure Lossless (s t : State) (ch : Nat) : Prop where
  block : t.blockLen = s.blockLen
  obits : recordAt t ch 2 = recordAt s ch 2
  reads : ReadsBack t ch (sampleAt s ch)

/-- What the reader needs of a block (`44_stereo_decorrelation.md` R255): a known bit depth that its samples fit. -/
structure Readable (s : State) (ch : Nat) : Prop where
  known : (memGet? s.mem .subrec (ch * 512 + 2)).isSome = true
  obits : ObitsOk s ch
  fits : ∀ i, i < s.blockLen → FitsDepth (recordAt s ch 2).toNat (sampleAt s ch i)

theorem earlyError_of_subEncode_noError {s t : State} {ch : Nat} (h : exec (.subEncode ch) s = .next t)
    (hok : t.regs.err = .noError) : earlyError (.subEncode ch) s = none := by
  have hcodes : ∀ c ∈ subChecks s ch, c.2 ≠ .noError := by
    simp only [subChecks, List.forall_mem_cons]
    exact ⟨nofun, nofun, nofun, nofun, List.forall_mem_nil _⟩
  rw [exec_subEncode_eq] at h
  exact earlyError_of_subChecks (checks_of_noError hcodes h hok).1

theorem recordAt_zero_of_some {t : State} {ch : Nat} {v : Int} (h : memGet? t.mem .subrec (ch * 512) = some v) :
    recordAt t ch 0 = v := memRead_of_some (by rwa [Nat.add_zero])

theorem recordAt_add_of_some {t : State} {ch f j : Nat} {v : Int} (h : memGet? t.mem .subrec (ch * 512 + f + j) = some v) :
    recordAt t ch (f + j) = v := memRead_of_some (by rwa [← Nat.add_assoc])

section
variable {s t : State} {ch : Nat}

theorem blockLen_of_regs {e : ErrCode} {ops : OpRegs} (h : t.regs = { s.regs with err := e, ops := ops }) :
    t.blockLen = s.blockLen := by
  rw [State.blockLen, h, State.blockLen]

variable (h : Readable s ch)
include h

/-- A bit depth that is known is kept by what does not write it. -/
theorem Readable.obits_kept {rs : List Range} (hkept : keptOutside rs s t)
    (hout : ¬covered rs .subrec (ch * 512 + 2) = true) : recordAt t ch 2 = recordAt s ch 2 := by
  obtain ⟨v, hv⟩ := Option.isSome_iff_exists.1 h.known
  have hv' : memGet? t.mem .subrec (ch * 512 + 2) = some v := (hkept.1 _ _ (Bool.eq_false_iff.2 hout)).trans hv
  exact (memRead_of_some hv').trans (memRead_of_some hv).symm

theorem Readable.obits_of_eq (heq : recordAt t ch 2 = recordAt s ch 2) : ObitsOk t ch := by
  rw [ObitsOk, heq]
  exact h.obits

theorem Readable.fits_of_eq (hblock : t.blockLen = s.blockLen) (heq : recordAt t ch 2 = recordAt s ch 2) :
    ∀ i, i < t.blockLen → FitsDepth (recordAt t ch 2).toNat (sampleAt s ch i) := by
  rw [hblock, heq]
  exact h.fits

/-! ## The paths -/

variable (hcfg : configError s.regs.cfg = none) (hs : earlyError (.subEncode ch) s = none)
  (hexec : exec (.subEncode ch) s = .next t)
include hcfg hs hexec

theorem Readable.lossless_constant (hequal : ¬Varies s ch) : Lossless s t ch := by
  have hall : ∀ i, i < s.blockLen → sampleAt s ch i = sampleAt s ch 0 := fun i hi => not_not.1 fun hne => hequal ⟨i, hi, hne⟩
  obtain ⟨u, hexec', hregs, htype, horder, -, hres, hkept⟩ := sub_encode_constant_block s ch hcfg hs hall
  obtain rfl := Host.Outcome.next.inj (hexec'.symm.trans hexec)
  have hblock := blockLen_of_regs hregs
  have hobits := h.obits_kept hkept (by
    simp only [covered_cons_iff, covered_nil, reduceCtorEq, false_and, or_false, true_and]
    omega)
  have hnonempty := (subReady_of_checks hcfg hs).nonempty
  refine ⟨hblock, hobits, readsBack_constant (recordAt_zero_of_some htype) (memRead_of_some horder) (h.obits_of_eq hobits)
    (v := sampleAt s ch 0) (memRead_of_some (by rwa [Nat.add_zero])) ?_ (hblock ▸ hall)⟩
  exact h.fits_of_eq hblock hobits 0 (by omega)

theorem Readable.lossless_short (hvaries : Varies s ch) (hlen : s.blockLen < 5) : Lossless s t ch := by
  obtain ⟨u, hexec', ⟨hregs, htype, horder, -, hres⟩, hkept⟩ := (verbatim_subframes s ch hcfg).2 hs hlen hvaries
  obtain rfl := Host.Outcome.next.inj (hexec'.symm.trans hexec)
  have hblock := blockLen_of_regs hregs
  have hobits := h.obits_kept hkept (by
    simp only [List.cons_append, List.nil_append, covered_cons_iff, covered_nil, reduceCtorEq, false_and, or_false, true_and]
    omega)
  exact ⟨hblock, hobits, readsBack_verbatim (recordAt_zero_of_some htype) (memRead_of_some horder) (h.obits_of_eq hobits)
    (fun i hi => memRead_of_some (hres i (hi.trans_eq hblock))) (h.fits_of_eq hblock hobits)⟩

theorem Readable.lossless_fixed (hok : t.regs.err = .noError) (hvaries : Varies s ch) (hlen : 5 ≤ s.blockLen)
    (hfixed : s.regs.cfg.lpcType.toNat = 0 ∨ s.blockLen ≤ s.regs.cfg.maxOrder.toNat) : Lossless s t ch := by
  obtain ⟨-, hsucceeds, hfails⟩ := sub_encode_fixed_least_cost s ch hcfg hs hlen hvaries hfixed
  by_cases hfits : ∀ o, min s.regs.cfg.minOrder.toNat 4 ≤ o → o ≤ min s.regs.cfg.maxOrder.toNat 4 →
      ∀ i, o ≤ i → i < s.blockLen → fits32 (fixedDiff o (sampleAt s ch) i)
  · obtain ⟨u, o, p, param, bits, -, hhi, hplan, -, hexec', hregs, htype, horder, -, hporder, hparams, hres, hkept⟩ :=
      hsucceeds hfits
    obtain rfl := Host.Outcome.next.inj (hexec'.symm.trans hexec)
    have hblock := blockLen_of_regs hregs
    have hobits := h.obits_kept hkept (by
      simp only [covered_cons_iff, covered_nil, reduceCtorEq, false_and, or_false, true_and]
      omega)
    have hpmax := (fixedReady_of_checks hcfg hs hlen).porders.2
    have hrecord : Predicted u ch 2 o p param (fixedDiff o (sampleAt s ch)) := {
      plan := by rw [hblock]; exact planFits_of_isBestPlan hplan hpmax
      type := recordAt_zero_of_some htype
      order := memRead_of_some horder
      obits := h.obits_of_eq hobits
      porder := memRead_of_some hporder
      params := fun j hj => recordAt_add_of_some (hparams j hj)
      res := fun i hi => memRead_of_some (hres i (hi.trans_eq hblock)) }
    exact ⟨hblock, hobits, hrecord.readsBack_fixed (hhi.trans (min_le_right ..)) (h.fits_of_eq hblock hobits)⟩
  · push Not at hfits
    obtain ⟨o, hlo, hhi, i, hi, hi', hnot⟩ := hfits
    obtain ⟨u, hexec', hregs, -⟩ := hfails ⟨o, hlo, hhi, fun hall => hnot (hall i hi hi')⟩
    obtain rfl := Host.Outcome.next.inj (hexec'.symm.trans hexec)
    rw [hregs] at hok
    exact nomatch hok

end

/-! ## The LPC path -/

section
variable {s t : State} {ch : Nat}

/-- A `SUB_ENCODE` that has succeeded on the LPC path has selected an order that fits, of the fit in `fit`. -/
theorem LpcReady.subEncode_done (h : LpcReady s ch) (hs : earlyError (.subEncode ch) s = none) (hvaries : Varies s ch)
    (hexec : exec (.subEncode ch) s = .next t) (hok : t.regs.err = .noError) : ∃ fit all opt,
      StoresIn (fitRanges s.blockLen (highestOrder s)) s fit ∧ OrderIn fit opt ∧ lpcFits fit ch opt = true
        ∧ t = cleared ((lpcDone fit ch all opt).setA4 (lpcCand fit ch opt).cost) := by
  obtain ⟨-, -, fit, hstores, -, -, -, hpath⟩ := h.exec_fit rfl
  have hfit := h.of_fit hstores
  rw [h.exec_subEncode hs hvaries, hpath, ← hstores.regs] at hexec
  obtain ⟨all, opt, hselected, hselect⟩ := lpcSelect_eq (ch := ch) hfit.method hfit.orders_le hfit.orders.2.2.2.le
  have hselect : lpcSelect ch (max fit.regs.cfg.minOrder.toNat 1) fit.regs.cfg.maxOrder.toNat fit = _ := hselect
  have hmem := mem_of_firstLeast hselected.least
  obtain ⟨hlo, hhi⟩ := hselected.bounds opt hmem
  have hopt : OrderIn fit opt := orderIn_of_bounds hlo hhi
  rw [hselect] at hexec
  split at hexec
  · next hall =>
    have hfits := List.all_eq_true.1 hall opt hmem
    have hdone := hfit.finish_done (all := all) hopt hfits
    exact ⟨fit, all, opt, hstores, hopt, hfits, Host.Outcome.next.inj (hexec.symm.trans hdone)⟩
  · obtain rfl := Host.Outcome.next.inj hexec
    exact nomatch hok

theorem not_covered_obits_lpc {all : List Nat} {opt p n hi : Nat} : ¬covered ([(.subrec, ch * 512, 2), (.subrec, ch * 512 + 3, 4),
    (.subrec, ch * 512 + 32, opt), (.subrec, ch * 512 + 256, p), (.res, ch * 65536, n), (.win, 0, n), (.autoc, 0, hi + 1),
    (.refl, 0, hi), (.sums, 0, 2097152)] ++ (List.range hi).map (fun i => ((.lpcf, i * 32, i + 1) : Range))
      ++ all.flatMap quantRanges) .subrec (ch * 512 + 2) = true := by
  simp only [covered_append, Bool.or_eq_true, covered_map, covered_flatMap, covered_quantRanges, covered_cons_iff, covered_nil,
    reduceCtorEq, false_and, and_false, exists_false, or_false, true_and]
  omega

/-- The coefficients of an order fit the precision (`42_linear_predictor.md` R197). -/
theorem fitsDepth_quantAt {c : Nat → Flt} {o prec j : Nat} (hprec : 1 ≤ prec) (hj : j < o) :
    FitsDepth prec (quantAt c o prec (j + 1)) := by
  obtain ⟨hmin, hmax⟩ := quantAt_mem (c := c) (prec := prec) (Nat.le_add_left 1 j) hj
  simp only [coefBounds] at hmin hmax
  exact ⟨hprec, hmin, by omega⟩

/-- The record and RES[ch] that the path leaves, in a state that differs in registers from it, are those of an LPC subframe. -/
theorem readsBack_lpcDone {u fit : State} {all : List Nat} {opt : Nat} (h : LpcReady fit ch) (hopt : OrderIn fit opt)
    (hfits : lpcFits fit ch opt = true) (hmem : (lpcDone fit ch all opt).mem = u.mem) (hblock : u.blockLen = fit.blockLen)
    (hobits : ObitsOk u ch) (hx : ∀ i, i < u.blockLen → FitsDepth (recordAt u ch 2).toNat (sampleAt fit ch i)) :
    ReadsBack u ch (sampleAt fit ch) := by
  obtain ⟨htype, horder, hprec, hshift, hporder, -, hcoefs, hparams⟩ := lpcDone_record (all := all) h hopt hfits
  have hres : ∀ i, i < fit.blockLen → memGet? (lpcDone fit ch all opt).mem .res (ch * 65536 + i)
      = some (lpcResidual fit ch opt i) := fun i hi => memGet?_lpcDone_res hfits hi
  rw [hmem] at htype horder hprec hshift hporder hcoefs hparams hres
  obtain ⟨hplan, -⟩ := h.plan_best hopt
  obtain ⟨hlo, h32, -⟩ := h.order_le hopt
  have hrecord : Predicted u ch 3 opt (lpcPlan fit ch opt).porder
      (partParam (lpcResidual fit ch opt) fit.blockLen opt (lpcPlan fit ch opt).porder) (lpcResidual fit ch opt) := {
    plan := by rw [hblock]; exact planFits_of_isBestPlan hplan h.porders.2
    type := recordAt_zero_of_some htype
    order := memRead_of_some horder
    obits := hobits
    porder := memRead_of_some hporder
    params := fun j hj => recordAt_add_of_some (hparams j hj)
    res := fun i hi => memRead_of_some (hres i (hi.trans_eq hblock)) }
  have hset : LpcSet u ch opt fit.regs.cfg.precision.toNat (quantShift (coefAt fit opt) opt fit.regs.cfg.precision.toNat)
      (quantAt (coefAt fit opt) opt fit.regs.cfg.precision.toNat) := {
    orders := ⟨hlo, h32⟩
    precisions := h.precision
    shift_le := quantShift_le
    fits := fun j hj => fitsDepth_quantAt h.precision.1 hj
    prec := memRead_of_some hprec
    shift := memRead_of_some hshift
    coefs := fun j hj => recordAt_add_of_some (hcoefs (j + 1) (Nat.le_add_left ..) hj) }
  exact hrecord.readsBack_lpc hset hx

theorem Readable.lossless_lpc (h : Readable s ch) (hready : LpcReady s ch) (hs : earlyError (.subEncode ch) s = none)
    (hvaries : Varies s ch) (hexec : exec (.subEncode ch) s = .next t) (hok : t.regs.err = .noError) : Lossless s t ch := by
  obtain ⟨fit, all, opt, hstores, hopt, hfits, ht⟩ := hready.subEncode_done hs hvaries hexec hok
  have hfit := hready.of_fit hstores
  have hmem : (lpcDone fit ch all opt).mem = t.mem := by rw [ht]; rfl
  have htfit : t.blockLen = fit.blockLen := by
    rw [State.blockLen, State.blockLen, ← lpcDone_regs fit ch all opt, ht]
    rfl
  have hblock := htfit.trans hstores.blockLen
  have hfitted : StoresIn (fitRanges fit.blockLen (highestOrder fit)) s fit := by
    rwa [hstores.blockLen, highestOrder, hstores.regs]
  have hkept := keptOutside_answer (hfit.kept_done (all := all) hopt hfitted) (lpcCand fit ch opt).cost
  rw [← ht] at hkept
  have hobits := h.obits_kept hkept not_covered_obits_lpc
  refine ⟨hblock, hobits, ?_⟩
  have hx := h.fits_of_eq hblock hobits
  rw [← sampleAt_of_fit hstores] at hx ⊢
  exact readsBack_lpcDone hfit hopt hfits hmem htfit (h.obits_of_eq hobits) hx

end

/-- Settles O42: whatever path the block took, its record is one that the reader undoes. -/
theorem subframe_is_lossless : Obligations.subframe_is_lossless := by
  intro s t ch rest hcfg hknown hnarrow hexec hok
  have hs := earlyError_of_subEncode_noError hexec hok
  have hobits : ObitsOk s ch := (subReady_of_checks hcfg hs).obits
  have hreadable : Readable s ch := ⟨hknown, hobits, fun i hi => by
    obtain ⟨hmin, hmax⟩ := hnarrow i hi
    rcases hobits with hb | hb <;> rw [hb] at hmin hmax ⊢ <;> exact ⟨by decide, hmin, hmax⟩⟩
  have hlossless : Lossless s t ch := by
    by_cases hvaries : Varies s ch
    · rcases Nat.lt_or_ge s.blockLen 5 with hlen | hlen
      · exact hreadable.lossless_short hcfg hs hexec hvaries hlen
      by_cases hfixed : s.regs.cfg.lpcType.toNat = 0 ∨ s.blockLen ≤ s.regs.cfg.maxOrder.toNat
      · exact hreadable.lossless_fixed hcfg hs hexec hok hvaries hlen hfixed
      · rw [not_or, not_le] at hfixed
        exact hreadable.lossless_lpc (lpcReady_of_checks hcfg hs hlen hfixed.1 hfixed.2) hs hvaries hexec hok
    · exact hreadable.lossless_constant hcfg hs hexec hvaries
  obtain ⟨haccepted, hreads⟩ := hlossless.reads
  have hread := hreads rest
  rw [hlossless.block, hlossless.obits] at hread
  exact ⟨haccepted, hread⟩

end Sys2Proof.Proofs
end

section
/-!
Channels of samples and their bit depths: the stores that the stereo commands are made of
(`44_stereo_decorrelation.md` R251, R253).
-/
namespace Sys2Proof.Proofs
open Sys2Proof.Machine

/-! ## Lists of values -/

theorem stored_smp {v : Int} (h : fits32 v) : Space.smp.stored v = v := stored_res h

/-- A list of values that fit their element is read back as it is. -/
theorem memGet?_memWrite_fitting (s : State) (sp : Space) (lo : Nat) {vals : List Int} {i : Nat}
    (hfits : ∀ v ∈ vals, sp.stored v = v) (hi : i < vals.length) :
    memGet? (s.memWrite sp lo vals).mem sp (lo + i) = vals[i]? := by
  have hget : vals[i]? = some vals[i] := List.getElem?_eq_getElem hi
  rw [memGet?_memWrite_run s sp lo hget, hfits _ (List.getElem_mem hi), hget]

/-! ## A signal in a row of SMP -/

/-- The values x 0 .. x (n − 1) in a channel's row of SMP. -/
def storeSignal (s : State) (ch n : Nat) (x : Nat → Int) : State := s.memWrite .smp (ch * 65536) ((List.range n).map x)

section
variable (s : State) (ch n : Nat) (x : Nat → Int)

theorem storesIn_storeSignal : StoresIn [(.smp, ch * 65536, n)] s (storeSignal s ch n x) := by
  have h := storesIn_memWrite s .smp (ch * 65536) ((List.range n).map x)
  rwa [List.length_map, List.length_range] at h

variable {x}

theorem memGet?_storeSignal {n i : Nat} (hi : i < n) (hx : fits32 (x i)) :
    memGet? (storeSignal s ch n x).mem .smp (ch * 65536 + i) = some (x i) := by
  have hget : ((List.range n).map x)[i]? = some (x i) := by rw [List.getElem?_map, List.getElem?_range hi]; rfl
  rw [← stored_smp hx]
  exact memGet?_memWrite_run s .smp (ch * 65536) hget

end

/-! ## A signal and its bit depth -/

/-- A channel takes a signal of a given bit depth: what `DEINTERLEAVE` does with each channel and `ST_APPLY` with the one that
becomes the side signal. -/
def storeChannel (s : State) (ch n : Nat) (x : Nat → Int) (depth : Int) : State :=
  (storeSignal s ch n x).setSub ch 2 [depth]

/-- The elements that `storeChannel` stores. -/
def channelRanges (ch n : Nat) : List Range := [(.smp, ch * 65536, n), (.subrec, ch * 512 + 2, 1)]

theorem storesIn_storeChannel (s : State) (ch n : Nat) (x : Nat → Int) (depth : Int) :
    StoresIn (channelRanges ch n) s (storeChannel s ch n x depth) :=
  (storesIn_storeSignal s ch n x).append (storesIn_memWrite _ .subrec (ch * 512 + 2) [depth])

theorem memGet?_storeChannel_smp (s : State) (ch n : Nat) (x : Nat → Int) (depth : Int) (i : Nat) :
    memGet? (storeChannel s ch n x depth).mem .smp i = memGet? (storeSignal s ch n x).mem .smp i :=
  (storesIn_memWrite (storeSignal s ch n x) .subrec (ch * 512 + 2) [depth]).kept.1 .smp i rfl

theorem memGet?_storeChannel_obits (s : State) (ch n : Nat) (x : Nat → Int) {depth : Int}
    (h : -2 ^ 63 ≤ depth ∧ depth < 2 ^ 63) :
    memGet? (storeChannel s ch n x depth).mem .subrec (ch * 512 + 2) = some depth := by
  have hget := memGet?_memWrite_run (storeSignal s ch n x) .subrec (ch * 512 + 2) (vals := [depth]) (j := 0) rfl
  rwa [stored_subrec_of_range h] at hget

/-- `storeChannel` reaches its own channel alone, when no signal is longer than a row. -/
theorem not_covered_channelRanges {ch ch' n i : Nat} {sp : Space} (hne : ch ≠ ch') (hn : n ≤ 65536)
    (hin : sp = .smp ∧ ch * 65536 ≤ i ∧ i < ch * 65536 + n ∨ sp = .subrec ∧ i = ch * 512 + 2) :
    covered (channelRanges ch' n) sp i = false := by
  rw [Bool.eq_false_iff, Ne, channelRanges, covered_cons_iff, covered_singleton]
  rintro (⟨rfl, hlo, hhi⟩ | ⟨rfl, hlo, hhi⟩)
  · rcases hin with ⟨-, h, h'⟩ | ⟨h, -⟩
    · omega
    · exact nomatch h
  · rcases hin with ⟨h, -⟩ | ⟨-, h⟩
    · exact nomatch h
    · omega

theorem not_covered_sample {ch ch' n i : Nat} (hne : ch ≠ ch') (hn : n ≤ 65536) (hi : i < n) :
    covered (channelRanges ch' n) .smp (ch * 65536 + i) = false :=
  not_covered_channelRanges hne hn (.inl ⟨rfl, Nat.le_add_right .., Nat.add_lt_add_left hi _⟩)

end Sys2Proof.Proofs
end

section
/-!
The checks that the stereo commands make (`44_stereo_decorrelation.md` R251 to R253, `60_exceptions.md` R323), and the end of a
command that sets CH_MODE.
-/
namespace Sys2Proof.Proofs
open Sys2Proof.Machine

theorem noHeaderCheck_eq (s : State) : (noHeaderCheck s).1
    = (decide (s.regs.fsm ≠ .headerWritten) && decide (s.regs.fsm ≠ .subframesWritten)) := by
  unfold noHeaderCheck
  cases s.regs.fsm <;> rfl

/-! ## `DEINTERLEAVE` and `ST_ESTIMATE` -/

/-- The checks of `DEINTERLEAVE` and `ST_ESTIMATE`. -/
def stereoChecks (s : State) : List (Bool × ErrCode) := [cfgCheck s, noHeaderCheck s, blockCheck s 1]

theorem exec_deinterleave_eq (s : State) : exec .deinterleave s
    = command s (stereoChecks s) fun s => succeed (deinterleaveEffect s) := rfl

theorem exec_stEstimate_eq (s : State) : exec .stEstimate s = command s (stereoChecks s) fun s =>
    succeed ((stEstimateEffect s).setA4 ((stEstimateEffect s).regs.chMode.toNat : Nat)) := rfl

theorem earlyError_stEstimate (s : State) : earlyError .stEstimate s = earlyError .deinterleave s := rfl

theorem stereoChecks_codes (s : State) : ∀ c ∈ stereoChecks s, c.2 ≠ .noError := by
  simp only [stereoChecks, List.forall_mem_cons]
  exact ⟨nofun, nofun, nofun, List.forall_mem_nil _⟩

theorem stereoChecks_hold {s : State} (h : earlyError .deinterleave s = none) : ∀ c ∈ stereoChecks s, c.1 = true := by
  obtain ⟨hcfg, hstate, -, hblock, -⟩ := ready_of_earlyError_eq_none h
  simp only [stereoChecks, List.forall_mem_cons]
  exact ⟨hcfg, (noHeaderCheck_eq s).trans hstate, hblock, List.forall_mem_nil _⟩

theorem earlyError_of_stereoChecks {s : State} (h : ∀ c ∈ stereoChecks s, c.1 = true) :
    earlyError .deinterleave s = none := by
  simp only [stereoChecks, List.forall_mem_cons] at h
  obtain ⟨hcfg, hheader, hblock, -⟩ := h
  exact earlyError_eq_none hcfg ((noHeaderCheck_eq s).symm.trans hheader) rfl hblock rfl rfl

theorem earlyError_of_deinterleave_noError {s t : State} (h : exec .deinterleave s = .next t) (hok : t.regs.err = .noError) :
    earlyError .deinterleave s = none := by
  rw [exec_deinterleave_eq] at h
  exact earlyError_of_stereoChecks (checks_of_noError (stereoChecks_codes s) h hok).1

/-- A block of a valid configuration fits a row of SMP (`46_context_commands.md` R304). -/
theorem blockLen_le_of_blockCheck {s : State} (hcfg : configError s.regs.cfg = none) (h : (blockCheck s 1).1 = true) :
    s.blockLen ≤ 65535 := by
  obtain ⟨-, hsize, -⟩ := configError_none hcfg
  exact ((within_eq_true ..).1 h).2.trans hsize

/-! ## `ST_APPLY` -/

/-- The checks of `ST_APPLY`. -/
def applyChecks (s : State) (mode : Nat) : List (Bool × ErrCode) :=
  [cfgCheck s, noHeaderCheck s, fieldCheck 0 mode 3, (decide (s.channels = 2) || decide (mode = 0), .operand),
    blockCheck s 1, (decide (mode = 0) || stApplyMemory s, .operand)]

theorem exec_stApply_eq (s : State) (mode : Nat) : exec (.stApply mode) s
    = command s (applyChecks s mode) fun s => succeed (stApplyEffect mode s) := rfl

theorem samplesNarrow_eq (s : State) (ch n : Nat) : (s.samples ch n).all (fitsSigned 16) = samplesNarrow s ch n := by
  rw [samples_eq, List.all_map, samplesNarrow]
  exact congrArg _ (funext fun i => fitsSigned_eq 16 (sampleAt s ch i))

theorem stApplyMemory_eq (s : State) : stApplyMemory s = (samplesNarrow s 0 s.blockLen && samplesNarrow s 1 s.blockLen
    && decide (recordAt s 0 2 = 16) && decide (recordAt s 1 2 = 16)) := by
  rw [stApplyMemory, samplesNarrow_eq, samplesNarrow_eq]
  rfl

/-- Without two channels the one mode is 0 (`44_stereo_decorrelation.md` R254). -/
theorem modeCheck_eq (s : State) (mode : Nat) : (decide (s.channels = 2) || decide (mode = 0))
    = decide (s.regs.cfg.channels.toNat ≠ 2 → mode = 0) := by
  rw [← Bool.decide_or]
  exact decide_eq_decide.2 ⟨fun h hne => h.resolve_left hne, fun h => or_iff_not_imp_left.2 h⟩

theorem applyChecks_codes (s : State) (mode : Nat) : ∀ c ∈ applyChecks s mode, c.2 ≠ .noError := by
  simp only [applyChecks, List.forall_mem_cons]
  exact ⟨nofun, nofun, nofun, nofun, nofun, nofun, List.forall_mem_nil _⟩

theorem applyChecks_hold {s : State} {mode : Nat} (h : earlyError (.stApply mode) s = none) :
    ∀ c ∈ applyChecks s mode, c.1 = true := by
  obtain ⟨hcfg, hstate, hfields, hblock, -, hmemory⟩ := ready_of_earlyError_eq_none h
  obtain ⟨hmode, hchannels⟩ := Bool.and_eq_true_iff.1 hfields
  simp only [applyChecks, List.forall_mem_cons, modeCheck_eq, stApplyMemory_eq]
  exact ⟨hcfg, (noHeaderCheck_eq s).trans hstate, fieldCheck_zero hmode, hchannels, hblock, hmemory, List.forall_mem_nil _⟩

theorem earlyError_of_applyChecks {s : State} {mode : Nat} (h : ∀ c ∈ applyChecks s mode, c.1 = true) :
    earlyError (.stApply mode) s = none := by
  simp only [applyChecks, List.forall_mem_cons, modeCheck_eq, stApplyMemory_eq] at h
  obtain ⟨hcfg, hheader, hmode, hchannels, hblock, hmemory, -⟩ := h
  exact earlyError_eq_none hcfg ((noHeaderCheck_eq s).symm.trans hheader)
    (Bool.and_eq_true_iff.2 ⟨decide_eq_true (le_of_fieldCheck hmode), hchannels⟩) hblock rfl hmemory

theorem earlyError_of_stApply_noError {s t : State} {mode : Nat} (h : exec (.stApply mode) s = .next t)
    (hok : t.regs.err = .noError) : earlyError (.stApply mode) s = none := by
  rw [exec_stApply_eq] at h
  exact earlyError_of_applyChecks (checks_of_noError (applyChecks_codes s mode) h hok).1

theorem samplesNarrow_iff (s : State) (ch n : Nat) :
    samplesNarrow s ch n = true ↔ ∀ i, i < n → -32768 ≤ sampleAt s ch i ∧ sampleAt s ch i ≤ 32767 := by
  simp only [samplesNarrow, List.all_eq_true, List.mem_range, inRange_eq_true]
  rfl

/-- What `ST_APPLY` requires of the two channels when its mode is not 0 (`44_stereo_decorrelation.md` R253). -/
structure NarrowPair (s : State) : Prop where
  left : ∀ i, i < s.blockLen → -32768 ≤ sampleAt s 0 i ∧ sampleAt s 0 i ≤ 32767
  right : ∀ i, i < s.blockLen → -32768 ≤ sampleAt s 1 i ∧ sampleAt s 1 i ≤ 32767
  obits0 : recordAt s 0 2 = 16
  obits1 : recordAt s 1 2 = 16

theorem mode_of_stApply {s : State} {mode : Nat} (h : earlyError (.stApply mode) s = none) : mode ≤ 3 := by
  obtain ⟨-, -, hfields, -⟩ := ready_of_earlyError_eq_none h
  exact of_decide_eq_true (Bool.and_eq_true_iff.1 hfields).1

theorem narrowPair_of_stApply {s : State} {mode : Nat} (h : earlyError (.stApply mode) s = none) (hmode : mode ≠ 0) :
    NarrowPair s := by
  obtain ⟨-, -, -, -, -, hmemory⟩ := ready_of_earlyError_eq_none h
  obtain ⟨hsamples, hobits1⟩ := Bool.and_eq_true_iff.1 ((Bool.or_eq_true_iff.1 hmemory).resolve_left (by simpa using hmode))
  obtain ⟨hsamples, hobits0⟩ := Bool.and_eq_true_iff.1 hsamples
  obtain ⟨hleft, hright⟩ := Bool.and_eq_true_iff.1 hsamples
  exact ⟨(samplesNarrow_iff ..).1 hleft, (samplesNarrow_iff ..).1 hright, of_decide_eq_true hobits0, of_decide_eq_true hobits1⟩

/-! ## The end of a command that sets CH_MODE -/

/-- The registers of a command that sets CH_MODE and completes. -/
theorem cleared_regs_of_setChMode {s t : State} {mode : Nat} (h : t.regs = (s.setChMode mode).regs) :
    (cleared t).regs = { s.regs with err := .noError, chMode := BitVec.ofNat 2 mode } := by
  rw [cleared, h]
  rfl

end Sys2Proof.Proofs
end

section
/-!
`DEINTERLEAVE` (`44_stereo_decorrelation.md` R251): the channels are stored one after another, and no turn changes what a later
one reads.
-/
namespace Sys2Proof.Proofs
open Sys2Proof.Machine

/-- The samples of a channel in the interleaved input of C channels. -/
def inputAt (s : State) (c ch i : Nat) : Int := s.memRead .inp (i * c + ch)

/-- IN holds 16-bit numbers, unspecified ones included (`20_memory.md` R60, R75). -/
theorem memRead_inp_range (s : State) (i : Nat) : -32768 ≤ s.memRead .inp i ∧ s.memRead .inp i ≤ 32767 := by
  have hget : memGet? s.mem .inp i = (cellGet s.mem.inp i).map BitVec.toInt := rfl
  have hrange : ∀ b : BitVec 16, -32768 ≤ b.toInt ∧ b.toInt ≤ 32767 :=
    fun b => ⟨b.le_toInt, Int.le_sub_one_of_lt b.toInt_lt⟩
  rw [State.memRead, hget]
  cases cellGet s.mem.inp i with
  | none => exact hrange _
  | some b => exact hrange b

theorem inputAt_fits32 (s : State) (c ch i : Nat) : fits32 (inputAt s c ch i) := by
  obtain ⟨hlo, hhi⟩ := memRead_inp_range s (i * c + ch)
  exact ⟨le_trans (by decide) hlo, hhi.trans (by decide)⟩

theorem deinterleaveChannel_eq (s : State) (ch : Nat) :
    deinterleaveChannel s ch = storeChannel s ch s.blockLen (inputAt s s.channels ch) 16 := by
  rw [deinterleaveChannel, chIndex_zero]
  rfl

theorem not_covered_channelRanges_inp (ch n i : Nat) : covered (channelRanges ch n) .inp i = false := by
  rw [Bool.eq_false_iff, Ne, channelRanges, covered_cons_iff, covered_singleton]
  simp

/-- The input is read alike after a store in a channel. -/
theorem inputAt_storeChannel (s : State) (ch n : Nat) (x : Nat → Int) (depth : Int) (c : Nat) :
    inputAt (storeChannel s ch n x depth) c = inputAt s c := by
  funext ch' i
  exact (storesIn_storeChannel s ch n x depth).memRead (not_covered_channelRanges_inp ..)

/-- The loop over the channels stores the input as it stood before the command. -/
theorem foldl_deinterleaveChannel (l : List Nat) (s : State) : l.foldl deinterleaveChannel s
    = l.foldl (fun t ch => storeChannel t ch s.blockLen (inputAt s s.channels ch) 16) s := by
  suffices h : ∀ t : State, t.regs = s.regs → inputAt t s.channels = inputAt s s.channels → l.foldl deinterleaveChannel t
      = l.foldl (fun t ch => storeChannel t ch s.blockLen (inputAt s s.channels ch) 16) t from h s rfl rfl
  induction l with
  | nil => exact fun _ _ _ => by rw [List.foldl_nil, List.foldl_nil]
  | cons ch l ih =>
    intro t hregs hinput
    have hblock : t.blockLen = s.blockLen := congrArg (fun r : Regs => r.n.toNat) hregs
    have hchannels : t.channels = s.channels := congrArg (fun r : Regs => r.cfg.channels.toNat) hregs
    rw [List.foldl_cons, List.foldl_cons, deinterleaveChannel_eq, hblock, hchannels, hinput]
    exact ih _ ((storesIn_storeChannel ..).regs.trans hregs) ((inputAt_storeChannel ..).trans hinput)

/-- The state after the first `c` channels have been stored. -/
def splitChannels (s : State) (c n : Nat) (x : Nat → Nat → Int) : State :=
  (List.range c).foldl (fun t ch => storeChannel t ch n (x ch) 16) s

theorem deinterleaveEffect_eq (s : State) : deinterleaveEffect s
    = (splitChannels s s.channels s.blockLen (inputAt s s.channels)).setChMode 0 := by
  rw [deinterleaveEffect, foldl_deinterleaveChannel, splitChannels]

section
variable (s : State) (c n : Nat) (x : Nat → Nat → Int)

theorem storesIn_splitChannels :
    StoresIn ((List.range c).flatMap fun ch => channelRanges ch n) s (splitChannels s c n x) :=
  storesIn_foldl (fun t ch => storesIn_storeChannel t ch n (x ch) 16) (List.range c) s

variable {c n x} {ch i : Nat}

/-- An element of a channel is as that channel's turn leaves it. -/
theorem memGet?_splitChannels {sp : Space} {v : Int} (hch : ch < c) (hn : n ≤ 65536)
    (hin : sp = .smp ∧ ch * 65536 ≤ i ∧ i < ch * 65536 + n ∨ sp = .subrec ∧ i = ch * 512 + 2)
    (hturn : ∀ t, memGet? (storeChannel t ch n (x ch) 16).mem sp i = some v) :
    memGet? (splitChannels s c n x).mem sp i = some v := by
  refine element_of_foldl (p := (· = some v)) (fun t ch => storesIn_storeChannel t ch n (x ch) 16) (List.mem_range.2 hch) hturn
    (fun ch' _ => ?_) s
  rcases eq_or_ne ch ch' with rfl | hne
  · exact .inl rfl
  · exact .inr (not_covered_channelRanges hne hn hin)

theorem memGet?_splitChannels_smp (hch : ch < c) (hn : n ≤ 65536) (hi : i < n) (hx : fits32 (x ch i)) :
    memGet? (splitChannels s c n x).mem .smp (ch * 65536 + i) = some (x ch i) :=
  memGet?_splitChannels s hch hn (.inl ⟨rfl, Nat.le_add_right .., Nat.add_lt_add_left hi _⟩)
    fun t => (memGet?_storeChannel_smp ..).trans (memGet?_storeSignal t ch hi hx)

theorem memGet?_splitChannels_obits (hch : ch < c) (hn : n ≤ 65536) :
    memGet? (splitChannels s c n x).mem .subrec (ch * 512 + 2) = some 16 :=
  memGet?_splitChannels s hch hn (.inr ⟨rfl, rfl⟩) fun t => memGet?_storeChannel_obits t ch n (x ch) (by decide)

end

theorem exec_deinterleave {s : State} (h : earlyError .deinterleave s = none) : exec .deinterleave s
    = .next (cleared ((splitChannels s s.channels s.blockLen (inputAt s s.channels)).setChMode 0)) := by
  rw [exec_deinterleave_eq, command_of_checks (stereoChecks_hold h), deinterleaveEffect_eq, succeed_eq]

/-- Settles O43: the channels are stored apart, each from the input as it stood. -/
theorem deinterleave_splits_channels : Obligations.deinterleave_splits_channels := by
  intro s hcfg hs n c
  obtain ⟨-, -, -, hblock, -⟩ := ready_of_earlyError_eq_none hs
  have hn : n ≤ 65536 := (blockLen_le_of_blockCheck hcfg hblock).trans (by decide)
  have hstores := storesIn_splitChannels s c n (inputAt s c)
  refine ⟨_, exec_deinterleave hs, ?_, fun ch i hch hi => ?_, fun ch hch => ?_, hstores.kept⟩
  · apply cleared_regs_of_setChMode
    rw [← deinterleaveEffect_eq]
    exact (memOnly_deinterleaveEffect s).regs
  · exact memGet?_splitChannels_smp s hch hn hi (inputAt_fits32 s c ch i)
  · exact memGet?_splitChannels_obits s hch hn

end Sys2Proof.Proofs
end

section
/-!
The signals of the stereo selector and the sums of their second differences (`44_stereo_decorrelation.md` R252).
-/
namespace Sys2Proof.Proofs
open Sys2Proof.Machine

/-! ## The mid and the side signal -/

/-- The mid signal of two channels. -/
def midAt (l r : Nat → Int) (i : Nat) : Int := (l i + r i) / 2

/-- The side signal of two channels. -/
def sideAt (l r : Nat → Int) (i : Nat) : Int := l i - r i

theorem midOf_map_range (l r : Nat → Int) (n : Nat) :
    midOf ((List.range n).map l) ((List.range n).map r) = (List.range n).map (midAt l r) := by
  rw [midOf, List.zipWith_map, List.zipWith_self]
  rfl

theorem sideOf_map_range (l r : Nat → Int) (n : Nat) :
    sideOf ((List.range n).map l) ((List.range n).map r) = (List.range n).map (sideAt l r) := by
  rw [sideOf, List.zipWith_map, List.zipWith_self]
  rfl

/-! ## Second differences -/

/-- The magnitude of the second difference that ends at index i. -/
def secondDiff (x : Nat → Int) (i : Nat) : Int := ((x i - 2 * x (i - 1) + x (i - 2)).natAbs : Int)

theorem secondDiffs_eq (x : Nat → Int) (n : Nat) : secondDiffs x n = ((List.range' 2 (n - 2)).map (secondDiff x)).sum := rfl

theorem secondDiffSum_map_range' (x : Nat → Int) (k m : Nat) :
    (secondDiffSum ((List.range' k (m + 2)).map x) : Int) = ((List.range' (k + 2) m).map (secondDiff x)).sum := by
  induction m generalizing k with
  | zero => rfl
  | succ m ih =>
    have htail := ih (k + 1)
    simp only [List.range'_succ, List.map_cons, List.sum_cons] at htail ⊢
    rw [secondDiffSum, Nat.cast_add, htail]
    rfl

/-- The sum over a block; blocks of fewer than three samples have none (`44_stereo_decorrelation.md` R254). -/
theorem secondDiffSum_map_range (x : Nat → Int) (n : Nat) : (secondDiffSum ((List.range n).map x) : Int) = secondDiffs x n := by
  rw [secondDiffs_eq, List.range_eq_range']
  match n with
  | 0 => rfl
  | 1 => rfl
  | m + 2 => exact secondDiffSum_map_range' x 0 m

/-- The difference of two 32-bit numbers has 33 bits: the widest signal of the selector. -/
def Fits33 (x : Nat → Int) : Prop := ∀ i, -2 ^ 32 ≤ x i ∧ x i ≤ 2 ^ 32

theorem fits33_of_fits32 {x : Nat → Int} (h : ∀ i, fits32 (x i)) : Fits33 x := by
  intro i
  obtain ⟨hlo, hhi⟩ := h i
  omega

theorem fits33_midAt {l r : Nat → Int} (hl : ∀ i, fits32 (l i)) (hr : ∀ i, fits32 (r i)) : Fits33 (midAt l r) := by
  intro i
  obtain ⟨hlo, hhi⟩ := hl i
  obtain ⟨hlo', hhi'⟩ := hr i
  unfold midAt
  omega

theorem fits33_sideAt {l r : Nat → Int} (hl : ∀ i, fits32 (l i)) (hr : ∀ i, fits32 (r i)) : Fits33 (sideAt l r) := by
  intro i
  obtain ⟨hlo, hhi⟩ := hl i
  obtain ⟨hlo', hhi'⟩ := hr i
  unfold sideAt
  omega

theorem secondDiff_le {x : Nat → Int} (h : Fits33 x) (i : Nat) : secondDiff x i ≤ 2 ^ 34 := by
  have h0 := h i
  have h1 := h (i - 1)
  have h2 := h (i - 2)
  unfold secondDiff
  omega

theorem secondDiffs_le {x : Nat → Int} (h : Fits33 x) {n : Nat} (hn : n ≤ 65535) : secondDiffs x n ≤ 2 ^ 50 := by
  have hsum := List.sum_le_card_nsmul ((List.range' 2 (n - 2)).map (secondDiff x)) (2 ^ 34)
    (List.forall_mem_map.2 fun i _ => secondDiff_le h i)
  rw [List.length_map, List.length_range', nsmul_eq_mul] at hsum
  rw [secondDiffs_eq]
  omega

theorem secondDiffs_nonneg (x : Nat → Int) (n : Nat) : 0 ≤ secondDiffs x n := by
  rw [← secondDiffSum_map_range]
  exact Int.natCast_nonneg _

end Sys2Proof.Proofs
end

section
/-!
`ST_ESTIMATE` (`44_stereo_decorrelation.md` R252, R254): the four sums, the four scores and the mode of least score.
-/
namespace Sys2Proof.Proofs
open Sys2Proof.Machine

/-! ## The sums -/

/-- The second-difference sums of left, right, mid and side. -/
def signalSums (l r : Nat → Int) (n : Nat) : List Int :=
  [secondDiffs l n, secondDiffs r n, secondDiffs (midAt l r) n, secondDiffs (sideAt l r) n]

theorem stereoSums_map_range (l r : Nat → Int) (n : Nat) :
    (stereoSums ((List.range n).map l) ((List.range n).map r)).map Nat.cast = signalSums l r n := by
  simp only [stereoSums, midOf_map_range, sideOf_map_range, List.map_cons, List.map_nil, secondDiffSum_map_range, signalSums]

theorem signalSums_range {l r : Nat → Int} (hl : ∀ i, fits32 (l i)) (hr : ∀ i, fits32 (r i)) {n : Nat} (hn : n ≤ 65535) :
    ∀ v ∈ signalSums l r n, 0 ≤ v ∧ v ≤ 2 ^ 50 := by
  have hrange : ∀ x, Fits33 x → 0 ≤ secondDiffs x n ∧ secondDiffs x n ≤ 2 ^ 50 :=
    fun x hx => ⟨secondDiffs_nonneg x n, secondDiffs_le hx hn⟩
  simp only [signalSums, List.forall_mem_cons]
  exact ⟨hrange _ (fits33_of_fits32 hl), hrange _ (fits33_of_fits32 hr), hrange _ (fits33_midAt hl hr),
    hrange _ (fits33_sideAt hl hr), List.forall_mem_nil _⟩

theorem getD_range {l : List Int} {b : Int} (hb : 0 ≤ b) (h : ∀ v ∈ l, 0 ≤ v ∧ v ≤ b) (x : Nat) :
    0 ≤ l.getD x 0 ∧ l.getD x 0 ≤ b := by
  rw [List.getD_eq_getElem?_getD]
  cases hx : l[x]? with
  | none => exact ⟨le_rfl, hb⟩
  | some v => exact h v (List.mem_of_getElem? hx)

theorem stored_stsum {v : Int} (h : 0 ≤ v ∧ v < 2 ^ 64) : Space.stsum.stored v = v := by
  obtain ⟨u, rfl⟩ := Int.eq_ofNat_of_zero_le h.1
  exact stored_sums (by omega)

/-! ## The scores -/

/-- SCORE[0 .. 3] from the costs of the four signals. -/
def scoresOf (cost : Nat → Int) : List Int := [cost 0 + cost 1, cost 0 + cost 3, cost 1 + cost 3, cost 2 + cost 3]

theorem stereoScores_eq (n : Nat) (sums : List Nat) :
    stereoScores n sums = scoresOf fun x => (findParamOf (sums.getD x 0) n).2 := rfl

/-- The scores are made of the estimates at the best parameters (`41_rice_coder.md` R173). -/
theorem stereoScores_spec (n : Nat) (sums : List Nat) : ∃ k : Nat → Nat,
    (∀ x, BestParam ((sums.map Nat.cast : List Int).getD x 0) n (k x))
      ∧ stereoScores n sums = scoresOf fun x => riceCost ((sums.map Nat.cast : List Int).getD x 0) n (k x) := by
  have hgetD : ∀ x, (sums.map Nat.cast).getD x (0 : Int) = (sums.getD x 0 : Nat) := fun x => List.getD_map sums 0 Nat.cast
  choose k hbest hfind using fun x => findParamOf_spec (sums.getD x 0) n
  simp only [hgetD]
  exact ⟨k, hbest, by simp only [stereoScores_eq, hfind]⟩

/-- An estimate at a best parameter is at most that at parameter 0. -/
theorem riceCost_range {sum : Int} {n k : Nat} (hsum : 0 ≤ sum ∧ sum ≤ 2 ^ 50) (hn : n ≤ 65535) (hbest : BestParam sum n k) :
    0 ≤ riceCost sum n k ∧ riceCost sum n k ≤ 2 ^ 51 := by
  obtain ⟨-, hleast⟩ := hbest
  obtain ⟨hzero, -⟩ := hleast 0 (by decide)
  constructor
  · have hfloor : -((n / 2 : Nat) : Int) ≤ (sum - (n / 2 : Nat)) / ((2 ^ k : Nat) : Int) := by
      rw [Int.le_ediv_iff_mul_le (by positivity)]
      have hpow : (1 : Int) ≤ ((2 ^ k : Nat) : Int) := by exact_mod_cast Nat.one_le_two_pow
      nlinarith [hsum.1, Int.natCast_nonneg (n / 2)]
    have hlen : (n : Int) ≤ n * (k + 1) := by nlinarith [Int.natCast_nonneg n, Int.natCast_nonneg k]
    unfold riceCost
    omega
  · refine hzero.trans ?_
    simp only [riceCost, Nat.cast_zero, zero_add, mul_one, pow_zero, Nat.cast_one, Int.ediv_one]
    omega

theorem scoresOf_range {cost : Nat → Int} {b : Int} (h : ∀ x, 0 ≤ cost x ∧ cost x ≤ b) :
    ∀ v ∈ scoresOf cost, 0 ≤ v ∧ v ≤ 2 * b := by
  have hpair : ∀ x y, 0 ≤ cost x + cost y ∧ cost x + cost y ≤ 2 * b := fun x y => by
    have hx := h x
    have hy := h y
    omega
  simp only [scoresOf, List.forall_mem_cons]
  exact ⟨hpair 0 1, hpair 0 3, hpair 1 3, hpair 2 3, List.forall_mem_nil _⟩

theorem stored_score {v : Int} (h : -2 ^ 63 ≤ v ∧ v < 2 ^ 63) : Space.score.stored v = v := stored_subrec_of_range h

/-- The mode that is chosen has the least score, and is the lowest that has it. -/
theorem bestMode_least (scores : List Int) : LeastOf (fun m => scores.getD m 0) 0 3 (bestMode scores) := by
  obtain ⟨m, hleast, hfold⟩ := foldl_least (fun m => scores.getD m 0) id (Nat.zero_le 3)
  have hbest : bestMode scores = m := hfold
  rwa [hbest]

/-! ## The command -/

/-- The sums, the scores and nothing else. -/
def storeEstimates (s : State) (sums scores : List Int) : State := (s.memWrite .stsum 0 sums).memWrite .score 0 scores

theorem storesIn_storeEstimates (s : State) (sums scores : List Int) :
    StoresIn [(.stsum, 0, sums.length), (.score, 0, scores.length)] s (storeEstimates s sums scores) :=
  (storesIn_memWrite s .stsum 0 sums).append (storesIn_memWrite _ .score 0 scores)

theorem memGet?_storeEstimates_stsum (s : State) {sums scores : List Int} (hsums : ∀ v ∈ sums, 0 ≤ v ∧ v < 2 ^ 64) {x : Nat}
    (hx : x < sums.length) : memGet? (storeEstimates s sums scores).mem .stsum x = sums[x]? := by
  have hget := memGet?_memWrite_fitting s .stsum 0 (fun v hv => stored_stsum (hsums v hv)) hx
  rw [Nat.zero_add] at hget
  exact ((storesIn_memWrite _ .score 0 scores).kept.1 .stsum x rfl).trans hget

theorem memGet?_storeEstimates_score (s : State) {sums scores : List Int} (hscores : ∀ v ∈ scores, -2 ^ 63 ≤ v ∧ v < 2 ^ 63)
    {x : Nat} (hx : x < scores.length) : memGet? (storeEstimates s sums scores).mem .score x = scores[x]? := by
  have hget := memGet?_memWrite_fitting (s.memWrite .stsum 0 sums) .score 0 (fun v hv => stored_score (hscores v hv)) hx
  rwa [Nat.zero_add] at hget

/-- The selected mode is in CH_MODE and a4. -/
def answerMode (s : State) (mode : Nat) : State := { s with regs := { s.regs with
  err := .noError, chMode := BitVec.ofNat 2 mode, ops := { s.regs.ops with a4 := BitVec.ofNat 64 mode } } }

theorem succeed_mode (s : State) {mode : Nat} (h : mode < 4) :
    succeed ((s.setChMode mode).setA4 ((s.setChMode mode).regs.chMode.toNat : Nat)) = .next (answerMode s mode) := by
  have hmode : (s.setChMode mode).regs.chMode.toNat = mode := by
    rw [State.setChMode, BitVec.toNat_ofNat, Nat.mod_eq_of_lt h]
  rw [hmode, State.setA4, BitVec.ofInt_natCast]
  rfl

theorem StoresIn.answerMode_regs {rs : List Range} {s t : State} (h : StoresIn rs s t) (mode : Nat) :
    (answerMode t mode).regs = (answerMode s mode).regs := by rw [answerMode, h.regs, answerMode]

theorem exec_stEstimate {s : State} (h : earlyError .stEstimate s = none) : exec .stEstimate s
    = succeed ((stEstimateEffect s).setA4 ((stEstimateEffect s).regs.chMode.toNat : Nat)) := by
  rw [earlyError_stEstimate] at h
  rw [exec_stEstimate_eq, command_of_checks (stereoChecks_hold h)]

theorem exec_stEstimate_other {s : State} (h : earlyError .stEstimate s = none) (hc : s.channels ≠ 2) :
    exec .stEstimate s = .next (answerMode s 0) := by
  have heffect : stEstimateEffect s = s.setChMode 0 := if_neg hc
  rw [exec_stEstimate h, heffect, succeed_mode s (by decide)]

theorem stEstimateEffect_eq {s : State} (hc : s.channels = 2) :
    let sums := stereoSums (s.samples 0 s.blockLen) (s.samples 1 s.blockLen)
    let scores := stereoScores s.blockLen sums
    stEstimateEffect s = (storeEstimates s (sums.map Nat.cast) scores).setChMode (bestMode scores) := if_pos hc

/-- With two channels the sums and the scores are those of R252. -/
theorem stEstimateEffect_two {s : State} (hc : s.channels = 2) : ∃ k : Nat → Nat,
    let sums := signalSums (sampleAt s 0) (sampleAt s 1) s.blockLen
    let scores := scoresOf fun x => riceCost (sums.getD x 0) s.blockLen (k x)
    (∀ x, BestParam (sums.getD x 0) s.blockLen (k x))
      ∧ stEstimateEffect s = (storeEstimates s sums scores).setChMode (bestMode scores) := by
  obtain ⟨k, hbest, hscores⟩ := stereoScores_spec s.blockLen (stereoSums (s.samples 0 s.blockLen) (s.samples 1 s.blockLen))
  have hsums : (stereoSums (s.samples 0 s.blockLen) (s.samples 1 s.blockLen)).map Nat.cast
      = signalSums (sampleAt s 0) (sampleAt s 1) s.blockLen := by rw [samples_eq, samples_eq, stereoSums_map_range]
  rw [hsums] at hbest
  rw [hsums] at hscores
  refine ⟨k, hbest, ?_⟩
  rw [stEstimateEffect_eq hc, hsums, hscores]

/-- Settles O44: the sums and the scores fit their elements, and the scan over the modes ends at the least score. -/
theorem st_estimate_least_score : Obligations.st_estimate_least_score := by
  intro s hcfg hs n l r sums result
  refine ⟨fun hc => ?_, fun hc => exec_stEstimate_other hs hc⟩
  obtain ⟨-, -, -, hblock, -⟩ := ready_of_earlyError_eq_none hs
  have hn : n ≤ 65535 := blockLen_le_of_blockCheck hcfg hblock
  obtain ⟨k, hbest, heffect⟩ := stEstimateEffect_two hc
  set scores := scoresOf fun x => riceCost (sums.getD x 0) n (k x)
  have hsums : ∀ v ∈ sums, 0 ≤ v ∧ v ≤ 2 ^ 50 := signalSums_range (sampleAt_fits32 s 0) (sampleAt_fits32 s 1) hn
  have hscore : ∀ v ∈ scores, 0 ≤ v ∧ v ≤ 2 * 2 ^ 51 :=
    scoresOf_range fun x => riceCost_range (getD_range (by decide) hsums x) hn (hbest x)
  have hleast := bestMode_least scores
  have hmode : bestMode scores < 4 := Nat.lt_succ_of_le hleast.le_hi
  have hstores := storesIn_storeEstimates s sums scores
  refine ⟨answerMode (storeEstimates s sums scores) (bestMode scores), bestMode scores, k, fun x _ => hbest x, hmode,
    fun m hm => ⟨hleast.le m m.zero_le (Nat.le_of_lt_succ hm), hleast.lt m m.zero_le⟩, ?_, hstores.answerMode_regs _,
    fun x hx => ⟨?_, ?_⟩, hstores.kept⟩
  · rw [exec_stEstimate hs, heffect]
    exact succeed_mode _ hmode
  · exact memGet?_storeEstimates_stsum s (fun v hv => by have := hsums v hv; omega) hx
  · exact memGet?_storeEstimates_score s (fun v hv => by have := hscore v hv; omega) hx

end Sys2Proof.Proofs
end

section
/-!
`ST_APPLY` (`44_stereo_decorrelation.md` R253): the signals that each mode stores, all from the samples before the command.
-/
namespace Sys2Proof.Proofs
open Sys2Proof.Machine

/-! ## The modes -/

/-- The side signal of the block in channel `ch`, with its bit depth. -/
def storeSide (s : State) (l r : Nat → Int) (ch n : Nat) : State := storeChannel s ch n (sideAt l r) 17

theorem stApplyEffect_leftRight (s : State) : stApplyEffect 0 s = s.setChMode 0 := rfl

theorem stApplyEffect_leftSide (s : State) : stApplyEffect 1 s
    = storeSide (s.setChMode 1) (sampleAt s 0) (sampleAt s 1) 1 s.blockLen := by
  rw [stApplyEffect, samples_eq, samples_eq, sideOf_map_range]
  rfl

theorem stApplyEffect_rightSide (s : State) : stApplyEffect 2 s
    = storeSide (s.setChMode 2) (sampleAt s 0) (sampleAt s 1) 0 s.blockLen := by
  rw [stApplyEffect, samples_eq, samples_eq, sideOf_map_range]
  rfl

theorem stApplyEffect_midSide (s : State) : stApplyEffect 3 s
    = storeSide (storeSignal (s.setChMode 3) 0 s.blockLen (midAt (sampleAt s 0) (sampleAt s 1)))
        (sampleAt s 0) (sampleAt s 1) 1 s.blockLen := by
  rw [stApplyEffect, samples_eq, samples_eq, sideOf_map_range, midOf_map_range]
  rfl

theorem exec_stApply {s : State} {mode : Nat} (h : earlyError (.stApply mode) s = none) :
    exec (.stApply mode) s = .next (cleared (stApplyEffect mode s)) := by
  rw [exec_stApply_eq, command_of_checks (applyChecks_hold h), succeed_eq]

theorem stApply_regs (s : State) (mode : Nat) : (cleared (stApplyEffect mode s)).regs
    = { s.regs with err := .noError, chMode := BitVec.ofNat 2 mode } :=
  cleared_regs_of_setChMode (memOnly_stApplyEffect mode s).regs

/-! ## What they store -/

section
variable {s : State} (h : NarrowPair s) {i : Nat}
include h

theorem NarrowPair.side_range (hi : i < s.blockLen) :
    -65535 ≤ sideAt (sampleAt s 0) (sampleAt s 1) i ∧ sideAt (sampleAt s 0) (sampleAt s 1) i ≤ 65535 := by
  have hl := h.left i hi
  have hr := h.right i hi
  unfold sideAt
  omega

theorem NarrowPair.mid_range (hi : i < s.blockLen) :
    -32768 ≤ midAt (sampleAt s 0) (sampleAt s 1) i ∧ midAt (sampleAt s 0) (sampleAt s 1) i ≤ 32767 := by
  have hl := h.left i hi
  have hr := h.right i hi
  unfold midAt
  omega

theorem NarrowPair.memGet?_storeSide (t : State) (ch : Nat) (hi : i < s.blockLen) :
    memGet? (storeSide t (sampleAt s 0) (sampleAt s 1) ch s.blockLen).mem .smp (ch * 65536 + i)
      = some (sampleAt s 0 i - sampleAt s 1 i) := by
  obtain ⟨hlo, hhi⟩ := h.side_range hi
  exact (memGet?_storeChannel_smp ..).trans
    (memGet?_storeSignal t ch hi ⟨le_trans (by decide) hlo, hhi.trans (by decide)⟩)

theorem NarrowPair.memGet?_storeMid (t : State) (hi : i < s.blockLen) :
    memGet? (storeSignal t 0 s.blockLen (midAt (sampleAt s 0) (sampleAt s 1))).mem .smp (0 * 65536 + i)
      = some ((sampleAt s 0 i + sampleAt s 1 i) / 2) := by
  obtain ⟨hlo, hhi⟩ := h.mid_range hi
  exact memGet?_storeSignal t 0 hi ⟨le_trans (by decide) hlo, hhi.trans (by decide)⟩

end

theorem memGet?_storeSide_obits (s : State) (l r : Nat → Int) (ch n : Nat) :
    memGet? (storeSide s l r ch n).mem .subrec (ch * 512 + 2) = some 17 :=
  memGet?_storeChannel_obits s ch n (sideAt l r) (by decide)

theorem storesIn_storeSide (s : State) (l r : Nat → Int) (ch n : Nat) :
    StoresIn (channelRanges ch n) s (storeSide s l r ch n) := storesIn_storeChannel ..

/-- Settles O45: mode by mode, the channels that change take their signals, and a channel that becomes the side signal its
bit depth. -/
theorem st_apply_transforms_samples : Obligations.st_apply_transforms_samples := by
  intro s mode hcfg hs n l r
  obtain ⟨-, -, -, hblock, -⟩ := ready_of_earlyError_eq_none hs
  have hn : n ≤ 65535 := blockLen_le_of_blockCheck hcfg hblock
  refine ⟨_, exec_stApply hs, stApply_regs s mode, ?_⟩
  obtain rfl | rfl | rfl | rfl : mode = 0 ∨ mode = 1 ∨ mode = 2 ∨ mode = 3 := by
    have := mode_of_stApply hs
    omega
  · exact ⟨fun _ => keptOutside_refl s, nofun, nofun, nofun⟩
  · have hpair := narrowPair_of_stApply hs (by decide)
    rw [stApplyEffect_leftSide, cleared_mem]
    exact ⟨nofun, fun _ => ⟨fun i hi => hpair.memGet?_storeSide _ 1 hi, memGet?_storeSide_obits ..,
      (storesIn_storeSide _ _ _ 1 _).kept⟩, nofun, nofun⟩
  · have hpair := narrowPair_of_stApply hs (by decide)
    rw [stApplyEffect_rightSide, cleared_mem]
    refine ⟨nofun, nofun, fun _ => ⟨fun i hi => ?_, memGet?_storeSide_obits _ _ _ 0 _,
      (storesIn_storeSide _ _ _ 0 _).kept⟩, nofun⟩
    have hside := hpair.memGet?_storeSide (s.setChMode 2) 0 hi
    rwa [Nat.zero_mul, Nat.zero_add] at hside
  · have hpair := narrowPair_of_stApply hs (by decide)
    have hmid := storesIn_storeSignal (s.setChMode 3) 0 s.blockLen (midAt (sampleAt s 0) (sampleAt s 1))
    have hside := storesIn_storeSide (storeSignal (s.setChMode 3) 0 s.blockLen (midAt (sampleAt s 0) (sampleAt s 1)))
      (sampleAt s 0) (sampleAt s 1) 1 s.blockLen
    rw [stApplyEffect_midSide, cleared_mem]
    refine ⟨nofun, nofun, nofun, fun _ => ⟨fun i hi => ⟨?_, hpair.memGet?_storeSide _ 1 hi⟩, memGet?_storeSide_obits ..,
      (hmid.append hside).kept⟩⟩
    have hout : covered (channelRanges 1 s.blockLen) .smp (0 * 65536 + i) = false :=
      not_covered_sample (by decide) (hn.trans (by decide)) hi
    have hget := (hside.kept.1 _ _ hout).trans (hpair.memGet?_storeMid _ hi)
    rwa [Nat.zero_mul, Nat.zero_add] at hget

end Sys2Proof.Proofs
end

section
/-!
Stereo decorrelation is undone by the reader, and grows a channel by one bit at most (`44_stereo_decorrelation.md` R253, R255).
-/
namespace Sys2Proof.Proofs
open Sys2Proof.Machine

/-! ## The reader -/

theorem undoStereo_leftSide (l r : Int) : undoStereo 1 l (l - r) = (l, r) := by
  rw [undoStereo, sub_sub_cancel]

theorem undoStereo_rightSide (l r : Int) : undoStereo 2 (l - r) r = (l, r) := by
  rw [undoStereo, add_sub_cancel]

/-- The sum and the difference have the same parity, so the bit that the mid signal drops is the last one of the side. -/
theorem undoStereo_midSide (l r : Int) : undoStereo 3 ((l + r) / 2) (l - r) = (l, r) := by
  rw [undoStereo, Prod.mk.injEq]
  omega

/-! ## Channels and bit depths -/

/-- A sample lies in the range of its channel's bit depth (`44_stereo_decorrelation.md` R255). -/
def InDepth (depth v : Int) : Prop := (depth = 16 ∧ -32768 ≤ v ∧ v ≤ 32767) ∨ (depth = 17 ∧ -65535 ≤ v ∧ v ≤ 65535)

/-- A reader of the mode gets `l` and `r` back from index `i`, and the samples there are in their bit depths. -/
def Undone (s : State) (mode i : Nat) (l r : Int) : Prop := undoStereo mode (sampleAt s 0 i) (sampleAt s 1 i) = (l, r)
  ∧ ∀ ch, ch < 2 → InDepth (recordAt s ch 2) (sampleAt s ch i)

/-- Index `i` of both channels is known: its values, and the bit depths. -/
structure PairIs (s : State) (i : Nat) (x0 x1 depth0 depth1 : Int) : Prop where
  sample0 : memGet? s.mem .smp i = some x0
  sample1 : memGet? s.mem .smp (65536 + i) = some x1
  obits0 : memGet? s.mem .subrec 2 = some depth0
  obits1 : memGet? s.mem .subrec 514 = some depth1

section
variable {s : State} {i mode : Nat} {x0 x1 depth0 depth1 l r : Int}

theorem PairIs.samples (h : PairIs s i x0 x1 depth0 depth1) : sampleAt s 0 i = x0 ∧ sampleAt s 1 i = x1 :=
  ⟨memRead_of_some (by rw [Nat.zero_mul, Nat.zero_add]; exact h.sample0),
    memRead_of_some (by rw [Nat.one_mul]; exact h.sample1)⟩

/-- Index `i` is undone, within the bit depths, when the elements that stand there are. -/
theorem PairIs.undone (h : PairIs s i x0 x1 depth0 depth1) (hundo : undoStereo mode x0 x1 = (l, r)) (h0 : InDepth depth0 x0)
    (h1 : InDepth depth1 x1) : Undone s mode i l r := by
  have hobits0 : recordAt s 0 2 = depth0 := memRead_of_some h.obits0
  have hobits1 : recordAt s 1 2 = depth1 := memRead_of_some h.obits1
  obtain ⟨hx0, hx1⟩ := h.samples
  refine ⟨by rwa [hx0, hx1], fun ch hch => ?_⟩
  obtain rfl | rfl : ch = 0 ∨ ch = 1 := by omega
  · rwa [hobits0, hx0]
  · rwa [hobits1, hx1]

end

/-- After `DEINTERLEAVE` both channels are the input at 16 bits. -/
theorem pairIs_of_deinterleave {s t : State} (hcfg : configError s.regs.cfg = none) (hc : s.regs.cfg.channels.toNat = 2)
    (hs : earlyError .deinterleave s = none) (h : exec .deinterleave s = .next t) {i : Nat} (hi : i < s.regs.n.toNat) :
    PairIs t i (s.memRead .inp (i * 2)) (s.memRead .inp (i * 2 + 1)) 16 16 := by
  obtain ⟨t', ht', -, hsmp, hobits, -⟩ := deinterleave_splits_channels s hcfg hs
  obtain rfl := Host.Outcome.next.inj (h.symm.trans ht')
  rw [hc] at hsmp hobits
  have h0 := hsmp 0 i (by decide) hi
  have h1 := hsmp 1 i (by decide) hi
  rw [Nat.zero_mul, Nat.zero_add] at h0
  rw [Nat.one_mul] at h1
  exact ⟨h0, h1, hobits 0 (by decide), hobits 1 (by decide)⟩

theorem deinterleave_regs {s t : State} (hs : earlyError .deinterleave s = none) (h : exec .deinterleave s = .next t) :
    t.regs = { s.regs with err := .noError, chMode := 0 } := by
  obtain rfl := Host.Outcome.next.inj (h.symm.trans (exec_deinterleave hs))
  rw [← deinterleaveEffect_eq]
  exact cleared_regs_of_setChMode (memOnly_deinterleaveEffect s).regs

/-- `ST_APPLY` transforms a known index, and the reader inverts each mode. -/
theorem undone_of_stApply {t u : State} {mode i : Nat} {l r : Int} (hcfg : configError t.regs.cfg = none)
    (ht : earlyError (.stApply mode) t = none) (h : exec (.stApply mode) t = .next u) (hi : i < t.regs.n.toNat)
    (hpair : PairIs t i l r 16 16) (hl : -32768 ≤ l ∧ l ≤ 32767) (hr : -32768 ≤ r ∧ r ≤ 32767) : Undone u mode i l r := by
  obtain ⟨u', hu', -, hleftRight, hleftSide, hrightSide, hmidSide⟩ := st_apply_transforms_samples t mode hcfg ht
  obtain rfl := Host.Outcome.next.inj (h.symm.trans hu')
  obtain ⟨rfl, rfl⟩ := hpair.samples
  obtain ⟨-, -, -, hblock, -⟩ := ready_of_earlyError_eq_none ht
  have hn : t.regs.n.toNat ≤ 65535 := blockLen_le_of_blockCheck hcfg hblock
  have hin : ∀ v, -32768 ≤ v ∧ v ≤ 32767 → InDepth 16 v := fun v hv => .inl ⟨rfl, hv⟩
  have hside : InDepth 17 (sampleAt t 0 i - sampleAt t 1 i) := .inr ⟨rfl, by omega, by omega⟩
  obtain rfl | rfl | rfl | rfl : mode = 0 ∨ mode = 1 ∨ mode = 2 ∨ mode = 3 := by
    have := mode_of_stApply ht
    omega
  · obtain ⟨hkept, -⟩ := hleftRight rfl
    have hu : PairIs u i _ _ 16 16 := ⟨(hkept _ _ rfl).trans hpair.sample0, (hkept _ _ rfl).trans hpair.sample1,
      (hkept _ _ rfl).trans hpair.obits0, (hkept _ _ rfl).trans hpair.obits1⟩
    exact hu.undone rfl (hin _ hl) (hin _ hr)
  · obtain ⟨hsmp, hobits, hkept, -⟩ := hleftSide rfl
    have hout : covered (channelRanges 1 t.regs.n.toNat) .smp (0 * 65536 + i) = false :=
      not_covered_sample (by decide) (hn.trans (by decide)) hi
    rw [Nat.zero_mul, Nat.zero_add] at hout
    have hu : PairIs u i _ _ 16 17 := ⟨(hkept _ _ hout).trans hpair.sample0, hsmp i hi,
      (hkept _ _ rfl).trans hpair.obits0, hobits⟩
    exact hu.undone (undoStereo_leftSide ..) (hin _ hl) hside
  · obtain ⟨hsmp, hobits, hkept, -⟩ := hrightSide rfl
    have hout : covered (channelRanges 0 t.regs.n.toNat) .smp (1 * 65536 + i) = false :=
      not_covered_sample (by decide) (hn.trans (by decide)) hi
    rw [Nat.one_mul] at hout
    have hu : PairIs u i _ _ 17 16 := ⟨hsmp i hi, (hkept _ _ hout).trans hpair.sample1,
      hobits, (hkept _ _ rfl).trans hpair.obits1⟩
    exact hu.undone (undoStereo_rightSide ..) hside (hin _ hr)
  · obtain ⟨hsmp, hobits, hkept, -⟩ := hmidSide rfl
    obtain ⟨hmid, hsmp⟩ := hsmp i hi
    have hu : PairIs u i _ _ 16 17 := ⟨hmid, hsmp, (hkept _ _ rfl).trans hpair.obits0, hobits⟩
    exact hu.undone (undoStereo_midSide ..) (hin _ (by omega)) hside

/-- Settles O46: `DEINTERLEAVE` makes both channels known, and `ST_APPLY` leaves what the reader undoes. -/
theorem stereo_is_undone : Obligations.stereo_is_undone := by
  intro s t u mode hcfg hc hsplit hsplitOk happly happlyOk i hi
  have hs := earlyError_of_deinterleave_noError hsplit hsplitOk
  have ht := earlyError_of_stApply_noError happly happlyOk
  have hregs := deinterleave_regs hs hsplit
  have hpair := pairIs_of_deinterleave hcfg hc hs hsplit hi
  exact undone_of_stApply (by rwa [hregs]) ht happly (by rwa [hregs]) hpair (memRead_inp_range s _) (memRead_inp_range s _)

end Sys2Proof.Proofs
end

section
/-!
`FRAME_INIT` (`45_frame_encoder.md` R267), and the bits of a subframe (`30_encoding.md` R111 to R117), which `WR_SUBFRAME`
appends.
-/
namespace Sys2Proof.Proofs
open Sys2Proof.Machine

/-! ## `FRAME_INIT` -/

/-- The checks of `FRAME_INIT`. -/
def initChecks (s : State) (retry : Nat) : List (Bool × ErrCode) :=
  [cfgCheck s, (decide (retry ≠ 1) || decide (s.regs.fsm = .overflowRetry), .seq), fieldCheck 0 retry 1, blockCheck s 1,
    capacityCheck s 0]

theorem exec_frameInit_eq (s : State) (retry : Nat) : exec (.frameInit retry) s
    = command s (initChecks s retry) fun s => succeed (frameInitEffect (retry == 1) s) := rfl

theorem retryCheck_eq (s : State) (retry : Nat) : (decide (retry ≠ 1) || decide (s.regs.fsm = .overflowRetry))
    = decide (retry = 1 → s.regs.fsm = .overflowRetry) := by
  rw [← Bool.decide_or]
  exact decide_eq_decide.2 Decidable.imp_iff_not_or.symm

/-- The checks of `FRAME_INIT` hold exactly when no error is met early. -/
theorem initChecks_iff {s : State} {retry : Nat} :
    (∀ c ∈ initChecks s retry, c.1 = true) ↔ earlyError (.frameInit retry) s = none := by
  simp only [initChecks, List.forall_mem_cons, retryCheck_eq]
  constructor
  · rintro ⟨hcfg, hstate, hfield, hblock, hcap, -⟩
    exact earlyError_eq_none hcfg hstate (decide_eq_true (le_of_fieldCheck hfield)) hblock
      (decide_eq_true (outCap_le_of_check hcap)) rfl
  · intro h
    obtain ⟨hcfg, hstate, hfield, hblock, hcap, -⟩ := ready_of_earlyError_eq_none h
    exact ⟨hcfg, hstate, fieldCheck_zero hfield, hblock, (within_eq_true ..).2 ⟨Nat.zero_le _, of_decide_eq_true hcap⟩,
      List.forall_mem_nil _⟩

theorem exec_frameInit {s : State} {retry : Nat} (h : earlyError (.frameInit retry) s = none) :
    exec (.frameInit retry) s = succeed (frameInitEffect (retry == 1) s) := by
  rw [exec_frameInit_eq, command_of_checks (initChecks_iff.2 h)]

/-- Settles O47: a block of a valid configuration has a code, and the rest is the effect's definition. -/
theorem frame_init_starts_frame : Obligations.frame_init_starts_frame := by
  intro s retry hcfg hs
  obtain ⟨-, -, -, hblock, -⟩ := ready_of_earlyError_eq_none hs
  obtain ⟨hlo, -⟩ := (within_eq_true ..).1 hblock
  refine ⟨_, bsCodeOf_of_le hlo (blockLen_le_of_blockCheck hcfg hblock), ?_⟩
  rw [exec_frameInit hs, beq_eq_decide]
  rfl

end Sys2Proof.Proofs
end

section
/-!
The bits of a subframe are those of `30_encoding.md` R111 to R117, and `WR_SUBFRAME` appends them (`45_frame_encoder.md` R269 to
R274).
-/
namespace Sys2Proof.Proofs
open Sys2Proof.Machine

/-! ## The residual section -/

theorem partBits_eq (f : Nat → Int) (n order p : Nat) (param : Nat → Nat) (j : Nat) : partBits f n order p param j
    = msbBits 4 (param j)
      ++ (List.range' (partStart n order p j) ((j + 1) * (n / 2 ^ p) - partStart n order p j)).flatMap
        fun i => riceCode (param j) (f i) := by
  rw [partBits, fieldBits_eq_msbBits, partRes, List.flatMap_map]
  simp only [riceBits_eq]

/-- The model's residual section is that of R117. -/
theorem residualBits_eq_layout {f : Nat → Int} {n order p : Nat} {param : Nat → Nat} {field : Nat → Int}
    (h : ∀ j, j < 2 ^ p → field j = param j) :
    residualBits ((List.range n).map f) n order p ((List.range (2 ^ p)).map param) = residualLayout f n order p field := by
  rw [residualBits_map_range, residualLayout, fieldBits_eq_msbBits, fieldBits_eq_msbBits, Nat.cast_zero]
  refine congrArg _ (List.flatMap_congr fun j hj => ?_)
  rw [partBits_eq, h j (List.mem_range.1 hj), Int.toNat_natCast]

/-! ## Records that are accepted -/

section
variable {t : State} {ch : Nat}

/-- A record with a prediction, as its checks leave it: whatever RES holds is taken for its residuals. -/
theorem predicted_of_accepted (h : recordAccepted t ch = true) (htype : recordAt t ch 0 = 2 ∨ recordAt t ch 0 = 3) :
    Predicted t ch (recordAt t ch 0) (recordAt t ch 1).toNat (recordAt t ch 5).toNat (fun j => (recordAt t ch (256 + j)).toNat)
      (residualAt t ch) := by
  obtain ⟨-, hobits, hfixed, hlpc, -, -, hplan⟩ := recordAccepted_iff.1 h
  obtain ⟨⟨hp0, hp8⟩, hdvd, hspan, hparams⟩ := hplan.resolve_left (not_not.2 htype)
  have horder : 0 ≤ recordAt t ch 1 := by
    rcases htype with h2 | h3
    · exact (hfixed.resolve_left (not_not.2 h2)).1
    · exact le_trans (by decide) (hlpc.resolve_left (not_not.2 h3)).1
  refine ⟨⟨by omega, ?_, ?_, fun j hj => ?_⟩, rfl, (Int.toNat_of_nonneg horder).symm, hobits, (Int.toNat_of_nonneg hp0).symm,
    fun j hj => (Int.toNat_of_nonneg (hparams j hj).1).symm, fun _ _ => rfl⟩
  · exact_mod_cast Int.dvd_of_emod_eq_zero hdvd
  · have hcast : (t.blockLen : Int) / 2 ^ (recordAt t ch 5).toNat = (t.blockLen / 2 ^ (recordAt t ch 5).toNat : Nat) := by
      push_cast
      rfl
    rw [hcast] at hspan
    omega
  · have := hparams j hj
    omega

/-- The type codes of R112. -/
theorem subHeaderBits_eq {type order code : Int} (h : typeCode type order = code) :
    subHeaderBits type order = [false] ++ msbBits 6 code ++ [false] := by
  have hzero : msbBits 1 0 = [false] := rfl
  rw [subHeaderBits, h, fieldBits_eq_msbBits, fieldBits_eq_msbBits, hzero]

/-- The model's samples and warm-up samples are those of R114 to R116. -/
theorem sampleBits_map_range (obits n : Nat) (f : Nat → Int) :
    sampleBits obits ((List.range n).map f) = (List.range n).flatMap fun i => msbBits obits (f i) := by
  rw [sampleBits, List.flatMap_map]
  simp only [fieldBits_eq_msbBits]

theorem recCoefs_eq (t : State) (ch : Nat) :
    recCoefs t ch = (List.range (recordAt t ch 1).toNat).map fun j => recordAt t ch (32 + j) := by
  rw [recCoefs, State.readRun]
  refine List.map_congr_left fun j _ => ?_
  rw [recIndex, Nat.add_assoc]
  rfl

theorem coefBits_map_range (prec o : Nat) (shift : Int) (q : Nat → Int) : coefBits prec shift ((List.range o).map q)
    = msbBits 4 ((prec : Int) - 1) ++ msbBits 5 shift ++ (List.range o).flatMap fun j => msbBits prec (q j) := by
  rw [coefBits, List.flatMap_map]
  simp only [fieldBits_eq_msbBits]

/-- The body of a predicted subframe: warm-up samples, the quantized set of an LPC one, and the residual section. -/
theorem subBodyBits_predicted (h : recordAccepted t ch = true) (htype : recordAt t ch 0 = 2 ∨ recordAt t ch 0 = 3) :
    subBodyBits t ch
      = ((List.range (recordAt t ch 1).toNat).flatMap fun i => msbBits (recordAt t ch 2).toNat (residualAt t ch i))
        ++ (if recordAt t ch 0 = 3 then coefBits (recordAt t ch 3).toNat (recordAt t ch 4) (recCoefs t ch) else [])
        ++ residualLayout (residualAt t ch) t.blockLen (recordAt t ch 1).toNat (recordAt t ch 5).toNat
          fun j => recordAt t ch (256 + j) := by
  have hrecord := predicted_of_accepted h htype
  rw [← residualBits_eq_layout hrecord.params, ← hrecord.residualBits_eq, ← sampleBits_map_range, ← hrecord.warm_eq]
  have h0 : ¬t.sub ch 0 = typeConstant := fun h0 => by
    have h0 : recordAt t ch 0 = 0 := h0
    omega
  have h1 : ¬t.sub ch 0 = typeVerbatim := fun h1 => by
    have h1 : recordAt t ch 0 = 1 := h1
    omega
  exact (if_neg h0).trans (if_neg h1)

/-- The model's subframe is that of `30_encoding.md` R111 to R117, for a record that `WR_SUBFRAME` accepts. -/
theorem subframeBits_eq_layout (h : recordAccepted t ch = true) : subframeBits t ch = subframeLayout t ch := by
  obtain ⟨⟨hlo, hhi⟩, -, hfixed, hlpc, -, hset, -⟩ := recordAccepted_iff.1 h
  rw [subframeBits_eq, subframeLayout]
  obtain h0 | h1 | h2 | h3 : recordAt t ch 0 = 0 ∨ recordAt t ch 0 = 1 ∨ recordAt t ch 0 = 2 ∨ recordAt t ch 0 = 3 := by omega
  · have hbody : subBodyBits t ch = sampleBits (recordAt t ch 2).toNat (t.residuals ch 1) := if_pos h0
    rw [if_pos h0, subHeaderBits_eq (code := 0) (by rw [h0]; rfl), hbody, residuals_eq, sampleBits_map_range]
  · have hbody : subBodyBits t ch = sampleBits (recordAt t ch 2).toNat (t.residuals ch t.blockLen) :=
      (if_neg fun h0 => absurd (h1.symm.trans h0) (by decide)).trans (if_pos h1)
    rw [if_neg (by omega), if_pos h1, subHeaderBits_eq (code := 1) (by rw [h1]; rfl), hbody, residuals_eq, sampleBits_map_range]
    rfl
  · obtain ⟨horder, -⟩ := hfixed.resolve_left (not_not.2 h2)
    have hcode : typeCode (recordAt t ch 0) (recordAt t ch 1) = 8 + (recordAt t ch 1).toNat := by
      rw [h2, Int.toNat_of_nonneg horder]
      rfl
    rw [if_neg (by omega), if_neg (by omega), if_pos h2, subHeaderBits_eq hcode, subBodyBits_predicted h (.inl h2),
      if_neg (by omega), List.append_nil, ← List.append_assoc]
    rfl
  · obtain ⟨horder, -⟩ := hlpc.resolve_left (not_not.2 h3)
    obtain ⟨⟨hprec, -⟩, -⟩ := hset.resolve_left (not_not.2 h3)
    have hcode : typeCode (recordAt t ch 0) (recordAt t ch 1) = 32 + ((recordAt t ch 1).toNat - 1 : Int) := by
      rw [h3, Int.toNat_of_nonneg (by omega)]
      rfl
    have hprecCast : ((recordAt t ch 3).toNat : Int) = recordAt t ch 3 := Int.toNat_of_nonneg (by omega)
    rw [if_neg (by omega), if_neg (by omega), if_neg (by omega), subHeaderBits_eq hcode, subBodyBits_predicted h (.inr h3),
      if_pos h3, recCoefs_eq, coefBits_map_range, hprecCast]
    simp only [List.append_assoc]
    rfl

end

/-! ## `WR_SUBFRAME` -/

/-- The checks of `WR_SUBFRAME`. -/
def subframeChecks (s : State) (ch : Nat) : List (Bool × ErrCode) :=
  [cfgCheck s, fsmCheck s .headerWritten, (decide (ch = s.regs.subcnt.toNat), .seq),
    (decide (bsCodeOf s.blockLen = some s.regs.bsCode), .seq), chCheck s ch, (recordOk s ch, .operand)]

theorem exec_wrSubframe_eq (s : State) (ch : Nat) : exec (.wrSubframe ch) s
    = command s (subframeChecks s ch) fun s => succeed (wrSubframeEffect ch s) := rfl

/-- The checks of `WR_SUBFRAME` hold exactly when no error is met early. -/
theorem subframeChecks_iff {s : State} {ch : Nat} :
    (∀ c ∈ subframeChecks s ch, c.1 = true) ↔ earlyError (.wrSubframe ch) s = none := by
  simp only [subframeChecks, List.forall_mem_cons, recordOk_eq]
  constructor
  · rintro ⟨hcfg, hfsm, hcount, hcode, hch, hrecord, -⟩
    exact earlyError_eq_none hcfg (Bool.and_eq_true_iff.2 ⟨Bool.and_eq_true_iff.2 ⟨hfsm, hcount⟩, hcode⟩) hch rfl rfl hrecord
  · intro h
    obtain ⟨hcfg, hstate, hch, -, -, hrecord⟩ := ready_of_earlyError_eq_none h
    obtain ⟨hstate, hcode⟩ := Bool.and_eq_true_iff.1 hstate
    obtain ⟨hfsm, hcount⟩ := Bool.and_eq_true_iff.1 hstate
    exact ⟨hcfg, hfsm, hcount, hcode, hch, hrecord, List.forall_mem_nil _⟩

theorem exec_wrSubframe {s : State} {ch : Nat} (h : earlyError (.wrSubframe ch) s = none) :
    exec (.wrSubframe ch) s = succeed (wrSubframeEffect ch s) := by
  rw [exec_wrSubframe_eq, command_of_checks (subframeChecks_iff.2 h)]

/-- What `WR_SUBFRAME` requires besides the configuration (`45_frame_encoder.md` R269). -/
structure SubframeReady (s : State) (ch : Nat) : Prop where
  fsm : s.regs.fsm = .headerWritten
  count : ch = s.regs.subcnt.toNat
  code : bsCodeOf s.blockLen = some s.regs.bsCode
  channel : ch < s.channels
  record : recordAccepted s ch = true

theorem subframeReady_of_earlyError {s : State} {ch : Nat} (h : earlyError (.wrSubframe ch) s = none) :
    SubframeReady s ch := by
  obtain ⟨-, hstate, hch, -, -, hrecord⟩ := ready_of_earlyError_eq_none h
  simp only [stateReady, Bool.and_eq_true, decide_eq_true_eq] at hstate
  obtain ⟨⟨hfsm, hcount⟩, hcode⟩ := hstate
  exact ⟨hfsm, hcount, hcode, of_decide_eq_true hch, hrecord⟩

/-- SUBCNT counts up to eight channels. -/
theorem subcnt_succ {c : BitVec 4} {n : Nat} (h : c.toNat < n) (hn : n ≤ 8) : (c + 1).toNat = c.toNat + 1 := by
  rw [BitVec.toNat_add, show (1 : BitVec 4).toNat = 1 from rfl]
  omega

/-- Settles O49: the bits are those of the layout, and the effect counts the subframe. -/
theorem wr_subframe_appends_record : Obligations.wr_subframe_appends_record := by
  intro s ch hcfg hs hlen
  obtain ⟨hfsm, hcount, -, hch, hrecord⟩ := subframeReady_of_earlyError hs
  obtain ⟨⟨-, hmax⟩, -⟩ := configError_none hcfg
  have hsucc := subcnt_succ (hcount ▸ hch) hmax
  have hbits := subframeBits_eq_layout hrecord
  have happ : Appended s (putBits s (subframeLayout s ch)) (subframeLayout s ch) := putBits_appended hlen
  have hregs := putBits_regs s (subframeLayout s ch)
  rw [exec_wrSubframe hs, wrSubframeEffect, hbits]
  generalize putBits s (subframeLayout s ch) = t at happ hregs
  refine ⟨_, rfl, { happ with stream := fun l hl => streamIs_of_writer (happ.stream l hl) rfl rfl rfl }, ?_⟩
  have hchannels : t.channels = s.regs.cfg.channels.toNat := by rw [State.channels, hregs]; rfl
  have hsub : t.regs.subcnt = s.regs.subcnt := by rw [hregs]; rfl
  have hstate : t.regs.fsm = .headerWritten := by rw [hregs]; exact hfsm
  simp only [hsub, hsucc, hchannels, hstate]
  exact congrArg (fun r : Regs => { r with
    err := .noError, subcnt := s.regs.subcnt + 1
    fsm := if s.regs.subcnt.toNat + 1 = s.regs.cfg.channels.toNat then .subframesWritten else .headerWritten }) hregs

end Sys2Proof.Proofs
end

section
/-!
`WR_FOOTER` (`45_frame_encoder.md` R276 to R282): the CRC-16 over a stream that ends with its own CRC-16 is 0, and the three ends
of the command.
-/
namespace Sys2Proof.Proofs
open Sys2Proof.Machine

/-! ## The checksum of a stream that ends with its checksum -/

theorem crc16Bit_of_msb {c : BitVec 16} (h : c.msb = false) : crc16Bit c = c <<< 1 := by
  rw [crc16Bit, h]
  rfl

/-- The register's high byte is 0, so that no generator polynomial enters while its low byte moves up. -/
theorem repeat_crc16Bit_low {n : Nat} (hn : n ≤ 8) (b : BitVec 8) :
    Nat.repeat crc16Bit n (b.setWidth 16) = b.setWidth 16 <<< n := by
  induction n with
  | zero => exact (BitVec.shiftLeft_zero _).symm
  | succ n ih =>
    have hmsb : (b.setWidth 16 <<< n).msb = false := by
      have hb := b.isLt
      have hpow : 2 ^ n ≤ 2 ^ 7 := Nat.pow_le_pow_right (by decide) (by omega)
      have hmul : b.toNat * 2 ^ n ≤ 255 * 2 ^ 7 := Nat.mul_le_mul (by omega) hpow
      rw [BitVec.msb_eq_false_iff_two_mul_lt, BitVec.toNat_shiftLeft, BitVec.toNat_setWidth, Nat.shiftLeft_eq,
        Nat.mod_eq_of_lt (a := b.toNat) (by omega), Nat.mod_eq_of_lt (by omega)]
      omega
    rw [Nat.repeat, ih (by omega), crc16Bit_of_msb hmsb, BitVec.shiftLeft_add]

/-- The step of the CRC-16 on the register's own high byte leaves its low byte on top. -/
theorem crc16Step_high (c : BitVec 16) :
    crc16Step c (c.extractLsb' 8 8) = (c.extractLsb' 0 8).setWidth 16 <<< 8 := by
  have hxor : c ^^^ ((c.extractLsb' 8 8).setWidth 16 <<< 8) = (c.extractLsb' 0 8).setWidth 16 := by
    ext i hi
    by_cases h8 : i < 8
    · simp [h8, BitVec.getLsbD_eq_getElem hi]
    · simp [h8, show i - 8 < 8 by omega, show 8 + (i - 8) = i by omega, BitVec.getLsbD_eq_getElem hi]
  rw [crc16Step, hxor, repeat_crc16Bit_low (Nat.le_refl 8)]

theorem crc16Step_top (b : BitVec 8) : crc16Step (b.setWidth 16 <<< 8) b = 0 := by
  rw [crc16Step, BitVec.xor_self]
  decide

/-- The CRC-16 of bytes followed by their CRC-16 is 0. -/
theorem crc16Step_own (c : BitVec 16) : crc16Step (crc16Step c (c.extractLsb' 8 8)) (c.extractLsb' 0 8) = 0 := by
  rw [crc16Step_high, crc16Step_top]

/-- The high bits of a field come first. -/
theorem msbBits_add (a b : Nat) (v : Int) : msbBits (a + b) v = msbBits a (v / (2 ^ b : Nat)) ++ msbBits b v := by
  induction b generalizing v with
  | zero => rw [Nat.pow_zero, Nat.cast_one, Int.ediv_one]; exact (List.append_nil _).symm
  | succ b ih =>
    rw [← Nat.add_assoc, msbBits_succ, ih, msbBits_succ b, List.append_assoc, Nat.pow_succ', Nat.cast_mul,
      ← Int.ediv_ediv_of_nonneg (by decide)]
    rfl

/-- Eight bits after whole bytes are one byte more. -/
theorem streamBytes_append_byte {l r : List Bool} (hl : l.length % 8 = 0) (hr : r.length = 8) :
    streamBytes (l ++ r) = streamBytes l ++ [BitVec.ofNat 8 (bitsToNat r)] := by
  have hcount : (l ++ r).length / 8 = l.length / 8 + 1 := by
    rw [List.length_append]
    omega
  have hlast : (l ++ r).length = 8 * (l.length / 8 + 1) := by
    rw [List.length_append]
    omega
  have hdrop : (l ++ r).drop (8 * (l.length / 8)) = r := List.drop_left' (by omega)
  rw [streamBytes, hcount, List.range_succ, List.map_append, List.map_singleton, streamByte_last hlast, hdrop]
  refine congrArg (· ++ _) (List.map_congr_left fun j hj => ?_)
  have := List.mem_range.1 hj
  rw [streamByte_append (by omega)]

/-- The bytes of a field of 16 bits. -/
theorem streamBytes_append_word {l : List Bool} (hl : l.length % 8 = 0) (c : BitVec 16) :
    streamBytes (l ++ msbBits 16 c.toNat) = streamBytes l ++ [c.extractLsb' 8 8, c.extractLsb' 0 8] := by
  have hsplit : msbBits 16 c.toNat = msbBits 8 (c.toNat / 2 ^ 8 : Nat) ++ msbBits 8 c.toNat := msbBits_add 8 8 _
  have hlen := msbBits_length 8
  rw [hsplit, ← List.append_assoc, streamBytes_append_byte (by rw [List.length_append, hlen]; omega) (hlen _),
    streamBytes_append_byte hl (hlen _), bitsToNat_msbBits, bitsToNat_msbBits, List.append_assoc]
  have hhigh : BitVec.ofNat 8 (c.toNat / 2 ^ 8 % 2 ^ 8) = c.extractLsb' 8 8 := by
    refine BitVec.eq_of_toNat_eq ?_
    simp [Nat.shiftRight_eq_div_pow]
  have hlow : BitVec.ofNat 8 (c.toNat % 2 ^ 8) = c.extractLsb' 0 8 := by
    refine BitVec.eq_of_toNat_eq ?_
    simp
  rw [hhigh, hlow]
  rfl

/-- The CRC-16 of whole bytes and their CRC-16 is 0 (`40_bit_writer.md` R153). -/
theorem streamCrc16_own {l : List Bool} (hl : l.length % 8 = 0) :
    streamCrc16 (l ++ msbBits 16 (streamCrc16 l).toNat) = 0 := by
  rw [streamCrc16_eq (l ++ _), streamBytes_append_word hl, List.foldl_append, ← streamCrc16_eq]
  exact crc16Step_own _

/-! ## `WR_FOOTER` -/

/-- The state after the footer's bits: the CRC-16 is read before any of its own bits is written. -/
def footerWritten (s : State) : State := putU (flush s) 16 (flush s).regs.crc16Run.toNat

/-- How the footer ends a frame of `len` bytes (R277 to R279). -/
def footerEnd (u : State) (len : Nat) : Effect :=
  if len ≤ u.regs.maxFramesize.toNat ∧ len ≤ u.regs.bwCap.toNat then .ok (frameDone u len)
  else if u.regs.retried = true then .error (.frameOverflow, u.setFsm .failed)
  else .ok (u.setFsm .overflowRetry)

theorem wrFooterEffect_eq (s : State) :
    wrFooterEffect s = footerEnd (footerWritten s) ((footerWritten s).regs.bitpos.toNat / 8) := by
  rw [wrFooterEffect, footerEnd, footerWritten]

/-- How many zero bits reach the byte boundary (`40_bit_writer.md` R145). -/
def padding (pos : Nat) : Nat := (8 - pos % 8) % 8

theorem padding_lt (pos : Nat) : padding pos < 8 := Nat.mod_lt _ (by decide)

theorem add_padding (pos : Nat) : (pos + padding pos) % 8 = 0 := by
  unfold padding
  omega

theorem flush_eq (s : State) : flush s = putBits s (List.replicate (padding s.regs.bitpos.toNat) false) := rfl

/-- The footer of a stream: the padding, and the CRC-16 of every byte before it. -/
def footerBits (l : List Bool) : List Bool :=
  List.replicate (padding l.length) false
    ++ msbBits 16 (streamCrc16 (l ++ List.replicate (padding l.length) false)).toNat

theorem footerBits_length (l : List Bool) : (footerBits l).length = padding l.length + 16 := by
  rw [footerBits, List.length_append, List.length_replicate, msbBits_length]

theorem footerWritten_eq {s : State} {l : List Bool} (hs : StreamIs s l) (hlen : l.length + 32 < 2 ^ 64) :
    footerWritten s = putBits s (footerBits l) := by
  have hpad := padding_lt l.length
  have hcrc : (flush s).regs.crc16Run = streamCrc16 (l ++ List.replicate (padding l.length) false) := by
    rw [flush_eq, hs.pos]
    exact (putBits_stream _ hs (by rw [List.length_replicate]; omega)).crc16
  rw [footerWritten, hcrc, flush_eq, hs.pos, putU, fieldBits_eq_msbBits, ← putBits_append]
  rfl

theorem exec_wrFooter_eq (s : State) : exec .wrFooter s
    = command s [cfgCheck s, fsmCheck s .subframesWritten] fun s => finish (wrFooterEffect s) := rfl

/-- The checks of `WR_FOOTER` hold exactly when no error is met early. -/
theorem footerChecks_iff {s : State} :
    (∀ c ∈ [cfgCheck s, fsmCheck s .subframesWritten], c.1 = true) ↔ earlyError .wrFooter s = none := by
  simp only [List.forall_mem_cons]
  constructor
  · rintro ⟨hcfg, hfsm, -⟩
    exact earlyError_eq_none hcfg hfsm rfl rfl rfl rfl
  · intro h
    obtain ⟨hcfg, hfsm, -⟩ := ready_of_earlyError_eq_none h
    exact ⟨hcfg, hfsm, List.forall_mem_nil _⟩

theorem exec_wrFooter {s : State} (h : earlyError .wrFooter s = none) :
    exec .wrFooter s = finish (wrFooterEffect s) := by
  rw [exec_wrFooter_eq, command_of_checks (footerChecks_iff.2 h)]

/-- The footer ends the frame in one of the three ways, with a report; the writer's state and memory are those of its bits. -/
theorem finish_footerEnd {s u : State} (hu : u.regs = withWriter s.regs u.regs) (len : Nat) :
    ∃ t, finish (footerEnd u len) = .next t ∧ t.mem = u.mem ∧ t.host = u.host ∧ t.readData = u.readData
      ∧ withWriter t.regs u.regs = t.regs ∧ t.regs.bwCap = u.regs.bwCap
      ∧ t.regs =
          if len ≤ s.regs.maxFramesize.toNat ∧ len ≤ s.regs.bwCap.toNat then
            { withWriter s.regs t.regs with
              outLen := BitVec.ofNat 32 len, frameOk := true, frameCount := s.regs.frameCount + 1, fsm := .done,
              err := .noError }
          else if s.regs.retried = false then
            { withWriter s.regs t.regs with fsm := .overflowRetry, err := .noError }
          else
            { withWriter s.regs t.regs with fsm := .failed, err := .frameOverflow, errSticky := true } := by
  have hfit : (len ≤ u.regs.maxFramesize.toNat ∧ len ≤ u.regs.bwCap.toNat)
      ↔ (len ≤ s.regs.maxFramesize.toNat ∧ len ≤ s.regs.bwCap.toNat) := by rw [hu]; rfl
  have hretried : u.regs.retried = s.regs.retried := by rw [hu]; rfl
  have hcount : u.regs.frameCount = s.regs.frameCount := by rw [hu]; rfl
  rw [footerEnd]
  simp only [hfit, hretried]
  split
  next =>
    refine ⟨_, rfl, rfl, rfl, rfl, rfl, rfl, ?_⟩
    rw [← hcount]
    exact congrArg (fun r : Regs => { r with
      outLen := BitVec.ofNat 32 len, frameOk := true, frameCount := u.regs.frameCount + 1, fsm := .done, err := .noError }) hu
  next =>
    cases s.regs.retried
    · exact ⟨_, rfl, rfl, rfl, rfl, rfl, rfl, congrArg (fun r : Regs => { r with fsm := .overflowRetry, err := .noError }) hu⟩
    · exact ⟨_, rfl, rfl, rfl, rfl, rfl, rfl,
        congrArg (fun r : Regs => { r with fsm := .failed, err := .frameOverflow, errSticky := true }) hu⟩

/-- Settles O50: the footer's bits are appended, their bytes are counted, and the CRC-16 ends at 0. -/
theorem wr_footer_ends_frame : Obligations.wr_footer_ends_frame := by
  intro s l hs hstream hlen
  have hpad := padding_lt l.length
  have hbits := footerBits_length l
  have hpos : s.regs.bitpos.toNat = l.length := hstream.pos
  have happ : Appended s _ (footerBits l) := putBits_appended (by omega)
  have hregs := putBits_regs s (footerBits l)
  have hbody : (l ++ List.replicate (padding l.length) false).length = l.length + padding l.length := by
    rw [List.length_append, List.length_replicate]
  have hwhole := add_padding l.length
  rw [exec_wrFooter hs, wrFooterEffect_eq, footerWritten_eq hstream hlen]
  generalize putBits s (footerBits l) = u at happ hregs
  have hcount : u.regs.bitpos.toNat / 8 = (l.length + padding l.length) / 8 + 2 := by
    rw [happ.pos]
    omega
  obtain ⟨t, hexec, hmem, hhost, hread, hwriter, hcap, hend⟩ := finish_footerEnd hregs (u.regs.bitpos.toNat / 8)
  refine ⟨t, padding l.length, hpad, hwhole, hexec, ?_⟩
  intro body len
  have hlenEq : len = u.regs.bitpos.toNat / 8 := by rw [hcount, ← hbody]
  have hfull : StreamIs u (body ++ msbBits 16 (streamCrc16 body).toNat) := by
    have := happ.stream l hstream
    rwa [footerBits, ← List.append_assoc] at this
  have hfinal : StreamIs t (body ++ msbBits 16 (streamCrc16 body).toNat) := streamIs_of_writer hfull hwriter hcap hmem
  refine ⟨hfinal, ?_, ⟨fun sp i hout => ?_, hhost.trans happ.host.1, hread.trans happ.host.2⟩, ?_⟩
  · rw [hfinal.crc16, streamCrc16_own (by rw [hbody]; exact hwhole)]
  · rw [hmem]
    by_cases hsp : sp = .out
    · subst hsp
      have hi : l.length / 8 ≤ i → l.length / 8 + (min len s.regs.bwCap.toNat - l.length / 8) ≤ i := by
        simpa [covered] using hout
      refine happ.outside i ?_
      omega
    · exact happ.kept sp i hsp
  · rwa [← hlenEq] at hend

end Sys2Proof.Proofs
end

section
/-!
What the composite command `ENCODE_FRAME` and its step commands differ in (`45_frame_encoder.md` R280): a4 and a5, STATUS.ERR
and, before `FRAME_INIT`, STATUS.FSM. No effect of a step reads them, so each commutes with writing them.
-/
namespace Sys2Proof.Proofs
open Sys2Proof.Machine

/-- `s` with other operand registers, STATUS.ERR and STATUS.FSM. -/
def relabel (o : OpRegs) (e : ErrCode) (f : Fsm) (s : State) : State :=
  { s with regs := { s.regs with ops := o, err := e, fsm := f } }

/-- Change the state that an effect leaves. -/
def mapLeft (g : State → State) : Effect → Effect
  | .ok t => .ok (g t)
  | .error (e, t) => .error (e, g t)

theorem mapLeft_ok (g : State → State) (t : State) : mapLeft g (.ok t) = .ok (g t) := rfl

section
variable (o : OpRegs) (e : ErrCode) (f : Fsm) (s : State)

/-! ## The stereo selector -/

theorem deinterleaveEffect_relabel : deinterleaveEffect (relabel o e f s) = relabel o e f (deinterleaveEffect s) := by
  have hfold : (List.range s.channels).foldl deinterleaveChannel (relabel o e f s)
      = relabel o e f ((List.range s.channels).foldl deinterleaveChannel s) := List.foldl_hom _ fun _ _ => rfl
  exact congrArg (State.setChMode · 0) hfold

theorem stEstimateEffect_relabel : stEstimateEffect (relabel o e f s) = relabel o e f (stEstimateEffect s) := by
  unfold stEstimateEffect
  by_cases hc : s.channels = 2
  · rw [if_pos hc]
    exact if_pos hc
  · rw [if_neg hc]
    exact if_neg hc

theorem stApplyEffect_relabel (mode : Nat) :
    stApplyEffect mode (relabel o e f s) = relabel o e f (stApplyEffect mode s) := by
  unfold stApplyEffect
  split <;> rfl

theorem prepareSamples_relabel : prepareSamples (relabel o e f s) = relabel o e f (prepareSamples s) := by
  have hsplit := deinterleaveEffect_relabel o e f s
  unfold prepareSamples
  rw [hsplit]
  by_cases hc : (deinterleaveEffect s).channels = 2
  · simp only [if_pos hc]
    refine (if_pos hc).trans ?_
    rw [stEstimateEffect_relabel]
    exact stApplyEffect_relabel ..
  · simp only [if_neg hc]
    exact if_neg hc

/-! ## `SUB_ENCODE` and `SUB_VERBATIM` -/

theorem subEncodeEffect_lpc {s : State} {ch : Nat} (hvaries : Varies s ch) (hlen : 5 ≤ s.blockLen)
    (hlpc : ¬(s.regs.cfg.lpcType.toNat = 0 ∨ s.blockLen ≤ s.regs.cfg.maxOrder.toNat)) :
    subEncodeEffect ch s = lpcPath ch s :=
  ((if_neg fun hall => allEqual_samples_iff.1 hall hvaries).trans (if_neg hlen.not_gt)).trans (if_neg hlpc)

theorem forget_relabel (rs : List Range) : (relabel o e f s).forget rs = relabel o e f (s.forget rs) := rfl

theorem forgetSums_relabel : forgetSums (relabel o e f s) = relabel o e f (forgetSums s) := rfl

theorem setResiduals_relabel (ch : Nat) (vals : List Int) :
    (relabel o e f s).setResiduals ch vals = relabel o e f (s.setResiduals ch vals) := rfl

theorem storeHead_relabel (ch : Nat) (type : Int) (order : Nat) (bits : Int) :
    storeHead (relabel o e f s) ch type order bits = relabel o e f (storeHead s ch type order bits) := rfl

theorem constantEffect_relabel (ch : Nat) : constantEffect ch (relabel o e f s) = relabel o e f (constantEffect ch s) := by
  have hobits : (relabel o e f s).sub ch 2 = s.sub ch 2 := rfl
  have hsamples : (relabel o e f s).samples ch 1 = s.samples ch 1 := rfl
  rw [constantEffect, hobits, hsamples, storeHead_relabel, setResiduals_relabel, forget_relabel, constantEffect]

theorem subVerbatimEffect_relabel (ch : Nat) :
    subVerbatimEffect ch (relabel o e f s) = relabel o e f (subVerbatimEffect ch s) := rfl

end

section
variable (o : OpRegs) (e : ErrCode) (f : Fsm) (s : State)

theorem fixedPath_relabel (ch : Nat) : fixedPath ch (relabel o e f s) = mapLeft (relabel o e f) (fixedPath ch s) := by
  have hcand : fixedCandidate (relabel o e f s) ch = fixedCandidate s ch := rfl
  have hcfg : (relabel o e f s).regs.cfg = s.regs.cfg := rfl
  simp only [fixedPath, hcand, hcfg]
  split <;> rfl

theorem storeLpc_relabel (ch : Nat) (a : Search) (c : Candidate) :
    storeLpc ch (relabel o e f s) a c = relabel o e f (storeLpc ch s a c) := by
  have hfold : a.done.foldr (fun d s => storeQuant s d.order d.q d.shift) (relabel o e f s)
      = relabel o e f (a.done.foldr (fun d s => storeQuant s d.order d.q d.shift) s) := List.foldr_hom _ fun _ _ => rfl
  unfold storeLpc
  rw [hfold]
  rfl

theorem lpcSelect_relabel (ch lo hi : Nat) :
    lpcSelect ch lo hi (relabel o e f s) = mapLeft (relabel o e f) (lpcSelect ch lo hi s) := by
  have hcand : lpcCandidate (relabel o e f s) ch = lpcCandidate s ch := rfl
  have hselect : selectOrder (relabel o e f s) ch = selectOrder s ch := rfl
  simp only [lpcSelect, hcand, hselect, storeLpc_relabel]
  split <;> rfl

theorem levinsonEffect_relabel (m : Nat) :
    levinsonEffect (relabel o e f s) m = relabel o e f (levinsonEffect s m) := List.foldl_hom _ fun _ _ => rfl

theorem lsqEffect_relabel (fit : Config.LsqFit) (ch m : Nat) :
    lsqEffect fit (relabel o e f s) ch m = relabel o e f (lsqEffect fit s ch m) := by
  rw [lsqEffect_eq, lsqEffect_eq]
  exact List.foldl_hom _ fun _ _ => rfl

theorem lpcPath_relabel (ch : Nat) : lpcPath ch (relabel o e f s) = mapLeft (relabel o e f) (lpcPath ch s) := by
  have hwin (hi : Nat) : autocorrEffect (welchEffect (relabel o e f s) ch) hi
      = relabel o e f (autocorrEffect (welchEffect s ch) hi) := rfl
  unfold lpcPath
  simp only [hwin]
  by_cases h1 : s.regs.cfg.lpcType.toNat = 1
  · rw [if_pos h1]
    refine (if_pos h1).trans ?_
    rw [levinsonEffect_relabel]
    exact lpcSelect_relabel ..
  · rw [if_neg h1]
    refine (if_neg h1).trans ?_
    cases Config.lsqFit with
    | none => rfl
    | some fit =>
      dsimp only
      rw [lsqEffect_relabel]
      exact lpcSelect_relabel ..

theorem subEncodeEffect_relabel (ch : Nat) :
    subEncodeEffect ch (relabel o e f s) = mapLeft (relabel o e f) (subEncodeEffect ch s) := by
  have hsame : Varies (relabel o e f s) ch ↔ Varies s ch := Iff.rfl
  have hblock : (relabel o e f s).blockLen = s.blockLen := rfl
  have hcfg : (relabel o e f s).regs.cfg = s.regs.cfg := rfl
  by_cases hvaries : Varies s ch
  · have hvaries' := hsame.2 hvaries
    by_cases hlen : s.blockLen < 5
    · rw [subEncodeEffect_short hvaries hlen, subEncodeEffect_short hvaries' (hblock ▸ hlen), subVerbatimEffect_relabel,
        forgetSums_relabel, mapLeft_ok]
    have hlen := Nat.le_of_not_lt hlen
    by_cases hfixed : s.regs.cfg.lpcType.toNat = 0 ∨ s.blockLen ≤ s.regs.cfg.maxOrder.toNat
    · rw [subEncodeEffect_fixed hvaries hlen hfixed, ← fixedPath_relabel]
      exact subEncodeEffect_fixed hvaries' (hblock ▸ hlen) (hblock ▸ hcfg ▸ hfixed)
    · rw [subEncodeEffect_lpc hvaries hlen hfixed, ← lpcPath_relabel]
      exact subEncodeEffect_lpc hvaries' (hblock ▸ hlen) (hblock ▸ hcfg ▸ hfixed)
  · rw [subEncodeEffect_constant hvaries, subEncodeEffect_constant (hsame.not.2 hvaries), constantEffect_relabel, forgetSums_relabel,
      mapLeft_ok]

end

theorem foldlM_mapLeft {α : Type} {g : State → State} {eff : State → α → Effect}
    (h : ∀ s x, eff (g s) x = mapLeft g (eff s x)) (l : List α) (s : State) :
    l.foldlM eff (g s) = mapLeft g (l.foldlM eff s) := by
  induction l generalizing s with
  | nil => rfl
  | cons x l ih =>
    rw [List.foldlM_cons, List.foldlM_cons, h]
    cases eff s x with
    | ok t => exact ih t
    | error p => rfl

section
variable (o : OpRegs) (e : ErrCode) (f : Fsm) (s : State)

theorem subEncodeAll_relabel : subEncodeAll (relabel o e f s) = mapLeft (relabel o e f) (subEncodeAll s) :=
  foldlM_mapLeft (fun s ch => subEncodeEffect_relabel o e f s ch) (List.range s.channels) s

/-! ## The frame -/

theorem putBit_relabel (b : Bool) : putBit (relabel o e f s) b = relabel o e f (putBit s b) := by
  have hbitpos : (relabel o e f s).regs.bitpos = s.regs.bitpos := rfl
  unfold putBit
  simp only [hbitpos]
  split <;> rfl

theorem putBits_relabel (bits : List Bool) : putBits (relabel o e f s) bits = relabel o e f (putBits s bits) :=
  List.foldl_hom _ fun _ _ => putBit_relabel ..

/-- The header's effect, apart from its two sets of bits. -/
theorem wrHeaderEffect_relabel : wrHeaderEffect (relabel o e f s) = relabel o e .headerWritten (wrHeaderEffect s) := by
  have hbits : headerBits (relabel o e f s).regs = headerBits s.regs := rfl
  have hput (t : State) (v : Int) : putU (relabel o e f t) 8 v = relabel o e f (putU t 8 v) := putBits_relabel ..
  have hcrc (t : State) : (relabel o e f t).regs.crc8Run = t.regs.crc8Run := rfl
  unfold wrHeaderEffect
  rw [hbits, putBits_relabel]
  simp only [hput, hcrc]
  generalize putU _ 8 _ = u
  rfl

end

/-- `s` with other operand registers and STATUS.ERR. -/
def withReport (o : OpRegs) (e : ErrCode) (s : State) : State := { s with regs := { s.regs with ops := o, err := e } }

theorem relabel_of_fsm {o : OpRegs} {e : ErrCode} {f : Fsm} {s : State} (h : f = s.regs.fsm) :
    relabel o e f s = withReport o e s := by
  rw [h]
  rfl

section
variable (o : OpRegs) (e : ErrCode) (s : State)

theorem putBits_withReport (bits : List Bool) : putBits (withReport o e s) bits = withReport o e (putBits s bits) := by
  have hfsm : s.regs.fsm = (putBits s bits).regs.fsm := ((writerOnly_putBits s bits).kept Regs.fsm fun _ _ => rfl).symm
  rw [← relabel_of_fsm rfl, putBits_relabel, relabel_of_fsm hfsm]

theorem wrSubframeEffect_withReport (ch : Nat) :
    wrSubframeEffect ch (withReport o e s) = withReport o e (wrSubframeEffect ch s) := by
  have hbits : subframeBits (withReport o e s) ch = subframeBits s ch := rfl
  rw [wrSubframeEffect, wrSubframeEffect, hbits, putBits_withReport]
  generalize putBits s (subframeBits s ch) = t
  rfl

theorem footerWritten_withReport : footerWritten (withReport o e s) = withReport o e (footerWritten s) := by
  have hbitpos : (withReport o e s).regs.bitpos = s.regs.bitpos := rfl
  have hcrc (t : State) : (withReport o e t).regs.crc16Run = t.regs.crc16Run := rfl
  rw [footerWritten, footerWritten, flush_eq, flush_eq, hbitpos, putBits_withReport, hcrc]
  exact putBits_withReport ..

theorem footerEnd_withReport (len : Nat) :
    footerEnd (withReport o e s) len = mapLeft (withReport o e) (footerEnd s len) := by
  have hregs : (withReport o e s).regs.maxFramesize = s.regs.maxFramesize ∧ (withReport o e s).regs.bwCap = s.regs.bwCap
      ∧ (withReport o e s).regs.retried = s.regs.retried := ⟨rfl, rfl, rfl⟩
  obtain ⟨hmax, hcap, hretried⟩ := hregs
  rw [footerEnd, footerEnd, hmax, hcap, hretried]
  split
  · rfl
  split <;> rfl

theorem wrFooterEffect_withReport :
    wrFooterEffect (withReport o e s) = mapLeft (withReport o e) (wrFooterEffect s) := by
  have hbitpos (t : State) : (withReport o e t).regs.bitpos = t.regs.bitpos := rfl
  rw [wrFooterEffect_eq, wrFooterEffect_eq, footerWritten_withReport, hbitpos, footerEnd_withReport]

end

/-! ## STATUS.FSM before `ENCODE_FRAME` -/

theorem frameAttempt_setFsm (retry : Bool) (f : Fsm) (s : State) : frameAttempt retry (s.setFsm f) = frameAttempt retry s := by
  have hinit : frameInitEffect retry (s.setFsm f) = frameInitEffect retry s := rfl
  have hchannels : (s.setFsm f).channels = s.channels := rfl
  rw [frameAttempt, hinit, hchannels, frameAttempt]

theorem setFsm_eq_relabel (s : State) (f : Fsm) : s.setFsm f = relabel s.regs.ops s.regs.err f s := rfl

end Sys2Proof.Proofs
end

section
/-!
The channels of a frame while its subframes are encoded (`45_frame_encoder.md` R280): their samples and bit depths are known, and a
record that `SUB_ENCODE` or `SUB_VERBATIM` has left is accepted by `WR_SUBFRAME`, whatever is done to the other channels.
-/
namespace Sys2Proof.Proofs
open Sys2Proof.Machine

/-! ## Records that stay accepted -/

/-- `WR_SUBFRAME` accepts the record of channel `ch` in this memory, whatever its unspecified elements read as. -/
def Settled (m : Mems) (n ch : Nat) : Prop := ∀ t : State, t.mem = m → t.blockLen = n → recordAccepted t ch = true

/-- The record is a matter of the channel's row of SUBREC. -/
theorem recordAccepted_of_row {s t : State} {ch : Nat} (h : recordAccepted s ch = true) (hblock : t.blockLen = s.blockLen)
    (hrow : ∀ f, f < 512 → recordAt t ch f = recordAt s ch f) : recordAccepted t ch = true := by
  obtain ⟨htype, hobits, hfixed, hlpc, horder, hset, hplan⟩ := recordAccepted_iff.1 h
  rw [recordAccepted_iff, ObitsOk, hblock, hrow 0 (by decide), hrow 1 (by decide), hrow 2 (by decide), hrow 3 (by decide),
    hrow 4 (by decide), hrow 5 (by decide)]
  refine ⟨htype, hobits, hfixed, hlpc, horder, ?_, ?_⟩
  · rcases hset with hne | ⟨hprec, hshift, hcoefs⟩
    · exact .inl hne
    refine or_iff_not_imp_left.2 fun h3 => ⟨hprec, hshift, fun j hj => ?_⟩
    have h32 := hlpc.resolve_left h3
    rw [hrow (32 + j) (by omega)]
    exact hcoefs j hj
  · rcases hplan with hne | ⟨hporder, hdvd, hspan, hparams⟩
    · exact .inl hne
    refine .inr ⟨hporder, hdvd, hspan, fun j hj => ?_⟩
    have hpow : 2 ^ (recordAt s ch 5).toNat ≤ 2 ^ 8 := Nat.pow_le_pow_right (by decide) (by omega)
    rw [hrow (256 + j) (by omega)]
    exact hparams j hj

theorem Settled.of_row {m m' : Mems} {n ch : Nat} (h : Settled m n ch)
    (hrow : ∀ f, f < 512 → memGet? m' .subrec (ch * 512 + f) = memGet? m .subrec (ch * 512 + f)) : Settled m' n ch := by
  rintro t rfl hblock
  exact recordAccepted_of_row (h { t with mem := m } rfl hblock) rfl fun f hf => memRead_congr (hrow f hf) rfl

/-! ## What an encoder leaves of the other channels -/

/-- Samples, bit depths and the records of other channels than `ch` are as before. -/
structure RowOnly (ch : Nat) (m m' : Mems) : Prop where
  samples : ∀ i, memGet? m' .smp i = memGet? m .smp i
  records : ∀ i, (i < ch * 512 ∨ i = ch * 512 + 2 ∨ ch * 512 + 512 ≤ i) → memGet? m' .subrec i = memGet? m .subrec i

theorem rowOnly_of_kept {rs : List Range} {s t : State} {ch : Nat} (h : keptOutside rs s t)
    (hsmp : ∀ i, ¬covered rs .smp i = true)
    (hrec : ∀ i, covered rs .subrec i = true → ch * 512 ≤ i ∧ i ≠ ch * 512 + 2 ∧ i < ch * 512 + 512) :
    RowOnly ch s.mem t.mem where
  samples i := h.1 .smp i (Bool.eq_false_iff.2 (hsmp i))
  records i hi := by
    refine h.1 .subrec i (Bool.eq_false_iff.2 fun hin => ?_)
    have := hrec i hin
    omega

theorem RowOnly.settled {m m' : Mems} {n ch ch' : Nat} (h : RowOnly ch m m') (hne : ch' ≠ ch) (hs : Settled m n ch') :
    Settled m' n ch' :=
  hs.of_row fun f hf => h.records _ (by omega)

/-- The samples of the first `c` channels are known, and they fit their bit depths. -/
structure ChannelsKnown (m : Mems) (n c : Nat) (depth : Nat → Nat) : Prop where
  depths : ∀ ch, ch < c → depth ch = 16 ∨ depth ch = 17
  obits : ∀ ch, ch < c → memGet? m .subrec (ch * 512 + 2) = some (depth ch : Int)
  samples : ∀ ch i, ch < c → i < n → ∃ v, memGet? m .smp (ch * 65536 + i) = some v ∧ FitsDepth (depth ch) v

theorem RowOnly.channelsKnown {m m' : Mems} {n c ch : Nat} {depth : Nat → Nat} (h : RowOnly ch m m')
    (hk : ChannelsKnown m n c depth) : ChannelsKnown m' n c depth where
  depths := hk.depths
  obits ch' hch := (h.records _ (by omega)).trans (hk.obits ch' hch)
  samples ch' i hch hi := by
    rw [h.samples]
    exact hk.samples ch' i hch hi

section
variable {s t : State} {c ch : Nat} {depth : Nat → Nat} (hk : ChannelsKnown s.mem s.blockLen c depth) (hch : ch < c)
include hk hch

theorem ChannelsKnown.recordAt_eq : recordAt s ch 2 = depth ch := memRead_of_some (hk.obits ch hch)

theorem ChannelsKnown.obitsOk : ObitsOk s ch := by
  rw [ObitsOk, hk.recordAt_eq hch]
  have := hk.depths ch hch
  omega

theorem ChannelsKnown.fits {i : Nat} (hi : i < s.blockLen) : FitsDepth (depth ch) (sampleAt s ch i) := by
  obtain ⟨v, hv, hfits⟩ := hk.samples ch i hch hi
  rw [show sampleAt s ch i = v from memRead_of_some hv]
  exact hfits

theorem ChannelsKnown.fits_in {t : State} (hobits : recordAt t ch 2 = depth ch) {i : Nat} (hi : i < s.blockLen) :
    FitsDepth (recordAt t ch 2).toNat (sampleAt s ch i) := by
  rw [hobits, Int.toNat_natCast]
  exact hk.fits hch hi

end

/-! ## `SUB_VERBATIM` -/

theorem rowOnly_subVerbatim (s : State) (ch : Nat) : RowOnly ch s.mem (subVerbatimEffect ch s).mem := by
  refine rowOnly_of_kept keptOutside_subVerbatimEffect (fun i => ?_) fun i hin => ?_
  · simp [covered_cons_iff, covered_nil]
  · simp only [covered_cons_iff, covered_nil, reduceCtorEq, false_and, or_false, true_and, Bool.false_eq_true] at hin
    omega

/-- The record of a subframe that is not predicted. -/
theorem settled_unpredicted {m : Mems} {n ch d : Nat} {type : Int} (htype : type = 0 ∨ type = 1) (hd : d = 16 ∨ d = 17)
    (htypeIs : memGet? m .subrec (ch * 512) = some type) (hobits : memGet? m .subrec (ch * 512 + 2) = some (d : Int)) :
    Settled m n ch := by
  rintro t rfl -
  have h0 : recordAt t ch 0 = type := recordAt_zero_of_some htypeIs
  have h2 : recordAt t ch 2 = d := memRead_of_some hobits
  rw [recordAccepted_iff, ObitsOk, h0, h2]
  omega

theorem settled_subVerbatim {s : State} {ch c : Nat} {depth : Nat → Nat} (hk : ChannelsKnown s.mem s.blockLen c depth)
    (hch : ch < c) (h : SubReady s ch) : Settled (subVerbatimEffect ch s).mem s.blockLen ch :=
  settled_unpredicted (.inr rfl) (hk.depths ch hch) (headIs_subVerbatimEffect h).type
    (((rowOnly_subVerbatim s ch).records _ (by omega)).trans (hk.obits ch hch))

/-! ## `SUB_ENCODE` -/

/-- What a `SUB_ENCODE` that succeeds leaves of the other channels and of its own record. -/
structure Encoded (ch n : Nat) (m m' : Mems) : Prop where
  row : RowOnly ch m m'
  settled : Settled m' n ch

section
variable {s t : State} {c ch : Nat} {depth : Nat → Nat} (hk : ChannelsKnown s.mem s.blockLen c depth) (hch : ch < c)
  (hcfg : configError s.regs.cfg = none) (hs : earlyError (.subEncode ch) s = none)
  (hexec : exec (.subEncode ch) s = .next t)
include hk hch hcfg hs hexec

theorem encoded_constant (hequal : ¬Varies s ch) : Encoded ch s.blockLen s.mem t.mem := by
  have hall : ∀ i, i < s.blockLen → sampleAt s ch i = sampleAt s ch 0 := fun i hi => not_not.1 fun hne => hequal ⟨i, hi, hne⟩
  obtain ⟨u, hexec', -, htype, -, -, -, hkept⟩ := sub_encode_constant_block s ch hcfg hs hall
  obtain rfl := Host.Outcome.next.inj (hexec'.symm.trans hexec)
  have hrow : RowOnly ch s.mem u.mem := rowOnly_of_kept hkept
    (fun i => by simp [covered_cons_iff, covered_nil]) fun i hin => by
      simp only [covered_cons_iff, covered_nil, reduceCtorEq, false_and, or_false, true_and, Bool.false_eq_true] at hin
      omega
  exact ⟨hrow, settled_unpredicted (.inl rfl) (hk.depths ch hch) htype ((hrow.records _ (by omega)).trans (hk.obits ch hch))⟩

theorem encoded_short (hvaries : Varies s ch) (hlen : s.blockLen < 5) : Encoded ch s.blockLen s.mem t.mem := by
  obtain ⟨u, hexec', ⟨-, htype, -⟩, hkept⟩ := (verbatim_subframes s ch hcfg).2 hs hlen hvaries
  obtain rfl := Host.Outcome.next.inj (hexec'.symm.trans hexec)
  have hrow : RowOnly ch s.mem u.mem := rowOnly_of_kept hkept
    (fun i => by simp [covered_cons_iff, covered_nil]) fun i hin => by
      simp only [List.cons_append, List.nil_append, covered_cons_iff, covered_nil, reduceCtorEq, false_and, or_false, true_and, Bool.false_eq_true] at hin
      omega
  exact ⟨hrow, settled_unpredicted (.inr rfl) (hk.depths ch hch) htype ((hrow.records _ (by omega)).trans (hk.obits ch hch))⟩

theorem encoded_fixed (hok : t.regs.err = .noError) (hvaries : Varies s ch) (hlen : 5 ≤ s.blockLen)
    (hfixed : s.regs.cfg.lpcType.toNat = 0 ∨ s.blockLen ≤ s.regs.cfg.maxOrder.toNat) : Encoded ch s.blockLen s.mem t.mem := by
  obtain ⟨-, hsucceeds, hfails⟩ := sub_encode_fixed_least_cost s ch hcfg hs hlen hvaries hfixed
  by_cases hfits : ∀ o, min s.regs.cfg.minOrder.toNat 4 ≤ o → o ≤ min s.regs.cfg.maxOrder.toNat 4 →
      ∀ i, o ≤ i → i < s.blockLen → fits32 (fixedDiff o (sampleAt s ch) i)
  · obtain ⟨u, o, p, param, bits, -, hhi, hplan, -, hexec', hregs, htype, horder, -, hporder, hparams, hres, hkept⟩ :=
      hsucceeds hfits
    obtain rfl := Host.Outcome.next.inj (hexec'.symm.trans hexec)
    have hfits : PlanFits s.blockLen o p param := planFits_of_isBestPlan hplan (fixedReady_of_checks hcfg hs hlen).porders.2
    have hpow : 2 ^ p ≤ 2 ^ 8 := Nat.pow_le_pow_right (by decide) hfits.porder
    have hrow : RowOnly ch s.mem u.mem := rowOnly_of_kept hkept
      (fun i => by simp [covered_cons_iff, covered_nil]) fun i hin => by
        simp only [covered_cons_iff, covered_nil, reduceCtorEq, false_and, or_false, true_and, Bool.false_eq_true] at hin
        omega
    refine ⟨hrow, ?_⟩
    rintro v hmem hblock
    rw [← hmem] at htype horder hporder hparams hres hrow
    have hobits : recordAt v ch 2 = depth ch := memRead_of_some ((hrow.records _ (by omega)).trans (hk.obits ch hch))
    have hrecord : Predicted v ch 2 o p param (fixedDiff o (sampleAt s ch)) := {
      plan := by rwa [hblock]
      type := recordAt_zero_of_some htype
      order := memRead_of_some horder
      obits := by
        have := hk.depths ch hch
        rw [ObitsOk, hobits]
        omega
      porder := memRead_of_some hporder
      params := fun j hj => recordAt_add_of_some (hparams j hj)
      res := fun i hi => memRead_of_some (hres i (hi.trans_eq hblock)) }
    exact (hrecord.readsBack_fixed (hhi.trans (min_le_right ..)) fun i hi => hk.fits_in hch hobits (hi.trans_eq hblock)).1
  · push Not at hfits
    obtain ⟨o, hlo, hhi, i, hi, hi', hnot⟩ := hfits
    obtain ⟨u, hexec', hregs, -⟩ := hfails ⟨o, hlo, hhi, fun hall => hnot (hall i hi hi')⟩
    obtain rfl := Host.Outcome.next.inj (hexec'.symm.trans hexec)
    rw [hregs] at hok
    exact nomatch hok

omit hcfg in
theorem encoded_lpc (hok : t.regs.err = .noError) (hvaries : Varies s ch) (h : LpcReady s ch) :
    Encoded ch s.blockLen s.mem t.mem := by
  obtain ⟨fit, all, opt, hstores, hopt, hfits, ht⟩ := h.subEncode_done hs hvaries hexec hok
  have hfit := h.of_fit hstores
  obtain ⟨-, h32, -⟩ := hfit.order_le hopt
  obtain ⟨-, -, hporder⟩ := hfit.plan_best hopt
  have hpow : 2 ^ (lpcPlan fit ch opt).porder ≤ 2 ^ 8 := Nat.pow_le_pow_right (by decide) hporder
  have hmem : (lpcDone fit ch all opt).mem = t.mem := by rw [ht]; rfl
  have hfitted : StoresIn (fitRanges fit.blockLen (highestOrder fit)) s fit := by
    rwa [hstores.blockLen, highestOrder, hstores.regs]
  have hrow : RowOnly ch s.mem t.mem := by
    rw [← hmem]
    refine rowOnly_of_kept (hfit.kept_done (all := all) hopt hfitted) (fun i => ?_) fun i hin => ?_
    · simp [covered_append, covered_map, covered_flatMap, covered_quantRanges, covered_cons_iff, covered_nil]
    · simp only [covered_append, Bool.or_eq_true, covered_map, covered_flatMap, covered_quantRanges, covered_cons_iff,
        covered_nil, reduceCtorEq, false_and, and_false, exists_false, or_false, true_and, Bool.false_eq_true] at hin
      omega
  refine ⟨hrow, fun v hv hblock => ?_⟩
  have hlen : v.blockLen = fit.blockLen := hblock.trans hstores.blockLen.symm
  rw [← hv] at hmem hrow
  have hobits : recordAt v ch 2 = depth ch := memRead_of_some ((hrow.records _ (by omega)).trans (hk.obits ch hch))
  refine (readsBack_lpcDone hfit hopt hfits hmem hlen ?_ fun i hi => ?_).1
  · have := hk.depths ch hch
    rw [ObitsOk, hobits]
    omega
  · rw [sampleAt_of_fit hstores]
    exact hk.fits_in hch hobits (hi.trans_eq hblock)

/-- Whatever path a block has taken. -/
theorem encoded_of_subEncode (hok : t.regs.err = .noError) : Encoded ch s.blockLen s.mem t.mem := by
  by_cases hvaries : Varies s ch
  · rcases Nat.lt_or_ge s.blockLen 5 with hlen | hlen
    · exact encoded_short hk hch hcfg hs hexec hvaries hlen
    by_cases hfixed : s.regs.cfg.lpcType.toNat = 0 ∨ s.blockLen ≤ s.regs.cfg.maxOrder.toNat
    · exact encoded_fixed hk hch hcfg hs hexec hok hvaries hlen hfixed
    · rw [not_or, not_le] at hfixed
      exact encoded_lpc hk hch hs hexec hok hvaries (lpcReady_of_checks hcfg hs hlen hfixed.1 hfixed.2)
  · exact encoded_constant hk hch hcfg hs hexec hvaries

end

/-! ## What fails -/

/-- Of the paths of `SUB_ENCODE` only the LPC path can fail on known samples, with `E_RESIDUAL_RANGE`
(`43_subframe_encoder.md` R234, R235). -/
theorem subEncodeEffect_error {s u : State} {c ch : Nat} {depth : Nat → Nat} {e : ErrCode}
    (hk : ChannelsKnown s.mem s.blockLen c depth) (hch : ch < c) (hcfg : configError s.regs.cfg = none)
    (hs : earlyError (.subEncode ch) s = none) (herror : subEncodeEffect ch s = .error (e, u)) :
    e = .residualRange ∧ s.regs.cfg.lpcType.toNat ≠ 0 := by
  by_cases hvaries : Varies s ch
  · rcases Nat.lt_or_ge s.blockLen 5 with hlen | hlen
    · rw [subEncodeEffect_short hvaries hlen] at herror
      exact nomatch herror
    by_cases hfixed : s.regs.cfg.lpcType.toNat = 0 ∨ s.blockLen ≤ s.regs.cfg.maxOrder.toNat
    · have hready := fixedReady_of_checks hcfg hs hlen
      obtain ⟨opt, -, hpath⟩ := hready.path_eq
      have hnarrow : ∀ i, i < s.blockLen → -65536 ≤ sampleAt s ch i ∧ sampleAt s ch i ≤ 65536 := fun i hi => by
        obtain ⟨-, hlo, hhi⟩ := hk.fits hch hi
        rcases hk.depths ch hch with hd | hd <;> rw [hd] at hlo hhi <;> omega
      have hfits : (upto (fixedLowest s) (fixedHighest s)).all (fixedFits s ch) = true := by
        rw [List.all_eq_true]
        exact fun o _ => fixedFits_iff.2 fun i _ hi => fixedDiff_fits32_of_narrow (fun j hj => hnarrow j (hj.trans_lt hi)) o
      rw [subEncodeEffect_fixed hvaries hlen hfixed, hpath, if_pos hfits] at herror
      exact nomatch herror
    · have hlpc := not_or.1 hfixed
      have hready := lpcReady_of_checks hcfg hs hlen hlpc.1 (not_le.1 hlpc.2)
      obtain ⟨-, -, fit, hstores, -, -, -, hpath⟩ := hready.exec_fit rfl
      have hfit := hready.of_fit hstores
      obtain ⟨all, opt, -, hselect⟩ := lpcSelect_eq (ch := ch) hfit.method hfit.orders_le hfit.orders.2.2.2.le
      rw [lowestOrder, highestOrder, hstores.regs] at hselect
      rw [subEncodeEffect_lpc hvaries hlen hfixed, hpath, hselect] at herror
      refine ⟨?_, hlpc.1⟩
      split at herror
      · exact nomatch herror
      · cases herror
        rfl
  · rw [subEncodeEffect_constant hvaries] at herror
    exact nomatch herror

end Sys2Proof.Proofs
end

section
/-!
The samples of a frame (`45_frame_encoder.md` R280): `DEINTERLEAVE`, and the stereo selector for two channels, leave every channel
known, at 16 bits but for a side signal.
-/
namespace Sys2Proof.Proofs
open Sys2Proof.Machine

/-! ## What a frame runs under -/

/-- What `ENCODE_FRAME` requires, which no step of it changes. -/
structure FrameReady (s : State) : Prop where
  configured : s.regs.cfgOk = true
  valid : configError s.regs.cfg = none
  nonempty : 1 ≤ s.blockLen
  block : s.blockLen ≤ s.regs.cfg.blocksize.toNat
  cap : s.regs.outCap.toNat ≤ 2097152

theorem frameReady_of_encodeFrame {s : State} (hinv : RegsInv s.regs) (h : earlyError .encodeFrame s = none) : FrameReady s := by
  obtain ⟨hcfg, -, -, hblock, hcap, -⟩ := ready_of_earlyError_eq_none h
  obtain ⟨hlo, hhi⟩ := (within_eq_true ..).1 hblock
  exact ⟨hcfg, (hinv.locked hcfg).1, hlo, hhi, of_decide_eq_true hcap⟩

section
variable {s : State} (h : FrameReady s)
include h

theorem FrameReady.step {t : State} (hstep : FrameStep s t) : FrameReady t := by
  have hok : t.regs.cfgOk = s.regs.cfgOk := hstep.kept Regs.cfgOk fun _ _ => rfl
  have hn : t.blockLen = s.blockLen := hstep.kept (fun r => r.n.toNat) fun _ _ => rfl
  have hcap : t.regs.outCap = s.regs.outCap := hstep.kept Regs.outCap fun _ _ => rfl
  obtain ⟨hconfigured, hvalid, hnonempty, hblock, hcap'⟩ := h
  rw [← hn] at hnonempty hblock
  rw [← hstep.cfg] at hvalid hblock
  exact ⟨hok.trans hconfigured, hvalid, hnonempty, hblock, hcap ▸ hcap'⟩

theorem FrameReady.reported (o : OpRegs) (e : ErrCode) : FrameReady (withReport o e s) :=
  ⟨h.configured, h.valid, h.nonempty, h.block, h.cap⟩

theorem FrameReady.channels : 1 ≤ s.channels ∧ s.channels ≤ 8 := (configError_none h.valid).1

theorem FrameReady.blockLen_le : s.blockLen ≤ 65535 := h.block.trans (configError_none h.valid).2.1

theorem FrameReady.blockReady : (decide (1 ≤ s.regs.n.toNat) && decide (s.regs.n.toNat ≤ s.regs.cfg.blocksize.toNat)) = true := by
  rw [Bool.and_eq_true, decide_eq_true_eq, decide_eq_true_eq]
  exact ⟨h.nonempty, h.block⟩

theorem FrameReady.deinterleave (hfsm : s.regs.fsm = .idle) : earlyError .deinterleave s = none := by
  refine earlyError_eq_none h.configured ?_ rfl h.blockReady rfl rfl
  rw [stateReady, hfsm]
  rfl

theorem FrameReady.subEncode {ch : Nat} {depth : Nat → Nat} (hk : ChannelsKnown s.mem s.blockLen s.channels depth)
    (hch : ch < s.channels) : earlyError (.subEncode ch) s = none := by
  have hobits : (decide (recordAt s ch 2 = 16) || decide (recordAt s ch 2 = 17)) = true := by
    rw [Bool.or_eq_true, decide_eq_true_eq, decide_eq_true_eq]
    exact hk.obitsOk hch
  exact earlyError_eq_none h.configured rfl (decide_eq_true hch) h.blockReady rfl hobits

end

/-! ## The channels after `DEINTERLEAVE` -/

theorem channelsKnown_deinterleave {s t : State} (hcfg : configError s.regs.cfg = none) (hs : earlyError .deinterleave s = none)
    (hexec : exec .deinterleave s = .next t) : ChannelsKnown t.mem s.blockLen s.channels fun _ => 16 := by
  obtain ⟨t', ht', -, hsmp, hobits, -⟩ := deinterleave_splits_channels s hcfg hs
  obtain rfl := Host.Outcome.next.inj (hexec.symm.trans ht')
  refine ⟨fun _ _ => .inl rfl, hobits, fun ch i hch hi => ⟨_, hsmp ch i hch hi, by decide, ?_⟩⟩
  obtain ⟨hlo, hhi⟩ := memRead_inp_range s (i * s.channels + ch)
  exact ⟨hlo, Int.lt_add_one_of_le hhi⟩

/-! ## The channels after `ST_APPLY` -/

theorem channelsKnown_of_pairs {s : State} {n : Nat} {depth : Nat → Nat} (hn : 1 ≤ n)
    (hdepth : ∀ ch, depth ch = 16 ∨ depth ch = 17) (h : ∀ i, i < n → ∃ x0 x1, PairIs s i x0 x1 (depth 0) (depth 1)
      ∧ FitsDepth (depth 0) x0 ∧ FitsDepth (depth 1) x1) : ChannelsKnown s.mem n 2 depth where
  depths ch _ := hdepth ch
  obits ch hch := by
    obtain ⟨x0, x1, hpair, -⟩ := h 0 hn
    obtain rfl | rfl : ch = 0 ∨ ch = 1 := by omega
    · exact hpair.obits0
    · exact hpair.obits1
  samples ch i hch hi := by
    obtain ⟨x0, x1, hpair, hx0, hx1⟩ := h i hi
    obtain rfl | rfl : ch = 0 ∨ ch = 1 := by omega
    · exact ⟨x0, by rw [Nat.zero_mul, Nat.zero_add]; exact hpair.sample0, hx0⟩
    · exact ⟨x1, by rw [Nat.one_mul]; exact hpair.sample1, hx1⟩

theorem ChannelsKnown.pairIs {s : State} {n : Nat} {depth : Nat → Nat} (h : ChannelsKnown s.mem n 2 depth) {i : Nat} (hi : i < n) :
    ∃ x0 x1, PairIs s i x0 x1 (depth 0) (depth 1) ∧ FitsDepth (depth 0) x0 ∧ FitsDepth (depth 1) x1 := by
  obtain ⟨x0, hsample0, hx0⟩ := h.samples 0 i (by decide) hi
  obtain ⟨x1, hsample1, hx1⟩ := h.samples 1 i (by decide) hi
  rw [Nat.zero_mul, Nat.zero_add] at hsample0
  rw [Nat.one_mul] at hsample1
  exact ⟨x0, x1, ⟨hsample0, hsample1, h.obits 0 (by decide), h.obits 1 (by decide)⟩, hx0, hx1⟩

/-- The channel that a mode makes the side signal has 17 bits (`44_stereo_decorrelation.md` R253). -/
def sideDepth (mode ch : Nat) : Nat := if (mode = 2 ∧ ch = 0) ∨ ((mode = 1 ∨ mode = 3) ∧ ch = 1) then 17 else 16

theorem sideDepth_cases (mode ch : Nat) : sideDepth mode ch = 16 ∨ sideDepth mode ch = 17 := by
  unfold sideDepth
  split <;> simp

/-- At most one of the two channels grows. -/
theorem sideDepth_add_le (mode : Nat) : sideDepth mode 0 + sideDepth mode 1 ≤ 33 := by
  unfold sideDepth
  split <;> split <;> omega

theorem channelsKnown_stApply {t u : State} {mode : Nat} (hcfg : configError t.regs.cfg = none)
    (ht : earlyError (.stApply mode) t = none) (hexec : exec (.stApply mode) t = .next u)
    (hk : ChannelsKnown t.mem t.blockLen 2 fun _ => 16) : ChannelsKnown u.mem t.blockLen 2 (sideDepth mode) := by
  obtain ⟨u', hu', -, hleftRight, hleftSide, hrightSide, hmidSide⟩ := st_apply_transforms_samples t mode hcfg ht
  obtain rfl := Host.Outcome.next.inj (hexec.symm.trans hu')
  obtain ⟨-, -, -, hblock, -⟩ := ready_of_earlyError_eq_none ht
  obtain ⟨hlo, -⟩ := (within_eq_true ..).1 hblock
  have hn : t.blockLen ≤ 65535 := blockLen_le_of_blockCheck hcfg hblock
  refine channelsKnown_of_pairs hlo (sideDepth_cases mode) fun i hi => ?_
  obtain ⟨l, r, hpair, hl, hr⟩ := hk.pairIs hi
  obtain ⟨rfl, rfl⟩ := hpair.samples
  have hside : FitsDepth 17 (sampleAt t 0 i - sampleAt t 1 i) := by
    unfold FitsDepth at hl hr ⊢
    omega
  have hmid : FitsDepth 16 ((sampleAt t 0 i + sampleAt t 1 i) / 2) := by
    unfold FitsDepth at hl hr ⊢
    omega
  obtain rfl | rfl | rfl | rfl : mode = 0 ∨ mode = 1 ∨ mode = 2 ∨ mode = 3 := by
    have := mode_of_stApply ht
    omega
  · obtain ⟨hkept, -⟩ := hleftRight rfl
    exact ⟨_, _, ⟨(hkept _ _ rfl).trans hpair.sample0, (hkept _ _ rfl).trans hpair.sample1,
      (hkept _ _ rfl).trans hpair.obits0, (hkept _ _ rfl).trans hpair.obits1⟩, hl, hr⟩
  · obtain ⟨hsmp, hobits, hkept, -⟩ := hleftSide rfl
    have hout : covered (channelRanges 1 t.regs.n.toNat) .smp (0 * 65536 + i) = false :=
      not_covered_sample (by decide) (hn.trans (by decide)) hi
    rw [Nat.zero_mul, Nat.zero_add] at hout
    exact ⟨_, _, ⟨(hkept _ _ hout).trans hpair.sample0, hsmp i hi, (hkept _ _ rfl).trans hpair.obits0, hobits⟩, hl, hside⟩
  · obtain ⟨hsmp, hobits, hkept, -⟩ := hrightSide rfl
    have hout : covered (channelRanges 0 t.regs.n.toNat) .smp (1 * 65536 + i) = false :=
      not_covered_sample (by decide) (hn.trans (by decide)) hi
    rw [Nat.one_mul] at hout
    exact ⟨_, _, ⟨hsmp i hi, (hkept _ _ hout).trans hpair.sample1, hobits, (hkept _ _ rfl).trans hpair.obits1⟩, hside, hr⟩
  · obtain ⟨hsmp, hobits, hkept, -⟩ := hmidSide rfl
    obtain ⟨hmidIs, hsideIs⟩ := hsmp i hi
    exact ⟨_, _, ⟨hmidIs, hsideIs, (hkept _ _ rfl).trans hpair.obits0, hobits⟩, hmid, hside⟩

/-- `ST_APPLY` is allowed in every mode after `DEINTERLEAVE` of two channels. -/
theorem FrameReady.stApply {s : State} {mode : Nat} (h : FrameReady s) (hfsm : s.regs.fsm = .idle) (hmode : mode < 4)
    (hc : s.channels = 2) (hk : ChannelsKnown s.mem s.blockLen 2 fun _ => 16) : earlyError (.stApply mode) s = none := by
  have hnarrow (ch : Nat) (hch : ch < 2) : samplesNarrow s ch s.blockLen = true :=
    (samplesNarrow_iff ..).2 fun i hi => by
      obtain ⟨-, hlo, hhi⟩ := hk.fits hch hi
      exact ⟨hlo, Int.le_sub_one_of_lt hhi⟩
  have hobits (ch : Nat) (hch : ch < 2) : recordAt s ch 2 = 16 := hk.recordAt_eq hch
  refine earlyError_of_applyChecks ?_
  simp only [applyChecks, List.forall_mem_cons, modeCheck_eq, stApplyMemory_eq]
  refine ⟨h.configured, (noHeaderCheck_eq s).trans (by rw [hfsm]; rfl), fieldCheck_zero (decide_eq_true (by omega)),
    decide_eq_true fun hne => absurd hc hne, h.blockReady, ?_, List.forall_mem_nil _⟩
  rw [hnarrow 0 (by decide), hnarrow 1 (by decide), hobits 0 (by decide), hobits 1 (by decide)]
  simp

end Sys2Proof.Proofs
end

section
/-!
`ENCODE_FRAME` and its step commands, side by side (`45_frame_encoder.md` R280): after each command the states differ in a0 to a7
and STATUS.ERR alone, and the checks of the next command hold.
-/
namespace Sys2Proof.Proofs
open Sys2Proof.Machine

/-! ## Runs of commands and effects -/

/-- `s` after a command that has failed. -/
def withError (o : OpRegs) (e : ErrCode) (s : State) : State :=
  { s with regs := { s.regs with ops := o, err := e, errSticky := true } }

/-- A run of commands leaves what the effect does, with its own operand registers and its report. -/
def Runs (eff : Effect) (run : Except State State) : Prop :=
  match eff with
  | .ok a => ∃ o, run = .ok (withReport o .noError a)
  | .error (e, a) => e ≠ .noError ∧ ∃ o, run = .error (withError o e a)

theorem runs_nil (o : OpRegs) (a : State) : Runs (.ok a) (runCommands [] (withReport o .noError a)) := ⟨o, rfl⟩

theorem runs_succeed {i : Instr} {b a : State} {o : OpRegs} {e : ErrCode} (h : exec i b = succeed (withReport o e a)) :
    Runs (.ok a) (runCommands [i] b) := by
  refine ⟨o, ?_⟩
  rw [runCommands_cons h]
  exact if_pos rfl

theorem runs_fail {i : Instr} {b a : State} {o : OpRegs} {e c : ErrCode} (h : exec i b = fail c (withReport o e a))
    (hc : c ≠ .noError) : Runs (.error (c, a)) (runCommands [i] b) := by
  refine ⟨hc, o, ?_⟩
  rw [runCommands_cons h]
  exact if_neg hc

theorem runs_finish {i : Instr} {b : State} {o : OpRegs} {e : ErrCode} {eff : Effect}
    (h : exec i b = finish (mapLeft (withReport o e) eff)) (hcodes : ∀ c u, eff = .error (c, u) → c ≠ .noError) :
    Runs eff (runCommands [i] b) := by
  cases eff with
  | ok a => exact runs_succeed h
  | error p => exact runs_fail h (hcodes _ _ rfl)

theorem Runs.bind {eff : Effect} {run : Except State State} {k : State → Effect} {run' : State → Except State State}
    (h : Runs eff run) (hk : ∀ a o, eff = .ok a → Runs (k a) (run' (withReport o .noError a))) :
    Runs (eff.bind k) (run.bind run') := by
  cases eff with
  | ok a =>
    obtain ⟨o, rfl⟩ := h
    exact hk a o rfl
  | error p =>
    obtain ⟨he, o, rfl⟩ := h
    exact ⟨he, o, rfl⟩

/-- One list of commands after another. -/
theorem Runs.append {eff : Effect} {l l' : List Instr} {b : State} {k : State → Effect} (h : Runs eff (runCommands l b))
    (hk : ∀ a o, eff = .ok a → Runs (k a) (runCommands l' (withReport o .noError a))) :
    Runs (eff.bind k) (runCommands (l ++ l') b) := by
  rw [runCommands_append]
  exact h.bind hk

/-- One list of commands after another that cannot fail. -/
theorem Runs.andThen {a b : State} {l l' : List Instr} {eff : Effect} (h : Runs (.ok a) (runCommands l b))
    (h' : ∀ o, Runs eff (runCommands l' (withReport o .noError a))) : Runs eff (runCommands (l ++ l') b) := by
  obtain ⟨o, ho⟩ := h
  rw [runCommands_append, ho]
  exact h' o

/-! ## `SUB_ENCODE` of the channels -/

/-- `SUB_ENCODE` of the first `k` channels. -/
def encodeFirst (k : Nat) (s : State) : Effect := (List.range k).foldlM (fun s ch => subEncodeEffect ch s) s

theorem encodeFirst_succ (k : Nat) (s : State) : encodeFirst (k + 1) s = (encodeFirst k s).bind (subEncodeEffect k) := by
  rw [encodeFirst, List.range_succ, List.foldlM_append]
  refine congrArg (Except.bind _) (funext fun t => ?_)
  rw [List.foldlM_cons]
  cases subEncodeEffect k t <;> rfl

theorem subEncodeAll_eq (s : State) : subEncodeAll s = encodeFirst s.channels s := rfl

/-- What the frame needs of its channels: they are known, and the first `k` have records that are accepted. -/
structure Ready (k : Nat) (depth : Nat → Nat) (s : State) : Prop extends FrameReady s where
  known : ChannelsKnown s.mem s.blockLen s.channels depth
  settled : ∀ ch, ch < k → Settled s.mem s.blockLen ch

section
variable {k : Nat} {depth : Nat → Nat} {a u : State}

theorem memOnly_of_subEncodeEffect {ch : Nat} (h : subEncodeEffect ch a = .ok u) : MemOnly a u := by
  have hmem := memOnly_subEncodeEffect ch a
  rwa [h] at hmem

theorem MemOnly.blockLen (h : MemOnly a u) : u.blockLen = a.blockLen := by rw [State.blockLen, h.regs, State.blockLen]

theorem MemOnly.channels (h : MemOnly a u) : u.channels = a.channels := by rw [State.channels, h.regs, State.channels]

/-- A channel's own row changes, and its record is accepted afterwards. -/
theorem Ready.encoded (h : Ready k depth a) (hmem : MemOnly a u) (henc : Encoded k a.blockLen a.mem u.mem) :
    Ready (k + 1) depth u where
  toFrameReady := h.toFrameReady.step hmem.frameStep
  known := by
    rw [hmem.blockLen, hmem.channels]
    exact henc.row.channelsKnown h.known
  settled ch hch := by
    rw [hmem.blockLen]
    rcases Nat.lt_succ_iff_lt_or_eq.1 hch with hlt | rfl
    · exact henc.row.settled hlt.ne (h.settled ch hlt)
    · exact henc.settled

theorem Ready.subEncode_ok (h : Ready k depth a) (hk : k < a.channels) (heff : subEncodeEffect k a = .ok u) :
    Ready (k + 1) depth u := by
  have hs := h.toFrameReady.subEncode h.known hk
  have hexec : exec (.subEncode k) a = .next (cleared (u.setA4 (u.sub k 6))) := by
    rw [exec_subEncode_of_checks hs, heff]
    rfl
  have henc := encoded_of_subEncode h.known hk h.valid hs hexec rfl
  exact h.encoded (memOnly_of_subEncodeEffect heff) henc

/-- One `SUB_ENCODE` and its effect. -/
theorem Ready.runs_subEncode (h : Ready k depth a) (hk : k < a.channels) (o : OpRegs) :
    Runs (subEncodeEffect k a) (runCommands [.subEncode k] (withReport o .noError a)) := by
  have hs := h.toFrameReady.subEncode h.known hk
  have hs' : earlyError (.subEncode k) (withReport o .noError a) = none :=
    (h.toFrameReady.reported o .noError).subEncode h.known hk
  have heffect := subEncodeEffect_relabel o .noError a.regs.fsm a k
  rw [relabel_of_fsm rfl] at heffect
  have hexec := exec_subEncode_of_checks hs'
  rw [heffect] at hexec
  cases heff : subEncodeEffect k a with
  | ok u =>
    have hfsm : a.regs.fsm = u.regs.fsm := by rw [(memOnly_of_subEncodeEffect heff).regs]
    rw [heff, mapLeft_ok, relabel_of_fsm hfsm] at hexec
    exact runs_succeed (o := ((withReport o .noError u).setA4 ((withReport o .noError u).sub k 6)).regs.ops) hexec
  | error p =>
    have hmem := memOnly_subEncodeEffect k a
    rw [heff] at hmem
    have hfsm : a.regs.fsm = p.2.regs.fsm := (congrArg Regs.fsm hmem.regs).symm
    obtain ⟨hrange, -⟩ := subEncodeEffect_error (e := p.1) (u := p.2) h.known hk h.valid hs heff
    rw [heff] at hexec
    have hexec : exec (.subEncode k) (withReport o .noError a) = fail p.1 (relabel o .noError a.regs.fsm p.2) := hexec
    rw [relabel_of_fsm hfsm] at hexec
    exact runs_fail hexec (by rw [hrange]; decide)

end

section
variable {depth : Nat → Nat} {a : State} (h : Ready 0 depth a)
include h

theorem Ready.encodeFirst_ok {k : Nat} (hk : k ≤ a.channels) {u : State} (heff : encodeFirst k a = .ok u) :
    Ready k depth u ∧ MemOnly a u := by
  induction k generalizing u with
  | zero =>
    obtain rfl : a = u := Except.ok.inj heff
    exact ⟨h, .refl a⟩
  | succ k ih =>
    rw [encodeFirst_succ] at heff
    cases hfirst : encodeFirst k a with
    | error p =>
      rw [hfirst] at heff
      exact nomatch heff
    | ok t =>
      rw [hfirst] at heff
      have heff : subEncodeEffect k t = .ok u := heff
      obtain ⟨hready, hmem⟩ := ih (Nat.le_of_succ_le hk) hfirst
      exact ⟨hready.subEncode_ok (by rw [hmem.channels]; omega) heff, hmem.trans (memOnly_of_subEncodeEffect heff)⟩

theorem Ready.runs_encodeFirst {k : Nat} (hk : k ≤ a.channels) (o : OpRegs) :
    Runs (encodeFirst k a) (runCommands ((List.range k).map .subEncode) (withReport o .noError a)) := by
  induction k with
  | zero => exact runs_nil o a
  | succ k ih =>
    rw [encodeFirst_succ, List.range_succ, List.map_append, List.map_singleton]
    refine (ih (Nat.le_of_succ_le hk)).append fun t o ht => ?_
    obtain ⟨hready, hmem⟩ := h.encodeFirst_ok (Nat.le_of_succ_le hk) ht
    exact hready.runs_subEncode (by rw [hmem.channels]; omega) o

end

/-! ## One attempt at the frame -/

/-- The subframes of the first `k` channels have been written. -/
structure Written (k : Nat) (depth : Nat → Nat) (s : State) : Prop extends Ready s.channels depth s where
  fsm : s.regs.fsm = if k = s.channels then .subframesWritten else .headerWritten
  subcnt : s.regs.subcnt.toNat = k
  bsCode : bsCodeOf s.blockLen = some s.regs.bsCode

theorem memGet?_wrHeaderEffect (s : State) {sp : Space} (hsp : sp ≠ .out) (i : Nat) :
    memGet? (wrHeaderEffect s).mem sp i = memGet? s.mem sp i := by
  simp only [wrHeaderEffect, putU, memGet?_putBits_of_ne _ _ hsp]

theorem memGet?_wrSubframeEffect (ch : Nat) (s : State) {sp : Space} (hsp : sp ≠ .out) (i : Nat) :
    memGet? (wrSubframeEffect ch s).mem sp i = memGet? s.mem sp i := by
  simp only [wrSubframeEffect, memGet?_putBits_of_ne _ _ hsp]

section
variable {k : Nat} {depth : Nat → Nat} {a u : State}

/-- A step that writes OUT alone leaves the channels and their records. -/
theorem Ready.step (h : Ready k depth a) (hstep : FrameStep a u)
    (hmem : ∀ sp i, sp ≠ .out → memGet? u.mem sp i = memGet? a.mem sp i) : Ready k depth u where
  toFrameReady := h.toFrameReady.step hstep
  known := by
    have hn : u.blockLen = a.blockLen := hstep.kept (fun r => r.n.toNat) fun _ _ => rfl
    rw [hn, hstep.channels]
    refine ⟨h.known.depths, fun ch hch => ?_, fun ch i hch hi => ?_⟩
    · rw [hmem .subrec _ (by decide)]
      exact h.known.obits ch hch
    · rw [hmem .smp _ (by decide)]
      exact h.known.samples ch i hch hi
  settled ch hch := by
    have hn : u.blockLen = a.blockLen := hstep.kept (fun r => r.n.toNat) fun _ _ => rfl
    rw [hn]
    exact (h.settled ch hch).of_row fun f _ => hmem .subrec _ (by decide)

theorem FrameReady.frameInit (h : FrameReady a) {z : Nat} (hz : z ≤ 1) (hretry : z = 1 → a.regs.fsm = .overflowRetry) :
    earlyError (.frameInit z) a = none :=
  earlyError_eq_none h.configured (decide_eq_true hretry) (decide_eq_true hz) h.blockReady (decide_eq_true h.cap) rfl

/-- The header opens a frame without subframes. -/
theorem Ready.header (h : Ready a.channels depth a) (retry : Bool) :
    Written 0 depth (wrHeaderEffect (frameInitEffect retry a)) := by
  obtain ⟨v, hv, hheader⟩ := wrHeaderEffect_cases (frameInitEffect retry a)
  have hstep : FrameStep a (wrHeaderEffect (frameInitEffect retry a)) := by
    rw [hheader]
    exact ((frameStep_frameInitEffect retry a).trans hv.frameStep).count _ _
  have hmem : ∀ sp i, sp ≠ .out → memGet? (wrHeaderEffect (frameInitEffect retry a)).mem sp i = memGet? a.mem sp i :=
    fun sp i hsp => memGet?_wrHeaderEffect (frameInitEffect retry a) hsp i
  have hready := h.step hstep hmem
  rw [← hstep.channels] at hready
  have hcode : v.regs.bsCode = (bsCodeOf a.blockLen).getD 0 := hv.kept Regs.bsCode fun _ _ => rfl
  have hn : (wrHeaderEffect (frameInitEffect retry a)).blockLen = a.blockLen := hstep.kept (fun r => r.n.toNat) fun _ _ => rfl
  refine ⟨hready, ?_, ?_, ?_⟩
  · rw [if_neg (by have := hready.channels; omega), hheader]
  · rw [hheader]
    rfl
  · have hsome := bsCodeOf_of_le h.nonempty h.blockLen_le
    rw [hn, hsome, hheader, ← hcode]

/-- `WR_SUBFRAME` is allowed for the next channel. -/
theorem Written.wrSubframe_ready (h : Written k depth a) (hk : k < a.channels) : earlyError (.wrSubframe k) a = none := by
  have hfsm := h.fsm
  rw [if_neg hk.ne] at hfsm
  refine earlyError_eq_none h.configured ?_ (decide_eq_true hk) rfl rfl (h.settled k hk a rfl rfl)
  have hcode : bsCodeOf a.regs.n.toNat = some a.regs.bsCode := h.bsCode
  rw [stateReady, hfsm, h.subcnt, hcode]
  simp

/-- One subframe more. -/
theorem Written.succ (h : Written k depth a) (hk : k < a.channels) : Written (k + 1) depth (wrSubframeEffect k a) := by
  obtain ⟨v, hv, heffect⟩ := wrSubframeEffect_cases k a
  have hstep : FrameStep a (wrSubframeEffect k a) := by
    rw [heffect]
    exact hv.frameStep.count _ _
  have hmem : ∀ sp i, sp ≠ .out → memGet? (wrSubframeEffect k a).mem sp i = memGet? a.mem sp i :=
    fun sp i hsp => memGet?_wrSubframeEffect k a hsp i
  have hready := h.toReady.step hstep hmem
  rw [← hstep.channels] at hready
  have hcount : (a.regs.subcnt + 1).toNat = k + 1 := by
    rw [subcnt_succ (h.subcnt.trans_lt hk) h.channels.2, h.subcnt]
  have hcode : v.regs.bsCode = a.regs.bsCode := hv.kept Regs.bsCode fun _ _ => rfl
  have hn : (wrSubframeEffect k a).blockLen = a.blockLen := hstep.kept (fun r => r.n.toNat) fun _ _ => rfl
  have hfsm := h.fsm
  rw [if_neg hk.ne] at hfsm
  refine ⟨hready, ?_, ?_, ?_⟩
  · rw [hstep.channels, heffect]
    simp only [hcount, hfsm]
  · rw [heffect]
    exact hcount
  · rw [hn, h.bsCode, heffect, ← hcode]

theorem forChannels_succ (k : Nat) (eff : Nat → State → State) (s : State) :
    forChannels (k + 1) eff s = eff k (forChannels k eff s) := by
  simp only [forChannels, List.range_succ, List.foldl_append, List.foldl_cons, List.foldl_nil]

theorem Written.subframes (h : Written 0 depth a) (hk : k ≤ a.channels) :
    Written k depth (forChannels k wrSubframeEffect a) ∧ (forChannels k wrSubframeEffect a).channels = a.channels := by
  have hchannels (k : Nat) : (forChannels k wrSubframeEffect a).channels = a.channels :=
    (forChannels_wrSubframe k a).1.channels
  refine ⟨?_, hchannels k⟩
  induction k with
  | zero => exact h
  | succ k ih =>
    rw [forChannels_succ]
    exact (ih (Nat.le_of_succ_le hk)).succ (by rw [hchannels]; omega)

/-! ### The commands of the attempt -/

theorem runs_frameInit (h : FrameReady a) (retry : Bool) (hretry : retry = true → a.regs.fsm = .overflowRetry) (o : OpRegs) :
    Runs (.ok (frameInitEffect retry a)) (runCommands [.frameInit retry.toNat] (withReport o .noError a)) := by
  have hs : earlyError (.frameInit retry.toNat) (withReport o .noError a) = none :=
    (h.reported o .noError).frameInit (Bool.toNat_le retry) fun h1 => hretry (Bool.toNat_eq_one.1 h1)
  have hbit : (retry.toNat == 1) = retry := by cases retry <;> rfl
  have hexec := exec_frameInit hs
  rw [hbit] at hexec
  exact runs_succeed (o := o) (e := .noError) hexec

theorem runs_wrHeader (hok : a.regs.cfgOk = true) (hfsm : a.regs.fsm = .init) (o : OpRegs) :
    Runs (.ok (wrHeaderEffect a)) (runCommands [.wrHeader] (withReport o .noError a)) := by
  have hs : earlyError .wrHeader (withReport o .noError a) = none :=
    earlyError_eq_none hok (decide_eq_true hfsm) rfl rfl rfl rfl
  have heffect := wrHeaderEffect_relabel o .noError a.regs.fsm a
  have hfsm' : Fsm.headerWritten = (wrHeaderEffect a).regs.fsm := rfl
  rw [relabel_of_fsm rfl, relabel_of_fsm hfsm'] at heffect
  have hexec := exec_wrHeader hs
  rw [heffect] at hexec
  exact runs_succeed hexec

theorem Written.runs_wrSubframe (h : Written k depth a) (hk : k < a.channels) (o : OpRegs) :
    Runs (.ok (wrSubframeEffect k a)) (runCommands [.wrSubframe k] (withReport o .noError a)) := by
  have hs : earlyError (.wrSubframe k) (withReport o .noError a) = none := by
    have hreport : Written k depth (withReport o .noError a) :=
      ⟨⟨h.toFrameReady.reported o .noError, h.known, h.settled⟩, h.fsm, h.subcnt, h.bsCode⟩
    exact hreport.wrSubframe_ready hk
  have hexec := exec_wrSubframe hs
  rw [wrSubframeEffect_withReport] at hexec
  exact runs_succeed hexec

theorem Written.runs_subframes (h : Written 0 depth a) (hk : k ≤ a.channels) (o : OpRegs) :
    Runs (.ok (forChannels k wrSubframeEffect a))
      (runCommands ((List.range k).map .wrSubframe) (withReport o .noError a)) := by
  induction k with
  | zero => exact runs_nil o a
  | succ k ih =>
    rw [forChannels_succ, List.range_succ, List.map_append, List.map_singleton]
    refine (ih (Nat.le_of_succ_le hk)).andThen fun o => ?_
    obtain ⟨hwritten, hchannels⟩ := h.subframes (Nat.le_of_succ_le hk)
    exact hwritten.runs_wrSubframe (by rw [hchannels]; omega) o

theorem wrFooterEffect_error {c : ErrCode} (h : wrFooterEffect a = .error (c, u)) : c = .frameOverflow := by
  rw [wrFooterEffect_eq, footerEnd] at h
  split at h
  · exact nomatch h
  split at h
  · cases h
    rfl
  · exact nomatch h

theorem runs_wrFooter (hok : a.regs.cfgOk = true) (hfsm : a.regs.fsm = .subframesWritten) (o : OpRegs) :
    Runs (wrFooterEffect a) (runCommands [.wrFooter] (withReport o .noError a)) := by
  have hs : earlyError .wrFooter (withReport o .noError a) = none :=
    earlyError_eq_none hok (decide_eq_true hfsm) rfl rfl rfl rfl
  have hexec := exec_wrFooter hs
  rw [wrFooterEffect_withReport] at hexec
  exact runs_finish hexec fun c u hc => by
    rw [wrFooterEffect_error hc]
    decide

theorem header_channels (retry : Bool) (a : State) : (wrHeaderEffect (frameInitEffect retry a)).channels = a.channels := by
  obtain ⟨v, hv, hheader⟩ := wrHeaderEffect_cases (frameInitEffect retry a)
  rw [hheader]
  exact ((frameStep_frameInitEffect retry a).trans hv.frameStep).channels

/-- The state in which the footer is written. -/
def beforeFooter (retry : Bool) (a : State) : State :=
  forChannels a.channels wrSubframeEffect (wrHeaderEffect (frameInitEffect retry a))

theorem frameAttempt_eq (retry : Bool) (a : State) : frameAttempt retry a = wrFooterEffect (beforeFooter retry a) := rfl

theorem Ready.written (h : Ready a.channels depth a) (retry : Bool) :
    Written a.channels depth (beforeFooter retry a) ∧ (beforeFooter retry a).channels = a.channels := by
  obtain ⟨hwritten, hchannels⟩ := (h.header retry).subframes (header_channels retry a).ge
  exact ⟨hwritten, hchannels.trans (header_channels retry a)⟩

theorem attemptCommands_eq (c z : Nat) : attemptCommands c z
    = [.frameInit z] ++ [.wrHeader] ++ (List.range c).map .wrSubframe ++ [.wrFooter] := rfl

/-- One attempt and its effect. -/
theorem Ready.runs_attempt (h : Ready a.channels depth a) (retry : Bool) (hretry : retry = true → a.regs.fsm = .overflowRetry)
    (o : OpRegs) : Runs (frameAttempt retry a) (runCommands (attemptCommands a.channels retry.toNat) (withReport o .noError a)) := by
  have hok : (frameInitEffect retry a).regs.cfgOk = true := h.configured
  have hinit : (frameInitEffect retry a).regs.fsm = .init := rfl
  have hopen : Runs (.ok (wrHeaderEffect (frameInitEffect retry a)))
      (runCommands ([.frameInit retry.toNat] ++ [.wrHeader]) (withReport o .noError a)) :=
    (runs_frameInit h.toFrameReady retry hretry o).andThen fun o => runs_wrHeader hok hinit o
  have hsubframes : Runs (.ok (beforeFooter retry a))
      (runCommands ([.frameInit retry.toNat] ++ [.wrHeader] ++ (List.range a.channels).map .wrSubframe)
        (withReport o .noError a)) :=
    hopen.andThen fun o => (h.header retry).runs_subframes (header_channels retry a).ge o
  obtain ⟨hlast, hchannels⟩ := h.written retry
  have hfsm := hlast.fsm
  rw [if_pos hchannels.symm] at hfsm
  rw [frameAttempt_eq, attemptCommands_eq]
  exact hsubframes.andThen fun o => runs_wrFooter hlast.configured hfsm o

end

end Sys2Proof.Proofs
end

section
/-!
`ENCODE_FRAME` is its step commands (`45_frame_encoder.md` R280): the samples, the first attempt and the retry, one after another.
-/
namespace Sys2Proof.Proofs
open Sys2Proof.Machine

/-! ## The parts of the step sequence -/

theorem runCommands_single {i : Instr} {s t : State} (h : exec i s = .next t) (hok : t.regs.err = .noError) :
    runCommands [i] s = .ok t := by
  rw [runCommands_cons h, if_pos hok, runCommands_nil]

/-- The step commands that prepare the samples. -/
def stepSamples (s : State) : Except State State :=
  (runCommands [.deinterleave] s).bind fun split =>
    if s.channels = 2 then
      (runCommands [.stEstimate] split).bind fun chosen => runCommands [.stApply chosen.regs.chMode.toNat] chosen
    else .ok split

theorem stepSamples_two {s split chosen : State} (hc : s.channels = 2) (hsplit : runCommands [.deinterleave] s = .ok split)
    (hchosen : runCommands [.stEstimate] split = .ok chosen) :
    stepSamples s = runCommands [.stApply chosen.regs.chMode.toNat] chosen := by
  rw [stepSamples, hsplit]
  refine (if_pos hc).trans ?_
  rw [hchosen]
  rfl

theorem stepSamples_other {s split : State} (hc : s.channels ≠ 2) (hsplit : runCommands [.deinterleave] s = .ok split) :
    stepSamples s = .ok split := by
  rw [stepSamples, hsplit]
  exact if_neg hc

/-- The step commands of the retry. -/
def stepRetry (c : Nat) (s : State) : Except State State :=
  if s.regs.fsm = .overflowRetry then runCommands ((List.range c).map .subVerbatim ++ attemptCommands c 1) s else .ok s

theorem stepFrame_eq (s : State) : stepFrame s = (stepSamples s).bind fun ready =>
    (runCommands ((List.range s.channels).map .subEncode ++ attemptCommands s.channels 0) ready).bind (stepRetry s.channels) := by
  unfold stepFrame stepSamples
  simp only [State.channels]
  cases runCommands [.deinterleave] s with
  | error t => rfl
  | ok t =>
    by_cases hc : s.regs.cfg.channels.toNat = 2
    · simp only [hc, if_true]
      exact (bind_assoc (m := Except State) (runCommands [.stEstimate] t)
        (fun chosen => runCommands [.stApply chosen.regs.chMode.toNat] chosen) _).symm
    · simp only [hc, if_false]
      rfl

/-! ## The samples -/

section
variable {s : State} (h : FrameReady s) (hfsm : s.regs.fsm = .idle)
include h hfsm

theorem FrameReady.run_deinterleave : exec .deinterleave s = .next (withReport s.regs.ops .noError (deinterleaveEffect s)) := by
  have hops : (deinterleaveEffect s).regs.ops = s.regs.ops := by rw [(memOnly_deinterleaveEffect s).regs]; rfl
  rw [exec_deinterleave_eq, command_of_checks (stereoChecks_hold (h.deinterleave hfsm)), ← hops]
  rfl

theorem FrameReady.run_stEstimate (o : OpRegs) : ∃ o', exec .stEstimate (withReport o .noError s)
    = .next (withReport o' .noError (stEstimateEffect s)) := by
  have hs : earlyError .stEstimate (withReport o .noError s) = none := (h.reported o .noError).deinterleave hfsm
  obtain ⟨v, hmem, -⟩ := memOnly_stEstimateEffect s
  have hkept : s.regs.fsm = (stEstimateEffect s).regs.fsm := by rw [hmem.regs]; rfl
  have heffect := stEstimateEffect_relabel o .noError s.regs.fsm s
  rw [relabel_of_fsm rfl, relabel_of_fsm hkept] at heffect
  rw [exec_stEstimate hs, heffect]
  exact ⟨_, rfl⟩

theorem FrameReady.run_stApply {mode : Nat} (hmode : mode < 4) (hc : s.channels = 2)
    (hk : ChannelsKnown s.mem s.blockLen 2 fun _ => 16) (o : OpRegs) :
    exec (.stApply mode) (withReport o .noError s) = .next (withReport o .noError (stApplyEffect mode s))
      ∧ ChannelsKnown (stApplyEffect mode s).mem s.blockLen 2 (sideDepth mode) := by
  have hs : earlyError (.stApply mode) (withReport o .noError s) = none := (h.reported o .noError).stApply hfsm hmode hc hk
  have hmem := memOnly_stApplyEffect mode s
  have hkept : s.regs.fsm = (stApplyEffect mode s).regs.fsm := by rw [hmem.regs]; rfl
  have heffect := stApplyEffect_relabel o .noError s.regs.fsm s mode
  rw [relabel_of_fsm rfl, relabel_of_fsm hkept] at heffect
  have hexec := exec_stApply hs
  rw [heffect] at hexec
  have hknown := channelsKnown_stApply (t := withReport o .noError s) h.valid hs hexec hk
  exact ⟨hexec, hknown⟩

end

/-- `ST_ESTIMATE` leaves the samples and their bit depths. -/
theorem channelsKnown_stEstimate {s : State} {n : Nat} {depth : Nat → Nat} (hk : ChannelsKnown s.mem n 2 depth)
    (hc : s.channels = 2) : ChannelsKnown (stEstimateEffect s).mem n 2 depth := by
  obtain ⟨k, -, heffect⟩ := stEstimateEffect_two hc
  rw [heffect]
  obtain ⟨hkept, -⟩ := (storesIn_storeEstimates s _ _).kept
  refine ⟨hk.depths, fun ch hch => (hkept .subrec _ rfl).trans (hk.obits ch hch), fun ch i hch hi => ?_⟩
  obtain ⟨v, hv, hfits⟩ := hk.samples ch i hch hi
  exact ⟨v, (hkept .smp _ rfl).trans hv, hfits⟩

/-- The bits of all channels of a sample, at most (`46_context_commands.md` R305). -/
def depthBudget (c : Nat) : Nat := 16 * c + if c = 2 then 1 else 0

/-- The step commands that prepare the samples, and their effect: every channel is known afterwards, within the budget. -/
theorem FrameReady.run_samples {s : State} (h : FrameReady s) (hfsm : s.regs.fsm = .idle) : ∃ o depth,
    stepSamples s = .ok (withReport o .noError (prepareSamples s)) ∧ Ready 0 depth (prepareSamples s)
      ∧ ((List.range s.channels).map depth).sum ≤ depthBudget s.channels := by
  have hrun := frameRun_prepareSamples s
  have hn : (prepareSamples s).blockLen = s.blockLen := hrun.kept (fun r => r.n.toNat) fun _ _ => rfl
  have hready {depth : Nat → Nat} (hk : ChannelsKnown (prepareSamples s).mem s.blockLen s.channels depth) :
      Ready 0 depth (prepareSamples s) := by
    rw [← hn, ← hrun.channels] at hk
    exact ⟨h.step hrun.toFrameStep, hk, fun ch hch => absurd hch (Nat.not_lt_zero ch)⟩
  have hsplit := h.run_deinterleave hfsm
  have hsplitMem := memOnly_deinterleaveEffect s
  have hk := channelsKnown_deinterleave h.valid (h.deinterleave hfsm) hsplit
  have hk : ChannelsKnown (deinterleaveEffect s).mem s.blockLen s.channels fun _ => 16 := hk
  have hsplitStep : FrameStep s (deinterleaveEffect s) := (frameStep_setChMode (.inl rfl)).trans hsplitMem.frameStep
  have hchannels := hsplitStep.channels
  by_cases hc : s.channels = 2
  · rw [hc] at hk hready hchannels
    obtain ⟨v, hestMem, -⟩ := memOnly_stEstimateEffect (deinterleaveEffect s)
    have hestStep := (frameStep_setChMode (v := v) (.inr hchannels)).trans hestMem.frameStep
    have hsplitReady := h.step hsplitStep
    have hsplitFsm : (deinterleaveEffect s).regs.fsm = .idle := by rw [hsplitMem.regs]; exact hfsm
    obtain ⟨o, hest⟩ := hsplitReady.run_stEstimate hsplitFsm s.regs.ops
    have hestFsm : (stEstimateEffect (deinterleaveEffect s)).regs.fsm = .idle := by rw [hestMem.regs]; exact hsplitFsm
    have hestKnown := channelsKnown_stEstimate hk hchannels
    have hestLen : (stEstimateEffect (deinterleaveEffect s)).blockLen = s.blockLen :=
      (hsplitStep.trans hestStep).kept (fun r => r.n.toNat) fun _ _ => rfl
    have hmode := (stEstimateEffect (deinterleaveEffect s)).regs.chMode.isLt
    rw [← hestLen] at hestKnown
    obtain ⟨happly, happlyKnown⟩ := (hsplitReady.step hestStep).run_stApply hestFsm hmode (hestStep.channels.trans hchannels)
      hestKnown o
    have heffect : prepareSamples s = stApplyEffect (stEstimateEffect (deinterleaveEffect s)).regs.chMode.toNat
        (stEstimateEffect (deinterleaveEffect s)) := if_pos hchannels
    rw [hestLen, ← heffect] at happlyKnown
    refine ⟨o, _, ?_, hready happlyKnown, ?_⟩
    case refine_2 =>
      rw [hc]
      exact sideDepth_add_le _
    rw [stepSamples_two hc (runCommands_single hsplit rfl) (runCommands_single hest rfl), heffect]
    exact runCommands_single happly rfl
  · have heffect : prepareSamples s = deinterleaveEffect s := if_neg (by rwa [hchannels])
    refine ⟨s.regs.ops, fun _ => 16, ?_, hready (by rwa [heffect]), ?_⟩
    · rw [heffect]
      exact stepSamples_other hc (runCommands_single hsplit rfl)
    · rw [List.map_const', List.sum_replicate, List.length_range, depthBudget, smul_eq_mul]
      omega

/-! ## The retry -/

section
variable {k : Nat} {depth : Nat → Nat} {a u : State}

theorem Ready.subReady (h : Ready k depth a) {ch : Nat} (hch : ch < a.channels) : SubReady a ch :=
  ⟨h.nonempty, h.blockLen_le, h.known.obitsOk hch⟩

theorem Ready.subVerbatim (h : Ready k depth a) {ch : Nat} (hch : ch < a.channels) :
    Ready k depth (subVerbatimEffect ch a) where
  toFrameReady := h.toFrameReady.step (memOnly_subVerbatimEffect ch a).frameStep
  known := (rowOnly_subVerbatim a ch).channelsKnown h.known
  settled ch' hch' := by
    rcases eq_or_ne ch' ch with rfl | hne
    · exact settled_subVerbatim h.known hch (h.subReady hch)
    · exact (rowOnly_subVerbatim a ch).settled hne (h.settled ch' hch')

theorem Ready.runs_subVerbatim (h : Ready k depth a) {ch : Nat} (hch : ch < a.channels) (o : OpRegs) :
    Runs (.ok (subVerbatimEffect ch a)) (runCommands [.subVerbatim ch] (withReport o .noError a)) := by
  have hs : earlyError (.subEncode ch) (withReport o .noError a) = none :=
    (h.toFrameReady.reported o .noError).subEncode h.known hch
  exact runs_succeed (exec_subVerbatim hs)

theorem Ready.runs_subVerbatims (h : Ready k depth a) {c : Nat} (hc : c ≤ a.channels) :
    Ready k depth (forChannels c subVerbatimEffect a) ∧ (forChannels c subVerbatimEffect a).channels = a.channels
      ∧ ∀ o, Runs (.ok (forChannels c subVerbatimEffect a))
        (runCommands ((List.range c).map .subVerbatim) (withReport o .noError a)) := by
  induction c with
  | zero => exact ⟨h, rfl, fun o => runs_nil o a⟩
  | succ c ih =>
    obtain ⟨hready, hchannels, hrun⟩ := ih (Nat.le_of_succ_le hc)
    have hlt : c < (forChannels c subVerbatimEffect a).channels := by rw [hchannels]; omega
    rw [forChannels_succ, List.range_succ, List.map_append, List.map_singleton]
    exact ⟨hready.subVerbatim hlt, hchannels, fun o => (hrun o).andThen fun o => hready.runs_subVerbatim hlt o⟩

theorem memGet?_footerWritten (s : State) {sp : Space} (hsp : sp ≠ .out) (i : Nat) :
    memGet? (footerWritten s).mem sp i = memGet? s.mem sp i := by
  simp only [footerWritten, flush, putU, memGet?_putBits_of_ne _ _ hsp]

theorem writerOnly_footerWritten (s : State) : WriterOnly s (footerWritten s) :=
  (writerOnly_flush s).trans (writerOnly_putU _ 16 _)

/-- Only the first overflow ends in OVERFLOW_RETRY. -/
theorem footerEnd_overflow {len : Nat} (h : footerEnd a len = .ok u) (hfsm : u.regs.fsm = .overflowRetry) :
    u = a.setFsm .overflowRetry := by
  rw [footerEnd] at h
  split at h
  · obtain rfl := Except.ok.inj h
    exact nomatch hfsm
  split at h
  · exact nomatch h
  · exact (Except.ok.inj h).symm

/-- After the first overflow the channels are as before the attempt. -/
theorem Ready.overflow (h : Ready a.channels depth a) {retry : Bool} (hu : frameAttempt retry a = .ok u)
    (hfsm : u.regs.fsm = .overflowRetry) : Ready u.channels depth u ∧ u.channels = a.channels := by
  obtain ⟨hwritten, hchannels⟩ := h.written retry
  rw [frameAttempt_eq, wrFooterEffect_eq] at hu
  obtain rfl := footerEnd_overflow hu hfsm
  have hfooter := (writerOnly_footerWritten (beforeFooter retry a)).frameStep
  have hmem := fun (sp : Space) i (hsp : sp ≠ .out) => memGet?_footerWritten (beforeFooter retry a) hsp i
  clear hu hfsm
  generalize footerWritten (beforeFooter retry a) = w at hfooter hmem ⊢
  have hstep : FrameStep (beforeFooter retry a) (w.setFsm .overflowRetry) := hfooter.count _ _
  have hready := hwritten.toReady.step hstep hmem
  rw [← hstep.channels] at hready
  exact ⟨hready, hstep.channels.trans hchannels⟩

/-- The retry and its effect. -/
theorem runs_retry {c : Nat} (h : a.regs.fsm = .overflowRetry → Ready a.channels depth a ∧ a.channels = c) (o : OpRegs) :
    Runs (retryIfOverflow a) (stepRetry c (withReport o .noError a)) := by
  rw [retryIfOverflow, stepRetry]
  by_cases hfsm : a.regs.fsm = .overflowRetry
  · obtain ⟨hready, rfl⟩ := h hfsm
    obtain ⟨hready, hchannels, hrun⟩ := hready.runs_subVerbatims a.channels.le_refl
    have hkept : (forChannels a.channels subVerbatimEffect a).regs.fsm = .overflowRetry := by
      rw [(memOnly_forChannels memOnly_subVerbatimEffect a.channels a).regs, hfsm]
    have hattempt := fun o => Ready.runs_attempt (a := forChannels a.channels subVerbatimEffect a) (by rwa [hchannels]) true
      (fun _ => hkept) o
    rw [hchannels] at hattempt
    have hfsm' : (withReport o .noError a).regs.fsm = .overflowRetry := hfsm
    rw [if_pos hfsm, if_pos hfsm']
    exact (hrun o).andThen hattempt
  · rw [if_neg hfsm]
    exact ⟨o, if_neg hfsm⟩

end

/-! ## The whole sequence -/

theorem bind_eq_ok {eff : Effect} {k : State → Effect} {u : State} (h : eff.bind k = .ok u) : ∃ t, eff = .ok t ∧ k t = .ok u := by
  cases eff with
  | ok t => exact ⟨t, rfl, h⟩
  | error p => exact nomatch h

theorem encodeSteps_eq (s : State) : encodeSteps s
    = ((subEncodeAll (prepareSamples s)).bind (frameAttempt false)).bind retryIfOverflow := by
  unfold encodeSteps
  cases subEncodeAll (prepareSamples s) <;> rfl

/-- The steps of `ENCODE_FRAME` and the step commands. -/
theorem FrameReady.runs_frame {s : State} (h : FrameReady s) (hfsm : s.regs.fsm = .idle) :
    Runs (encodeSteps s) (stepFrame s) := by
  obtain ⟨o, depth, hsamples, hready, -⟩ := h.run_samples hfsm
  have hchannels := (frameRun_prepareSamples s).channels
  have hencode := hready.runs_encodeFirst le_rfl o
  rw [← subEncodeAll_eq, hchannels] at hencode
  rw [stepFrame_eq, hsamples, encodeSteps_eq]
  have hfirst : Runs ((subEncodeAll (prepareSamples s)).bind (frameAttempt false))
      (runCommands ((List.range s.channels).map .subEncode ++ attemptCommands s.channels 0)
        (withReport o .noError (prepareSamples s))) := by
    refine hencode.append fun t o ht => ?_
    obtain ⟨hencoded, hmem⟩ := hready.encodeFirst_ok le_rfl ht
    rw [← hmem.channels] at hencoded
    have hattempt := hencoded.runs_attempt false nofun o
    rwa [hmem.channels, hchannels] at hattempt
  refine hfirst.bind fun u o hu => runs_retry (depth := depth) (fun hover => ?_) o
  obtain ⟨t, ht, hattempt⟩ := bind_eq_ok hu
  obtain ⟨hencoded, hmem⟩ := hready.encodeFirst_ok le_rfl ht
  rw [← hmem.channels] at hencoded
  obtain ⟨hover, hsame⟩ := hencoded.overflow hattempt hover
  exact ⟨hover, hsame.trans (hmem.channels.trans hchannels)⟩

end Sys2Proof.Proofs
end

section
/-!
What no step of `ENCODE_FRAME` writes: IN, and indices past the length of the longest space (`60_exceptions.md` R324(g)).
-/
namespace Sys2Proof.Proofs
open Sys2Proof.Machine

/-! ## Ranges of working memory -/

/-- The ranges lie in the spaces that a frame works in. -/
def Working (rs : List Range) : Prop := ∀ r ∈ rs, r.1 ≠ .inp ∧ r.2.1 + r.2.2 ≤ 2097152

theorem Working.append {a b : List Range} (ha : Working a) (hb : Working b) : Working (a ++ b) :=
  List.forall_mem_append.2 ⟨ha, hb⟩

/-- IN and the indices past every space are as before; OUT is left aside. -/
def RestKept (m m' : Mems) : Prop :=
  ∀ sp i, sp ≠ .out → sp = .inp ∨ 2097152 ≤ i → memGet? m' sp i = memGet? m sp i

theorem RestKept.trans {m m' m'' : Mems} (h : RestKept m m') (h' : RestKept m' m'') : RestKept m m'' :=
  fun sp i hsp hi => (h' sp i hsp hi).trans (h sp i hsp hi)

theorem restKept_of_kept {rs : List Range} {s t : State} (h : keptOutside rs s t) (hrs : Working rs) : RestKept s.mem t.mem := by
  refine fun sp i _ hi => h.1 sp i (Bool.eq_false_iff.2 fun hin => ?_)
  rw [covered, List.any_eq_true] at hin
  obtain ⟨r, hr, hin⟩ := hin
  simp only [Bool.and_eq_true, decide_eq_true_eq] at hin
  obtain ⟨⟨rfl, -⟩, hlt⟩ := hin
  obtain ⟨hsp, hle⟩ := hrs r hr
  rcases hi with hi | hi
  · exact hsp hi
  · omega

theorem restKept_of_ne_out {m m' : Mems} (h : ∀ sp i, sp ≠ .out → memGet? m' sp i = memGet? m sp i) : RestKept m m' :=
  fun sp i hsp _ => h sp i hsp

theorem working_channelRanges {ch n : Nat} (hch : ch < 8) (hn : n ≤ 65535) : Working (channelRanges ch n) := by
  simp only [Working, channelRanges, List.forall_mem_cons]
  exact ⟨⟨by decide, by omega⟩, ⟨by decide, by omega⟩, List.forall_mem_nil _⟩

/-! ## The samples -/

section
variable {s : State}

theorem restKept_deinterleave (h : FrameReady s) : RestKept s.mem (deinterleaveEffect s).mem := by
  have hstores := storesIn_splitChannels s s.channels s.blockLen (inputAt s s.channels)
  rw [deinterleaveEffect_eq]
  refine restKept_of_kept hstores.kept fun r hr => ?_
  obtain ⟨ch, hch, hr⟩ := List.mem_flatMap.1 hr
  exact working_channelRanges ((List.mem_range.1 hch).trans_le h.channels.2) h.blockLen_le r hr

theorem restKept_stEstimate (s : State) : RestKept s.mem (stEstimateEffect s).mem := by
  by_cases hc : s.channels = 2
  · obtain ⟨k, -, heffect⟩ := stEstimateEffect_two hc
    rw [heffect]
    refine restKept_of_kept (storesIn_storeEstimates s _ _).kept ?_
    simp only [Working, List.forall_mem_cons, signalSums, scoresOf, List.length_cons, List.length_nil]
    exact ⟨⟨by decide, by decide⟩, ⟨by decide, by decide⟩, List.forall_mem_nil _⟩
  · rw [show stEstimateEffect s = s.setChMode 0 from if_neg hc]
    exact fun _ _ _ _ => rfl

theorem restKept_stApply {mode : Nat} (hmode : mode < 4) (hn : s.blockLen ≤ 65535) :
    RestKept s.mem (stApplyEffect mode s).mem := by
  have hside (ch : Nat) (hch : ch < 2) (t : State) (l r : Nat → Int) : RestKept t.mem (storeSide t l r ch s.blockLen).mem :=
    restKept_of_kept (storesIn_storeSide t l r ch _).kept (working_channelRanges (hch.trans (by decide)) hn)
  obtain rfl | rfl | rfl | rfl : mode = 0 ∨ mode = 1 ∨ mode = 2 ∨ mode = 3 := by omega
  · exact fun _ _ _ _ => rfl
  · rw [stApplyEffect_leftSide]
    exact hside 1 (by decide) (s.setChMode 1) _ _
  · rw [stApplyEffect_rightSide]
    exact hside 0 (by decide) (s.setChMode 2) _ _
  · rw [stApplyEffect_midSide]
    refine RestKept.trans ?_ (hside 1 (by decide) _ _ _)
    refine restKept_of_kept (s := s.setChMode 3) (storesIn_storeSignal _ 0 _ _).kept ?_
    simp only [Working, List.forall_mem_cons]
    exact ⟨⟨by decide, by omega⟩, List.forall_mem_nil _⟩

theorem restKept_prepareSamples (h : FrameReady s) : RestKept s.mem (prepareSamples s).mem := by
  have hsplit : FrameStep s (deinterleaveEffect s) :=
    (frameStep_setChMode (.inl rfl)).trans (memOnly_deinterleaveEffect s).frameStep
  have hrest := restKept_deinterleave h
  by_cases hc : (deinterleaveEffect s).channels = 2
  · obtain ⟨v, hmem, -⟩ := memOnly_stEstimateEffect (deinterleaveEffect s)
    have hest := h.step (hsplit.trans ((frameStep_setChMode (.inr hc)).trans hmem.frameStep))
    have heffect : prepareSamples s = stApplyEffect (stEstimateEffect (deinterleaveEffect s)).regs.chMode.toNat
        (stEstimateEffect (deinterleaveEffect s)) := if_pos hc
    rw [heffect]
    exact (hrest.trans (restKept_stEstimate _)).trans (restKept_stApply (BitVec.isLt _) hest.blockLen_le)
  · rw [show prepareSamples s = deinterleaveEffect s from if_neg hc]
    exact hrest

end

/-! ## `SUB_ENCODE` -/

section
variable {s : State} {ch : Nat} (hch : ch < 8) (hcfg : configError s.regs.cfg = none)
  (hs : earlyError (.subEncode ch) s = none)

theorem working_sums : Working [(.sums, 0, 2097152)] := by
  simp only [Working, List.forall_mem_cons]
  exact ⟨⟨by decide, by decide⟩, List.forall_mem_nil _⟩

theorem working_lpcSpaces :
    Working ([Space.win, .autoc, .lpcf, .refl, .qc, .qsh, .sums].map fun sp => (sp, 0, 2097152)) :=
  List.forall_mem_map.2 (by decide)

theorem working_quantRanges {o : Nat} (ho : o ≤ 32) : Working (quantRanges o) := by
  simp only [Working, quantRanges, List.forall_mem_cons]
  exact ⟨⟨by decide, by omega⟩, ⟨by decide, by omega⟩, List.forall_mem_nil _⟩

include hch

theorem working_rangeScratch : Working (rangeScratch ch) := by
  simp only [Working, rangeScratch, List.forall_mem_cons]
  exact ⟨⟨by decide, by omega⟩, ⟨by decide, by omega⟩, ⟨by decide, by omega⟩, List.forall_mem_nil _⟩

theorem restKept_subVerbatim (hn : s.blockLen ≤ 65535) : RestKept s.mem (subVerbatimEffect ch s).mem := by
  refine restKept_of_kept keptOutside_subVerbatimEffect ?_
  simp only [Working, List.forall_mem_cons]
  exact ⟨⟨by decide, by omega⟩, ⟨by decide, by omega⟩, ⟨by decide, by omega⟩, List.forall_mem_nil _⟩

theorem restKept_constant : RestKept s.mem (constantEffect ch s).mem := by
  refine restKept_of_kept keptOutside_constantEffect ?_
  simp only [Working, List.forall_mem_cons]
  exact ⟨⟨by decide, by omega⟩, ⟨by decide, by omega⟩, ⟨by decide, by omega⟩, List.forall_mem_nil _⟩

theorem restKept_fixedPath (h : FixedReady s ch) : RestKept s.mem (leftBy (fixedPath ch s)).mem := by
  obtain ⟨opt, hleast, hpath⟩ := h.path_eq
  obtain ⟨-, hhi⟩ := mem_upto.1 (mem_of_firstLeast hleast)
  have ho : opt ≤ 4 := hhi.trans (min_le_right ..)
  obtain ⟨-, -, hporder⟩ := h.plan_best ho
  have hpow : 2 ^ (fixedPlan s ch opt).porder ≤ 2 ^ 8 := Nat.pow_le_pow_right (by decide) hporder
  have hn := h.sub.block
  rw [hpath]
  split
  · refine restKept_of_kept (h.kept_done ho) ?_
    simp only [Working, List.forall_mem_cons]
    exact ⟨⟨by decide, by omega⟩, ⟨by decide, by omega⟩, ⟨by decide, by omega⟩, ⟨by decide, by omega⟩,
      ⟨by decide, by omega⟩, List.forall_mem_nil _⟩
  · exact restKept_of_kept (keptOutside_rangeError s ch) ((working_rangeScratch hch).append working_sums)

theorem restKept_lpcPath (h : LpcReady s ch) : RestKept s.mem (leftBy (lpcPath ch s)).mem := by
  obtain ⟨-, -, fit, hstores, -, -, -, hpath⟩ := h.exec_fit rfl
  have hfit := h.of_fit hstores
  have hfitted : StoresIn (fitRanges fit.blockLen (highestOrder fit)) s fit := by
    rwa [hstores.blockLen, highestOrder, hstores.regs]
  obtain ⟨all, opt, hselected, hselect⟩ := lpcSelect_eq (ch := ch) hfit.method hfit.orders_le hfit.orders.2.2.2.le
  have hall : ∀ o ∈ all, OrderIn fit o := fun o ho => by
    obtain ⟨hlo, hhi⟩ := hselected.bounds o ho
    exact orderIn_of_bounds hlo hhi
  have hopt := hall opt (mem_of_firstLeast hselected.least)
  rw [lowestOrder, highestOrder, hstores.regs] at hselect
  rw [hpath, hselect]
  split
  · obtain ⟨-, ho, -⟩ := hfit.order_le hopt
    obtain ⟨-, -, hporder⟩ := hfit.plan_best hopt
    have hpow : 2 ^ (lpcPlan fit ch opt).porder ≤ 2 ^ 8 := Nat.pow_le_pow_right (by decide) hporder
    obtain ⟨-, -, hn⟩ := hfit.block
    obtain ⟨-, -, h32, -⟩ := hfit.orders
    have hhi : highestOrder fit ≤ 32 := h32
    refine restKept_of_kept (hfit.kept_done (all := all) hopt hfitted) (Working.append (Working.append ?_ ?_) ?_)
    · simp only [Working, List.forall_mem_cons]
      exact ⟨⟨by decide, by omega⟩, ⟨by decide, by omega⟩, ⟨by decide, by omega⟩, ⟨by decide, by omega⟩,
        ⟨by decide, by omega⟩, ⟨by decide, by omega⟩, ⟨by decide, by omega⟩, ⟨by decide, by omega⟩, ⟨by decide, by omega⟩,
        List.forall_mem_nil _⟩
    · intro r hr
      obtain ⟨i, hi, rfl⟩ := List.mem_map.1 hr
      have hi := List.mem_range.1 hi
      exact ⟨Space.noConfusion, by dsimp only; omega⟩
    · intro r hr
      obtain ⟨o, ho, hr⟩ := List.mem_flatMap.1 hr
      obtain ⟨-, ho, -⟩ := hfit.order_le (hall o ho)
      exact working_quantRanges ho r hr
  · refine restKept_of_kept (hfit.kept_rangeError hfitted) ((working_rangeScratch hch).append working_lpcSpaces)

end

end Sys2Proof.Proofs
end

section
/-!
What the steps of `ENCODE_FRAME` leave of the memories, in every case (`60_exceptions.md` R324(g)).
-/
namespace Sys2Proof.Proofs
open Sys2Proof.Machine

theorem RestKept.bind {m : Mems} {eff : Effect} {k : State → Effect} (h : RestKept m (leftBy eff).mem)
    (hk : ∀ t, eff = .ok t → RestKept t.mem (leftBy (k t)).mem) : RestKept m (leftBy (eff.bind k)).mem := by
  cases eff with
  | ok t => exact h.trans (hk t rfl)
  | error p => exact h

section
variable {k : Nat} {depth : Nat → Nat} {a u : State}

theorem restKept_forgetSums (s : State) : RestKept s.mem (forgetSums s).mem :=
  restKept_of_kept (keptOutside_forget [(.sums, 0, spaceLen)] s) working_sums

theorem Ready.restKept_subEncode (h : Ready k depth a) (hk : k < a.channels) :
    RestKept a.mem (leftBy (subEncodeEffect k a)).mem := by
  have hs := h.toFrameReady.subEncode h.known hk
  have hch : k < 8 := hk.trans_le h.channels.2
  by_cases hvaries : Varies a k
  · rcases Nat.lt_or_ge a.blockLen 5 with hlen | hlen
    · rw [subEncodeEffect_short hvaries hlen]
      exact (restKept_subVerbatim hch h.blockLen_le).trans (restKept_forgetSums _)
    by_cases hfixed : a.regs.cfg.lpcType.toNat = 0 ∨ a.blockLen ≤ a.regs.cfg.maxOrder.toNat
    · rw [subEncodeEffect_fixed hvaries hlen hfixed]
      exact restKept_fixedPath hch (fixedReady_of_checks h.valid hs hlen)
    · have hlpc := not_or.1 hfixed
      rw [subEncodeEffect_lpc hvaries hlen hfixed]
      exact restKept_lpcPath hch (lpcReady_of_checks h.valid hs hlen hlpc.1 (not_le.1 hlpc.2))
  · rw [subEncodeEffect_constant hvaries]
    exact (restKept_constant hch).trans (restKept_forgetSums _)

theorem Ready.restKept_encodeFirst (h : Ready 0 depth a) (hk : k ≤ a.channels) :
    RestKept a.mem (leftBy (encodeFirst k a)).mem := by
  induction k with
  | zero => exact fun _ _ _ _ => rfl
  | succ k ih =>
    rw [encodeFirst_succ]
    refine (ih (Nat.le_of_succ_le hk)).bind fun t ht => ?_
    obtain ⟨hready, hmem⟩ := h.encodeFirst_ok (Nat.le_of_succ_le hk) ht
    exact hready.restKept_subEncode (by rw [hmem.channels]; omega)

theorem Ready.restKept_subVerbatims (h : Ready k depth a) {c : Nat} (hc : c ≤ a.channels) :
    RestKept a.mem (forChannels c subVerbatimEffect a).mem := by
  induction c with
  | zero => exact fun _ _ _ _ => rfl
  | succ c ih =>
    obtain ⟨hready, hchannels, -⟩ := h.runs_subVerbatims (Nat.le_of_succ_le hc)
    rw [forChannels_succ]
    have hch : c < 8 := by have := h.channels; omega
    exact (ih (Nat.le_of_succ_le hc)).trans (restKept_subVerbatim hch hready.blockLen_le)

theorem leftBy_footerEnd_mem (s : State) (len : Nat) : (leftBy (footerEnd s len)).mem = s.mem := by
  rw [footerEnd]
  split
  · rfl
  split <;> rfl

theorem memGet?_subframes (k : Nat) (s : State) {sp : Space} (hsp : sp ≠ .out) (i : Nat) :
    memGet? (forChannels k wrSubframeEffect s).mem sp i = memGet? s.mem sp i := by
  induction k with
  | zero => rfl
  | succ k ih => rw [forChannels_succ, memGet?_wrSubframeEffect k _ hsp, ih]

/-- An attempt writes OUT alone. -/
theorem restKept_frameAttempt (retry : Bool) (s : State) : RestKept s.mem (leftBy (frameAttempt retry s)).mem := by
  refine restKept_of_ne_out fun sp i hsp => ?_
  rw [frameAttempt_eq, wrFooterEffect_eq, leftBy_footerEnd_mem, memGet?_footerWritten _ hsp, beforeFooter,
    memGet?_subframes _ _ hsp, memGet?_wrHeaderEffect _ hsp]
  rfl

theorem restKept_retryIfOverflow (h : a.regs.fsm = .overflowRetry → Ready a.channels depth a) :
    RestKept a.mem (leftBy (retryIfOverflow a)).mem := by
  rw [retryIfOverflow]
  split
  next hfsm => exact ((h hfsm).restKept_subVerbatims le_rfl).trans (restKept_frameAttempt true _)
  next => exact fun _ _ _ _ => rfl

end

theorem FrameReady.restKept_encodeSteps {s : State} (h : FrameReady s) (hfsm : s.regs.fsm = .idle) :
    RestKept s.mem (leftBy (encodeSteps s)).mem := by
  obtain ⟨o, depth, -, hready, -⟩ := h.run_samples hfsm
  rw [encodeSteps_eq, subEncodeAll_eq]
  refine RestKept.bind (RestKept.bind ?_ fun t _ => restKept_frameAttempt false t) fun u hu => ?_
  · exact (restKept_prepareSamples h).trans (hready.restKept_encodeFirst le_rfl)
  · refine restKept_retryIfOverflow (depth := depth) fun hover => ?_
    obtain ⟨t, ht, hattempt⟩ := bind_eq_ok hu
    obtain ⟨hencoded, hmem⟩ := hready.encodeFirst_ok le_rfl ht
    rw [← hmem.channels] at hencoded
    exact (hencoded.overflow hattempt hover).1

end Sys2Proof.Proofs
end

section
/-!
`ENCODE_FRAME` as a sequence of step commands (`45_frame_encoder.md` R280): STATUS.FSM before the command, and what a failure
leaves (`60_exceptions.md` R324(g)).
-/
namespace Sys2Proof.Proofs
open Sys2Proof.Machine

/-! ## STATUS.FSM before the command -/

/-- A frame that has not been started reads STATUS.FSM nowhere. -/
theorem encodeSteps_setFsm (f : Fsm) (s : State) : encodeSteps (s.setFsm f) = encodeSteps s
    ∨ ∃ e u, encodeSteps s = .error (e, u) ∧ encodeSteps (s.setFsm f) = .error (e, u.setFsm f) := by
  have hsteps := encodeSteps_eq (s.setFsm f)
  rw [setFsm_eq_relabel, prepareSamples_relabel, subEncodeAll_relabel, ← setFsm_eq_relabel] at hsteps
  have hprep : (prepareSamples s).regs.ops = s.regs.ops ∧ (prepareSamples s).regs.err = s.regs.err :=
    ⟨(frameRun_prepareSamples s).kept Regs.ops fun _ _ => rfl, (frameRun_prepareSamples s).kept Regs.err fun _ _ => rfl⟩
  have hmem := memOnly_subEncodeAll (prepareSamples s)
  rw [hsteps, encodeSteps_eq s]
  generalize subEncodeAll (prepareSamples s) = eff at hmem ⊢
  obtain ⟨hops, herr⟩ := hprep
  cases eff with
  | ok t =>
    have hregs : t.regs = (prepareSamples s).regs := hmem.regs
    rw [mapLeft_ok, ← hops, ← herr, ← hregs, ← setFsm_eq_relabel]
    refine .inl (congrArg (Except.bind · retryIfOverflow) ?_)
    exact frameAttempt_setFsm false f t
  | error p =>
    have hregs : p.2.regs = (prepareSamples s).regs := hmem.regs
    refine .inr ⟨p.1, p.2, rfl, ?_⟩
    rw [setFsm_eq_relabel, hregs, hops, herr]
    rfl

theorem encodeFailed_setFsm (f : Fsm) (s : State) : encodeFailed (s.setFsm f) = encodeFailed s := rfl

theorem encodeFrameEffect_setFsm (f : Fsm) (s : State) : encodeFrameEffect (s.setFsm f) = encodeFrameEffect s := by
  unfold encodeFrameEffect
  rcases encodeSteps_setFsm f s with h | ⟨e, u, h, h'⟩
  · rw [h]
  · rw [h, h']
    exact congrArg (fun t => Except.error (e, t)) (encodeFailed_setFsm f u)

theorem encodeFrameEffect_ok {s t : State} (h : encodeSteps s = .ok t) : encodeFrameEffect s = .ok t := by
  rw [encodeFrameEffect, h]

theorem encodeFrameEffect_error {s t : State} {e : ErrCode} (h : encodeSteps s = .error (e, t)) :
    encodeFrameEffect s = .error (e, encodeFailed t) := by
  rw [encodeFrameEffect, h]

/-- The checks of `ENCODE_FRAME`. -/
def frameChecks (s : State) : List (Bool × ErrCode) := [cfgCheck s, blockCheck s 1, capacityCheck s 0]

theorem exec_encodeFrame_eq (s : State) :
    exec .encodeFrame s = command s (frameChecks s) fun s => finish (encodeFrameEffect s) := rfl

/-- The checks of `ENCODE_FRAME` hold exactly when no error is met early. -/
theorem frameChecks_iff {s : State} : (∀ c ∈ frameChecks s, c.1 = true) ↔ earlyError .encodeFrame s = none := by
  simp only [frameChecks, List.forall_mem_cons]
  constructor
  · rintro ⟨hcfg, hblock, hcap, -⟩
    exact earlyError_eq_none hcfg rfl rfl hblock (decide_eq_true (outCap_le_of_check hcap)) rfl
  · intro h
    obtain ⟨hcfg, -, -, hblock, hcap, -⟩ := ready_of_earlyError_eq_none h
    exact ⟨hcfg, hblock, (within_eq_true ..).2 ⟨Nat.zero_le _, of_decide_eq_true hcap⟩, List.forall_mem_nil _⟩

theorem exec_encodeFrame {s : State} (h : earlyError .encodeFrame s = none) :
    exec .encodeFrame s = finish (encodeFrameEffect s) := by
  rw [exec_encodeFrame_eq, command_of_checks (frameChecks_iff.2 h)]

theorem frameReady_idle {s : State} (hinv : RegsInv s.regs) (h : earlyError .encodeFrame s = none) :
    FrameReady (s.setFsm .idle) := by
  obtain ⟨hconfigured, hvalid, hnonempty, hblock, hcap⟩ := frameReady_of_encodeFrame hinv h
  exact ⟨hconfigured, hvalid, hnonempty, hblock, hcap⟩

/-! ## What the steps leave of the registers -/

/-- The registers that neither the writer nor the end of a frame sets. -/
structure InputsKept (s a : State) : Prop where
  ops : a.regs.ops = s.regs.ops
  n : a.regs.n = s.regs.n
  outCap : a.regs.outCap = s.regs.outCap
  cfg : a.regs.cfg = s.regs.cfg
  host : a.host = s.host
  readData : a.readData = s.readData

theorem FrameStep.inputsKept {s a : State} (h : FrameStep s a) : InputsKept s a where
  ops := h.kept Regs.ops fun _ _ => rfl
  n := h.kept Regs.n fun _ _ => rfl
  outCap := h.kept Regs.outCap fun _ _ => rfl
  cfg := h.cfg
  host := h.host
  readData := h.readData

/-- A frame that completes ends in DONE, counted. -/
theorem encodeSteps_done {s a : State} (h : encodeSteps s = .ok a) : ∃ u len, FrameStep s u ∧ a = frameDone u len
    ∧ len ≤ u.regs.maxFramesize.toNat := by
  obtain ⟨u, hu, ⟨len, hlen, -, hdone⟩ | ⟨e, herror⟩⟩ := encodeSteps_cases s
  · exact ⟨u, len, hu.toFrameStep, Except.ok.inj (h.symm.trans hdone), hlen⟩
  · rw [herror] at h
    exact nomatch h

theorem inputsKept_of_done {s a : State} (h : encodeSteps s = .ok a) : InputsKept s a := by
  obtain ⟨u, len, hu, rfl, -⟩ := encodeSteps_done h
  obtain ⟨hops, hn, hcap, hcfg, hhost, hread⟩ := hu.inputsKept
  exact ⟨hops, hn, hcap, hcfg, hhost, hread⟩

theorem frameStep_of_failed {s a : State} {e : ErrCode} (h : encodeSteps s = .error (e, a)) : FrameStep s a := by
  obtain ⟨u, hu, ⟨len, -, -, hdone⟩ | ⟨e', herror⟩⟩ := encodeSteps_cases s
  · rw [hdone] at h
    exact nomatch h
  · obtain ⟨-, rfl⟩ := Prod.mk.inj (Except.error.inj (herror.symm.trans h))
    exact hu.toFrameStep

/-! ## What a failure leaves -/

theorem covered_frameScratch (cap : Nat) (sp : Space) (i : Nat) : covered (frameScratch cap) sp i = true
    ↔ if sp = .out then i < cap else sp ≠ .inp ∧ i < 2097152 := by
  simp only [frameScratch, List.map_cons, List.map_nil, covered_cons_iff, covered_nil]
  cases sp <;> simp

theorem covered_encodeScratch (cap : Nat) (sp : Space) (i : Nat) : covered (encodeScratch cap) sp i = true
    ↔ covered (frameScratch cap) sp i = true := by
  rw [covered_frameScratch]
  simp only [encodeScratch, covered_cons_iff, covered_nil, spaceLen]
  cases sp <;> simp <;> rfl

theorem memGet?_encodeFailed {a : State} {sp : Space} {i : Nat} (hout : covered (frameScratch a.regs.bwCap.toNat) sp i = false) :
    memGet? (encodeFailed a).mem sp i = memGet? a.mem sp i := by
  refine (keptOutside_forget (encodeScratch a.regs.bwCap.toNat) a).1 sp i ?_
  rwa [Bool.eq_false_iff, Ne, covered_encodeScratch, ← Ne, ← Bool.eq_false_iff]

theorem keptOutside_encodeFailed {s a : State} {e : ErrCode} (h : FrameReady s) (hfsm : s.regs.fsm = .idle)
    (herror : encodeSteps s = .error (e, a)) : keptOutside (frameScratch a.regs.bwCap.toNat) s (encodeFailed a) := by
  have hsteps := (memStep_encodeSteps (ok := False) (s := s) False.elim False.elim).above
  have hrest := h.restKept_encodeSteps hfsm
  have hstep := frameStep_of_failed herror
  rw [herror] at hsteps hrest
  refine ⟨fun sp i hout => ?_, (encodeFailed_host a).trans hstep.host, (encodeFailed_readData a).trans hstep.readData⟩
  rw [memGet?_encodeFailed hout]
  rw [Bool.eq_false_iff, Ne, covered_frameScratch] at hout
  by_cases hsp : sp = .out
  · rw [if_pos hsp, not_lt] at hout
    rw [hsp]
    exact hsteps i hout
  · rw [if_neg hsp, not_and_or, not_not, not_lt] at hout
    exact hrest sp i hsp hout

/-- Settles O52: each step command leaves what the effect's step leaves, but for a0 to a7 and STATUS.ERR. -/
theorem encode_frame_is_step_sequence : Obligations.encode_frame_is_step_sequence := by
  intro s hinv hs
  have hready := frameReady_idle hinv hs
  have hruns := hready.runs_frame rfl
  have hexec := exec_encodeFrame hs
  rw [← encodeFrameEffect_setFsm .idle] at hexec
  change match stepFrame (s.setFsm .idle) with
    | .ok u => _
    | .error u => _
  cases hsteps : encodeSteps (s.setFsm .idle) with
  | ok a =>
    rw [hsteps] at hruns
    obtain ⟨o, hrun⟩ := hruns
    rw [encodeFrameEffect_ok hsteps] at hexec
    have hops : a.regs.ops = s.regs.ops := (inputsKept_of_done hsteps).ops
    rw [hrun, ← hops]
    exact hexec
  | error p =>
    rw [hsteps] at hruns
    obtain ⟨-, o, hrun⟩ := hruns
    rw [encodeFrameEffect_error hsteps] at hexec
    have hops : p.2.regs.ops = s.regs.ops := (frameStep_of_failed hsteps).inputsKept.ops
    obtain ⟨t, hfail, hregs, hkept⟩ := fail_kept p.1 (keptOutside_encodeFailed hready rfl hsteps)
    have hkept : keptOutside (frameScratch p.2.regs.bwCap.toNat) s t := hkept
    rw [encodeFailed_regs] at hregs
    have hcap : t.regs.bwCap = p.2.regs.bwCap := by rw [hregs]
    rw [hrun]
    refine ⟨t, hexec.trans hfail, ?_, hcap ▸ hkept⟩
    rw [hregs, ← hops]
    rfl

end Sys2Proof.Proofs
end

section
/-!
The transitions of STATUS.FSM (`45_frame_encoder.md` R266), command by command.
-/
namespace Sys2Proof.Proofs
open Sys2Proof.Machine

/-! ## Commands that leave STATUS.FSM -/

/-- An answer that leaves STATUS.FSM. -/
def FsmKept (s : State) (out : Result) : Prop := ∀ t, out = .next t → t.regs.fsm = s.regs.fsm

section
variable {s t : State}

theorem fsmKept_succeed (h : t.regs.fsm = s.regs.fsm) : FsmKept s (succeed t) := by
  rintro u ⟨⟩
  exact h

theorem fsmKept_fail (e : ErrCode) (h : t.regs.fsm = s.regs.fsm) : FsmKept s (fail e t) := by
  rintro u ⟨⟩
  exact h

theorem fsmKept_command {checks : List (Bool × ErrCode)} {effect : State → Result} (h : FsmKept s (effect s)) :
    FsmKept s (command s checks effect) := by
  rcases command_cases s checks effect with ⟨e, -, hfail⟩ | ⟨-, heffect⟩
  · rw [hfail]
    exact fsmKept_fail e rfl
  · rw [heffect]
    exact h

/-- A command that fails before it does anything. -/
theorem fsmKept_of_earlyError {i : Instr} {checks : List (Bool × ErrCode)} {effect : State → Result}
    (hchecks : (∀ c ∈ checks, c.1 = true) ↔ earlyError i s = none) (h : earlyError i s ≠ none) :
    FsmKept s (command s checks effect) := by
  rcases command_cases s checks effect with ⟨e, -, hfail⟩ | ⟨hnone, -⟩
  · rw [hfail]
    exact fsmKept_fail e rfl
  · exact absurd (hchecks.1 ((firstError_eq_none checks).1 hnone)) h

theorem MemOnly.fsm (h : MemOnly s t) : t.regs.fsm = s.regs.fsm := by rw [h.regs]

theorem WriterOnly.fsm (h : WriterOnly s t) : t.regs.fsm = s.regs.fsm := h.kept Regs.fsm fun _ _ => rfl

theorem fsmKept_residuals {ch : Nat} {r : List Int} {fits : Bool} :
    FsmKept s (if fits then succeed (s.setResiduals ch r) else fail .residualRange (s.forget (rangeErrorScratch ch))) := by
  split
  · exact fsmKept_succeed ((MemOnly.refl s).setResiduals ..).fsm
  · exact fsmKept_fail _ ((MemOnly.refl s).forget _).fsm

theorem fsmKept_wrStreaminfo (s : State) : FsmKept s (execWrStreaminfo s) := by
  refine fsmKept_command ?_
  have hw := writerOnly_putBits (writerInit s s.regs.outCap) (streaminfoBits s.regs)
  simp only [streaminfoEffect]
  generalize putBits (writerInit s s.regs.outCap) (streaminfoBits s.regs) = u at hw ⊢
  exact fsmKept_succeed hw.fsm

theorem fsmKept_bwRice (k : Nat) (s : State) : FsmKept s (execBwRice k s) := by
  refine fsmKept_command ?_
  split
  · exact fsmKept_fail _ rfl
  · exact fsmKept_succeed (writerOnly_putBits s _).fsm

theorem fsmKept_lsqFit (ch maxorder : Nat) (s : State) : FsmKept s (execLsqFit ch maxorder s) := by
  refine fsmKept_command ?_
  split
  · exact fsmKept_succeed (memOnly_lsqEffect _ s ch maxorder).fsm
  · exact fsmKept_fail _ rfl

theorem fsmKept_subEncode (ch : Nat) (s : State) : FsmKept s (execSubEncode ch s) := by
  refine fsmKept_command ?_
  have hmem := memOnly_subEncodeEffect ch s
  cases he : subEncodeEffect ch s with
  | ok t =>
    rw [he] at hmem
    exact fsmKept_succeed hmem.fsm
  | error p =>
    rw [he] at hmem
    exact fsmKept_fail _ hmem.fsm

theorem fsmKept_stEstimate (s : State) : FsmKept s (execStEstimate s) := by
  refine fsmKept_command ?_
  obtain ⟨v, hmem, -⟩ := memOnly_stEstimateEffect s
  exact fsmKept_succeed hmem.fsm

end

/-- The commands that R266 gives a row of its own. -/
def setsFsm : Instr → Bool
  | .cfgInit | .reset | .frameInit _ | .wrHeader | .wrSubframe _ | .wrFooter | .encodeFrame => true
  | _ => false

/-- Every other command leaves STATUS.FSM. -/
theorem exec_fsmKept {i : Instr} (h : setsFsm i = false) (s : State) : FsmKept s (exec i s) := by
  unfold exec
  cases i with
  | nop => exact fsmKept_succeed rfl
  | wrStreaminfo => exact fsmKept_wrStreaminfo s
  | bwInit => exact fsmKept_command (fsmKept_succeed rfl)
  | bwPutu bits => exact fsmKept_command (fsmKept_succeed (writerOnly_putU s bits _).fsm)
  | bwPuts bits => exact fsmKept_command (fsmKept_succeed (writerOnly_putU s bits _).fsm)
  | bwFlush => exact fsmKept_command (fsmKept_succeed (writerOnly_flush s).fsm)
  | bwPos => exact fsmKept_command (fsmKept_succeed rfl)
  | bwUtf8 => exact fsmKept_command (fsmKept_succeed (writerOnly_putBits s _).fsm)
  | bwRice k => exact fsmKept_bwRice k s
  | crc8 => exact fsmKept_command (fsmKept_succeed rfl)
  | crc16 => exact fsmKept_command (fsmKept_succeed rfl)
  | zigzag => exact fsmKept_command (fsmKept_succeed rfl)
  | riceCount k => exact fsmKept_command (fsmKept_succeed rfl)
  | findParam => exact fsmKept_command (fsmKept_succeed rfl)
  | maxPorder order pmax => exact fsmKept_command (fsmKept_succeed rfl)
  | partSums ch order pmin pmax => exact fsmKept_command (fsmKept_succeed (memOnly_storeSums s _ _ _ _ _).fsm)
  | calcRice ch order pmin pmax =>
    exact fsmKept_command (fsmKept_succeed ((memOnly_storeSums s _ _ _ _ _).storePlan ch _).fsm)
  | fixedRes ch order => exact fsmKept_command fsmKept_residuals
  | welch ch => exact fsmKept_command (fsmKept_succeed (memOnly_welchEffect s ch).fsm)
  | autocorr maxorder => exact fsmKept_command (fsmKept_succeed (memOnly_autocorrEffect s maxorder).fsm)
  | levinson maxorder => exact fsmKept_command (fsmKept_succeed (memOnly_levinsonEffect s maxorder).fsm)
  | lsqFit ch maxorder => exact fsmKept_lsqFit ch maxorder s
  | quant order precision => exact fsmKept_command (fsmKept_succeed ((MemOnly.refl s).storeQuant order _ _).fsm)
  | lpcRes ch order => exact fsmKept_command fsmKept_residuals
  | orderEst lo hi => exact fsmKept_command (fsmKept_succeed rfl)
  | subEncode ch => exact fsmKept_subEncode ch s
  | subVerbatim ch => exact fsmKept_command (fsmKept_succeed (memOnly_subVerbatimEffect ch s).fsm)
  | deinterleave => exact fsmKept_command (fsmKept_succeed (memOnly_deinterleaveEffect s).fsm)
  | stEstimate => exact fsmKept_stEstimate s
  | stApply mode => exact fsmKept_command (fsmKept_succeed (memOnly_stApplyEffect mode s).fsm)
  | cfgInit | reset | frameInit _ | wrHeader | wrSubframe _ | wrFooter | encodeFrame => exact nomatch h

/-! ## Commands with a row of their own -/

theorem exec_wrHeader_eq (s : State) :
    exec .wrHeader s = command s [cfgCheck s, fsmCheck s .init] fun s => succeed (wrHeaderEffect s) := rfl

/-- The checks of `WR_HEADER` hold exactly when no error is met early. -/
theorem headerChecks_iff {s : State} :
    (∀ c ∈ [cfgCheck s, fsmCheck s .init], c.1 = true) ↔ earlyError .wrHeader s = none := by
  simp only [List.forall_mem_cons]
  constructor
  · rintro ⟨hcfg, hstate, -⟩
    exact earlyError_eq_none hcfg hstate rfl rfl rfl rfl
  · intro h
    obtain ⟨hcfg, hstate, -⟩ := ready_of_earlyError_eq_none h
    exact ⟨hcfg, hstate, List.forall_mem_nil _⟩

/-- A command that fails before it does anything leaves STATUS.FSM. -/
theorem exec_fsmKept_of_earlyError {i : Instr} {s : State} (h : earlyError i s ≠ none) : FsmKept s (exec i s) := by
  by_cases hi : setsFsm i = false
  · exact exec_fsmKept hi s
  cases i with
  | cfgInit | reset => exact absurd rfl h
  | frameInit retry =>
    rw [exec_frameInit_eq]
    exact fsmKept_of_earlyError initChecks_iff h
  | wrHeader =>
    rw [exec_wrHeader_eq]
    exact fsmKept_of_earlyError headerChecks_iff h
  | wrSubframe ch =>
    rw [exec_wrSubframe_eq]
    exact fsmKept_of_earlyError subframeChecks_iff h
  | wrFooter =>
    rw [exec_wrFooter_eq]
    exact fsmKept_of_earlyError footerChecks_iff h
  | encodeFrame =>
    rw [exec_encodeFrame_eq]
    exact fsmKept_of_earlyError frameChecks_iff h
  | _ => exact absurd rfl hi

section
variable {s t : State}

theorem fsm_of_cfgInit (h : exec .cfgInit s = .next t) : t.regs.fsm = .idle := by
  have h : finish (cfgInitEffect s) = .next t := h
  rw [cfgInitEffect] at h
  split at h
  · obtain rfl := Host.Outcome.next.inj h
    rfl
  · obtain rfl := Host.Outcome.next.inj h
    rfl

theorem fsm_of_wrHeader (hs : earlyError .wrHeader s = none) (h : exec .wrHeader s = .next t) :
    s.regs.fsm = .init ∧ t.regs.fsm = .headerWritten := by
  obtain ⟨-, hstate, -⟩ := ready_of_earlyError_eq_none hs
  obtain ⟨u, -, heffect⟩ := wrHeaderEffect_cases s
  rw [exec_wrHeader hs, heffect] at h
  obtain rfl := Host.Outcome.next.inj h
  exact ⟨of_decide_eq_true hstate, rfl⟩

theorem fsm_of_wrSubframe {ch : Nat} (hc : s.channels ≤ 8) (hs : earlyError (.wrSubframe ch) s = none)
    (h : exec (.wrSubframe ch) s = .next t) : s.regs.fsm = .headerWritten ∧ t.regs.fsm =
      if ch + 1 = s.channels then .subframesWritten else .headerWritten := by
  obtain ⟨hfsm, rfl, -, hch, -⟩ := subframeReady_of_earlyError hs
  obtain ⟨u, -, heffect⟩ := wrSubframeEffect_cases s.regs.subcnt.toNat s
  rw [exec_wrSubframe hs, heffect, subcnt_succ hch hc, hfsm] at h
  obtain rfl := Host.Outcome.next.inj h
  exact ⟨hfsm, rfl⟩

theorem fsm_of_footerEnd {len : Nat} (h : finish (footerEnd s len) = .next t) :
    t.regs.fsm = .done ∨ t.regs.fsm = .overflowRetry ∨ t.regs.fsm = .failed := by
  rw [footerEnd] at h
  split at h
  · obtain rfl := Host.Outcome.next.inj h
    exact .inl rfl
  split at h
  · obtain rfl := Host.Outcome.next.inj h
    exact .inr (.inr rfl)
  · obtain rfl := Host.Outcome.next.inj h
    exact .inr (.inl rfl)

theorem fsm_of_wrFooter (hs : earlyError .wrFooter s = none) (h : exec .wrFooter s = .next t) :
    s.regs.fsm = .subframesWritten ∧ (t.regs.fsm = .done ∨ t.regs.fsm = .overflowRetry ∨ t.regs.fsm = .failed) := by
  obtain ⟨-, hstate, -⟩ := ready_of_earlyError_eq_none hs
  rw [exec_wrFooter hs, wrFooterEffect_eq] at h
  exact ⟨of_decide_eq_true hstate, fsm_of_footerEnd h⟩

/-- The two ends of `ENCODE_FRAME`. -/
theorem encodeFrame_ends (hinv : RegsInv s.regs) (hs : earlyError .encodeFrame s = none) (h : exec .encodeFrame s = .next t) :
    (∃ a, encodeSteps (s.setFsm .idle) = .ok a ∧ t.regs = { a.regs with err := .noError })
      ∨ ∃ e a, e ≠ .noError ∧ encodeSteps (s.setFsm .idle) = .error (e, a)
        ∧ t.regs = { (encodeFailed a).regs with err := e, errSticky := true } := by
  have hruns := (frameReady_idle hinv hs).runs_frame rfl
  rw [exec_encodeFrame hs, ← encodeFrameEffect_setFsm .idle] at h
  cases hsteps : encodeSteps (s.setFsm .idle) with
  | ok a =>
    rw [encodeFrameEffect_ok hsteps] at h
    obtain rfl := Host.Outcome.next.inj h
    exact .inl ⟨a, rfl, rfl⟩
  | error p =>
    rw [hsteps] at hruns
    obtain ⟨he, -⟩ := hruns
    rw [encodeFrameEffect_error hsteps] at h
    obtain rfl := Host.Outcome.next.inj h
    exact .inr ⟨p.1, p.2, he, rfl, rfl⟩

theorem fsm_of_encodeFrame (hinv : RegsInv s.regs) (hs : earlyError .encodeFrame s = none) (h : exec .encodeFrame s = .next t) :
    t.regs.fsm = if t.regs.err = .noError then .done else .failed := by
  rcases encodeFrame_ends hinv hs h with ⟨a, hsteps, hregs⟩ | ⟨e, a, he, -, hregs⟩
  · obtain ⟨u, len, -, rfl, -⟩ := encodeSteps_done hsteps
    rw [hregs]
    rfl
  · rw [encodeFailed_regs] at hregs
    rw [hregs]
    exact (if_neg he).symm

end

/-- Settles O56: command by command, with what the checks of a row say of STATUS.FSM before it. -/
theorem fsm_transitions : Obligations.fsm_transitions := by
  intro i s t hinv h
  refine ⟨fun hearly => exec_fsmKept_of_earlyError hearly t h, fun hs => ?_⟩
  cases i with
  | reset =>
    obtain rfl := Host.Outcome.next.inj h
    rfl
  | cfgInit => exact fsm_of_cfgInit h
  | frameInit retry =>
    have h := (exec_frameInit hs).symm.trans h
    obtain rfl := Host.Outcome.next.inj h
    rfl
  | wrHeader => exact fsm_of_wrHeader hs h
  | wrSubframe ch =>
    obtain ⟨hcfg, -⟩ := ready_of_earlyError_eq_none hs
    obtain ⟨⟨-, hmax⟩, -⟩ := configError_none (hinv.locked hcfg).1
    exact fsm_of_wrSubframe hmax hs h
  | wrFooter => exact fsm_of_wrFooter hs h
  | encodeFrame => exact fsm_of_encodeFrame hinv hs h
  | _ => exact exec_fsmKept rfl s t h

end Sys2Proof.Proofs
end

section
/-!
How long the bits of a frame are (`45_frame_encoder.md` R278): every subframe is shorter than the writer's count can tell, and a
VERBATIM one has its samples and eight bits.
-/
namespace Sys2Proof.Proofs
open Sys2Proof.Machine

/-! ## Subframes -/

theorem length_flatMap_le {α β : Type} {l : List α} {f : α → List β} {b : Nat} (h : ∀ x ∈ l, (f x).length ≤ b) :
    (l.flatMap f).length ≤ l.length * b := by
  rw [List.length_flatMap, ← smul_eq_mul]
  refine (List.sum_le_card_nsmul _ b (List.forall_mem_map.2 h)).trans_eq ?_
  rw [List.length_map]

theorem length_flatMap_msbBits (n w : Nat) (f : Nat → Int) :
    ((List.range n).flatMap fun i => msbBits w (f i)).length = n * w := by
  simp only [List.length_flatMap, msbBits_length, List.map_const', List.sum_replicate, List.length_range, smul_eq_mul]

theorem residualLayout_length_le {r : Nat → Int} {n order p : Nat} {param : Nat → Int}
    (hr : ∀ i, -2 ^ 31 ≤ r i ∧ r i < 2 ^ 31) (hparam : ∀ j, j < 2 ^ p → param j ≤ 14) :
    (residualLayout r n order p param).length ≤ 6 + 2 ^ p * (4 + n * 2 ^ 33) := by
  have hpart : ∀ j ∈ List.range (2 ^ p), (msbBits 4 (param j) ++ (List.range' (partStart n order p j)
      ((j + 1) * (n / 2 ^ p) - partStart n order p j)).flatMap fun i => riceCode (param j).toNat (r i)).length
        ≤ 4 + n * 2 ^ 33 := by
    intro j hj
    have hj := List.mem_range.1 hj
    have hspan : (j + 1) * (n / 2 ^ p) ≤ n := (Nat.mul_le_mul_right _ hj).trans (Nat.mul_div_le ..)
    have hcode : ∀ i, (riceCode (param j).toNat (r i)).length ≤ 2 ^ 33 := fun i => by
      obtain ⟨hlo, hhi⟩ := hr i
      have hk := hparam j hj
      rw [← riceBits_eq]
      exact (riceBits_length_lt hlo (by omega) (by omega)).le
    rw [List.length_append, msbBits_length]
    refine Nat.add_le_add_left ((length_flatMap_le fun i _ => hcode i).trans (Nat.mul_le_mul_right _ ?_)) 4
    rw [List.length_range']
    omega
  have hparts := length_flatMap_le hpart
  rw [List.length_range] at hparts
  rw [residualLayout, List.length_append, List.length_append, msbBits_length, msbBits_length]
  omega

section
variable {s : State} {ch : Nat}

/-- A VERBATIM subframe (`30_encoding.md` R114). -/
theorem subframeBits_length_verbatim {d : Nat} (h : recordAccepted s ch = true) (htype : recordAt s ch 0 = 1)
    (hobits : recordAt s ch 2 = d) : (subframeBits s ch).length = 8 + s.blockLen * d := by
  have h0 : ¬recordAt s ch 0 = 0 := by omega
  rw [subframeBits_eq_layout h, subframeLayout, if_neg h0, if_pos htype, hobits, Int.toNat_natCast]
  simp only [List.length_append, List.length_singleton, msbBits_length, length_flatMap_msbBits]
  rfl

/-- Whatever the record and the residuals are. -/
theorem subframeBits_length_le (h : recordAccepted s ch = true) (hn : s.blockLen ≤ 65535) :
    (subframeBits s ch).length ≤ 2 ^ 59 := by
  obtain ⟨htypes, hobits, -, hlpc, horder, hset, hplan⟩ := recordAccepted_iff.1 h
  have hn : s.regs.n.toNat ≤ 65535 := hn
  have horder : _ ∨ recordAt s ch 1 ≤ s.regs.n.toNat := horder
  have hwide : (recordAt s ch 2).toNat ≤ 17 := by rcases hobits with h2 | h2 <;> rw [h2] <;> decide
  have hsamples (m : Nat) (hm : m ≤ 65535) : m * (recordAt s ch 2).toNat ≤ 65535 * 17 := Nat.mul_le_mul hm hwide
  rw [subframeBits_eq_layout h, subframeLayout]
  by_cases h0 : recordAt s ch 0 = 0
  · have := hsamples 1 (by decide)
    simp only [if_pos h0, List.length_append, List.length_singleton, msbBits_length, length_flatMap_msbBits]
    omega
  by_cases h1 : recordAt s ch 0 = 1
  · have := hsamples s.regs.n.toNat hn
    simp only [if_neg h0, if_pos h1, List.length_append, List.length_singleton, msbBits_length, length_flatMap_msbBits]
    omega
  have hrest : (residualLayout (residualAt s ch) s.regs.n.toNat (recordAt s ch 1).toNat (recordAt s ch 5).toNat
      fun j => recordAt s ch (256 + j)).length ≤ 2 ^ 58 := by
    have htype : recordAt s ch 0 = 2 ∨ recordAt s ch 0 = 3 := by omega
    obtain ⟨⟨-, hp⟩, -, -, hparams⟩ := hplan.resolve_left (not_not.2 htype)
    refine (residualLayout_length_le (residualAt_range s ch) fun j hj => (hparams j hj).2).trans ?_
    have hcount : 2 ^ (recordAt s ch 5).toNat ≤ 2 ^ 8 := Nat.pow_le_pow_right (by decide) (by omega)
    have hbits : s.regs.n.toNat * 2 ^ 33 ≤ 65535 * 2 ^ 33 := Nat.mul_le_mul_right _ hn
    have hall := Nat.mul_le_mul hcount (Nat.add_le_add_left hbits 4)
    omega
  have hwarm := hsamples (recordAt s ch 1).toNat (by omega)
  by_cases h2 : recordAt s ch 0 = 2
  · simp only [if_neg h0, if_neg h1, if_pos h2, List.length_append, List.length_singleton, msbBits_length,
      length_flatMap_msbBits]
    omega
  have h3 : recordAt s ch 0 = 3 := by omega
  obtain ⟨-, ho⟩ := hlpc.resolve_left (not_not.2 h3)
  obtain ⟨⟨-, hprec⟩, -⟩ := hset.resolve_left (not_not.2 h3)
  have hcoefs : (recordAt s ch 1).toNat * (recordAt s ch 3).toNat ≤ 32 * 15 := Nat.mul_le_mul (by omega) (by omega)
  simp only [if_neg h0, if_neg h1, if_neg h2, List.length_append, List.length_singleton, msbBits_length,
    length_flatMap_msbBits]
  omega

end

/-! ## The writer's position -/

theorem bitpos_putU (s : State) (w : Nat) (v : Int) (h : s.regs.bitpos.toNat + w < 2 ^ 64) :
    (putU s w v).regs.bitpos.toNat = s.regs.bitpos.toNat + w := by
  have hpos := putBits_pos (s := s) (l := fieldBits w v) (by rwa [fieldBits_length])
  rwa [fieldBits_length] at hpos

theorem bitpos_wrSubframe {s : State} {ch : Nat} (h : s.regs.bitpos.toNat + (subframeBits s ch).length < 2 ^ 64) :
    (wrSubframeEffect ch s).regs.bitpos.toNat = s.regs.bitpos.toNat + (subframeBits s ch).length :=
  putBits_pos h

/-- The header is not empty, and 16 bytes at most (`30_encoding.md` R100, R110). -/
theorem bitpos_header (retry : Bool) (s : State) : 1 ≤ (wrHeaderEffect (frameInitEffect retry s)).regs.bitpos.toNat
    ∧ (wrHeaderEffect (frameInitEffect retry s)).regs.bitpos.toNat ≤ 128 := by
  obtain ⟨k, hk, hk15⟩ := headerLayout_length (frameInitEffect retry s).regs
  have hstart : (frameInitEffect retry s).regs.bitpos.toNat = 0 := rfl
  have hheader := putBits_pos (s := frameInitEffect retry s) (l := headerBits (frameInitEffect retry s).regs)
    (by rw [headerBits_eq]; omega)
  rw [headerBits_eq] at hheader
  have hcrc := bitpos_putU (putBits (frameInitEffect retry s) (headerLayout (frameInitEffect retry s).regs)) 8
    (putBits (frameInitEffect retry s) (headerLayout (frameInitEffect retry s).regs)).regs.crc8Run.toNat (by omega)
  rw [wrHeaderEffect, headerBits_eq]
  dsimp only
  omega

theorem bitpos_subframes {f : Nat → Nat} {s : State} {k : Nat}
    (hf : ∀ j, j < k → (subframeBits (forChannels j wrSubframeEffect s) j).length ≤ f j)
    (hno : s.regs.bitpos.toNat + ((List.range k).map f).sum < 2 ^ 64) :
    s.regs.bitpos.toNat ≤ (forChannels k wrSubframeEffect s).regs.bitpos.toNat
      ∧ (forChannels k wrSubframeEffect s).regs.bitpos.toNat ≤ s.regs.bitpos.toNat + ((List.range k).map f).sum := by
  induction k with
  | zero => exact ⟨le_rfl, le_rfl⟩
  | succ k ih =>
    rw [List.range_succ, List.map_append, List.sum_append, List.map_singleton, List.sum_singleton] at hno ⊢
    obtain ⟨hlo, hhi⟩ := ih (fun j hj => hf j (Nat.lt_succ_of_lt hj)) (by omega)
    have hlen := hf k (Nat.lt_succ_self k)
    rw [forChannels_succ, bitpos_wrSubframe (by omega)]
    omega

theorem bitpos_footerWritten {s : State} (h : s.regs.bitpos.toNat + 32 < 2 ^ 64) : (footerWritten s).regs.bitpos.toNat
    = s.regs.bitpos.toNat + padding s.regs.bitpos.toNat + 16 := by
  have hpad := padding_lt s.regs.bitpos.toNat
  have hflush := putBits_pos (s := s) (l := List.replicate (padding s.regs.bitpos.toNat) false)
    (by rw [List.length_replicate]; omega)
  rw [List.length_replicate, ← flush_eq] at hflush
  have hcrc := bitpos_putU (flush s) 16 (flush s).regs.crc16Run.toNat (by omega)
  rw [footerWritten, hcrc, hflush]

end Sys2Proof.Proofs
end

section
/-!
The guarantee of `45_frame_encoder.md` R278 and `70_reset_and_hazards.md` R353: a frame of VERBATIM subframes keeps to the budget
of `46_context_commands.md` R305, so the retry always completes.
-/
namespace Sys2Proof.Proofs
open Sys2Proof.Machine

/-! ## The length of an attempt -/

/-- The records of the first `c` channels are VERBATIM. -/
def VerbatimRows (m : Mems) (c : Nat) : Prop := ∀ ch, ch < c → memGet? m .subrec (ch * 512) = some 1

/-- The footer written in `w` ends an attempt of `len` bytes that started in `a`. -/
structure Attempted (retry : Bool) (depth : Nat → Nat) (a w : State) (len : Nat) : Prop where
  step : FrameStep a w
  retried : w.regs.retried = retry
  cap : w.regs.bwCap = a.regs.outCap
  bitpos : w.regs.bitpos.toNat = 8 * len
  nonempty : 1 ≤ len
  verbatim : VerbatimRows a.mem a.channels →
    len ≤ 18 + (8 * a.channels + a.blockLen * ((List.range a.channels).map depth).sum + 7) / 8

theorem sum_verbatim_lengths (n c : Nat) (depth : Nat → Nat) :
    ((List.range c).map fun ch => 8 + n * depth ch).sum = 8 * c + n * ((List.range c).map depth).sum := by
  rw [List.sum_map_add, List.map_const', List.sum_replicate, List.length_range, List.sum_map_mul_left, smul_eq_mul, Nat.mul_comm c]

theorem sum_map_range_le {f : Nat → Nat} {c b : Nat} (h : ∀ j, j < c → f j ≤ b) : ((List.range c).map f).sum ≤ c * b := by
  have hsum := List.sum_le_card_nsmul ((List.range c).map f) b (List.forall_mem_map.2 fun j hj => h j (List.mem_range.1 hj))
  rwa [List.length_map, List.length_range, smul_eq_mul] at hsum

/-- The state in which the subframe of channel `j` is written. -/
def beforeSubframe (retry : Bool) (a : State) (j : Nat) : State :=
  forChannels j wrSubframeEffect (wrHeaderEffect (frameInitEffect retry a))

theorem beforeFooter_eq (retry : Bool) (a : State) : beforeFooter retry a = beforeSubframe retry a a.channels := rfl

theorem memGet?_beforeSubframe (retry : Bool) (a : State) (j : Nat) {sp : Space} (hsp : sp ≠ .out) (i : Nat) :
    memGet? (beforeSubframe retry a j).mem sp i = memGet? a.mem sp i := by
  rw [beforeSubframe, memGet?_subframes _ _ hsp, memGet?_wrHeaderEffect _ hsp]
  rfl

/-- What the attempt has done of the registers before a subframe or the footer. -/
theorem frameStep_beforeSubframe (retry : Bool) (a : State) (j : Nat) :
    FrameStep (frameInitEffect retry a) (beforeSubframe retry a j) ∧ (beforeSubframe retry a j).regs.retried = retry := by
  obtain ⟨v, hv, hheader⟩ := wrHeaderEffect_cases (frameInitEffect retry a)
  obtain ⟨hsubframes, -, hretried⟩ := forChannels_wrSubframe j (wrHeaderEffect (frameInitEffect retry a))
  have hstep : FrameStep (frameInitEffect retry a) (wrHeaderEffect (frameInitEffect retry a)) := by
    rw [hheader]
    exact hv.frameStep.count _ _
  refine ⟨hstep.trans hsubframes, hretried.trans ?_⟩
  rw [hheader]
  exact hv.kept Regs.retried fun _ _ => rfl

theorem bitpos_beforeFooter (retry : Bool) {a : State} {f : Nat → Nat} (hsum : ((List.range a.channels).map f).sum < 2 ^ 63)
    (hf : ∀ j, j < a.channels → (subframeBits (beforeSubframe retry a j) j).length ≤ f j) :
    1 ≤ (beforeFooter retry a).regs.bitpos.toNat
      ∧ (beforeFooter retry a).regs.bitpos.toNat ≤ 128 + ((List.range a.channels).map f).sum := by
  obtain ⟨hlo, hhi⟩ := bitpos_header retry a
  have hsubframes := bitpos_subframes hf (by omega)
  rw [beforeFooter]
  omega

section
variable {depth : Nat → Nat} {a : State} (h : Ready a.channels depth a) (retry : Bool)
include h

theorem Ready.writtenBefore {j : Nat} (hj : j ≤ a.channels) :
    Written j depth (beforeSubframe retry a j) ∧ (beforeSubframe retry a j).channels = a.channels := by
  have hchannels := header_channels retry a
  obtain ⟨hwritten, hsame⟩ := (h.header retry).subframes (hj.trans hchannels.ge)
  exact ⟨hwritten, hsame.trans hchannels⟩

/-- The writer's count holds every frame. -/
theorem Ready.bitpos_lt : 1 ≤ (beforeFooter retry a).regs.bitpos.toNat ∧ (beforeFooter retry a).regs.bitpos.toNat < 2 ^ 63 := by
  obtain ⟨f, hf⟩ : ∃ f : Nat → Nat, ∀ j, f j = 2 ^ 59 := ⟨fun _ => _, fun _ => rfl⟩
  have hsum := sum_map_range_le (c := a.channels) fun j _ => (hf j).le
  obtain ⟨-, hmax⟩ := h.channels
  obtain ⟨hlo, hhi⟩ := bitpos_beforeFooter retry (a := a) (f := f) (by omega) fun j hj => by
    obtain ⟨hwritten, hsame⟩ := h.writtenBefore retry hj.le
    rw [hf]
    exact subframeBits_length_le (hwritten.settled j (by omega) _ rfl rfl) hwritten.blockLen_le
  omega

/-- A subframe of a VERBATIM record. -/
theorem Ready.verbatim_length {j : Nat} (hj : j < a.channels) (hrow : memGet? a.mem .subrec (j * 512) = some 1) :
    (subframeBits (beforeSubframe retry a j) j).length = 8 + a.blockLen * depth j := by
  obtain ⟨hwritten, hsame⟩ := h.writtenBefore retry hj.le
  have hget : memGet? (beforeSubframe retry a j).mem .subrec (j * 512 + 0) = some 1 := by
    rw [Nat.add_zero, memGet?_beforeSubframe retry a j (by decide), hrow]
  have htype : recordAt (beforeSubframe retry a j) j 0 = 1 := memRead_of_some hget
  have hobits : recordAt (beforeSubframe retry a j) j 2 = depth j := hwritten.known.recordAt_eq (by omega)
  have hblock : (beforeSubframe retry a j).blockLen = a.blockLen :=
    (frameStep_beforeSubframe retry a j).1.kept (fun r => r.n.toNat) fun _ _ => rfl
  rw [subframeBits_length_verbatim (hwritten.settled j (by omega) _ rfl rfl) htype hobits, hblock]

/-- A frame of VERBATIM subframes. -/
theorem Ready.bitpos_verbatim (hrows : VerbatimRows a.mem a.channels) : (beforeFooter retry a).regs.bitpos.toNat
    ≤ 128 + (8 * a.channels + a.blockLen * ((List.range a.channels).map depth).sum) := by
  obtain ⟨f, hf⟩ : ∃ f : Nat → Nat, ∀ ch, f ch = 8 + a.blockLen * depth ch := ⟨fun _ => _, fun _ => rfl⟩
  have hsum : ((List.range a.channels).map f).sum ≤ a.channels * (8 + 65535 * 17) := sum_map_range_le fun j hj => by
    have hdepth : depth j ≤ 17 := by
      have := h.known.depths j hj
      omega
    rw [hf]
    exact Nat.add_le_add_left (Nat.mul_le_mul h.blockLen_le hdepth) 8
  obtain ⟨-, hmax⟩ := h.channels
  obtain ⟨-, hhi⟩ := bitpos_beforeFooter retry (a := a) (f := f) (by omega) fun j hj => by
    rw [h.verbatim_length retry hj (hrows j hj), hf]
  rwa [funext hf, sum_verbatim_lengths] at hhi

theorem Ready.attempted : ∃ w len, frameAttempt retry a = footerEnd w len ∧ Attempted retry depth a w len := by
  obtain ⟨hlo, hlt⟩ := h.bitpos_lt retry
  have hpos := bitpos_footerWritten (s := beforeFooter retry a) (by omega)
  have hwhole := add_padding (beforeFooter retry a).regs.bitpos.toNat
  have hpad := padding_lt (beforeFooter retry a).regs.bitpos.toNat
  have hverbatim := h.bitpos_verbatim retry
  have hfooter := writerOnly_footerWritten (beforeFooter retry a)
  refine ⟨_, _, (frameAttempt_eq retry a).trans (wrFooterEffect_eq _), ?_⟩
  obtain ⟨hstep, hretried⟩ := frameStep_beforeSubframe retry a a.channels
  rw [← beforeFooter_eq] at hstep hretried
  generalize footerWritten (beforeFooter retry a) = w at hpos hfooter ⊢
  have hw := hstep.trans hfooter.frameStep
  refine ⟨(frameStep_frameInitEffect retry a).trans hw, (hfooter.kept Regs.retried fun _ _ => rfl).trans hretried, ?_,
    by omega, by omega, fun hrows => ?_⟩
  · exact hw.cap.elim id id
  · have := hverbatim hrows
    omega

end

end Sys2Proof.Proofs
end

section
/-!
`ENCODE_FRAME` never overflows for good (`45_frame_encoder.md` R278, `70_reset_and_hazards.md` R353): the first attempt does not
fail, and the retry keeps to the budget.
-/
namespace Sys2Proof.Proofs
open Sys2Proof.Machine

/-! ## A frame that completes -/

/-- The budget of the configuration is locked, and the capacity covers it. -/
structure Roomy (s : State) : Prop where
  budget : s.regs.maxFramesize.toNat = budget s.regs.cfg
  cap : s.regs.maxFramesize.toNat ≤ s.regs.outCap.toNat

theorem Roomy.step {s t : State} (h : Roomy s) (hstep : FrameStep s t) : Roomy t := by
  have hmax : t.regs.maxFramesize = s.regs.maxFramesize := hstep.kept Regs.maxFramesize fun _ _ => rfl
  have hcap : t.regs.outCap = s.regs.outCap := hstep.kept Regs.outCap fun _ _ => rfl
  exact ⟨by rw [hmax, hstep.cfg, h.budget], by rw [hmax, hcap]; exact h.cap⟩

/-- From `s` the frame has been completed, in whole bytes and within the budget. -/
def Completed (s a : State) : Prop :=
  ∃ w len, FrameStep s w ∧ a = frameDone w len ∧ len ≤ w.regs.maxFramesize.toNat ∧ w.regs.bitpos.toNat = 8 * len ∧ 1 ≤ len

theorem Completed.of_step {s t a : State} (hstep : FrameStep s t) (h : Completed t a) : Completed s a := by
  obtain ⟨w, len, hw, hdone⟩ := h
  exact ⟨w, len, hstep.trans hw, hdone⟩

/-- The frame has been completed, or an LPC residual has left its range. -/
def FrameEnds (s : State) : Effect → Prop
  | .ok a => Completed s a
  | .error (e, _) => e = .residualRange ∧ s.regs.cfg.lpcType.toNat ≠ 0

theorem FrameEnds.of_step {s t : State} (hstep : FrameStep s t) {eff : Effect} (h : FrameEnds t eff) : FrameEnds s eff := by
  cases eff with
  | ok a => exact Completed.of_step hstep h
  | error p =>
    obtain ⟨he, htype⟩ := h
    rw [hstep.cfg] at htype
    exact ⟨he, htype⟩

theorem effect_bind_assoc (eff : Effect) (k k' : State → Effect) :
    (eff.bind k).bind k' = eff.bind fun t => (k t).bind k' := by
  cases eff <;> rfl

theorem FrameEnds.bind {s : State} {eff : Effect} {k : State → Effect}
    (herror : ∀ e u, eff = .error (e, u) → e = .residualRange ∧ s.regs.cfg.lpcType.toNat ≠ 0)
    (hk : ∀ t, eff = .ok t → FrameEnds s (k t)) : FrameEnds s (eff.bind k) := by
  cases eff with
  | ok t => exact hk t rfl
  | error p => exact herror p.1 p.2 rfl

section
variable {retry : Bool} {depth : Nat → Nat} {a w : State} {len : Nat}

theorem Attempted.completed (h : Attempted retry depth a w len) (hfit : len ≤ w.regs.maxFramesize.toNat) :
    Completed a (frameDone w len) := ⟨w, len, h.step, rfl, hfit, h.bitpos, h.nonempty⟩

theorem Attempted.footerEnd_done (h : Attempted retry depth a w len) (hroom : Roomy a) (hfit : len ≤ w.regs.maxFramesize.toNat) :
    footerEnd w len = .ok (frameDone w len) := by
  have hmax : w.regs.maxFramesize = a.regs.maxFramesize := h.step.kept Regs.maxFramesize fun _ _ => rfl
  have hcap := hroom.cap
  refine if_pos ⟨hfit, ?_⟩
  rw [h.cap]
  rw [hmax] at hfit
  exact hfit.trans hcap

/-! ## `SUB_ENCODE` of the channels -/

theorem Ready.encodeFirst_error (h : Ready 0 depth a) {k : Nat} (hk : k ≤ a.channels) {e : ErrCode} {u : State}
    (herror : encodeFirst k a = .error (e, u)) : e = .residualRange ∧ a.regs.cfg.lpcType.toNat ≠ 0 := by
  induction k with
  | zero => exact nomatch herror
  | succ k ih =>
    rw [encodeFirst_succ] at herror
    cases hfirst : encodeFirst k a with
    | error p =>
      rw [hfirst] at herror
      exact ih (Nat.le_of_succ_le hk) (hfirst.trans herror)
    | ok t =>
      rw [hfirst] at herror
      obtain ⟨hready, hmem⟩ := h.encodeFirst_ok (Nat.le_of_succ_le hk) hfirst
      have hch : k < t.channels := by rw [hmem.channels]; omega
      have hs := hready.toFrameReady.subEncode hready.known hch
      have hlpc := subEncodeEffect_error hready.known hch hready.valid hs herror
      rwa [hmem.regs] at hlpc

/-! ## The retry -/

theorem Ready.verbatimRows (h : Ready a.channels depth a) {c : Nat} (hc : c ≤ a.channels) :
    VerbatimRows (forChannels c subVerbatimEffect a).mem c := by
  induction c with
  | zero => exact fun ch hch => absurd hch (Nat.not_lt_zero ch)
  | succ c ih =>
    obtain ⟨hready, hchannels, -⟩ := h.runs_subVerbatims (Nat.le_of_succ_le hc)
    intro ch hch
    rw [forChannels_succ]
    rcases Nat.lt_succ_iff_lt_or_eq.1 hch with hlt | rfl
    · exact ((rowOnly_subVerbatim _ c).records _ (by omega)).trans (ih (Nat.le_of_succ_le hc) ch hlt)
    · exact (headIs_subVerbatimEffect (hready.subReady (by omega))).type

/-- A frame of VERBATIM subframes keeps to the budget. -/
theorem Attempted.len_le_budget (h : Attempted retry depth a w len) (hrows : VerbatimRows a.mem a.channels)
    (hready : FrameReady a) (hdepth : ((List.range a.channels).map depth).sum ≤ depthBudget a.channels) :
    len ≤ budget a.regs.cfg := by
  have hlen := h.verbatim hrows
  have hsamples : a.blockLen * ((List.range a.channels).map depth).sum ≤ a.regs.cfg.blocksize.toNat * depthBudget a.channels :=
    Nat.mul_le_mul hready.block hdepth
  have hbudget : budget a.regs.cfg
      = 18 + (8 * a.channels + a.regs.cfg.blocksize.toNat * depthBudget a.channels + 7) / 8 := rfl
  omega

theorem Ready.retry_completes (h : Ready a.channels depth a) (hroom : Roomy a) (hfsm : a.regs.fsm = .overflowRetry)
    (hdepth : ((List.range a.channels).map depth).sum ≤ depthBudget a.channels) : FrameEnds a (retryIfOverflow a) := by
  obtain ⟨hready, hchannels, -⟩ := h.runs_subVerbatims a.channels.le_refl
  have hrows := h.verbatimRows a.channels.le_refl
  have hstep := (memOnly_forChannels memOnly_subVerbatimEffect a.channels a).frameStep
  rw [retryIfOverflow, if_pos hfsm]
  generalize forChannels a.channels subVerbatimEffect a = b at hready hchannels hrows hstep ⊢
  rw [← hchannels] at hready hrows hdepth
  obtain ⟨w, len, hattempt, hend⟩ := hready.attempted true
  have hroom := hroom.step hstep
  have hmax : w.regs.maxFramesize = b.regs.maxFramesize := hend.step.kept Regs.maxFramesize fun _ _ => rfl
  have hfit : len ≤ w.regs.maxFramesize.toNat := by
    rw [hmax, hroom.budget]
    exact hend.len_le_budget hrows hready.toFrameReady hdepth
  rw [hattempt, hend.footerEnd_done hroom hfit]
  exact Completed.of_step hstep (hend.completed hfit)

/-- The first attempt completes, or leaves the frame to the retry. -/
theorem Ready.attempts_complete (h : Ready a.channels depth a) (hroom : Roomy a)
    (hdepth : ((List.range a.channels).map depth).sum ≤ depthBudget a.channels) :
    FrameEnds a ((frameAttempt false a).bind retryIfOverflow) := by
  obtain ⟨w, len, hattempt, hend⟩ := h.attempted false
  rw [hattempt]
  by_cases hfit : len ≤ w.regs.maxFramesize.toNat
  · rw [hend.footerEnd_done hroom hfit]
    exact hend.completed hfit
  · have hover : footerEnd w len = .ok (w.setFsm .overflowRetry) := by
      rw [footerEnd, if_neg fun hfits => hfit hfits.1, if_neg (by rw [hend.retried]; decide)]
    obtain ⟨hready, hsame⟩ := h.overflow (hattempt.trans hover) rfl
    have hstep : FrameStep a (w.setFsm .overflowRetry) := hend.step.count _ _
    rw [hover]
    exact (hready.retry_completes (hroom.step hstep) rfl (by rwa [hsame])).of_step hstep

end

/-! ## `ENCODE_FRAME` -/

theorem FrameReady.encodeSteps_ends {s : State} (h : FrameReady s) (hfsm : s.regs.fsm = .idle) (hroom : Roomy s) :
    FrameEnds s (encodeSteps s) := by
  obtain ⟨-, depth, -, hready, hdepth⟩ := h.run_samples hfsm
  have hprep := (frameRun_prepareSamples s).toFrameStep
  rw [encodeSteps_eq, subEncodeAll_eq]
  rw [← hprep.channels] at hdepth
  rw [effect_bind_assoc]
  refine FrameEnds.of_step hprep (FrameEnds.bind (fun e u herror => hready.encodeFirst_error le_rfl herror) fun t ht => ?_)
  obtain ⟨hencoded, hmem⟩ := hready.encodeFirst_ok le_rfl ht
  rw [← hmem.channels] at hencoded hdepth
  exact (hencoded.attempts_complete (hroom.step (hprep.trans hmem.frameStep)) hdepth).of_step hmem.frameStep

/-- What `ENCODE_FRAME` leaves of the registers when it completes. -/
theorem Completed.done {s a : State} (h : Completed s a) (hbudget : s.regs.maxFramesize.toNat < 2 ^ 24) :
    a.regs.fsm = .done ∧ a.regs.frameOk = true ∧ 1 ≤ a.regs.outLen.toNat
      ∧ a.regs.outLen.toNat ≤ s.regs.maxFramesize.toNat ∧ a.regs.bitpos.toNat = 8 * a.regs.outLen.toNat
      ∧ a.regs.frameCount = s.regs.frameCount + 1 := by
  obtain ⟨w, len, hw, rfl, hfit, hpos, hnonempty⟩ := h
  have hmax : w.regs.maxFramesize = s.regs.maxFramesize := hw.kept Regs.maxFramesize fun _ _ => rfl
  have hcount : w.regs.frameCount = s.regs.frameCount := hw.kept Regs.frameCount fun _ _ => rfl
  rw [hmax] at hfit
  have hlen : (frameDone w len).regs.outLen.toNat = len := Nat.mod_eq_of_lt (show len < 2 ^ 32 by omega)
  rw [hlen]
  exact ⟨rfl, rfl, hnonempty, hfit, hpos, congrArg (· + 1) hcount⟩

theorem finish_next (eff : Effect) : ∃ t, finish eff = .next t := by
  cases eff with
  | ok t => exact ⟨_, rfl⟩
  | error p => exact ⟨_, rfl⟩

/-- Settles O51: the first attempt overflows into the retry at worst, and the retry's VERBATIM subframes keep to the budget. -/
theorem encode_frame_fits : Obligations.encode_frame_fits := by
  intro s hinv hs hcap
  have hready := frameReady_idle hinv hs
  obtain ⟨-, hbudget, -⟩ := hinv.locked hready.configured
  have hends := hready.encodeSteps_ends rfl ⟨hbudget, hcap⟩
  obtain ⟨t, hexec⟩ := finish_next (encodeFrameEffect s)
  have hexec := (exec_encodeFrame hs).trans hexec
  refine ⟨t, hexec, ?_⟩
  rcases encodeFrame_ends hinv hs hexec with ⟨a, hsteps, hregs⟩ | ⟨e, a, he, hsteps, hregs⟩
  · rw [hsteps] at hends
    obtain ⟨hops, hn, hout, hcfg, -⟩ := inputsKept_of_done hsteps
    have hdone := Completed.done hends s.regs.maxFramesize.isLt
    rw [hregs]
    exact ⟨hops, hn, hout, hcfg, fun _ => rfl, fun _ => hdone, fun herr => absurd rfl herr⟩
  · rw [hsteps] at hends
    obtain ⟨rfl, htype⟩ := hends
    have hstep := frameStep_of_failed hsteps
    obtain ⟨hops, hn, hout, hcfg, -⟩ := hstep.inputsKept
    have hcount : a.regs.frameCount = s.regs.frameCount := hstep.kept Regs.frameCount fun _ _ => rfl
    rw [encodeFailed_regs] at hregs
    rw [hregs]
    exact ⟨hops, hn, hout, hcfg, fun hfixed => absurd hfixed htype, fun herr => ErrCode.noConfusion herr,
      fun _ => ⟨rfl, rfl, rfl, rfl, rfl, hcount⟩⟩

end Sys2Proof.Proofs
end

section
/-!
The sample-rate code (`30_encoding.md` R105).
-/
namespace Sys2Proof.Proofs
open Sys2Proof.Machine

theorem srCodeOf_of_mem {rate code : Nat} (h : (rate, code) ∈ sampleRateTable) :
    srCodeOf rate = some (BitVec.ofNat 20 code) := by
  have hall : ∀ p ∈ sampleRateTable, srCodeOf p.1 = some (BitVec.ofNat 20 p.2) := by decide
  exact hall _ h

/-- A rate that is not in the table: the escape in kHz, in Hz or in tens of Hz, whichever fits first. -/
theorem srCodeOf_of_not_mem {rate : Nat} (h : ∀ code, (rate, code) ∉ sampleRateTable) : srCodeOf rate =
    if rate = 0 then none
    else if rate % 1000 = 0 ∧ rate / 1000 ≤ 255 then some (BitVec.ofNat 20 (rate / 1000 * 16 + 12))
    else if rate ≤ 65535 then some (BitVec.ofNat 20 (rate * 16 + 13))
    else if rate % 10 = 0 ∧ rate / 10 ≤ 65535 then some (BitVec.ofNat 20 (rate / 10 * 16 + 14))
    else none := by
  rw [srCodeOf, lookup_eq_none_of_not_mem h]
  rfl

/-- A reader of the code of a table rate recovers it. -/
theorem rateOf_of_mem {rate code : Nat} (h : (rate, code) ∈ sampleRateTable) :
    rateOf (BitVec.ofNat 20 code) = some rate := by
  have hall : ∀ p ∈ sampleRateTable, rateOf (BitVec.ofNat 20 p.2) = some p.1 := by decide
  exact hall _ h

/-- A reader of an escape code takes the escape value in the unit of the code: 1000, 1 or 10 Hz. -/
theorem rateOf_escape {escape code unit : Nat} (hescape : escape < 2 ^ 16)
    (hcode : (code, unit) ∈ [(12, 1000), (13, 1), (14, 10)]) :
    rateOf (BitVec.ofNat 20 (escape * 16 + code)) = some (escape * unit) := by
  simp only [List.mem_cons, Prod.mk.injEq, List.not_mem_nil, or_false] at hcode
  have hval : (BitVec.ofNat 20 (escape * 16 + code)).toNat = escape * 16 + code := by
    rw [BitVec.toNat_ofNat, Nat.mod_eq_of_lt (by omega)]
  have hlow : (escape * 16 + code) % 16 = code := by omega
  have hhigh : (escape * 16 + code) / 16 = escape := by omega
  rw [rateOf, hval, hlow, hhigh]
  obtain ⟨rfl, rfl⟩ | ⟨rfl, rfl⟩ | ⟨rfl, rfl⟩ := hcode
  · rfl
  · exact congrArg some (Nat.mul_one escape).symm
  · rfl

/-- A reader of a sample-rate code recovers the rate. -/
theorem rateOf_srCodeOf {rate : Nat} {v : BitVec 20} (h : srCodeOf rate = some v) : rateOf v = some rate := by
  by_cases htable : ∃ code, (rate, code) ∈ sampleRateTable
  · obtain ⟨code, hmem⟩ := htable
    rw [srCodeOf_of_mem hmem, Option.some_inj] at h
    exact h ▸ rateOf_of_mem hmem
  rw [srCodeOf_of_not_mem (not_exists.1 htable)] at h
  split at h
  next => exact nomatch h
  split at h
  next hkHz =>
    rw [← Option.some_inj.1 h, rateOf_escape (unit := 1000) (by omega) (by decide),
      Nat.div_mul_cancel (Nat.dvd_of_mod_eq_zero hkHz.1)]
  split at h
  next hHz => rw [← Option.some_inj.1 h, rateOf_escape (unit := 1) (by omega) (by decide), Nat.mul_one]
  split at h
  next htens =>
    rw [← Option.some_inj.1 h, rateOf_escape (unit := 10) (by omega) (by decide),
      Nat.div_mul_cancel (Nat.dvd_of_mod_eq_zero htens.1)]
  next => exact nomatch h

/-- Settles O14: the table and the escapes in order, and the reader of either (`rateOf_srCodeOf`). -/
theorem sample_rate_code : Obligations.sample_rate_code := fun _ =>
  ⟨fun _ => srCodeOf_of_mem, srCodeOf_of_not_mem, fun _ => rateOf_srCodeOf⟩

end Sys2Proof.Proofs
end

section
/-!
The commands of the encoder context (`46_context_commands.md`): `NOP` and `CFG_INIT`.
-/
namespace Sys2Proof.Proofs
open Sys2Proof.Machine

theorem exec_nop (s : State) : exec .nop s = succeed s := rfl

theorem exec_cfgInit (s : State) : exec .cfgInit s = finish (cfgInitEffect s) := rfl

/-- Settles O12: `NOP` has no effect, and every command that completes writes STATUS.ERR. -/
theorem nop_clears_err : Obligations.nop_clears_err := fun s => (exec_nop s).trans (succeed_eq s)

/-- A configuration that `Validate ()` rejects leaves the stream cleared and nothing locked (R303). -/
theorem cfgInitEffect_of_configError {s : State} {e : ErrCode} (h : configError s.regs.cfg = some e) :
    cfgInitEffect s = .error (e,
      { clearStream s with regs := { (clearStream s).regs with cfgOk := false, maxFramesize := 0, srCode := 0 } }) := by
  rw [cfgInitEffect, validate_eq_configError, h]

/-- A configuration that `Validate ()` accepts is locked, with its budget (R305) and its rate code (R306). -/
theorem cfgInitEffect_of_valid {s : State} {code : BitVec 20} (h : configError s.regs.cfg = none)
    (hcode : srCodeOf s.regs.cfg.sampleRate.toNat = some code) :
    cfgInitEffect s = .ok { clearStream s with regs := { (clearStream s).regs with
      maxFramesize := BitVec.ofNat 24 (budget s.regs.cfg), srCode := code, cfgOk := true } } := by
  rw [cfgInitEffect, validate_eq_configError, h, hcode]
  rfl

/-- Settles O13: `Validate ()` is the list of R304, and what it accepts has a rate code, which is check 2 of that list. -/
theorem cfg_init_locks_or_rejects : Obligations.cfg_init_locks_or_rejects := by
  intro s
  cases hvalid : configError s.regs.cfg with
  | none =>
    obtain ⟨-, -, hrate⟩ := configError_none hvalid
    obtain ⟨code, hcode⟩ := Option.ne_none_iff_exists'.1 hrate
    refine ⟨code, hcode, ?_⟩
    rw [exec_cfgInit, cfgInitEffect_of_valid hvalid hcode]
    rfl
  | some e =>
    rw [exec_cfgInit, cfgInitEffect_of_configError hvalid]
    rfl

end Sys2Proof.Proofs
end

section
/-!
Every step answers a next state (`60_exceptions.md` R320, `70_reset_and_hazards.md` R357).
-/
namespace Sys2Proof.Proofs
open Sys2Proof.Machine

/-- A command ends, in completion or with an error. -/
theorem exec_next (i : Instr) (s : State) : ∃ t, exec i s = .next t := by
  obtain ⟨t, -, -, ⟨-, hok⟩ | ⟨e, -, hfail⟩⟩ := exec_answers i s
  · exact ⟨_, hok⟩
  · exact ⟨_, hfail⟩

theorem runWord_next (w : Word32) (s : State) : ∃ t, runWord w s = .next t := by
  unfold runWord
  split
  next i _ => exact exec_next i s
  next => exact ⟨_, illegalCommand_eq s⟩

theorem runAccess_next (a : HostAction) (s : State) : ∃ t, runAccess a s = .next t := by
  unfold runAccess
  split
  next w _ => exact runWord_next w s
  next => exact ⟨_, rfl⟩

/-- Settles O57: a step idles or is an access of the host, and an access is a command, a word that is no command, or a port
access. -/
theorem step_never_traps : Obligations.step_never_traps := by
  intro s
  cases hhost : s.host with
  | nil =>
    obtain ⟨hidle, -⟩ := step_other_accesses s []
    exact ⟨s, hidle hhost⟩
  | cons a rest =>
    rw [step_cons hhost]
    exact runAccess_next a _

end Sys2Proof.Proofs
end

section
/-!
What a command that fails leaves (`60_exceptions.md` R320, R324): derived from `Aborts`.
-/
namespace Sys2Proof.Proofs
open Sys2Proof.Machine

section
variable {i : Instr} {s t : State}

/-- A command that fails writes no result. -/
theorem ops_of_aborts (ha : Aborts i s t) : t.regs.ops = s.regs.ops := by
  cases ha with
  | unchanged regs => rw [regs]
  | rejected _ regs => rw [regs]; rfl
  | overflow u _ hw regs => rw [regs]; exact hw.kept Regs.ops fun _ _ => rfl
  | failed u _ _ hu regs => rw [regs, encodeFailed_regs]; exact hu.kept Regs.ops fun _ _ => rfl

/-- Of the commands that fail, `CFG_INIT` alone returns FRAME_COUNT to 0 (`46_context_commands.md` R303). -/
theorem frameCount_of_aborts (ha : Aborts i s t) (hi : i ≠ .cfgInit) : t.regs.frameCount = s.regs.frameCount := by
  cases ha with
  | unchanged regs => rw [regs]
  | rejected hinit _ => exact absurd hinit hi
  | overflow u _ hw regs => rw [regs]; exact hw.frameCount
  | failed u _ _ hu regs => rw [regs, encodeFailed_regs]; exact hu.frameCount

/-- A command whose STATUS.ERR is not 0 has failed. -/
theorem aborts_of_error (h : exec i s = .next t) (herr : t.regs.err ≠ .noError) :
    ∃ u e, Aborts i s u ∧ t.regs = { u.regs with err := e, errSticky := true } := by
  obtain ⟨-, -, ⟨u, -, regs⟩ | hfailed⟩ := exec_cases h
  · exact absurd (congrArg Regs.err regs) herr
  · exact hfailed

end

/-- Settles O54: a failing command is one that aborts, and the rest is what each way of aborting leaves. -/
theorem failing_commands_leave_inputs : Obligations.failing_commands_leave_inputs := by
  intro i s t h herr
  obtain ⟨u, e, ha, regs⟩ := aborts_of_error h herr
  have hkept := keepsInputs_of_aborts ha
  rw [regs]
  exact ⟨rfl, ops_of_aborts ha, hkept.n, hkept.outCap, hkept.cfg, frameCount_of_aborts ha⟩

end Sys2Proof.Proofs
end

section
/-!
Errors found before a command does anything (`60_exceptions.md` R323, R324(a)): the checks of every command, taken in their
order, are the classes 3 to 8 of R323.
-/
namespace Sys2Proof.Proofs
open Sys2Proof.Machine

/-! ## Checks, class by class -/

/-- What a list of checks reports. The rules below take a list apart by the classes of R323 in their order: 3 (CFG_OK), 4 (the
other state preconditions), 5 (fields), 6 (N), 7 (OUT_CAP) and 8 (operands). -/
def Reports (checks : List (Bool × ErrCode)) (out : Option ErrCode) : Prop := firstError checks = out

section
variable {a b ok ready : Bool} {e : ErrCode} {rest : List (Bool × ErrCode)} {out : Option ErrCode}

theorem Reports.nil : Reports [] none := rfl

/-- A class that the command does not check. -/
theorem Reports.unchecked (h : Reports rest out) : Reports rest (if !true then some e else out) := h

/-- A class of one check, whose condition the rule writes as `ready`. -/
theorem Reports.checked_eq (hready : ok = ready) (h : Reports rest out) :
    Reports ((ok, e) :: rest) (if !ready then some e else out) :=
  firstError_eq_ite (by rw [hready, Bool.not_eq_true', Bool.not_eq_true]) h

/-- A class of one check. -/
theorem Reports.checked (h : Reports rest out) : Reports ((ok, e) :: rest) (if !ok then some e else out) :=
  .checked_eq rfl h

/-- Two checks of one class are one check. -/
theorem Reports.both (h : Reports ((a && b, e) :: rest) out) : Reports ((a, e) :: (b, e) :: rest) out := by
  cases a with
  | false => exact h
  | true => exact h

end

/-- An answer of command `i` in state `s` that is the early error and nothing else, where there is one. -/
def Refuses (i : Instr) (s : State) (out : Result) : Prop := ∀ e, earlyError i s = some e → out = fail e s

section
variable {i : Instr} {s : State}

theorem refuses_of_ready (h : earlyError i s = none) (out : Result) : Refuses i s out :=
  fun _ he => nomatch h.symm.trans he

theorem refuses_command {checks : List (Bool × ErrCode)} {effect : State → Result}
    (h : Reports checks (earlyError i s)) : Refuses i s (command s checks effect) := by
  intro e he
  have hfirst : firstError checks = some e := h.trans he
  rw [command, hfirst]

end

/-! ## Checks in the words of the rules -/

section
variable (s : State)

theorem noFrameCheck_eq : (noFrameCheck s).1 = !inFrame s := by rw [noFrameCheck, inFrame_eq]

/-- The range of `CRC8` and `CRC16`, `40_bit_writer.md` R149. -/
theorem rangeCheck_eq : (decide (0 ≤ s.a0) && decide (s.a0 ≤ s.a1)
    && decide (s.a1 ≤ (min (s.regs.bitpos.toNat / 8) s.regs.bwCap.toNat : Nat))) = operandsReady .crc8 s := by
  rw [Bool.eq_iff_iff, operandsReady_crc8, RangeWritten]
  simp only [Bool.and_eq_true, decide_eq_true_eq]
  omega

/-- The bounds of `ORDER_EST`, `42_linear_predictor.md` R199: what lies between two bounds is in their range. -/
theorem orderBounds_eq (lo hi : Nat) : ((within 1 lo 32 && within 1 hi 32) && decide (lo ≤ hi))
    = (decide (1 ≤ lo) && decide (lo ≤ hi) && decide (hi ≤ 32)) := by
  rw [Bool.eq_iff_iff]
  simp only [Bool.and_eq_true, within_eq_true, decide_eq_true_eq]
  omega

/-! ## Checks that several commands share -/

/-- The writing commands, `40_bit_writer.md` R154. -/
theorem Reports.writing {own : List (Bool × ErrCode)} {out : Option ErrCode} (h : Reports own out) :
    Reports (writingChecks s ++ own)
      (if !s.regs.cfgOk then some .seq else if !(s.regs.bwOk && !inFrame s) then some .seq else out) :=
  .checked <| .both <| .checked_eq (congrArg _ (noFrameCheck_eq s)) h

theorem reports_crcChecks : Reports (crcChecks s) (earlyError .crc8 s) :=
  .checked <| .checked <| .unchecked <| .unchecked <| .unchecked <| .checked_eq (rangeCheck_eq s) .nil

theorem reports_partitionChecks (ch order pmin pmax : Nat) :
    Reports (partitionChecks s ch order pmin pmax) (earlyError (.partSums ch order pmin pmax) s) :=
  .checked <| .unchecked <| .both <| .both <| .both <| .both <| .checked <| .checked <| .unchecked <| .checked .nil

theorem reports_subChecks (ch : Nat) : Reports (subChecks s ch) (earlyError (.subEncode ch) s) :=
  .checked <| .unchecked <| .checked <| .checked <| .unchecked <| .checked .nil

theorem reports_stereoChecks : Reports (stereoChecks s) (earlyError .deinterleave s) :=
  .checked <| .checked_eq (noHeaderCheck_eq s) <| .unchecked <| .checked <| .unchecked <| .unchecked .nil

end

/-! ## The commands -/

/-- Each command reports its early error and changes nothing else: the checks of a row, class by class. -/
theorem exec_refuses (i : Instr) (s : State) : Refuses i s (exec i s) := by
  unfold exec
  cases i with
  | nop | reset | cfgInit => exact refuses_of_ready rfl _
  | wrStreaminfo | bwInit =>
    exact refuses_command <| .checked <| .checked_eq (noFrameCheck_eq s) <| .unchecked <| .unchecked <| .checked <|
      .unchecked .nil
  | bwPutu bits =>
    exact refuses_command <| .writing s <| .checked <| .unchecked <| .unchecked <| .checked .nil
  | bwPuts bits =>
    exact refuses_command <| .writing s <| .checked <| .unchecked <| .unchecked <| .unchecked .nil
  | bwFlush =>
    exact refuses_command <| .writing s <| .unchecked <| .unchecked <| .unchecked <| .unchecked .nil
  | bwUtf8 =>
    exact refuses_command <| .writing s <| .unchecked <| .unchecked <| .unchecked <| .checked .nil
  | bwRice k =>
    exact refuses_command <| .writing s <| .checked <| .unchecked <| .unchecked <| .both <|
      .checked_eq (congrArg (· && _) (fitsSigned_eq 32 s.a0)) .nil
  | crc8 | crc16 => exact refuses_command (reports_crcChecks s)
  | zigzag =>
    exact refuses_command <| .checked <| .unchecked <| .unchecked <| .unchecked <| .unchecked <|
      .checked_eq (fitsSigned_eq 32 s.a0) .nil
  | riceCount k =>
    exact refuses_command <| .checked <| .unchecked <| .checked <| .unchecked <| .unchecked <| .both <| .checked .nil
  | findParam =>
    exact refuses_command <| .checked <| .unchecked <| .unchecked <| .unchecked <| .unchecked <| .both <| .checked .nil
  | maxPorder _ _ | fixedRes _ _ =>
    exact refuses_command <| .checked <| .unchecked <| .both <| .checked <| .checked <| .unchecked <| .checked .nil
  | partSums ch order pmin pmax | calcRice ch order pmin pmax =>
    exact refuses_command (reports_partitionChecks s ch order pmin pmax)
  | welch _ | autocorr _ =>
    exact refuses_command <| .checked <| .unchecked <| .checked <| .checked <| .unchecked <| .unchecked .nil
  | levinson maxorder =>
    exact refuses_command <| .checked <| .unchecked <| .checked <| .unchecked <| .unchecked <| .unchecked .nil
  | lsqFit ch maxorder =>
    exact refuses_command <| .checked <| .unchecked <| .both <| .checked_eq (Bool.and_assoc ..).symm <| .checked <|
      .unchecked <| .unchecked .nil
  | quant order precision =>
    exact refuses_command <| .checked <| .unchecked <| .both <| .checked_eq (Bool.and_assoc ..).symm <| .unchecked <|
      .unchecked <| .unchecked .nil
  | lpcRes ch order =>
    exact refuses_command <| .checked <| .unchecked <| .both <| .checked_eq (Bool.and_assoc ..).symm <| .checked <|
      .unchecked <| .checked .nil
  | orderEst lo hi =>
    exact refuses_command <| .checked <| .unchecked <| .both <| .both <| .checked_eq (orderBounds_eq lo hi) <|
      .unchecked <| .unchecked <| .unchecked .nil
  | subEncode ch | subVerbatim ch => exact refuses_command (reports_subChecks s ch)
  | deinterleave | stEstimate => exact refuses_command (reports_stereoChecks s)
  | stApply mode =>
    exact refuses_command <| .checked <| .checked_eq (noHeaderCheck_eq s) <| .both <|
      .checked_eq (congrArg _ (modeCheck_eq s mode)) <| .checked <| .unchecked <|
      .checked_eq (congrArg _ (stApplyMemory_eq s)) .nil
  | frameInit retry =>
    exact refuses_command <| .checked <| .checked_eq (retryCheck_eq s retry) <| .checked <| .checked <| .checked <|
      .unchecked .nil
  | bwPos | wrHeader | wrFooter =>
    exact refuses_command <| .checked <| .checked <| .unchecked <| .unchecked <| .unchecked <| .unchecked .nil
  | wrSubframe ch =>
    exact refuses_command <| .checked <| .both <| .both <| .checked <| .checked <| .unchecked <| .unchecked <|
      .checked_eq (recordOk_eq s ch) .nil
  | encodeFrame =>
    exact refuses_command <| .checked <| .unchecked <| .unchecked <| .checked <| .checked <| .unchecked .nil

/-- Settles O53: the checks of every command are the classes in their order, and one that does not hold changes nothing. -/
theorem early_errors_change_nothing : Obligations.early_errors_change_nothing := exec_refuses

end Sys2Proof.Proofs
end
